-- ==== Sys2Proof/Word.lean ====
section
/-! DEFINITION. The word types of the machine (R5, R6, R136, R145). -/

namespace Sys2Proof

/-- A 64-bit register, address or memory word. -/
abbrev Word := BitVec 64

/-- One byte of memory; the smallest addressable unit (R6). -/
abbrev Byte := BitVec 8

/-- One scalar instruction word (R136). -/
abbrev Word32 := BitVec 32

/-- One stream command word (R145). -/
abbrev CmdWord := BitVec 128

/-- The number of a g register in a register field (R138, R159). -/
abbrev Reg := BitVec 5

/-- The number of a predicate (R138, R160). -/
abbrev PReg := BitVec 3

end Sys2Proof
end

