-- ==== Sys2Proof/Config.lean ====
section
/-! DEFINITION. What is fixed for one machine, and the free values: constants without a body, of which nothing can be proved. -/

namespace Sys2Proof

/-- Dies of the package (R442: IDENT.DIES reads 16). -/
def Config.dies : Nat := 16

/-- Cores of a die (00_scope, machine in figures). -/
def Config.coresPerDie : Nat := 128

/-- Cores of a quad, which share one bank switch. -/
def Config.coresPerQuad : Nat := 4

/-- Cells of a core (00_scope). -/
def Config.cellsPerCore : Nat := 64

/-- Banks of one quad's bank switch (R337). -/
def Config.banksPerQuad : Nat := 32

/-- Memory ports of a die (R347). -/
def Config.portsPerDie : Nat := 16

/-- Copy engines of a die (R98). -/
def Config.enginesPerDie : Nat := 8

/-- Posted requests that a core may hold unacknowledged (R195). -/
def Config.maxPosted : Nat := 32

/-- Commands that a fabric port queues (R229). -/
def Config.portQueue : Nat := 8

/-- Entries of a die's wait table (R105). -/
def Config.waitTable : Nat := 256

/-- Packets of the FIFO at a border of a clock region, which is the input buffer of a ring at a router (R403, R405; DEDUCED, log 93). -/
def Config.fifoPackets : Nat := 8

/-- Input buffers of a router: two directions of each ring, of the die and between the dies (R402; DESIGN CHOICE, log 93). -/
def Config.inputBuffers : Nat := 8

/-- Entries of a memory port's spill queue (R357). -/
def Config.spillQueue : Nat := 32

/-- Combined entries of a memory port (R353). -/
def Config.tlbEntries : Nat := 2048

/-- Entries of a die's layout cache (R115). -/
def Config.layoutCache : Nat := 64

/-- Bindings of one context at one home die (R208). -/
def Config.maxBindings : Nat := 256

/-- Entries of a context's parking queue (R422). -/
def Config.parkingQueue : Nat := 4096

/-- Combining-buffer entries of one UALink port (R409). -/
def Config.combineEntries : Nat := 256

/-- UALink ports of a package (00_scope, R445). -/
def Config.ualinkPorts : Nat := 32

/-- DRAM bytes of a die, region 0b00 (R342). -/
def Config.dramBytes : Nat := 128 * 2 ^ 30

/-- Comb-die bytes of a die, recall store included (R342). -/
def Config.combBytes : Nat := 512 * 2 ^ 20

/-- FREE VALUE (log 2). A bit where the manual names two outcomes and gives no choice between them (R208, R378). -/
opaque Config.freeBit : Nat → Bool

/-- FREE VALUE (log 76). The two 256-bit keys that the management controller draws from its random source for a key slot, by the
count of slots drawn (R345). -/
opaque Config.drawKey : Nat → BitVec 512

/-- FREE VALUE (log 78). The 64-bit sum that a RED holds after an addition whose exact result is past 64 bits (R86). -/
opaque Config.sumPast : Int → BitVec 64

/-- FREE VALUE (log 79). The scale bytes of blocks of a block-family token that nothing was read for, and the geometry of a token that nothing
was read for at all, by the count of draws (R74, R312). -/
opaque Config.freeScales : Nat → BitVec 1016
opaque Config.freeGeometry : Nat → Fin 3

/-- FREE VALUE (log 9). The walk level that a stage-1 record carries where the fault is raised before any walk (R158, R413). -/
opaque Config.noWalkLevel : BitVec 32

/-- FREE VALUE (log 10). What the layout engine chooses among the free cells it may take, by the count of choices made (R114, R122). -/
opaque Config.choose : Nat → Nat

/-- FREE VALUE (log 11). The length of a save record, reduced to its bound, and the bytes behind its header, whose layout only the Benier knows (R421,
R422), by the count of captures. -/
opaque Config.saveLength : Nat → Nat
opaque Config.saveBody : Nat → Nat → Byte

/-- FREE VALUE (log 8). How far the CYCLE register of a die differs from the package's count (R168: at most 16). -/
opaque Config.dieSkew : Nat → Fin 17

/-- FREE VALUE (log 92). The data bytes that a bank's drain, the write-back of a give or an exchange swap sends through the network, reduced to a
bank's 64 KiB, by the count of draws (R408). -/
opaque Config.drainBytes : Nat → Nat

/-- FREE VALUE (log 3). The silicon stepping of IDENT (R442). -/
opaque Config.stepping : BitVec 8

/-- FREE VALUE (log 3). The bytes of the identity certificate chain (R441, R447). -/
opaque Config.cert : Nat → Byte

/-- FREE VALUE (log 3). The device's ECDSA P-384 signature over a digest, by byte (R447). -/
opaque Config.sign : BitVec 384 → Nat → Byte

end Sys2Proof
end

