-- ==== Sys2Proof/Fields.lean ====
section
/-! DEFINITION. The kinds of field that instructions, commands and events carry: guards, orderings, scopes, conditions, command
words, and what outside parties hand over. -/

namespace Sys2Proof

/-- The guard of a scalar word (R23, R137): execute if the predicate holds, or, negated, if it does not. -/
structure Guard where
  neg : Bool
  p   : PReg
deriving DecidableEq, Repr, Inhabited

/-- The guard 0b0111: execute always (R137). -/
def Guard.always : Guard := ⟨false, 7⟩

/-- Orderings (R140). -/
inductive Ord where
  | rlx | acq | rel | acqrel | sc
deriving DecidableEq, Repr, Inhabited

/-- Scopes (R3, R140). -/
inductive Scope where
  | lane | core | quad | die | pkg | pod
deriving DecidableEq, Repr, Inhabited

/-- Conditions of CMP and CMPI (R139, R25). -/
inductive Cond where
  | eq | ne | lt | le | gt | ge | ltu | leu | gtu | geu
deriving DecidableEq, Repr, Inhabited

/-- Atomic operations (R203). -/
inductive AmoOp where
  | add | and | or | xor | min | max | minu | maxu | swap
deriving DecidableEq, Repr, Inhabited

/-- Access sizes of LDGX and STGX (R198): 1, 2, 4 or 8 bytes. -/
inductive Size where
  | b1 | b2 | b4 | b8
deriving DecidableEq, Repr, Inhabited

/-- The fields of a stream command beside its code (R145). -/
structure StreamCmd where
  port  : BitVec 4
  cls   : BitVec 4
  flags : BitVec 8
  tag   : BitVec 8
  addr  : BitVec 56
  count : BitVec 24
  index : BitVec 16
deriving DecidableEq, Repr, Inhabited

/-- A placed cell: the group it works for and its place in that group's list of placed cells. -/
structure CellRef where
  group : Nat
  inst  : Nat
deriving DecidableEq, Repr, Inhabited

/-- Where the layout engine puts one node (R112, R113): rank in the placement, cell of that core, setting-store entry. -/
structure Place where
  rank  : Nat
  cell  : Nat
  entry : Nat
deriving DecidableEq, Repr, Inhabited

/-- The three words of a translation descriptor (R348). -/
structure TrDesc where
  s1root : BitVec 32
  s2base : BitVec 43
  s2len  : BitVec 27
deriving DecidableEq, Repr, Inhabited

/-- What the management controller sets when it creates a tenant (R60, R94, R101, R120, R132, R362, R407, R415, R418, R440), with the
defaults of R120 (128, 8, 64, 1), R132 (8 graphs) R362 (256 recall slots) and R418 (65,536 cycles). -/
structure TenantCfg where
  tenant      : Nat
  weight      : Nat
  flagRaces   : Bool
  cloneThr    : Nat := 128
  foldThr     : Nat := 8
  budget      : Nat := 64
  relayout    : Bool := true
  recallAlloc : Nat := 256
  graphLimit  : Nat := 8
  freezeLimit : Nat := 65536
  bucketRate  : Nat
  bucketDepth : Nat
  hostCtx     : Nat
  faultHdr    : Word
  faultBase   : Word
  faultSlots  : Nat
  faultFuture : Word
  admission   : Option Word
deriving DecidableEq, Repr, Inhabited

/-- What the management controller sets when it creates a context (R132, R348, R421). -/
structure ContextCfg where
  ctx      : Nat
  tenant   : Nat
  descs    : List TrDesc
  region   : Word
  saveArea : Word
  saveLen  : Nat
deriving DecidableEq, Repr, Inhabited

/-- What the management controller sets when it creates an intake queue (R88). -/
structure IntakeCfg where
  tenant : Nat
  queue  : Nat
  ctx    : Nat
  header : Word
  base   : Word
  slots  : Nat
  size   : Nat
  future : Word
deriving DecidableEq, Repr, Inhabited

/-- A launch packet of a rack scheduler (R109). -/
structure LaunchPkt where
  tenant : Nat
  queue  : Nat
  length : Nat
  reply  : Word
  tag    : Word
  record : List Byte
deriving DecidableEq, Repr, Inhabited

/-- What start-up finds and is told (R2, R342, R442, R445, R447, R449). -/
structure StartCfg where
  pkg       : BitVec 10
  withheld  : List Nat
  recallMiB : List Nat
  stages    : List (Nat × List Byte)
  passed    : Bool
deriving DecidableEq, Repr, Inhabited

end Sys2Proof
end

