-- ==== Sys2Proof/Syntax.lean ====
section
/-! DEFINITION. The steps of the machine: one constructor for each row of the opcode table. Scalar instructions carry their
guard first (R136); stream commands carry their word's fields (R145); the other rows are events, which carry what names the
agent or the piece of pending work they act on. -/

namespace Sys2Proof

/-- The instructions, commands and events of the opcode table, in its order. -/
inductive Instr where
  /-- ADD gd, ga, gb (R169). -/
  | add (g : Guard) (d a b : Reg)
  /-- SUB gd, ga, gb (R169). -/
  | sub (g : Guard) (d a b : Reg)
  /-- ADDI gd, ga, imm (R171). -/
  | addi (g : Guard) (d a : Reg) (imm : BitVec 11)
  /-- MUL gd, ga, gb (R169). -/
  | mul (g : Guard) (d a b : Reg)
  /-- MULH gd, ga, gb (R169). -/
  | mulh (g : Guard) (d a b : Reg)
  /-- MULHU gd, ga, gb (R169). -/
  | mulhu (g : Guard) (d a b : Reg)
  /-- DIV gd, ga, gb (R170). -/
  | div (g : Guard) (d a b : Reg)
  /-- DIVU gd, ga, gb (R170). -/
  | divu (g : Guard) (d a b : Reg)
  /-- REM gd, ga, gb (R170). -/
  | rem (g : Guard) (d a b : Reg)
  /-- REMU gd, ga, gb (R170). -/
  | remu (g : Guard) (d a b : Reg)
  /-- AND gd, ga, gb (R169). -/
  | and (g : Guard) (d a b : Reg)
  /-- OR gd, ga, gb (R169). -/
  | or (g : Guard) (d a b : Reg)
  /-- XOR gd, ga, gb (R169). -/
  | xor (g : Guard) (d a b : Reg)
  /-- ANDI gd, ga, imm (R171). -/
  | andi (g : Guard) (d a : Reg) (imm : BitVec 11)
  /-- ORI gd, ga, imm (R171). -/
  | ori (g : Guard) (d a : Reg) (imm : BitVec 11)
  /-- XORI gd, ga, imm (R171). -/
  | xori (g : Guard) (d a : Reg) (imm : BitVec 11)
  /-- SHL gd, ga, gb (R172). -/
  | shl (g : Guard) (d a b : Reg)
  /-- SHR gd, ga, gb (R172). -/
  | shr (g : Guard) (d a b : Reg)
  /-- SRA gd, ga, gb (R172). -/
  | sra (g : Guard) (d a b : Reg)
  /-- SHLI gd, ga, n (R172). -/
  | shli (g : Guard) (d a : Reg) (n : BitVec 6)
  /-- SHRI gd, ga, n (R172). -/
  | shri (g : Guard) (d a : Reg) (n : BitVec 6)
  /-- SRAI gd, ga, n (R172). -/
  | srai (g : Guard) (d a : Reg) (n : BitVec 6)
  /-- MIN gd, ga, gb (R169). -/
  | min (g : Guard) (d a b : Reg)
  /-- MAX gd, ga, gb (R169). -/
  | max (g : Guard) (d a b : Reg)
  /-- MINU gd, ga, gb (R169). -/
  | minu (g : Guard) (d a b : Reg)
  /-- MAXU gd, ga, gb (R169). -/
  | maxu (g : Guard) (d a b : Reg)
  /-- CLZ gd, ga (R173). -/
  | clz (g : Guard) (d a : Reg)
  /-- POPC gd, ga (R173). -/
  | popc (g : Guard) (d a : Reg)
  /-- BFX gd, ga, gb (R174). -/
  | bfx (g : Guard) (d a b : Reg)
  /-- BFI gd, ga, gb (R174). -/
  | bfi (g : Guard) (d a b : Reg)
  /-- SEXT gd, ga, w: the field holds w - 1 (R173). -/
  | sext (g : Guard) (d a : Reg) (w : BitVec 6)
  /-- ZEXT gd, ga, w: the field holds w - 1 (R173). -/
  | zext (g : Guard) (d a : Reg) (w : BitVec 6)
  /-- LI gd, imm (R175). -/
  | li (g : Guard) (d : Reg) (imm : BitVec 16)
  /-- LIH gd, imm (R175). -/
  | lih (g : Guard) (d : Reg) (imm : BitVec 16)
  /-- CMP.cc pd, ga, gb (R176). -/
  | cmp (g : Guard) (c : Cond) (p : PReg) (a b : Reg)
  /-- CMPI.cc pd, ga, imm (R176). -/
  | cmpi (g : Guard) (c : Cond) (p : PReg) (a : Reg) (imm : BitVec 9)
  /-- PAND pd, [!]pa, [!]pb (R177). -/
  | pand (g : Guard) (p a b : PReg) (na nb : Bool)
  /-- POR pd, [!]pa, [!]pb (R177). -/
  | por (g : Guard) (p a b : PReg) (na nb : Bool)
  /-- PXOR pd, [!]pa, [!]pb (R177). -/
  | pxor (g : Guard) (p a b : PReg) (na nb : Bool)
  /-- PNOT pd, pa (R177). -/
  | pnot (g : Guard) (p a : PReg)
  /-- SEL gd, ga, gb, ps (R178). -/
  | sel (g : Guard) (d a b : Reg) (ps : PReg)
  /-- PMOV.get gd (R179). -/
  | pmovGet (g : Guard) (d : Reg)
  /-- PMOV.set ga (R179). -/
  | pmovSet (g : Guard) (a : Reg)
  /-- LEA gd, label (R180). -/
  | lea (g : Guard) (d : Reg) (imm : BitVec 11)
  /-- WADDR gd, ga, w (R181). -/
  | waddr (g : Guard) (d a : Reg) (w : BitVec 4)
  /-- XADDR gd, ga, gb (R182). -/
  | xaddr (g : Guard) (d a b : Reg)
  /-- GADDR gd, ga, gb (R182). -/
  | gaddr (g : Guard) (d a b : Reg)
  /-- BR label (R183). -/
  | br (g : Guard) (off : BitVec 16)
  /-- BRL ga, label (R183). -/
  | brl (g : Guard) (a : Reg) (off : BitVec 16)
  /-- JMP gd, ga (R183). -/
  | jmp (g : Guard) (d a : Reg)
  /-- CALL label (R183). -/
  | call (g : Guard) (off : BitVec 16)
  /-- RET (R183). -/
  | ret (g : Guard)
  /-- LOOP ga, label; ga is not g0 (R184). -/
  | loop (g : Guard) (a : Reg) (off : BitVec 16)
  /-- WAITE ECn, amount; the amount is not 0 (R185). -/
  | waite (g : Guard) (n : BitVec 3) (amt : BitVec 16)
  /-- NOP (R186). -/
  | nop (g : Guard)
  /-- EXIT (R187). -/
  | exit (g : Guard)
  /-- EXIT ga, n; n from 1 to 4, ga not g0 (R187). -/
  | exitSuccessors (g : Guard) (a : Reg) (n : BitVec 3)
  /-- TRAP code (R188). -/
  | trap (g : Guard) (code : BitVec 16)
  /-- LDG gd, [ga + imm] (R197). -/
  | ldg (g : Guard) (d a : Reg) (imm : BitVec 11)
  /-- STG gd, [ga + imm] (R197). -/
  | stg (g : Guard) (d a : Reg) (imm : BitVec 11)
  /-- LDGX.sz gd, [ga + gb] (R198). -/
  | ldgx (g : Guard) (d a b : Reg) (scaled sign : Bool) (z : Size)
  /-- STGX.sz gd, [ga + gb] (R198). -/
  | stgx (g : Guard) (d a b : Reg) (scaled : Bool) (z : Size)
  /-- LDS gd, [ga + imm] (R197). -/
  | lds (g : Guard) (d a : Reg) (imm : BitVec 11)
  /-- STS gd, [ga + imm] (R197). -/
  | sts (g : Guard) (d a : Reg) (imm : BitVec 11)
  /-- STX gd, [ga] (R201). -/
  | stx (g : Guard) (d a : Reg)
  /-- PREF [ga + imm] (R202). -/
  | pref (g : Guard) (a : Reg) (imm : BitVec 11)
  /-- AMO.op.ord.scope gd, [ga] (R203, R204). -/
  | amo (g : Guard) (d a : Reg) (op : AmoOp) (o : Ord) (sc : Scope)
  /-- AMOF.op.ord.scope gd, [ga] (R203, R204). -/
  | amof (g : Guard) (d a : Reg) (op : AmoOp) (o : Ord) (sc : Scope)
  /-- CAS.ord.scope gd, [ga], gb (R205). -/
  | cas (g : Guard) (d a b : Reg) (o : Ord) (sc : Scope)
  /-- ACQ.scope gd, [ga] (R209). -/
  | acq (g : Guard) (d a : Reg) (sc : Scope)
  /-- REL.scope gd, [ga] (R210). -/
  | rel (g : Guard) (d a : Reg) (sc : Scope)
  /-- BIND gd, [ga], gb (R208). -/
  | bind (g : Guard) (d a b : Reg)
  /-- UNBIND gd, [ga], gb (R208). -/
  | unbind (g : Guard) (d a b : Reg)
  /-- FENCE.ord.scope (R211). -/
  | fence (g : Guard) (o : Ord) (sc : Scope)
  /-- BAR.scope ga (R212). -/
  | bar (g : Guard) (a : Reg) (sc : Scope)
  /-- BARW.scope ga (R212). -/
  | barw (g : Guard) (a : Reg) (sc : Scope)
  /-- WAIT gd, gs, [ga]; gs is in the gb field (R213). -/
  | wait (g : Guard) (d a t : Reg)
  /-- SIGNAL [ga], gb (R214). -/
  | signal (g : Guard) (a b : Reg)
  /-- GIVE gd, w, ga, gb (R217). -/
  | give (g : Guard) (d a b : Reg) (w : BitVec 4)
  /-- OPEN gd, w, mode, acc (R215). -/
  | openw (g : Guard) (d : Reg) (rw tagged : Bool) (w : BitVec 4)
  /-- CLOSE gd, w (R216). -/
  | close (g : Guard) (d : Reg) (w : BitVec 4)
  /-- SWAPB gd, w, ga (R220). -/
  | swapb (g : Guard) (d a : Reg) (w : BitVec 4)
  /-- BSTAT gd, w (R221). -/
  | bstat (g : Guard) (d : Reg) (w : BitVec 4)
  /-- BZERO w (R222). -/
  | bzero (g : Guard) (w : BitVec 4)
  /-- TLOOK gd, w, ga (R224). -/
  | tlook (g : Guard) (d a : Reg) (w : BitVec 4)
  /-- TSET w, ga, gb (R224). -/
  | tset (g : Guard) (a b : Reg) (w : BitVec 4)
  /-- TINV w, ga (R224). -/
  | tinv (g : Guard) (a : Reg) (w : BitVec 4)
  /-- TCLR w (R224). -/
  | tclr (g : Guard) (w : BitVec 4)
  /-- DPUSH gd, ga (R225). -/
  | dpush (g : Guard) (d a : Reg)
  /-- DPOP gd, gs (R225). -/
  | dpop (g : Guard) (d t : Reg)
  /-- DSTEAL gd, gs, ga (R225). -/
  | dsteal (g : Guard) (d a t : Reg)
  /-- LAUNCH gd, [ga] (R226). -/
  | launch (g : Guard) (d a : Reg)
  /-- DEC [ga] (R227). -/
  | dec (g : Guard) (a : Reg)
  /-- ISSUE cmd, ga, gb (R228, R229). -/
  | issue (g : Guard) (cmd : BitVec 8) (a b : Reg) (wt : Bool)
  /-- ISSUEX cmd, ga, gb (R228, R229). -/
  | issuex (g : Guard) (cmd : BitVec 8) (a b : Reg) (wt : Bool)
  /-- CDRAIN ga (R230). -/
  | cdrain (g : Guard) (a : Reg)
  /-- GLV gd (R231). -/
  | glv (g : Guard) (d : Reg)
  /-- GLV.cur gd (R231). -/
  | glvCur (g : Guard) (d : Reg)
  /-- GLV.reg gd (R231). -/
  | glvReg (g : Guard) (d : Reg)
  /-- RATE gd, ga (R232). -/
  | rate (g : Guard) (d a : Reg)
  /-- RATE.win gd (R232). -/
  | rateWin (g : Guard) (d : Reg)
  /-- MFS gd, NAME (R164). -/
  | mfs (g : Guard) (d : Reg) (n : BitVec 16)
  /-- MTS NAME, gd (R164). -/
  | mts (g : Guard) (d : Reg) (n : BitVec 16)
  /-- ERET (R191). -/
  | eret (g : Guard)
  /-- TLBI.page ga (R192). -/
  | tlbiPage (g : Guard) (a : Reg)
  /-- TLBI.ctx (R192). -/
  | tlbiCtx (g : Guard)
  /-- A fetched word that fails decoding traps before its guard is tested (R141). The argument is what TRAPADDR takes: the word, or 0 for a fetch outside the code part (R142). -/
  | illegalInstructionTrap (addr : Word)
  /-- The response, or the fault, of a blocking access arrives and the core issues its next instruction (R194). -/
  | accessResponse (core : Nat)
  /-- Stream command with no effect (R267). -/
  | nopc (c : StreamCmd)
  /-- Streams tokens from memory through the bound AGN (R240). -/
  | mld (c : StreamCmd)
  /-- Stores tokens from the bound AGN to memory (R240). -/
  | mst (c : StreamCmd)
  /-- Streams tokens from a window through the bound AGN (R240). -/
  | sld (c : StreamCmd)
  /-- Stores tokens from the bound AGN to a window (R240). -/
  | sst (c : StreamCmd)
  /-- Loads the tiles of a tensor map as segments (R241). -/
  | tld (c : StreamCmd)
  /-- Stores tiles of a tensor map (R241). -/
  | tst (c : StreamCmd)
  /-- Hands a list of copy descriptors to a copy engine (R244). -/
  | cpy (c : StreamCmd)
  /-- Emits table rows selected by a segment of index tokens (R242). -/
  | gather (c : StreamCmd)
  /-- Writes rows at table positions selected by a segment of index tokens (R242). -/
  | scatter (c : StreamCmd)
  /-- Writes tokens into a window of each rank named by a mask (R247). -/
  | mcast (c : StreamCmd)
  /-- Writes the shadow weight plane of a MAT node in every instance (R249). -/
  | lstat (c : StreamCmd)
  /-- Requests the exchange of a MAT node's active and shadow planes (R250). -/
  | lswap (c : StreamCmd)
  /-- Sets or tops up a section's tile count (R251). -/
  | arm (c : StreamCmd)
  /-- Clears a section's tile count, optionally sending its completion pulse (R251). -/
  | disarm (c : StreamCmd)
  /-- Hands the graph sequencer a walk over command-store entries (R252). -/
  | kgraph (c : StreamCmd)
  /-- Holds its port until covered earlier commands have completed and become visible at a scope (R253). -/
  | barrier (c : StreamCmd)
  /-- Sets how many arrivals a TAP adds to each phase of a barrier (R254). -/
  | tapset (c : StreamCmd)
  /-- Writes a term slot of the core's event crossbar (R255). -/
  | evcfg (c : StreamCmd)
  /-- Pulses an event-crossbar source a given number of times (R256). -/
  | evpulse (c : StreamCmd)
  /-- Sets or increments the context's step number for the graph (R259). -/
  | step (c : StreamCmd)
  /-- Invalidates the graph's recall-store entries, and optionally clears their counters (R260). -/
  | rcflush (c : StreamCmd)
  /-- Sets the group's rate-window length from the next window boundary (R261). -/
  | wagwin (c : StreamCmd)
  /-- Holds or releases a node against layout changes (R262). -/
  | laypin (c : StreamCmd)
  /-- Marks a node as a bottleneck at the next window end (R263). -/
  | layreqBottleneck (c : StreamCmd)
  /-- Suspends layout changes for the group (R263). -/
  | layreqSuspend (c : StreamCmd)
  /-- Resumes layout changes for the group (R263). -/
  | layreqResume (c : StreamCmd)
  /-- Alters the segment markers of the next load command at the port (R257). -/
  | segmark (c : StreamCmd)
  /-- Makes the bound AGN emit a barrier token after earlier tokens (R258). -/
  | btoken (c : StreamCmd)
  /-- Applies a stream of indexed 32-bit atomic updates (R243). -/
  | amostrm (c : StreamCmd)
  /-- Opens a reduction window in which combinable updates are merged in the switches (R266). -/
  | redwinOpen (c : StreamCmd)
  /-- Closes a reduction window once its merged updates are delivered (R266). -/
  | redwinClose (c : StreamCmd)
  /-- Writes tokens of a repeated 16-bit pattern (R248). -/
  | fill (c : StreamCmd)
  /-- Loads a node's setting into every instance that lacks it (R264). -/
  | cfgld (c : StreamCmd)
  /-- Discards the unstarted commands queued at the masked ports (R268). -/
  | pflush (c : StreamCmd)
  /-- The sequencer queues the next walked entry once the previous one completes or a cycle passes (R252). -/
  | kgraphWalkEntry (core : Nat)
  /-- A MAT exchanges its planes at its next segment boundary (R250). -/
  | planeSwap (r : CellRef)
  /-- A MAT consumes an activation token and emits a wide token of partial sums (R274). -/
  | matFire (r : CellRef)
  /-- An ACC adds a partial-sum token into its accumulators (R277). -/
  | accFire (r : CellRef)
  /-- An ACC converts, emits and resets an accumulator set, one token per cycle (R278). -/
  | accRelease (r : CellRef)
  /-- A VEC computes one output token lane by lane from its inputs (R284). -/
  | vecFire (r : CellRef)
  /-- A RED takes a token into its reduction and emits results when due (R287). -/
  | redFire (r : CellRef)
  /-- A RED in rsum mode rescales and adds one token per lane (R289). -/
  | rsumFire (r : CellRef)
  /-- An FNC evaluates its table function on each element of a token (R293). -/
  | fncFire (r : CellRef)
  /-- A CVT converts, quantises or dequantises the elements of its input (R296). -/
  | cvtFire (r : CellRef)
  /-- A BFY forms the sums and differences of one butterfly stage (R304). -/
  | bfyFire (r : CellRef)
  /-- A CNT starts a run, reading its count from memory when LDL is set (R307). -/
  | cntRunStart (r : CellRef)
  /-- A CNT emits one index token of its run (R306). -/
  | cntFire (r : CellRef)
  /-- A CNT takes a credit token on i1 and returns one credit (R308). -/
  | cntCreditReturn (r : CellRef)
  /-- An AGN walks the elements of one tile of its tensor map (R312). -/
  | agnTileWalk (r : CellRef)
  /-- An AGN issues one window or global access of up to 128 bytes (R318). -/
  | agnAccess (r : CellRef)
  /-- A store AGN emits an acknowledgement once a segment's writes are visible (R315). -/
  | agnAcknowledge (r : CellRef)
  /-- An iload AGN reads the elements that an index token names (R316). -/
  | iloadFire (r : CellRef)
  /-- An RTE in rr, key, seg or bcast mode sends a token to its chosen outputs (R322). -/
  | rteSplit (r : CellRef)
  /-- A merge RTE releases tokens in sequence or arrival order (R323). -/
  | rteMerge (r : CellRef)
  /-- A steer RTE sends a whole segment to the output that its control names (R324). -/
  | rteSteer (r : CellRef)
  /-- A GAT decides hit or miss for a segment and replays or forwards it (R327). -/
  | gatSegment (r : CellRef)
  /-- A GAT passes a returning block output to o1 and captures it (R328). -/
  | gatReturn (r : CellRef)
  /-- The recall store controller writes a captured entry after its segment ends (R328). -/
  | recallEntryWrite (k : Nat)
  /-- A TAP passes a token and posts a barrier arrival or event pulse as its mode states (R330). -/
  | tapFire (r : CellRef)
  /-- The home port appends a retire record, releases it and fills the retire future (R431). -/
  | retireRecordAppend (k : Nat)
  /-- A cell consumes barrier tokens on all its inputs and emits one on each output (R397). -/
  | barrierTokenPass (r : CellRef)
  /-- A cell loads a missing setting from the graph object and evicts an entry (R134). -/
  | settingLoad (r : CellRef)
  /-- The count point finishes an end-of-tile token, lowering the tile count and sending the completion pulse at zero (R45). -/
  | countPointFinish (group sec : Nat)
  /-- A pulse reaches an event crossbar and sets sticky bits or pending counts (R400). -/
  | eventPulse (k : Nat)
  /-- An event term whose condition holds adds to a counter, arms a section or issues a command (R401). -/
  | eventTermAct (core slot : Nat)
  /-- A waiting WAITE finds its counter at the amount and subtracts it (R185). -/
  | waitePass (core : Nat)
  /-- An arrival is applied to a barrier phase, which completes at the expected count (R393). -/
  | barrierArrival (k : Nat)
  /-- A BARW waiting on a completed phase resumes and acquires (R395). -/
  | barwResume (core : Nat)
  /-- An exchange window swaps its live and shadow banks after barrier 0 completes (R396). -/
  | exchangeSwap (core w : Nat)
  /-- A give's drain ends, and the bank is attached to the target window (R218). -/
  | giveDrainDone (core : Nat)
  /-- The home port fills a future and wakes its parked waiters (R106). -/
  | signalApply (k : Nat)
  /-- A parked control core resumes after its WAIT with the future's value (R106). -/
  | waiterWake (core : Nat)
  /-- A submission naming a dependency counter arms it, enqueues its block, or is refused (R97). -/
  | counterSubmission (k : Nat)
  /-- A DEC or copy decrement lowers a counter, enqueuing its held block at zero (R97). -/
  | counterDecrement (k : Nat)
  /-- A copy engine starts one descriptor, refusing it or copying raw bytes (R245). -/
  | copyDescriptor (engine : Nat)
  /-- A finished descriptor releases its writes, decrements its successors and pulses (R245). -/
  | copyDescriptorDone (engine : Nat)
  /-- The home memory port translates, checks, seals and performs one access (R351). -/
  | memoryAccess (k : Nat)
  /-- Spilled elements are retried when a covering TLBI completes (R358). -/
  | spillRetry (k : Nat)
  /-- A memory port drops a combined translation at any time (R353). -/
  | tlbEntryDrop (k : Nat)
  /-- The tail's home port appends a fault record, or drops it when full, and fills the future (R416). -/
  | faultRecordAppend (k : Nat)
  /-- A record is appended to the host fault queue by DMA and MSI-X vector 0 is raised (R444). -/
  | hostFaultRecordAppend (k : Nat)
  /-- A write to an intake queue's tail word starts the stamp check (R90). -/
  | queueMonitorCheck (tenant queue : Nat)
  /-- After 128 cycles the monitor reads a failed record again (R90). -/
  | queueMonitorRetry (tenant queue : Nat)
  /-- A launch packet writes an intake record, and a residency report is sent (R109). -/
  | launchPacket (p : LaunchPkt)
  /-- The launch unit serves a ready group, loads and checks the graph, and starts its cores (R103). -/
  | groupLaunch (die first : Nat)
  /-- The layout engine finishes placing a graph with no cached layout (R112). -/
  | placeGraph (group : Nat) (places : List Place)
  /-- A head group ready for 65,536 cycles ages its tenant and may request pre-emption (R101). -/
  | tenantAged (die level tenant : Nat)
  /-- At a rate-window end, the waggle counters latch and a layout change may start (R117). -/
  | windowEnd (group : Nat)
  /-- A prepared splice is armed and waits for the node's segment boundary (R127). -/
  | spliceArm (group : Nat)
  /-- At the splice point the node stops and its input links are re-pointed (R127). -/
  | spliceCut (group : Nat)
  /-- One keyed state entry moves to its new instance (R127). -/
  | keyStateMove (group : Nat)
  /-- A consumer switches its input to the merge or new cell once the old link drains (R127). -/
  | consumerSwitch (group link : Nat)
  /-- A splice whose point has not come within two windows is cancelled (R129). -/
  | spliceCancel (group : Nat)
  /-- A packet moves one hop, is checked for its context and is charged to the rate limiter (R403). -/
  | networkPacketHop (k : Nat)
  /-- A packet that has waited 512 cycles at an arbiter is aged (R404). -/
  | packetAged (k : Nat)
  /-- A region's governor raises or lowers its clock after 1,024 region cycles (R405). -/
  | clockGovernorStep (region : Nat)
  /-- A combining-buffer entry is forwarded 1,024 cycles after its first update or at the close (R409). -/
  | reductionEntryForward (k : Nat)
  /-- A token for an absent node waits, is parked, or is dropped as an orphan (R135). -/
  | parkedToken (k : Nat)
  /-- A polite or freeze pre-emption request reaches a group (R418). -/
  | preemptRequest (group : Nat) (freeze : Bool)
  /-- A polite request not done within the freeze limit becomes a freeze (R418). -/
  | freezeLimitExpire (group : Nat)
  /-- Every control core and firing of the group stops in one cycle (R420). -/
  | freeze (group : Nat)
  /-- The group's state is saved, its resources freed and the group re-enqueued (R421). -/
  | capture (group : Nat)
  /-- A pre-empted group is restored on a free placement and restarted (R423). -/
  | resumeGroup (group die first : Nat)
  /-- A group whose cores have exited ends and returns its resources (R428). -/
  | groupEnd (group : Nat)
  /-- The management controller purges a context and writes its completion (R433). -/
  | contextPurge (ctx : Nat) (completion : Word)
  /-- Every context of a tenant is purged and its key slot zeroised (R434). -/
  | tenantTeardown (tenant : Nat)
  /-- A virtual-function reset purges every context of the tenant (R435). -/
  | partitionReset (tenant : Nat)
  /-- The management controller creates a tenant with its settings, queues and keys (R345). -/
  | tenantCreate (c : TenantCfg)
  /-- The management controller creates a context with its descriptors and areas (R348). -/
  | contextCreate (c : ContextCfg)
  /-- A host read through a virtual function's BAR2 reaches the tenant's memory (R440). -/
  | hostBarRead (tenant : Nat) (off : BitVec 40) (len : Nat)
  /-- A host write through BAR2 is split at 128-byte units and applied (R440). -/
  | hostBarWrite (tenant : Nat) (off : BitVec 40) (bytes : List Byte)
  /-- The hypervisor writes a stage-2 invalidation request to BAR0 (R443). -/
  | s2inv (bytes : List Byte)
  /-- The invalidation completes, held accesses are retried and the completion address is written (R355). -/
  | stage2InvComplete (k : Nat)
  /-- A write to REPADDR starts a signed report to host memory (R447). -/
  | repaddr (addr : Word)
  /-- A write to a BAR0 register with no behaviour of its own stores the value or is discarded (R441). -/
  | registerWrite (off : BitVec 16) (bytes : List Byte)
  /-- At reset the device measures firmware, tests cores and zeroes memory until READY (R447). -/
  | deviceStart (c : StartCfg)
  /-- After 8 failed CRC retries a packet is delivered as failed and the link retrains (R339). -/
  | linkRetryFail (k : Nat)
  /-- A host power cap lowers region clock bounds and holds new launches (R450). -/
  | powerCap (on : Bool) (lo hi : Nat)
  /-- At 115 °C every tenant is torn down and the package powers off (R450). -/
  | thermalTrip (die : Nat)
  /-- The acknowledgement of a posted request reaches its control core, freeing one of its 32 posted slots and letting waiting FENCEs and posted instructions proceed (R195). -/
  | postedRequestAcknowledged (k : Nat)
  /-- A bank switch accepts and applies an access to a bank in its order, including posted window stores, STX, MCAST and copy-engine writes (R338). -/
  | bankAccess (k : Nat)
  /-- A tenant's token bucket gains its rate each cycle, and a request waiting on a negative bucket enters when it reaches zero (R407). -/
  | tokenBucketRefill (die tenant : Nat)
  /-- A link that retrained after 8 failed CRC retries comes back into service within 1 µs (R339). -/
  | linkRetrained (link : Nat)
  /-- The management controller changes a context's translation descriptor of a die while no group of it is resident, removing its combined entries there (R348). -/
  | translationDescriptorChange (ctx die : Nat) (d : TrDesc)
  /-- The management controller creates an intake queue, writing its header address into the tenant's queue table and enabling it (R88). -/
  | intakeQueueCreate (c : IntakeCfg)
deriving DecidableEq, Repr, Inhabited

end Sys2Proof
end

