-- ==== Sys2Proof/WellFormed.lean ====
section
/-! DEFINITION. Which instructions and commands are well formed: those whose fields hold codes that the encoding gives them (R137,
R139, R140, R145 to R149). Events carry no word and are well formed as they stand. -/

namespace Sys2Proof

/-- The guard 0b1111 is reserved (R137). -/
def Guard.ok (g : Guard) : Bool := !(g.neg && g.p == 7)

/-- AMO takes `.rlx` and `.rel` (R204). -/
def amoOrd : Ord → Bool
  | .rlx | .rel => true
  | _ => false

/-- AMOF and CAS take every ordering but `.sc` (R204). -/
def fetchOrd : Ord → Bool
  | .sc => false
  | _ => true

/-- FENCE takes `.acqrel` and `.sc` (R211). -/
def fenceOrd : Ord → Bool
  | .acqrel | .sc => true
  | _ => false

/-- The scopes `.core` to `.pod` (R204, R210, R211). -/
def wideScope : Scope → Bool
  | .lane => false
  | _ => true

/-- The scopes `.core`, `.quad` and `.die` (R212). -/
def barScope : Scope → Bool
  | .core | .quad | .die => true
  | _ => false

/-- What a command's address field holds (R147, R238). -/
inductive AddrUse where
  | none            -- reserved
  | stream          -- as the class reads it
  | global          -- a global address of the issuing package
  | value (n : Nat) -- a value of n bits
deriving DecidableEq, Repr, Inhabited

/-- The bits that a command's address field may set (R147). -/
def addrMask (u : AddrUse) (cls : BitVec 4) : BitVec 56 :=
  match u with
  | .none => 0
  | .value n => BitVec.ofNat 56 (2 ^ n - 1)
  | .global => BitVec.ofNat 56 (2 ^ 50 - 1)
  | .stream => if cls == 0 || cls == 1 then BitVec.ofNat 56 (2 ^ 20 - 1) else BitVec.ofNat 56 (2 ^ 55 + (2 ^ 50 - 1))

/-- The fields of a command: accepted classes (none: class and tag are reserved), and the bits of flags, count and index that
it uses (R146, R149, R238). -/
def fieldsOk (c : StreamCmd) (classes : List Nat) (fm : BitVec 8) (u : AddrUse) (cm : BitVec 24) (im : BitVec 16) : Bool :=
  (if classes.isEmpty then c.cls == 0 && c.tag == 0 else classes.contains c.cls.toNat)
    && (c.flags &&& ~~~fm) == 0 && (c.addr &&& ~~~(addrMask u c.cls)) == 0
    && (c.count &&& ~~~cm) == 0 && (c.index &&& ~~~im) == 0

/-- The declared format of a data command: codes 0x9 to 0xE are reserved (R239, R53). -/
def fmtOk (c : StreamCmd) : Bool :=
  let f := c.flags.toNat % 16
  f ≤ 8 || f == 15

/-- GATHER and SCATTER take rows of 2^SEG tokens with SEG up to 6 (R239). -/
def rowOk (c : StreamCmd) : Bool := c.flags.toNat / 16 % 8 != 7

/-- The form of LAYREQ in flags[1:0] (R263). -/
def form (c : StreamCmd) (k : Nat) : Bool := c.flags.toNat % 4 == k

/-- SEGMARK may not both set and clear one marker (R257). -/
def markOk (c : StreamCmd) : Bool :=
  !(c.flags.getLsbD 0 && c.flags.getLsbD 2) && !(c.flags.getLsbD 1 && c.flags.getLsbD 3)

/-- AMOSTRM operation codes 0x0 to 0x8 (R243). -/
def opOk (c : StreamCmd) : Bool := c.flags.toNat % 16 ≤ 8

/-- Flags bit 0 (R266). -/
def bit0 (c : StreamCmd) : Bool := c.flags.getLsbD 0

/-- Well-formed instructions: those that a word stands for. -/
def Instr.wf : Instr → Bool
  | .add g _ _ _ => g.ok
  | .sub g _ _ _ => g.ok
  | .addi g _ _ _ => g.ok
  | .mul g _ _ _ => g.ok
  | .mulh g _ _ _ => g.ok
  | .mulhu g _ _ _ => g.ok
  | .div g _ _ _ => g.ok
  | .divu g _ _ _ => g.ok
  | .rem g _ _ _ => g.ok
  | .remu g _ _ _ => g.ok
  | .and g _ _ _ => g.ok
  | .or g _ _ _ => g.ok
  | .xor g _ _ _ => g.ok
  | .andi g _ _ _ => g.ok
  | .ori g _ _ _ => g.ok
  | .xori g _ _ _ => g.ok
  | .shl g _ _ _ => g.ok
  | .shr g _ _ _ => g.ok
  | .sra g _ _ _ => g.ok
  | .shli g _ _ _ => g.ok
  | .shri g _ _ _ => g.ok
  | .srai g _ _ _ => g.ok
  | .min g _ _ _ => g.ok
  | .max g _ _ _ => g.ok
  | .minu g _ _ _ => g.ok
  | .maxu g _ _ _ => g.ok
  | .clz g _ _ => g.ok
  | .popc g _ _ => g.ok
  | .bfx g _ _ _ => g.ok
  | .bfi g _ _ _ => g.ok
  | .sext g _ _ _ => g.ok
  | .zext g _ _ _ => g.ok
  | .li g _ _ => g.ok
  | .lih g _ _ => g.ok
  | .cmp g _ _ _ _ => g.ok
  | .cmpi g _ _ _ _ => g.ok
  | .pand g _ _ _ _ _ => g.ok
  | .por g _ _ _ _ _ => g.ok
  | .pxor g _ _ _ _ _ => g.ok
  | .pnot g _ _ => g.ok
  | .sel g _ _ _ _ => g.ok
  | .pmovGet g _ => g.ok
  | .pmovSet g _ => g.ok
  | .lea g _ _ => g.ok
  | .waddr g _ _ _ => g.ok
  | .xaddr g _ _ _ => g.ok
  | .gaddr g _ _ _ => g.ok
  | .br g _ => g.ok
  | .brl g _ _ => g.ok
  | .jmp g _ _ => g.ok
  | .call g _ => g.ok
  | .ret g => g.ok
  | .loop g a _ => g.ok && (a != 0)
  | .waite g _ amt => g.ok && (amt != 0)
  | .nop g => g.ok
  | .exit g => g.ok
  | .exitSuccessors g a n => g.ok && (a != 0 && (1 ≤ n.toNat && n.toNat ≤ 4))
  | .trap g _ => g.ok
  | .ldg g _ _ _ => g.ok
  | .stg g _ _ _ => g.ok
  | .ldgx g _ _ _ _ sign z => g.ok && (!(sign && z == .b8))
  | .stgx g _ _ _ _ _ => g.ok
  | .lds g _ _ _ => g.ok
  | .sts g _ _ _ => g.ok
  | .stx g _ _ => g.ok
  | .pref g _ _ => g.ok
  | .amo g _ _ _ o sc => g.ok && (amoOrd o && wideScope sc)
  | .amof g _ _ _ o sc => g.ok && (fetchOrd o && wideScope sc)
  | .cas g _ _ _ o sc => g.ok && (fetchOrd o && wideScope sc)
  | .acq g _ _ sc => g.ok && (wideScope sc)
  | .rel g _ _ sc => g.ok && (wideScope sc)
  | .bind g _ _ _ => g.ok
  | .unbind g _ _ _ => g.ok
  | .fence g o sc => g.ok && (fenceOrd o && wideScope sc)
  | .bar g _ sc => g.ok && (barScope sc)
  | .barw g _ sc => g.ok && (barScope sc)
  | .wait g _ _ _ => g.ok
  | .signal g _ _ => g.ok
  | .give g _ _ _ _ => g.ok
  | .openw g _ _ _ _ => g.ok
  | .close g _ _ => g.ok
  | .swapb g _ _ _ => g.ok
  | .bstat g _ _ => g.ok
  | .bzero g _ => g.ok
  | .tlook g _ _ _ => g.ok
  | .tset g _ _ _ => g.ok
  | .tinv g _ _ => g.ok
  | .tclr g _ => g.ok
  | .dpush g _ _ => g.ok
  | .dpop g _ _ => g.ok
  | .dsteal g _ _ _ => g.ok
  | .launch g _ _ => g.ok
  | .dec g _ => g.ok
  | .issue g _ _ _ _ => g.ok
  | .issuex g _ _ _ _ => g.ok
  | .cdrain g _ => g.ok
  | .glv g _ => g.ok
  | .glvCur g _ => g.ok
  | .glvReg g _ => g.ok
  | .rate g _ _ => g.ok
  | .rateWin g _ => g.ok
  | .mfs g _ _ => g.ok
  | .mts g _ _ => g.ok
  | .eret g => g.ok
  | .tlbiPage g _ => g.ok
  | .tlbiCtx g => g.ok
  | .nopc c => fieldsOk c [] 0 .none 0 0
  | .mld c => fieldsOk c [2] 0x7F .stream 0xFFFFFF 0 && fmtOk c
  | .mst c => fieldsOk c [3] 0x0F .stream 0xFFFFFF 0 && fmtOk c
  | .sld c => fieldsOk c [0] 0x7F .stream 0xFFFFFF 0 && fmtOk c
  | .sst c => fieldsOk c [1] 0x0F .stream 0xFFFFFF 0 && fmtOk c
  | .tld c => fieldsOk c [2, 0] 0 .stream 0xFFFFFF 0xFFFF
  | .tst c => fieldsOk c [3, 1] 0 .stream 0xFFFFFF 0xFFFF
  | .cpy c => fieldsOk c [4] 0x03 .stream 0xFFFFFF 0x7
  | .gather c => fieldsOk c [2, 0] 0x7F .stream 0xFFFFFF 0 && fmtOk c && rowOk c
  | .scatter c => fieldsOk c [3, 1] 0x7F .stream 0xFFFFFF 0 && fmtOk c && rowOk c
  | .mcast c => fieldsOk c [2, 0] 0x0F .stream 0xFFFFFF 0xFFFF
  | .lstat c => fieldsOk c [2, 0] 0x0F .stream 0xFFFFFF 0xFFFF && fmtOk c
  | .lswap c => fieldsOk c [] 0 .none 0 0xFFFF
  | .arm c => fieldsOk c [] 0 .none 0xFFFFFF 0xFFFF
  | .disarm c => fieldsOk c [] 0x01 .none 0 0xFFFF
  | .kgraph c => fieldsOk c [] 0x01 .none 0xFFFFFF 0xFFFF
  | .barrier c => fieldsOk c [] 0x1F .none 0x7 0xFFFF
  | .tapset c => fieldsOk c [] 0x1F .none 0xFFFFFF 0xFFFF
  | .evcfg c => fieldsOk c [] 0 (.value 40) 0 0xF
  | .evpulse c => fieldsOk c [] 0 .none 0xFFFFFF 0x1F
  | .step c => fieldsOk c [] 0x01 (.value 32) 0 0
  | .rcflush c => fieldsOk c [] 0x03 .none 0 0xFFF
  | .wagwin c => fieldsOk c [] 0 .none 0xFFFFFF 0
  | .laypin c => fieldsOk c [] 0x01 .none 0 0xFFFF
  | .layreqBottleneck c => fieldsOk c [] 0x03 .none 0 0xFFFF && form c 0
  | .layreqSuspend c => fieldsOk c [] 0x03 .none 0 0 && form c 1
  | .layreqResume c => fieldsOk c [] 0x03 .none 0 0 && form c 2
  | .segmark c => fieldsOk c [] 0x0F .none 0 0 && markOk c
  | .btoken c => fieldsOk c [] 0 .none 0 0
  | .amostrm c => fieldsOk c [3] 0x0F .stream 0xFFFFFF 0 && opOk c
  | .redwinOpen c => fieldsOk c [] 0x01 .global 0xFFFFFF 0xF && bit0 c
  | .redwinClose c => fieldsOk c [] 0x01 .none 0 0xF && !bit0 c
  | .fill c => fieldsOk c [1, 3] 0x0F .stream 0xFFFFFF 0xFFFF && fmtOk c
  | .cfgld c => fieldsOk c [] 0 .none 0 0xFFFF
  | .pflush c => fieldsOk c [] 0 .none 0 0xFFFF
  | _ => true

end Sys2Proof
end

