-- ==== Sys2Proof/Decode.lean ====
section
/-! DEFINITION. Decoding: from bytes to an instruction or a rejection by name (R136 to R141, R144 to R151), and the encoder, written
from the same tables. -/

namespace Sys2Proof

/-- Why a word stands for no instruction. The first four are checks 3 to 5 of R141; the rest are decode faults of a stream
command (R149) and a byte list that ends too early. -/
inductive Reject where
  | unassignedOpcode | reservedGuard | reservedField | reservedCode
  | reservedCommand | badClassOrField | shortInput
deriving DecidableEq, Repr, Inhabited

/-! ### Fields of a scalar word (R136) -/

def opcodeOf (w : Word32) : BitVec 7 := w.extractLsb' 25 7
def gdOf (w : Word32) : Reg := w.extractLsb' 20 5
def gaOf (w : Word32) : Reg := w.extractLsb' 15 5
def gbOf (w : Word32) : Reg := w.extractLsb' 10 5
def fnOf (w : Word32) : BitVec 6 := w.extractLsb' 4 6
def imm11Of (w : Word32) : BitVec 11 := w.extractLsb' 4 11
def imm16Of (w : Word32) : BitVec 16 := w.extractLsb' 4 16
def guardBits (w : Word32) : BitVec 4 := w.extractLsb' 0 4
/-- The guard field (R137). -/
def guardOf (w : Word32) : Guard := ⟨w.getLsbD 3, w.extractLsb' 0 3⟩
/-- fn[9:8] of a word. -/
def fnTop2 (w : Word32) : BitVec 2 := w.extractLsb' 8 2
/-- fn[7:4] of a word: a window number. -/
def low4 (w : Word32) : BitVec 4 := w.extractLsb' 4 4
/-- The upper two bits of a register field that names a predicate or counter (R138). -/
def hi2 (r : Reg) : BitVec 2 := r.extractLsb' 3 2
def low3 (r : Reg) : PReg := r.extractLsb' 0 3

/-! ### Codes -/

def condCode : Cond → BitVec 4
  | .eq => 0 | .ne => 1 | .lt => 2 | .le => 3 | .gt => 4 | .ge => 5 | .ltu => 6 | .leu => 7 | .gtu => 8 | .geu => 9

/-- The condition codes of R139. -/
def condOf : Nat → Option Cond
  | 0 => some .eq | 1 => some .ne | 2 => some .lt | 3 => some .le | 4 => some .gt | 5 => some .ge
  | 6 => some .ltu | 7 => some .leu | 8 => some .gtu | 9 => some .geu | _ => none

def ordCode : Ord → BitVec 3
  | .rlx => 0 | .acq => 1 | .rel => 2 | .acqrel => 3 | .sc => 4

/-- The ordering codes of R140. -/
def ordOf : Nat → Option Ord
  | 0 => some .rlx | 1 => some .acq | 2 => some .rel | 3 => some .acqrel | 4 => some .sc | _ => none

def scopeCode : Scope → BitVec 3
  | .lane => 0 | .core => 1 | .quad => 2 | .die => 3 | .pkg => 4 | .pod => 5

/-- The scope codes of R140. -/
def scopeOf : Nat → Option Scope
  | 0 => some .lane | 1 => some .core | 2 => some .quad | 3 => some .die | 4 => some .pkg | 5 => some .pod | _ => none

def amoCode : AmoOp → BitVec 5
  | .add => 0 | .and => 1 | .or => 2 | .xor => 3 | .min => 4 | .max => 5 | .minu => 6 | .maxu => 7 | .swap => 8

/-- The operation codes of R203. -/
def amoOf : Nat → Option AmoOp
  | 0 => some .add | 1 => some .and | 2 => some .or | 3 => some .xor | 4 => some .min | 5 => some .max
  | 6 => some .minu | 7 => some .maxu | 8 => some .swap | _ => none

def sizeCode : Size → BitVec 2
  | .b1 => 0 | .b2 => 1 | .b4 => 2 | .b8 => 3

/-- The size in fn[5:4] (R198). -/
def sizeOf2 (w : Word32) : Size :=
  match (w.extractLsb' 4 2).toNat with
  | 0 => .b1 | 1 => .b2 | 2 => .b4 | _ => .b8

/-- Ordering and scope of fn (R140). -/
def ordScope (w : Word32) : Option (Ord × Scope) :=
  (ordOf (w.extractLsb' 7 3).toNat).bind fun o => (scopeOf (w.extractLsb' 4 3).toNat).map fun sc => (o, sc)

/-- Scope alone: fn[9:7] is reserved (R140). -/
def scopeOnly (w : Word32) : Option Scope :=
  if w.extractLsb' 7 3 == 0 then scopeOf (w.extractLsb' 4 3).toNat else none

/-! ### The scalar decoder -/

/-- The instruction of an opcode whose guard is g, by the opcode map (R144) and the formats of the instructions'
descriptions: check 5 of R141. -/
def decodeBody (w : Word32) (g : Guard) : Except Reject Instr :=
  match (opcodeOf w).toNat with
  | 0x01 => if fnOf w == 0 then .ok (.add g (gdOf w) (gaOf w) (gbOf w)) else .error .reservedField
  | 0x02 => if fnOf w == 0 then .ok (.sub g (gdOf w) (gaOf w) (gbOf w)) else .error .reservedField
  | 0x03 => .ok (.addi g (gdOf w) (gaOf w) (imm11Of w))
  | 0x04 => if fnOf w == 0 then .ok (.mul g (gdOf w) (gaOf w) (gbOf w)) else .error .reservedField
  | 0x05 => if fnOf w == 0 then .ok (.mulh g (gdOf w) (gaOf w) (gbOf w)) else .error .reservedField
  | 0x06 => if fnOf w == 0 then .ok (.mulhu g (gdOf w) (gaOf w) (gbOf w)) else .error .reservedField
  | 0x07 => if fnOf w == 0 then .ok (.div g (gdOf w) (gaOf w) (gbOf w)) else .error .reservedField
  | 0x08 => if fnOf w == 0 then .ok (.divu g (gdOf w) (gaOf w) (gbOf w)) else .error .reservedField
  | 0x09 => if fnOf w == 0 then .ok (.rem g (gdOf w) (gaOf w) (gbOf w)) else .error .reservedField
  | 0x0A => if fnOf w == 0 then .ok (.remu g (gdOf w) (gaOf w) (gbOf w)) else .error .reservedField
  | 0x0B => if fnOf w == 0 then .ok (.and g (gdOf w) (gaOf w) (gbOf w)) else .error .reservedField
  | 0x0C => if fnOf w == 0 then .ok (.or g (gdOf w) (gaOf w) (gbOf w)) else .error .reservedField
  | 0x0D => if fnOf w == 0 then .ok (.xor g (gdOf w) (gaOf w) (gbOf w)) else .error .reservedField
  | 0x0E => .ok (.andi g (gdOf w) (gaOf w) (imm11Of w))
  | 0x0F => .ok (.ori g (gdOf w) (gaOf w) (imm11Of w))
  | 0x10 => .ok (.xori g (gdOf w) (gaOf w) (imm11Of w))
  | 0x11 => if fnOf w == 0 then .ok (.shl g (gdOf w) (gaOf w) (gbOf w)) else .error .reservedField
  | 0x12 => if fnOf w == 0 then .ok (.shr g (gdOf w) (gaOf w) (gbOf w)) else .error .reservedField
  | 0x13 => if fnOf w == 0 then .ok (.sra g (gdOf w) (gaOf w) (gbOf w)) else .error .reservedField
  | 0x14 => if gbOf w == 0 then .ok (.shli g (gdOf w) (gaOf w) (fnOf w)) else .error .reservedField
  | 0x15 => if gbOf w == 0 then .ok (.shri g (gdOf w) (gaOf w) (fnOf w)) else .error .reservedField
  | 0x16 => if gbOf w == 0 then .ok (.srai g (gdOf w) (gaOf w) (fnOf w)) else .error .reservedField
  | 0x17 => if fnOf w == 0 then .ok (.min g (gdOf w) (gaOf w) (gbOf w)) else .error .reservedField
  | 0x18 => if fnOf w == 0 then .ok (.max g (gdOf w) (gaOf w) (gbOf w)) else .error .reservedField
  | 0x19 => if fnOf w == 0 then .ok (.minu g (gdOf w) (gaOf w) (gbOf w)) else .error .reservedField
  | 0x1A => if fnOf w == 0 then .ok (.maxu g (gdOf w) (gaOf w) (gbOf w)) else .error .reservedField
  | 0x1B => if gbOf w == 0 && fnOf w == 0 then .ok (.clz g (gdOf w) (gaOf w)) else .error .reservedField
  | 0x1C => if gbOf w == 0 && fnOf w == 0 then .ok (.popc g (gdOf w) (gaOf w)) else .error .reservedField
  | 0x1D => if fnOf w == 0 then .ok (.bfx g (gdOf w) (gaOf w) (gbOf w)) else .error .reservedField
  | 0x1E => if fnOf w == 0 then .ok (.bfi g (gdOf w) (gaOf w) (gbOf w)) else .error .reservedField
  | 0x1F => if gbOf w == 0 then .ok (.sext g (gdOf w) (gaOf w) (fnOf w)) else .error .reservedField
  | 0x20 => if gbOf w == 0 then .ok (.zext g (gdOf w) (gaOf w) (fnOf w)) else .error .reservedField
  | 0x21 => .ok (.li g (gdOf w) (imm16Of w))
  | 0x22 => .ok (.lih g (gdOf w) (imm16Of w))
  | 0x23 => if hi2 (gdOf w) == 0 && fnTop2 w == 0 then (condOf (fnOf w).toNat).elim (.error .reservedCode) (fun c => .ok (.cmp g c (low3 (gdOf w)) (gaOf w) (gbOf w))) else .error .reservedField
  | 0x24 => (condOf ((w.extractLsb' 23 2).toNat * 4 + (w.extractLsb' 13 2).toNat)).elim (.error .reservedCode) (fun c => .ok (.cmpi g c (w.extractLsb' 20 3) (gaOf w) (w.extractLsb' 4 9)))
  | 0x25 => if hi2 (gdOf w) == 0 && hi2 (gaOf w) == 0 && hi2 (gbOf w) == 0 && (fnOf w).toNat < 4 then .ok (.pand g (low3 (gdOf w)) (low3 (gaOf w)) (low3 (gbOf w)) ((fnOf w).getLsbD 1) ((fnOf w).getLsbD 0)) else .error .reservedField
  | 0x26 => if hi2 (gdOf w) == 0 && hi2 (gaOf w) == 0 && hi2 (gbOf w) == 0 && (fnOf w).toNat < 4 then .ok (.por g (low3 (gdOf w)) (low3 (gaOf w)) (low3 (gbOf w)) ((fnOf w).getLsbD 1) ((fnOf w).getLsbD 0)) else .error .reservedField
  | 0x27 => if hi2 (gdOf w) == 0 && hi2 (gaOf w) == 0 && hi2 (gbOf w) == 0 && (fnOf w).toNat < 4 then .ok (.pxor g (low3 (gdOf w)) (low3 (gaOf w)) (low3 (gbOf w)) ((fnOf w).getLsbD 1) ((fnOf w).getLsbD 0)) else .error .reservedField
  | 0x28 => if hi2 (gdOf w) == 0 && hi2 (gaOf w) == 0 && gbOf w == 0 && fnOf w == 0 then .ok (.pnot g (low3 (gdOf w)) (low3 (gaOf w))) else .error .reservedField
  | 0x29 => if (fnOf w).toNat < 8 then .ok (.sel g (gdOf w) (gaOf w) (gbOf w) ((fnOf w).extractLsb' 0 3)) else .error .reservedField
  | 0x2A => if gbOf w != 0 then .error .reservedField else if fnOf w == 0 && gaOf w == 0 then .ok (.pmovGet g (gdOf w)) else if fnOf w == 1 && gdOf w == 0 then .ok (.pmovSet g (gaOf w)) else .error .reservedField
  | 0x2B => if gaOf w == 0 then .ok (.lea g (gdOf w) (imm11Of w)) else .error .reservedField
  | 0x2C => if gbOf w == 0 && fnTop2 w == 0 then .ok (.waddr g (gdOf w) (gaOf w) (low4 w)) else .error .reservedField
  | 0x2D => if fnOf w == 0 then .ok (.xaddr g (gdOf w) (gaOf w) (gbOf w)) else .error .reservedField
  | 0x2E => if fnOf w == 0 then .ok (.gaddr g (gdOf w) (gaOf w) (gbOf w)) else .error .reservedField
  | 0x30 => if gdOf w == 0 then .ok (.br g (imm16Of w)) else .error .reservedField
  | 0x31 => .ok (.brl g (gdOf w) (imm16Of w))
  | 0x32 => if gbOf w == 0 && fnOf w == 0 then .ok (.jmp g (gdOf w) (gaOf w)) else .error .reservedField
  | 0x33 => if gdOf w == 0 then .ok (.call g (imm16Of w)) else .error .reservedField
  | 0x34 => if gdOf w == 0 && gaOf w == 0 && gbOf w == 0 && fnOf w == 0 then .ok (.ret g) else .error .reservedField
  | 0x35 => if gdOf w != 0 then .ok (.loop g (gdOf w) (imm16Of w)) else .error .reservedField
  | 0x36 => if hi2 (gdOf w) == 0 && imm16Of w != 0 then .ok (.waite g (low3 (gdOf w)) (imm16Of w)) else .error .reservedField
  | 0x37 => if gdOf w == 0 && gaOf w == 0 && gbOf w == 0 && fnOf w == 0 then .ok (.nop g) else .error .reservedField
  | 0x38 => if gdOf w != 0 || gbOf w != 0 then .error .reservedField else if fnOf w == 0 then (if gaOf w == 0 then .ok (.exit g) else .error .reservedField) else if (fnOf w).toNat ≤ 4 && gaOf w != 0 then .ok (.exitSuccessors g (gaOf w) ((fnOf w).extractLsb' 0 3)) else .error .reservedCode
  | 0x39 => if gdOf w == 0 then .ok (.trap g (imm16Of w)) else .error .reservedField
  | 0x40 => .ok (.ldg g (gdOf w) (gaOf w) (imm11Of w))
  | 0x41 => .ok (.stg g (gdOf w) (gaOf w) (imm11Of w))
  | 0x42 => if fnTop2 w != 0 then .error .reservedField else if (fnOf w).getLsbD 2 && sizeOf2 w == .b8 then .error .reservedField else .ok (.ldgx g (gdOf w) (gaOf w) (gbOf w) ((fnOf w).getLsbD 3) ((fnOf w).getLsbD 2) (sizeOf2 w))
  | 0x43 => if fnTop2 w == 0 && !(fnOf w).getLsbD 2 then .ok (.stgx g (gdOf w) (gaOf w) (gbOf w) ((fnOf w).getLsbD 3) (sizeOf2 w)) else .error .reservedField
  | 0x44 => .ok (.lds g (gdOf w) (gaOf w) (imm11Of w))
  | 0x45 => .ok (.sts g (gdOf w) (gaOf w) (imm11Of w))
  | 0x46 => if gbOf w == 0 && fnOf w == 0 then .ok (.stx g (gdOf w) (gaOf w)) else .error .reservedField
  | 0x47 => if gdOf w == 0 then .ok (.pref g (gaOf w) (imm11Of w)) else .error .reservedField
  | 0x48 => (amoOf (gbOf w).toNat).elim (.error .reservedCode) (fun op => (ordScope w).elim (.error .reservedCode) (fun os => if amoOrd os.1 && wideScope os.2 then .ok (.amo g (gdOf w) (gaOf w) op os.1 os.2) else .error .reservedCode))
  | 0x49 => (amoOf (gbOf w).toNat).elim (.error .reservedCode) (fun op => (ordScope w).elim (.error .reservedCode) (fun os => if fetchOrd os.1 && wideScope os.2 then .ok (.amof g (gdOf w) (gaOf w) op os.1 os.2) else .error .reservedCode))
  | 0x4A => (ordScope w).elim (.error .reservedCode) (fun os => if fetchOrd os.1 && wideScope os.2 then .ok (.cas g (gdOf w) (gaOf w) (gbOf w) os.1 os.2) else .error .reservedCode)
  | 0x4B => if gbOf w != 0 then .error .reservedField else (scopeOnly w).elim (.error .reservedCode) (fun sc => if wideScope sc then .ok (.acq g (gdOf w) (gaOf w) sc) else .error .reservedCode)
  | 0x4C => if gbOf w != 0 then .error .reservedField else (scopeOnly w).elim (.error .reservedCode) (fun sc => if wideScope sc then .ok (.rel g (gdOf w) (gaOf w) sc) else .error .reservedCode)
  | 0x4D => if fnOf w == 0 then .ok (.bind g (gdOf w) (gaOf w) (gbOf w)) else .error .reservedField
  | 0x4E => if fnOf w == 0 then .ok (.unbind g (gdOf w) (gaOf w) (gbOf w)) else .error .reservedField
  | 0x4F => if gdOf w != 0 || gaOf w != 0 || gbOf w != 0 then .error .reservedField else (ordScope w).elim (.error .reservedCode) (fun os => if fenceOrd os.1 && wideScope os.2 then .ok (.fence g os.1 os.2) else .error .reservedCode)
  | 0x50 => if gdOf w != 0 || gbOf w != 0 then .error .reservedField else (scopeOnly w).elim (.error .reservedCode) (fun sc => if barScope sc then .ok (.bar g (gaOf w) sc) else .error .reservedCode)
  | 0x51 => if gdOf w != 0 || gbOf w != 0 then .error .reservedField else (scopeOnly w).elim (.error .reservedCode) (fun sc => if barScope sc then .ok (.barw g (gaOf w) sc) else .error .reservedCode)
  | 0x52 => if fnOf w == 0 then .ok (.wait g (gdOf w) (gaOf w) (gbOf w)) else .error .reservedField
  | 0x53 => if gdOf w == 0 && fnOf w == 0 then .ok (.signal g (gaOf w) (gbOf w)) else .error .reservedField
  | 0x58 => if fnTop2 w == 0 then .ok (.give g (gdOf w) (gaOf w) (gbOf w) (low4 w)) else .error .reservedField
  | 0x59 => if gaOf w == 0 && gbOf w == 0 then .ok (.openw g (gdOf w) ((fnOf w).getLsbD 5) ((fnOf w).getLsbD 4) (low4 w)) else .error .reservedField
  | 0x5A => if gaOf w == 0 && gbOf w == 0 && fnTop2 w == 0 then .ok (.close g (gdOf w) (low4 w)) else .error .reservedField
  | 0x5B => if gbOf w == 0 && fnTop2 w == 0 then .ok (.swapb g (gdOf w) (gaOf w) (low4 w)) else .error .reservedField
  | 0x5C => if gaOf w == 0 && gbOf w == 0 && fnTop2 w == 0 then .ok (.bstat g (gdOf w) (low4 w)) else .error .reservedField
  | 0x5D => if gdOf w == 0 && gaOf w == 0 && gbOf w == 0 && fnTop2 w == 0 then .ok (.bzero g (low4 w)) else .error .reservedField
  | 0x5E => if gbOf w == 0 && fnTop2 w == 0 then .ok (.tlook g (gdOf w) (gaOf w) (low4 w)) else .error .reservedField
  | 0x5F => if gdOf w == 0 && fnTop2 w == 0 then .ok (.tset g (gaOf w) (gbOf w) (low4 w)) else .error .reservedField
  | 0x60 => if gdOf w == 0 && gbOf w == 0 && fnTop2 w == 0 then .ok (.tinv g (gaOf w) (low4 w)) else .error .reservedField
  | 0x61 => if gdOf w == 0 && gaOf w == 0 && gbOf w == 0 && fnTop2 w == 0 then .ok (.tclr g (low4 w)) else .error .reservedField
  | 0x64 => if gbOf w == 0 && fnOf w == 0 then .ok (.dpush g (gdOf w) (gaOf w)) else .error .reservedField
  | 0x65 => if gaOf w == 0 && fnOf w == 0 then .ok (.dpop g (gdOf w) (gbOf w)) else .error .reservedField
  | 0x66 => if fnOf w == 0 then .ok (.dsteal g (gdOf w) (gaOf w) (gbOf w)) else .error .reservedField
  | 0x67 => if gbOf w == 0 && fnOf w == 0 then .ok (.launch g (gdOf w) (gaOf w)) else .error .reservedField
  | 0x68 => if gdOf w == 0 && gbOf w == 0 && fnOf w == 0 then .ok (.dec g (gaOf w)) else .error .reservedField
  | 0x70 => if w.extractLsb' 5 2 == 0 then .ok (.issue g (w.extractLsb' 17 8) (w.extractLsb' 12 5) (w.extractLsb' 7 5) (w.getLsbD 4)) else .error .reservedField
  | 0x71 => if w.extractLsb' 5 2 == 0 then .ok (.issuex g (w.extractLsb' 17 8) (w.extractLsb' 12 5) (w.extractLsb' 7 5) (w.getLsbD 4)) else .error .reservedField
  | 0x72 => if gdOf w == 0 && gbOf w == 0 && fnOf w == 0 then .ok (.cdrain g (gaOf w)) else .error .reservedField
  | 0x73 => if gaOf w != 0 || gbOf w != 0 then .error .reservedField else if fnOf w == 0 then .ok (.glv g (gdOf w)) else if fnOf w == 1 then .ok (.glvCur g (gdOf w)) else if fnOf w == 2 then .ok (.glvReg g (gdOf w)) else .error .reservedCode
  | 0x74 => if gbOf w != 0 then .error .reservedField else if fnOf w == 0 then .ok (.rate g (gdOf w) (gaOf w)) else if fnOf w == 1 && gaOf w == 0 then .ok (.rateWin g (gdOf w)) else .error .reservedField
  | 0x78 => .ok (.mfs g (gdOf w) (imm16Of w))
  | 0x79 => .ok (.mts g (gdOf w) (imm16Of w))
  | 0x7A => if gdOf w == 0 && gaOf w == 0 && gbOf w == 0 && fnOf w == 0 then .ok (.eret g) else .error .reservedField
  | 0x7B => if gdOf w != 0 || gbOf w != 0 then .error .reservedField else if fnOf w == 0 then .ok (.tlbiPage g (gaOf w)) else if fnOf w == 1 && gaOf w == 0 then .ok (.tlbiCtx g) else .error .reservedField
  | _ => .error .unassignedOpcode

/-- Whether the opcode map assigns an opcode (R144). -/
def assigned (n : Nat) : Bool :=
  (0x01 ≤ n && n ≤ 0x2E) || (0x30 ≤ n && n ≤ 0x39) || (0x40 ≤ n && n ≤ 0x53) || (0x58 ≤ n && n ≤ 0x61)
    || (0x64 ≤ n && n ≤ 0x68) || (0x70 ≤ n && n ≤ 0x74) || (0x78 ≤ n && n ≤ 0x7B)

/-- Checks 3 to 5 of R141, in their order. -/
def decodeWord (w : Word32) : Except Reject Instr :=
  if !assigned (opcodeOf w).toNat then .error .unassignedOpcode
  else if guardBits w == 0xF then .error .reservedGuard
  else decodeBody w (guardOf w)

/-! ### The command decoder -/

def cmdFields (w : CmdWord) : StreamCmd :=
  { port := w.extractLsb' 116 4, cls := w.extractLsb' 112 4, flags := w.extractLsb' 104 8, tag := w.extractLsb' 96 8,
    addr := w.extractLsb' 40 56, count := w.extractLsb' 16 24, index := w.extractLsb' 0 16 }

/-- The command of a code (R151). LAYREQ and REDWIN take their form from the flags (R263, R266). -/
def cmdOf (code : Nat) (c : StreamCmd) : Option Instr :=
  match code with
  | 0x00 => some (.nopc c)
  | 0x01 => some (.mld c)
  | 0x02 => some (.mst c)
  | 0x03 => some (.sld c)
  | 0x04 => some (.sst c)
  | 0x05 => some (.tld c)
  | 0x06 => some (.tst c)
  | 0x07 => some (.cpy c)
  | 0x08 => some (.gather c)
  | 0x09 => some (.scatter c)
  | 0x0A => some (.mcast c)
  | 0x0B => some (.lstat c)
  | 0x0C => some (.lswap c)
  | 0x0D => some (.arm c)
  | 0x0E => some (.disarm c)
  | 0x0F => some (.kgraph c)
  | 0x10 => some (.barrier c)
  | 0x11 => some (.tapset c)
  | 0x12 => some (.evcfg c)
  | 0x13 => some (.evpulse c)
  | 0x14 => some (.step c)
  | 0x15 => some (.rcflush c)
  | 0x16 => some (.wagwin c)
  | 0x17 => some (.laypin c)
  | 0x19 => some (.segmark c)
  | 0x1A => some (.btoken c)
  | 0x1B => some (.amostrm c)
  | 0x1D => some (.fill c)
  | 0x1E => some (.cfgld c)
  | 0x1F => some (.pflush c)
  | 0x18 => if form c 0 then some (.layreqBottleneck c) else if form c 1 then some (.layreqSuspend c) else if form c 2 then some (.layreqResume c) else none
  | 0x1C => if bit0 c then some (.redwinOpen c) else some (.redwinClose c)
  | _ => none

/-- The decode of a command word: its code, class, and reserved fields (R149, R238). What depends on the graph object, the
bound AGN or an override is tested where the command acts. -/
def decodeCmd (w : CmdWord) : Except Reject Instr :=
  match cmdOf (w.extractLsb' 120 8).toNat (cmdFields w) with
  | none => .error .reservedCommand
  | some i => if i.wf then .ok i else .error .badClassOrField

/-! ### Bytes -/

/-- A little-endian number from bytes (R6). -/
def leNat : List Byte → Nat
  | [] => 0
  | b :: bs => b.toNat + 256 * leNat bs

/-- The n low bytes of a number, least significant first (R6). -/
def leBytes : Nat → Nat → List Byte
  | 0, _ => []
  | n + 1, x => BitVec.ofNat 8 x :: leBytes n (x / 256)

/-- The scalar decoder on bytes: four bytes make one word, little-endian (R136). -/
def decode (bs : List Byte) : Except Reject (Instr × List Byte) :=
  match bs with
  | b0 :: b1 :: b2 :: b3 :: rest => (decodeWord (BitVec.ofNat 32 (leNat [b0, b1, b2, b3]))).map fun i => (i, rest)
  | _ => .error .shortInput

/-- The command decoder on bytes: sixteen bytes, bit 0 in byte 0 (R145). -/
def decodeCmdBytes (bs : List Byte) : Except Reject (Instr × List Byte) :=
  if bs.length < 16 then .error .shortInput
  else (decodeCmd (BitVec.ofNat 128 (leNat (bs.take 16)))).map fun i => (i, bs.drop 16)

/-! ### The encoder -/

def guardCode (g : Guard) : BitVec 4 := BitVec.ofBool g.neg ++ g.p

/-- Format R (R136). -/
def fmtR (op : BitVec 7) (d a b : Reg) (fn : BitVec 6) (g : Guard) : Word32 :=
  (op ++ d ++ a ++ b ++ fn ++ guardCode g : BitVec 32)

/-- Format I (R136). -/
def fmtI (op : BitVec 7) (d a : Reg) (imm : BitVec 11) (g : Guard) : Word32 :=
  (op ++ d ++ a ++ imm ++ guardCode g : BitVec 32)

/-- Formats L and B (R136): a register, then 16 bits. -/
def fmtL (op : BitVec 7) (d : Reg) (imm : BitVec 16) (g : Guard) : Word32 :=
  (op ++ d ++ imm ++ guardCode g : BitVec 32)

/-- The scalar word of an instruction; a command or an event has none. -/
def encodeWord : Instr → Option Word32
  | .add g d a b => some (fmtR 0x01 d a b 0 g)
  | .sub g d a b => some (fmtR 0x02 d a b 0 g)
  | .addi g d a imm => some (fmtI 0x03 d a imm g)
  | .mul g d a b => some (fmtR 0x04 d a b 0 g)
  | .mulh g d a b => some (fmtR 0x05 d a b 0 g)
  | .mulhu g d a b => some (fmtR 0x06 d a b 0 g)
  | .div g d a b => some (fmtR 0x07 d a b 0 g)
  | .divu g d a b => some (fmtR 0x08 d a b 0 g)
  | .rem g d a b => some (fmtR 0x09 d a b 0 g)
  | .remu g d a b => some (fmtR 0x0A d a b 0 g)
  | .and g d a b => some (fmtR 0x0B d a b 0 g)
  | .or g d a b => some (fmtR 0x0C d a b 0 g)
  | .xor g d a b => some (fmtR 0x0D d a b 0 g)
  | .andi g d a imm => some (fmtI 0x0E d a imm g)
  | .ori g d a imm => some (fmtI 0x0F d a imm g)
  | .xori g d a imm => some (fmtI 0x10 d a imm g)
  | .shl g d a b => some (fmtR 0x11 d a b 0 g)
  | .shr g d a b => some (fmtR 0x12 d a b 0 g)
  | .sra g d a b => some (fmtR 0x13 d a b 0 g)
  | .shli g d a n => some (fmtR 0x14 d a 0 n g)
  | .shri g d a n => some (fmtR 0x15 d a 0 n g)
  | .srai g d a n => some (fmtR 0x16 d a 0 n g)
  | .min g d a b => some (fmtR 0x17 d a b 0 g)
  | .max g d a b => some (fmtR 0x18 d a b 0 g)
  | .minu g d a b => some (fmtR 0x19 d a b 0 g)
  | .maxu g d a b => some (fmtR 0x1A d a b 0 g)
  | .clz g d a => some (fmtR 0x1B d a 0 0 g)
  | .popc g d a => some (fmtR 0x1C d a 0 0 g)
  | .bfx g d a b => some (fmtR 0x1D d a b 0 g)
  | .bfi g d a b => some (fmtR 0x1E d a b 0 g)
  | .sext g d a w => some (fmtR 0x1F d a 0 w g)
  | .zext g d a w => some (fmtR 0x20 d a 0 w g)
  | .li g d imm => some (fmtL 0x21 d imm g)
  | .lih g d imm => some (fmtL 0x22 d imm g)
  | .cmp g c p a b => some (fmtR 0x23 (0#2 ++ p : BitVec 5) a b (0#2 ++ condCode c : BitVec 6) g)
  | .cmpi g c p a imm => some (((0x24 : BitVec 7) ++ (condCode c).extractLsb' 2 2 ++ p ++ a ++ (condCode c).extractLsb' 0 2 ++ imm ++ guardCode g : BitVec 32))
  | .pand g p a b na nb => some (fmtR 0x25 (0#2 ++ p : BitVec 5) (0#2 ++ a : BitVec 5) (0#2 ++ b : BitVec 5) (0#4 ++ BitVec.ofBool na ++ BitVec.ofBool nb : BitVec 6) g)
  | .por g p a b na nb => some (fmtR 0x26 (0#2 ++ p : BitVec 5) (0#2 ++ a : BitVec 5) (0#2 ++ b : BitVec 5) (0#4 ++ BitVec.ofBool na ++ BitVec.ofBool nb : BitVec 6) g)
  | .pxor g p a b na nb => some (fmtR 0x27 (0#2 ++ p : BitVec 5) (0#2 ++ a : BitVec 5) (0#2 ++ b : BitVec 5) (0#4 ++ BitVec.ofBool na ++ BitVec.ofBool nb : BitVec 6) g)
  | .pnot g p a => some (fmtR 0x28 (0#2 ++ p : BitVec 5) (0#2 ++ a : BitVec 5) 0 0 g)
  | .sel g d a b ps => some (fmtR 0x29 d a b (0#3 ++ ps : BitVec 6) g)
  | .pmovGet g d => some (fmtR 0x2A d 0 0 0 g)
  | .pmovSet g a => some (fmtR 0x2A 0 a 0 1 g)
  | .lea g d imm => some (fmtI 0x2B d 0 imm g)
  | .waddr g d a w => some (fmtR 0x2C d a 0 (0#2 ++ w : BitVec 6) g)
  | .xaddr g d a b => some (fmtR 0x2D d a b 0 g)
  | .gaddr g d a b => some (fmtR 0x2E d a b 0 g)
  | .br g off => some (fmtL 0x30 0 off g)
  | .brl g a off => some (fmtL 0x31 a off g)
  | .jmp g d a => some (fmtR 0x32 d a 0 0 g)
  | .call g off => some (fmtL 0x33 0 off g)
  | .ret g => some (fmtR 0x34 0 0 0 0 g)
  | .loop g a off => some (fmtL 0x35 a off g)
  | .waite g n amt => some (fmtL 0x36 (0#2 ++ n : BitVec 5) amt g)
  | .nop g => some (fmtR 0x37 0 0 0 0 g)
  | .exit g => some (fmtR 0x38 0 0 0 0 g)
  | .exitSuccessors g a n => some (fmtR 0x38 0 a 0 (0#3 ++ n : BitVec 6) g)
  | .trap g code => some (fmtL 0x39 0 code g)
  | .ldg g d a imm => some (fmtI 0x40 d a imm g)
  | .stg g d a imm => some (fmtI 0x41 d a imm g)
  | .ldgx g d a b scaled sign z => some (fmtR 0x42 d a b (0#2 ++ BitVec.ofBool scaled ++ BitVec.ofBool sign ++ sizeCode z : BitVec 6) g)
  | .stgx g d a b scaled z => some (fmtR 0x43 d a b (0#2 ++ BitVec.ofBool scaled ++ BitVec.ofBool false ++ sizeCode z : BitVec 6) g)
  | .lds g d a imm => some (fmtI 0x44 d a imm g)
  | .sts g d a imm => some (fmtI 0x45 d a imm g)
  | .stx g d a => some (fmtR 0x46 d a 0 0 g)
  | .pref g a imm => some (fmtI 0x47 0 a imm g)
  | .amo g d a op o sc => some (fmtR 0x48 d a (amoCode op) (ordCode o ++ scopeCode sc : BitVec 6) g)
  | .amof g d a op o sc => some (fmtR 0x49 d a (amoCode op) (ordCode o ++ scopeCode sc : BitVec 6) g)
  | .cas g d a b o sc => some (fmtR 0x4A d a b (ordCode o ++ scopeCode sc : BitVec 6) g)
  | .acq g d a sc => some (fmtR 0x4B d a 0 (0#3 ++ scopeCode sc : BitVec 6) g)
  | .rel g d a sc => some (fmtR 0x4C d a 0 (0#3 ++ scopeCode sc : BitVec 6) g)
  | .bind g d a b => some (fmtR 0x4D d a b 0 g)
  | .unbind g d a b => some (fmtR 0x4E d a b 0 g)
  | .fence g o sc => some (fmtR 0x4F 0 0 0 (ordCode o ++ scopeCode sc : BitVec 6) g)
  | .bar g a sc => some (fmtR 0x50 0 a 0 (0#3 ++ scopeCode sc : BitVec 6) g)
  | .barw g a sc => some (fmtR 0x51 0 a 0 (0#3 ++ scopeCode sc : BitVec 6) g)
  | .wait g d a t => some (fmtR 0x52 d a t 0 g)
  | .signal g a b => some (fmtR 0x53 0 a b 0 g)
  | .give g d a b w => some (fmtR 0x58 d a b (0#2 ++ w : BitVec 6) g)
  | .openw g d rw tagged w => some (fmtR 0x59 d 0 0 (BitVec.ofBool rw ++ BitVec.ofBool tagged ++ w : BitVec 6) g)
  | .close g d w => some (fmtR 0x5A d 0 0 (0#2 ++ w : BitVec 6) g)
  | .swapb g d a w => some (fmtR 0x5B d a 0 (0#2 ++ w : BitVec 6) g)
  | .bstat g d w => some (fmtR 0x5C d 0 0 (0#2 ++ w : BitVec 6) g)
  | .bzero g w => some (fmtR 0x5D 0 0 0 (0#2 ++ w : BitVec 6) g)
  | .tlook g d a w => some (fmtR 0x5E d a 0 (0#2 ++ w : BitVec 6) g)
  | .tset g a b w => some (fmtR 0x5F 0 a b (0#2 ++ w : BitVec 6) g)
  | .tinv g a w => some (fmtR 0x60 0 a 0 (0#2 ++ w : BitVec 6) g)
  | .tclr g w => some (fmtR 0x61 0 0 0 (0#2 ++ w : BitVec 6) g)
  | .dpush g d a => some (fmtR 0x64 d a 0 0 g)
  | .dpop g d t => some (fmtR 0x65 d 0 t 0 g)
  | .dsteal g d a t => some (fmtR 0x66 d a t 0 g)
  | .launch g d a => some (fmtR 0x67 d a 0 0 g)
  | .dec g a => some (fmtR 0x68 0 a 0 0 g)
  | .issue g cmd a b wt => some (((0x70 : BitVec 7) ++ cmd ++ a ++ b ++ (0 : BitVec 2) ++ BitVec.ofBool wt ++ guardCode g : BitVec 32))
  | .issuex g cmd a b wt => some (((0x71 : BitVec 7) ++ cmd ++ a ++ b ++ (0 : BitVec 2) ++ BitVec.ofBool wt ++ guardCode g : BitVec 32))
  | .cdrain g a => some (fmtR 0x72 0 a 0 0 g)
  | .glv g d => some (fmtR 0x73 d 0 0 0 g)
  | .glvCur g d => some (fmtR 0x73 d 0 0 1 g)
  | .glvReg g d => some (fmtR 0x73 d 0 0 2 g)
  | .rate g d a => some (fmtR 0x74 d a 0 0 g)
  | .rateWin g d => some (fmtR 0x74 d 0 0 1 g)
  | .mfs g d n => some (fmtL 0x78 d n g)
  | .mts g d n => some (fmtL 0x79 d n g)
  | .eret g => some (fmtR 0x7A 0 0 0 0 g)
  | .tlbiPage g a => some (fmtR 0x7B 0 a 0 0 g)
  | .tlbiCtx g => some (fmtR 0x7B 0 0 0 1 g)
  | _ => none

/-- A command word from its code and fields (R145). -/
def packCmd (code : BitVec 8) (c : StreamCmd) : CmdWord :=
  (code ++ c.port ++ c.cls ++ c.flags ++ c.tag ++ c.addr ++ c.count ++ c.index : BitVec 128)

/-- The 128-bit word of a stream command. -/
def encodeCmd : Instr → Option CmdWord
  | .nopc c => some (packCmd 0x00 c)
  | .mld c => some (packCmd 0x01 c)
  | .mst c => some (packCmd 0x02 c)
  | .sld c => some (packCmd 0x03 c)
  | .sst c => some (packCmd 0x04 c)
  | .tld c => some (packCmd 0x05 c)
  | .tst c => some (packCmd 0x06 c)
  | .cpy c => some (packCmd 0x07 c)
  | .gather c => some (packCmd 0x08 c)
  | .scatter c => some (packCmd 0x09 c)
  | .mcast c => some (packCmd 0x0A c)
  | .lstat c => some (packCmd 0x0B c)
  | .lswap c => some (packCmd 0x0C c)
  | .arm c => some (packCmd 0x0D c)
  | .disarm c => some (packCmd 0x0E c)
  | .kgraph c => some (packCmd 0x0F c)
  | .barrier c => some (packCmd 0x10 c)
  | .tapset c => some (packCmd 0x11 c)
  | .evcfg c => some (packCmd 0x12 c)
  | .evpulse c => some (packCmd 0x13 c)
  | .step c => some (packCmd 0x14 c)
  | .rcflush c => some (packCmd 0x15 c)
  | .wagwin c => some (packCmd 0x16 c)
  | .laypin c => some (packCmd 0x17 c)
  | .layreqBottleneck c => some (packCmd 0x18 c)
  | .layreqSuspend c => some (packCmd 0x18 c)
  | .layreqResume c => some (packCmd 0x18 c)
  | .segmark c => some (packCmd 0x19 c)
  | .btoken c => some (packCmd 0x1A c)
  | .amostrm c => some (packCmd 0x1B c)
  | .redwinOpen c => some (packCmd 0x1C c)
  | .redwinClose c => some (packCmd 0x1C c)
  | .fill c => some (packCmd 0x1D c)
  | .cfgld c => some (packCmd 0x1E c)
  | .pflush c => some (packCmd 0x1F c)
  | _ => none

/-- The bytes of an instruction or command as memory holds them; an event has none. -/
def encode (i : Instr) : List Byte :=
  match encodeWord i with
  | some w => leBytes 4 w.toNat
  | none =>
    match encodeCmd i with
    | some w => leBytes 16 w.toNat
    | none => []

/-- The instruction this decoder reads from nbits bits numbered as the opcode table numbers them: a scalar word up to 32 bits,
a stream command at 128. -/
def decodeTableWord (nbits w : Nat) : Option Instr :=
  if nbits ≤ 32 then
    match decode (leBytes 4 (w % 2 ^ nbits)) with
    | .ok (i, _) => some i
    | .error _ => none
  else if nbits ≤ 128 then
    match decodeCmdBytes (leBytes 16 (w % 2 ^ nbits)) with
    | .ok (i, _) => some i
    | .error _ => none
  else none

end Sys2Proof
end

