-- ==== Sys2Proof/Machine/Bits.lean ====
section
/-! DEFINITION. Bit fields, sign extension and byte order of registers, tokens and memory words (R5, R6). -/

namespace Sys2Proof.Machine

/-- Bits [hi:lo] of a number. -/
def bits (x hi lo : Nat) : Nat := x / 2 ^ lo % 2 ^ (hi + 1 - lo)

/-- Bit n of a number. -/
def bit (x n : Nat) : Bool := x / 2 ^ n % 2 == 1

/-- Sign extension to 64 bits. -/
def sext {n : Nat} (x : BitVec n) : Word := x.signExtend 64

/-- Zero extension to 64 bits. -/
def zext {n : Nat} (x : BitVec n) : Word := x.setWidth 64

/-- A 64-bit word as its eight bytes, least significant first (R6). -/
def wordBytes (w : Word) : List Byte := leBytes 8 w.toNat

/-- The 64-bit word of bytes, least significant first (R6). -/
def bytesWord (bs : List Byte) : Word := BitVec.ofNat 64 (leNat bs)

/-- Element j of an n-bit format in a token's data (R6). -/
def elemAt (data n j : Nat) : Nat := data / 2 ^ (n * j) % 2 ^ n

/-- Elements, element 0 lowest, packed into one number (R6). -/
def packElems (n : Nat) : List Nat → Nat
  | [] => 0
  | x :: xs => x % 2 ^ n + 2 ^ n * packElems n xs

/-- The first k elements of an n-bit format. -/
def elems (data n k : Nat) : List Nat := (List.range k).map (elemAt data n)

/-- The signed value of an n-bit number. -/
def toSigned (n x : Nat) : Int := if x % 2 ^ n < 2 ^ (n - 1) then ((x % 2 ^ n : Nat) : Int) else ((x % 2 ^ n : Nat) : Int) - ((2 ^ n : Nat) : Int)

/-- The n-bit pattern of an integer. -/
def ofSigned (n : Nat) (v : Int) : Nat := (v % ((2 ^ n : Nat) : Int)).toNat

/-- The number of ceil(a / b). -/
def ceilDiv (a b : Nat) : Nat := (a + b - 1) / b

/-- Leading zeros of a 64-bit word (R173). -/
def clz64 (w : Word) : Nat := if w.toNat = 0 then 64 else 63 - w.toNat.log2

/-- One bits of a number's low n bits (R173). -/
def popN : Nat → Nat → Nat
  | 0, _ => 0
  | n + 1, x => x % 2 + popN n (x / 2)

/-- One step of the reflected CRC-32C register (R89: polynomial 0x1EDC_6F41, reflected 0x82F6_3B78). -/
def crcBit (c : BitVec 32) : BitVec 32 := if c.getLsbD 0 then (c >>> 1) ^^^ 0x82F63B78#32 else c >>> 1

/-- The CRC register after k bit steps. -/
def crcBits : Nat → BitVec 32 → BitVec 32
  | 0, c => c
  | k + 1, c => crcBits k (crcBit c)

/-- The CRC register over bytes. -/
def crcRun (c : BitVec 32) (bs : List Byte) : BitVec 32 := bs.foldl (fun c b => crcBits 8 (c ^^^ b.setWidth 32)) c

/-- CRC-32C of bytes: initial value and final XOR all ones (R89). -/
def crc32c (bs : List Byte) : BitVec 32 := crcRun 0xFFFFFFFF#32 bs ^^^ 0xFFFFFFFF#32

end Sys2Proof.Machine
end

