-- ==== Sys2Proof/Machine/Memory.lean ====
section
/-! DEFINITION. Sparse memory and sparse tables: lists with strictly rising keys, which list nothing that an unlisted key reads as. -/

namespace Sys2Proof.Machine

/-- Bytes by address. An unlisted address reads as zero: DRAM, comb SRAM and recall store hold zero after start (R451), banks hold
zero after reset (R337), and every bank that returns to the pool is zeroed (R216). -/
abbrev Memory := List Host.Cell

/-- What an unlisted address reads as. -/
def Memory.blank : Byte := 0

/-- Read one byte. -/
def Memory.read : Memory → Nat → Byte
  | [], _ => Memory.blank
  | (k, v) :: rest, a => if k = a then v else if a < k then Memory.blank else Memory.read rest a

/-- Write one byte; writing what an unlisted address reads as removes the entry. -/
def Memory.write : Memory → Nat → Byte → Memory
  | [], a, b => if b = Memory.blank then [] else [(a, b)]
  | (k, v) :: rest, a, b =>
    if a < k then (if b = Memory.blank then (k, v) :: rest else (a, b) :: (k, v) :: rest)
    else if a = k then (if b = Memory.blank then rest else (a, b) :: rest)
    else (k, v) :: Memory.write rest a b

/-- All keys of a memory lie above a bound, rise strictly, and no entry is what an unlisted address reads as. -/
def Memory.wfFrom : Nat → Memory → Bool
  | _, [] => true
  | lo, (k, v) :: rest => lo ≤ k && v != Memory.blank && Memory.wfFrom (k + 1) rest

/-- The canonical form of a memory. -/
def Memory.wf (m : Memory) : Bool := Memory.wfFrom 0 m

/-- Read n bytes upward from an address. -/
def Memory.readN (m : Memory) (a : Nat) : Nat → List Byte
  | 0 => []
  | n + 1 => Memory.read m a :: Memory.readN m (a + 1) n

/-- Write bytes upward from an address. -/
def Memory.writeN (m : Memory) (a : Nat) : List Byte → Memory
  | [] => m
  | b :: bs => Memory.writeN (Memory.write m a b) (a + 1) bs

/-- Set the n bytes from lo to zero. -/
def Memory.clear (m : Memory) (lo n : Nat) : Memory := m.filter fun c => !(lo ≤ c.1 && c.1 < lo + n)

/-- A table by number, with strictly rising keys. -/
abbrev Tbl (β : Type) := List (Nat × β)

/-- The entry of a key. -/
def find {β : Type} (t : Tbl β) (k : Nat) : Option β :=
  match t with
  | [] => none
  | (j, v) :: rest => if j = k then some v else if k < j then none else find rest k

/-- Set the entry of a key. -/
def put {β : Type} (t : Tbl β) (k : Nat) (v : β) : Tbl β :=
  match t with
  | [] => [(k, v)]
  | (j, u) :: rest => if k < j then (k, v) :: (j, u) :: rest else if k = j then (k, v) :: rest else (j, u) :: put rest k v

/-- Remove the entry of a key. -/
def del {β : Type} (t : Tbl β) (k : Nat) : Tbl β :=
  match t with
  | [] => []
  | (j, u) :: rest => if j = k then rest else if k < j then (j, u) :: rest else (j, u) :: del rest k

/-- The entry of a key, or a default. -/
def findD {β : Type} (t : Tbl β) (k : Nat) (d : β) : β := (find t k).getD d

/-- The keys of a table rise strictly from a bound. -/
def Tbl.wfFrom {β : Type} : Nat → Tbl β → Bool
  | _, [] => true
  | lo, (k, _) :: rest => lo ≤ k && Tbl.wfFrom (k + 1) rest

/-- The canonical form of a table. -/
def Tbl.wf {β : Type} (t : Tbl β) : Bool := Tbl.wfFrom 0 t

/-- Replace the i-th element of a list. -/
def setAt {α : Type} : List α → Nat → α → List α
  | [], _, _ => []
  | _ :: xs, 0, v => v :: xs
  | x :: xs, i + 1, v => x :: setAt xs i v

/-- Change the i-th element of a list. -/
def modAt {α : Type} : List α → Nat → (α → α) → List α
  | [], _, _ => []
  | x :: xs, 0, f => f x :: xs
  | x :: xs, i + 1, f => x :: modAt xs i f

/-- Remove the i-th element of a list. -/
def dropAt {α : Type} : List α → Nat → List α
  | [], _ => []
  | _ :: xs, 0 => xs
  | x :: xs, i + 1 => x :: dropAt xs i

end Sys2Proof.Machine
end

