-- ==== Sys2Proof/Machine/State.lean ====
section
/-! DEFINITION. The state of one package, as plain data: everything the spec gives the machine. INVENTORY.md lists each piece with
the rule that names it and its reset value. -/

namespace Sys2Proof.Machine

/-- The named stops of the machine. -/
inductive Fault where
  /-- Raised by every step after THERMAL_TRIP: at 115 °C the package powers off (R450) and nothing runs. Safe: no later state. -/
  | poweredOff
deriving DecidableEq, Repr, Inhabited

/-- The named refusals of the machine. -/
inductive Refusal where
  /-- An instruction without a meaning in this model, by its mnemonic. Raised by exec alone; safe. -/
  | notModelled (mnemonic : String)
deriving DecidableEq, Repr, Inhabited

/-! ### Tokens and links -/

/-- The sideband of a token (R35); the valid bit is the token's presence in a slot. -/
structure Tag where
  ctx      : BitVec 12 := 0
  thread   : BitVec 20 := 0
  seq      : BitVec 24 := 0
  replayed : Bool := false
  late     : Bool := false
  barrier  : Bool := false
  eot      : Bool := false
  sot      : Bool := false
  last     : Bool := false
  first    : Bool := false
deriving DecidableEq, Repr, Inhabited

/-- A token: 1,024 data bits, or 2,560 on a wide link (R70), and its sideband. -/
structure Token where
  data : BitVec 2560
  tag  : Tag
deriving DecidableEq, Repr, Inhabited

/-- A token in a link with the cycle from which the consumer may take it (R38, R270, R301). -/
structure Slot where
  tok   : Token
  ready : Nat
deriving DecidableEq, Repr, Inhabited

/-- One link between two placed instances (R38, R39), with the waggle counters of the written link it carries (R117). -/
structure Link where
  src     : Nat
  sp      : Nat
  dst     : Nat
  dp      : Nat
  slots   : Nat
  toks    : List Slot := []
  freed   : Nat := 0
  freedAt : Nat := 0
  written : Option Nat := none
  passed  : BitVec 17 := 0
  stall   : BitVec 17 := 0
  starve  : BitVec 17 := 0
deriving DecidableEq, Repr, Inhabited

/-! ### Cells -/

/-- A weight plane of a MAT: for each of 32 columns the code token and its scale token (R249, R273). -/
abbrev Plane := List (BitVec 1024 × BitVec 1024)

/-- A MAT: active and shadow plane, an LSWAP waiting for a segment boundary (R250, R273). -/
structure MatSt where
  active : Plane := []
  shadow : Plane := []
  swap   : Bool := false
deriving DecidableEq, Repr, Inhabited

/-- Flags that a segment's input tokens hand to its output segment (R271). -/
structure Carry where
  first    : Bool := false
  last     : Bool := false
  replayed : Bool := false
deriving DecidableEq, Repr, Inhabited

/-- One accumulator set of an ACC: its key, the tokens added, the accumulators other than +0 by row × 32 + lane, what the added tokens
carry, and its release in progress: the next token, and whether the input token that caused it is consumed with the last (R276 to R278). -/
structure AccSet where
  key   : Option (BitVec 20) := none
  n     : Nat := 0
  acc   : Tbl (BitVec 80) := []
  thread : BitVec 20 := 0
  carry : Carry := {}
  rel   : Option (Nat × Bool) := none
deriving DecidableEq, Repr, Inhabited

/-- A result or element with what it carries: its bits, whether it is the first of an input token with first, the last of one with last. -/
structure Elem where
  bits  : Nat
  first : Bool := false
  last  : Bool := false
deriving DecidableEq, Repr, Inhabited

/-- Packing of results into output tokens: results not yet emitted, whether the output segment has begun, its thread, replayed (R271). -/
structure Pack where
  pend   : List Elem := []
  begun  : Bool := false
  thread : BitVec 20 := 0
  replayed : Bool := false
deriving DecidableEq, Repr, Inhabited

/-- A RED: running values and indices by position, tokens taken since the last reset, what the segment's tokens carry (R287 to R290). -/
structure RedSt where
  vals  : Tbl Int := []
  idxs  : Tbl Nat := []
  taken : Nat := 0
  carry : Carry := {}
  pack  : Pack := {}
deriving DecidableEq, Repr, Inhabited

/-- The open segment of one thread at a CVT or BFY: input elements not yet used, results not yet emitted (R296, R304). -/
structure RepackSt where
  ins  : List Elem := []
  pack : Pack := {}
deriving DecidableEq, Repr, Inhabited

/-- A CNT: its run in progress (count, next index), runs made, budget, unreturned credits, a count read held by a stage-2 fault (R306
to R309, R352). -/
structure CntSt where
  running : Bool := false
  n       : Nat := 0
  k       : Nat := 0
  runs    : Nat := 0
  budget  : Nat := 0
  started : Bool := false
  credits : Nat := 0
  held    : Bool := false
deriving DecidableEq, Repr, Inhabited

/-- One access of a stream element: its bytes, where they lie in the token, and, for a store, what it writes: data, the scale bytes of
its blocks, or an atomic update (R243, R312, R357). With a geometry it is the access of the scale bytes of those bytes' blocks (R77, R79). The
block length of the page of a stream's first access must divide `grain` (R76). With `nib` it is the access of one 4-bit element, in the lower or
upper half of its byte. -/
structure Piece where
  addr   : Word
  bytes  : Nat
  bitOff : Nat := 0
  out    : List Byte := []
  scale  : List Byte := []
  upd    : Option (AmoOp × BitVec 32) := none
  geom   : Option Nat := none
  grain  : Nat := 0
  nib    : Option Nat := none
deriving DecidableEq, Repr, Inhabited

/-- A token that an AGN is reading: for a command its core and number, its tag, data and scales so far, the accesses still to make and those spilled, and, for a window load, the cycle from which it may be consumed
(R301, R318, R359); `quiet` where it needs no access. -/
structure TokBuf where
  id      : Nat
  owner   : Option (Nat × Nat) := none
  tag     : Tag
  data    : BitVec 1024 := 0
  scale   : BitVec 1024 := 0
  block   : Bool := false
  fmt     : Nat := 15
  spd     : Word := 0
  todo    : List Piece := []
  spilled : Nat := 0
  opened  : Bool := false
  fill    : Nat := 0
  win     : Bool := false
  due     : Nat := 0
  late    : Bool := false
  quiet   : Bool := false
deriving DecidableEq, Repr, Inhabited

/-- A stored segment: its tile, its tag, whether its end has reached the section's count (R46, R315). -/
structure Ack where
  id      : Nat
  tile    : Nat
  tag     : Tag
  counted : Bool := false
deriving DecidableEq, Repr, Inhabited

/-- An AGN: the tile walked and the next one, the thread of the walk and that of the input segment a storing one takes for it, the tokens read, the
accesses of a store token, the walk's budget and its acknowledgements (R312 to R318), and responses of copy commands that follow those of an earlier one (R246). -/
structure AgnSt where
  walking : Bool := false
  tile    : Nat := 0
  pos     : Nat := 0
  j       : Nat := 0
  spd     : Word := 0
  thread  : BitVec 20 := 0
  taken   : BitVec 20 := 0
  wfirst  : Bool := false
  wlast   : Bool := false
  budget  : Nat := 0
  started : Bool := false
  fresh   : Bool := true
  bufs    : List TokBuf := []
  nextId  : Nat := 0
  puts    : List Piece := []
  eot     : Bool := false
  excess  : Bool := false
  replayed : Bool := false
  acks    : List Ack := []
  begun   : Tbl Word := []
  resps   : List TokBuf := []
deriving DecidableEq, Repr, Inhabited

/-- An RTE: the output of each thread's open segment (4 where it is discarded), the next output in cyclic order, tokens a merge holds
with the input each came by, the sequence expected next by thread, and the instances still to be served in turn (R123, R128, R320 to R324). -/
structure RteSt where
  cur    : Tbl Nat := []
  pos    : Nat := 0
  held   : List (Nat × Token) := []
  expect : Tbl (BitVec 24) := []
  route  : List Nat := []
deriving DecidableEq, Repr, Inhabited

/-- One open capture of a GAT: its thread, tile, step and input, the output returned so far; `bad` where no entry will be written (R260,
R327, R328). -/
structure Capture where
  thread : BitVec 20
  tile   : Nat
  step   : BitVec 32
  input  : List (BitVec 1024)
  output : List Token := []
  bad    : Bool := false
deriving DecidableEq, Repr, Inhabited

/-- One output of a GAT in input order, with its thread: a miss whose output returns on i1, or a replay of an entry with the tokens still to
write (R328). -/
inductive GatOut where
  | miss (thread : BitVec 20)
  | replay (thread : BitVec 20) (entry : Nat) (toks : List Token)
deriving DecidableEq, Repr, Inhabited

/-- A GAT: tile counter and last step by key, the input tokens held with the step sampled at each open segment's start by thread, the thread
whose segment is whole, threads whose over-long segment passes uncaptured (with its replayed mark), tokens to forward, captures oldest
first, outputs in order (R326 to R328). -/
structure GatSt where
  tiles  : Tbl Nat := []
  steps  : Tbl (BitVec 32) := []
  held   : List Token := []
  sampled : Tbl (BitVec 32) := []
  whole  : Option (BitVec 20) := none
  pass   : Tbl Bool := []
  fwd    : List Token := []
  caps   : List Capture := []
  outs   : List GatOut := []
deriving DecidableEq, Repr, Inhabited

/-- The private state of a cell, by kind (R32). -/
inductive CellState where
  | mat (m : MatSt)
  | acc (sets : List AccSet)
  | vec
  | red (r : RedSt)
  | fnc (table : List (BitVec 32))
  | cvt (r : Tbl RepackSt)
  | bfy (r : Tbl RepackSt)
  | cnt (c : CntSt)
  | agn (a : AgnSt)
  | rte (r : RteSt)
  | gat (g : GatSt)
  | tap
deriving DecidableEq, Repr, Inhabited

/-- What a placed instance is (R133). -/
inductive Role where
  | node | split | merge
deriving DecidableEq, Repr, Inhabited

/-- Tokens that a firing has still to write in one later cycle, each with the port it leaves by, and their latency (R271). -/
structure Emit where
  toks : List (Nat × Token)
  lat  : Nat
deriving DecidableEq, Repr, Inhabited

/-- One placed instance of a node, or an inserted RTE (R129, R133); `held` while a stage-2 fault holds a read of its table (R352); `opens` and
`ends` are the open segments by input and thread and those that the node's split has told it to close (R44), `skip` the inputs whose segment is
being discarded, `emitted` the last sequence written (R285), `nexts` the sequence after the last taken, by input and thread (R49), `mates` the
segments of other threads that are paired with one of i0, by its thread (R284), `shut` where the tile of a segment closed early is counted once
the tokens in hand are written (R45). -/
structure Inst where
  node   : Nat
  copy   : Nat := 0
  role   : Role := .node
  iport  : Nat := 0
  rank   : Nat := 0
  cell   : Nat := 0
  entry  : Nat := 0
  hdr    : BitVec 64 := 0
  words  : List Word := []
  loaded : Bool := true
  held   : Bool := false
  dead   : Bool := false
  folded : Bool := false
  gone   : Bool := false
  fired  : Option Nat := none
  outq   : List Emit := []
  outAt  : Option Nat := none
  due    : List Nat := []
  seqs   : Tbl (BitVec 24) := []
  opens  : List (Nat × Nat) := []
  ends   : List (Nat × Nat) := []
  skip   : List Nat := []
  emitted : BitVec 24 := 0
  nexts  : Tbl (BitVec 24) := []
  mates  : Tbl (List (Nat × Nat)) := []
  shut   : Bool := false
  st     : CellState := .vec
deriving DecidableEq, Repr, Inhabited

/-! ### Control cores -/

/-- States of a window (R166). -/
inductive WinState where
  | detached | attached | opened | draining
deriving DecidableEq, Repr, Inhabited

/-- Modes of a window (R166). -/
inductive WinMode where
  | plain | tagged | exchange
deriving DecidableEq, Repr, Inhabited

/-- A bank of a die (R166). -/
structure BankId where
  quad : BitVec 5
  bank : BitVec 5
deriving DecidableEq, Repr, Inhabited

/-- One bank window of a core: bank map (R166), shadow bank (R340), reserved mark of a give (R218), valid tag entries (R223). -/
structure Win where
  state  : WinState := .detached
  mode   : WinMode := .plain
  w      : Bool := false
  bank   : Option BankId := none
  shadow : Option BankId := none
  resv   : Bool := false
  tags   : Tbl (BitVec 54) := []
deriving DecidableEq, Repr, Inhabited

/-- One term slot of an event crossbar (R255, R400), with the number of the cycle after the one in which it last acted. -/
structure Term where
  word : BitVec 40 := 0
  a    : Bool := false
  b    : Bool := false
  pend : BitVec 8 := 0
  last : Nat := 0
deriving DecidableEq, Repr, Inhabited

/-- How far a started command has got: tokens, tiles or rows done and the place in the present one, the markers that a SEGMARK set for it,
index lanes in hand with their threads, whether the index segment has ended, the accesses of a token in hand and whether that token ends a
segment; whether the rest of the command has been dropped (R233, R234, R240 to R257). -/
structure Prog where
  started : Bool := false
  n       : Nat := 0
  j       : Nat := 0
  mark    : BitVec 4 := 0
  idx     : List (Int × BitVec 20) := []
  eoi     : Bool := false
  pieces  : List Piece := []
  eot     : Bool := false
  dropped : Bool := false
deriving DecidableEq, Repr, Inhabited

/-- A command queued at a port: its word, its command-store index, its overrides, the SPD sampled, its place in issue order, its number among all
requests (R218, R228, R229, R234). -/
structure QCmd where
  word   : CmdWord
  index  : Nat := 0
  empty  : Bool := false
  addrOv : Word := 0
  cntOv  : Word := 0
  spd    : Word := 0
  id     : Nat := 0
  num    : Nat := 0
  prog   : Prog := {}
deriving DecidableEq, Repr, Inhabited

/-- A fabric port: commands not yet left (at most 8), commands that have left the head and not completed, the SEGMARK mark (R233,
R234, R257). -/
structure Port where
  queue : List QCmd := []
  left  : List QCmd := []
  mark  : BitVec 4 := 0
deriving DecidableEq, Repr, Inhabited

/-- A walk of the graph sequencer (R252): next entry, entries left, whether they follow without waiting, the command it serves. -/
structure Walk where
  next  : Nat
  left  : Nat
  free  : Bool
  last  : Option (Nat × Nat)
  port  : Nat
  id    : Nat
deriving DecidableEq, Repr, Inhabited

/-- A blocking operation with a request outstanding (R194), in the form it is applied at its target. -/
inductive BlockOp where
  | ldg (d : Reg) (a : Word) (z : Size) (sign : Bool)
  | lds (d : Reg) (a : Word)
  | amof (d : Reg) (a : Word) (op : AmoOp) (v : Word) (rel : Bool)
  | cas (d : Reg) (a : Word) (old new : Word) (rel : Bool)
  | acq (d : Reg) (a : Word)
  | rel (d : Reg) (a : Word)
  | bind (d : Reg) (a base len : Word)
  | unbind (d : Reg) (a base : Word)
  | fence
  | wait (d t : Reg) (a : Word)
  | close (d : Reg) (w : BitVec 4) (below : Nat)
  | swapb (d : Reg) (w w2 : BitVec 4) (below : Nat)
  | tlook (d : Reg) (w : BitVec 4) (a : Word)
  | tset (w : BitVec 4) (a b : Word)
  | tinv (w : BitVec 4) (a : Word)
  | tclr (w : BitVec 4)
  | dpush (d : Reg) (v : Word)
  | dpop (d t : Reg)
  | dsteal (d t : Reg) (victim : Word)
  | launch (d : Reg) (a : Word)
  | exit (a : Word) (next n : Nat)
  | tlbiPage (a : Word)
  | tlbiCtx
  | cdrain (mask : BitVec 16) (below : Nat)
  | command (port : Nat) (id : Nat)
  | barw (b : BitVec 2) (sc : Scope)
  | give (d : Reg) (w : BitVec 4) (target : Nat) (w2 : BitVec 4) (below : Nat)
deriving DecidableEq, Repr, Inhabited

/-- What holds a control core: nothing, an outstanding access (held by a stage-2 fault or not, R352; with the instruction word), a WAITE (R185), a BARW after
its arrival (R212), a parked WAIT (R106), a WAIT that found the table full and waits for its pre-emption (R107). -/
inductive Wait where
  | none
  | access (op : BlockOp) (held : Bool) (word : Word)
  | event (n : BitVec 3) (amt : BitVec 16)
  | barrier (b : BitVec 2) (sc : Scope) (done : Bool)
  | parked (d t : Reg) (a : Word)
  | full (t : Reg)
  | woken (d t : Reg) (v : Word)
deriving DecidableEq, Repr, Inhabited

/-- Whether a control core runs a group (R187, R190, R419). -/
inductive Status where
  | idle | running | exited | halted
deriving DecidableEq, Repr, Inhabited

/-- One control core with its windows, ports, sequencer and event crossbar (R159 to R168). Field `swaps` holds the exchange windows
whose swap waits, each with the writes it waits for (R396). -/
structure CoreSt where
  g        : Vector Word 32 := Vector.replicate 32 0
  p        : BitVec 7 := 0
  pc       : Word := 0
  ec       : Vector (BitVec 32) 8 := Vector.replicate 8 0
  dqbase   : BitVec 17 := 0
  dqlim    : BitVec 18 := 0
  tvEn     : Bool := false
  tvAddr   : BitVec 30 := 0
  code     : BitVec 16 := 0
  cause    : BitVec 8 := 0
  trapaddr : Word := 0
  epc      : Word := 0
  intrap   : Bool := false
  wins     : Vector Win 16 := Vector.replicate 16 {}
  terms    : Vector Term 16 := Vector.replicate 16 {}
  ports    : Vector Port 16 := Vector.replicate 16 {}
  walk     : Option Walk := none
  issued   : Nat := 0
  swaps    : List (Nat × List Nat) := []
  status   : Status := .idle
  wait     : Wait := .none
  group    : Option Nat := none
  rank     : Nat := 0
deriving DecidableEq, Repr, Inhabited

/-! ### Graph objects (R54, R55) -/

/-- A node of a graph object: setting and node record (R33, R55). -/
structure Node where
  hdr     : BitVec 64
  words   : List Word
  lo      : Word := 0
  hi      : Word := 0
  space   : Nat := 0
  noclone : Bool := false
deriving DecidableEq, Repr, Inhabited

/-- A written link (R55). -/
structure GLink where
  src : Nat
  sp  : Nat
  dst : Nat
  dp  : Nat
  slots : Nat
deriving DecidableEq, Repr, Inhabited

/-- A section (R45, R55). -/
structure GSec where
  members : List Nat
  point   : Nat
deriving DecidableEq, Repr, Inhabited

/-- An event term of a graph object (R55). -/
structure GTerm where
  counter : Nat
  kind    : Nat
  index   : Nat
  amt     : Nat
deriving DecidableEq, Repr, Inhabited

/-- A tensor map (R51, R55). -/
structure TMap where
  rank    : Nat
  fmt     : Nat
  pad     : BitVec 128
  dims    : List Nat
  tile    : List Nat
  strides : List Int
deriving DecidableEq, Repr, Inhabited

/-- A loaded graph object (R54, R55, R143). -/
structure GObj where
  wins  : List (Nat × Nat × Nat) := []
  nodes : List Node := []
  links : List GLink := []
  secs  : List GSec := []
  terms : List GTerm := []
  maps  : List TMap := []
  cmds  : List CmdWord := []
  code  : List Word32 := []
  entry : Option Nat := none
  hash  : BitVec 384 := 0
deriving DecidableEq, Repr, Inhabited

/-! ### Groups -/

/-- Where a group stands. -/
inductive GStatus where
  | placing | running | preempted | ended
deriving DecidableEq, Repr, Inhabited

/-- One section of a running group: its tile count, and end-of-tile tokens that its count point has finished and COUNT_POINT_FINISH has
still to count (R45, R251). -/
structure Sec where
  count : BitVec 24 := 0
  fin   : Nat := 0
deriving DecidableEq, Repr, Inhabited

/-- One phase of a barrier in one instance of its scope (R392, R393): arrivals counted and expected, the cores arrived with the number
of their next request at that point, tap arrivals by node; the TAPSET counts it goes by and the cycle of its first arrival (R254). -/
structure Phase where
  count    : Nat := 0
  expected : Nat := 0
  arrived  : List (Nat × Nat) := []
  taps     : Tbl Nat := []
  busy     : Bool := false
  sets     : Tbl Nat := []
  since    : Nat := 0
deriving DecidableEq, Repr, Inhabited

/-- Latched waggle rates of a written link (R117). -/
structure Rate where
  passed : BitVec 17 := 0
  stall  : BitVec 17 := 0
  starve : BitVec 17 := 0
deriving DecidableEq, Repr, Inhabited

/-- A layout change (R121 to R126): the node cloned, the pair folded, the node unfolded. -/
inductive Change where
  | clone (node : Nat)
  | fold (mover target : Nat)
  | unfold (node : Nat)
deriving DecidableEq, Repr, Inhabited

/-- Phases of a splice (R127). -/
inductive SPhase where
  | prepare | armed | move | switch
deriving DecidableEq, Repr, Inhabited

/-- A splice in progress (R127 to R129): its change, phase, the instance prepared and the cells of inserted RTEs, when it was armed, the last
firing of each instance concerned at that time, the links still to switch with their replacements, and the table that an FNC takes to its new cell. -/
structure Splice where
  change : Change
  phase  : SPhase
  rank   : Nat
  cell   : Nat
  entry  : Nat
  rtes   : List (Nat × Nat × Nat) := []
  armed  : Nat := 0
  marks  : List (Nat × Option Nat) := []
  switch : List (Nat × Nat) := []
  table  : Option (List (BitVec 32)) := none
deriving DecidableEq, Repr, Inhabited

/-- Counts of a group that its layout records carry (R132). -/
structure LayCounts where
  segErr  : BitVec 32 := 0
  orphans : BitVec 32 := 0
  clones  : BitVec 32 := 0
  folds   : BitVec 32 := 0
  unfolds : BitVec 32 := 0
  cancel  : BitVec 32 := 0
deriving DecidableEq, Repr, Inhabited

/-- A pre-emption under way (R418): freeze or polite, the cycle of the request, frozen yet, and where in the context's save area the record will lie. -/
structure Preempt where
  freeze : Bool
  since  : Nat
  frozen : Bool := false
  place  : Nat := 0
deriving DecidableEq, Repr, Inhabited

/-- A copy command at an engine (R244, R245): its number among all requests, who issued it, the descriptor in progress with the
bytes copied, whether it is finished and how, and source bytes, by offset, as they stood before it wrote to them (R378). -/
structure CopyJob where
  num    : Nat := 0
  core   : Nat
  port   : Nat
  id     : Nat
  ctx    : Nat
  tenant : Nat
  group  : Nat
  list   : Word
  count  : Nat
  next   : Nat := 0
  pulse  : Bool := false
  resp   : Bool := false
  desc   : List Byte := []
  pos    : Nat := 0
  held   : Bool := false
  ready  : Bool := false
  status : Nat := 0
  old    : Tbl Byte := []
deriving DecidableEq, Repr, Inhabited

/-- The saved parts of a pre-empted group that its save record holds (R421): its cores, bank images and copy commands by engine number, and where
the record lies, as an address and in the save area. -/
structure Saved where
  cores : List CoreSt
  banks : List (List (Nat × Memory × Memory))
  jobs  : List (Nat × CopyJob)
  addr  : Word
  place : Nat := 0
deriving DecidableEq, Repr, Inhabited

/-- A group (R99 to R104), with the address of its graph object and the number that its SHA-384 hash makes, which identifies it (R56); `once` tells
that its layout found no place in the cache (R115). -/
structure Group where
  ctx     : Nat
  tenant  : Nat
  graph   : Word
  key     : Nat := 0
  block   : List Byte := []
  level   : Nat := 0
  admits  : Bool := false
  die     : Nat := 0
  first   : Nat := 0
  k       : Nat := 0
  status  : GStatus := .running
  gver    : BitVec 32 := 0
  launch  : Nat := 0
  insts   : List Inst := []
  links   : List Link := []
  secs    : List Sec := []
  phases  : Tbl Phase := []
  tapset  : Tbl Nat := []
  winLen  : Nat := 4096
  winNext : Nat := 4096
  winPrev : Nat := 0
  winAt   : Nat := 0
  wins    : Nat := 0
  rates   : List Rate := []
  prev    : List Rate := []
  changed : Nat := 0
  splice  : Option Splice := none
  folds   : List (Nat × Nat) := []
  pins    : List Nat := []
  bottle  : List Nat := []
  suspend : Bool := false
  counts  : LayCounts := {}
  added   : Nat := 0
  preempt : Option Preempt := none
  saved   : Option Saved := none
  once    : Bool := false
deriving DecidableEq, Repr, Inhabited

/-! ### Tenants and contexts -/

/-- An open reduction window (R266). -/
structure RedWin where
  base : Word
  words : Nat
deriving DecidableEq, Repr, Inhabited

/-- A queue monitor (R90, R453): where its header lies, whether a check is going on, since when it waits for a retry, whether a stage-2 fault
holds it, whether a fill of the future is due, whether the check has just started, and the last fault it recorded. -/
structure Monitor where
  header : Word
  ctx    : Nat
  place  : Nat := 0
  active : Bool := false
  retry  : Option Nat := none
  held   : Bool := false
  due    : Bool := false
  fresh  : Bool := false
  seen   : Option (Nat × Nat) := none
deriving DecidableEq, Repr, Inhabited

/-- A tenant (R60, R88, R101, R120, R345, R407, R415); `key` is its key slot: two keys of 256 bits. -/
structure Tenant where
  cfg    : TenantCfg
  key    : BitVec 512
  queues : Tbl Monitor := []
  redwin : Tbl RedWin := []
  down   : Bool := false
deriving DecidableEq, Repr, Inhabited

/-- What a context keeps for one graph object (R131, R132, R367). -/
structure GraphSt where
  obj    : GObj
  lver   : BitVec 32 := 0
  stepno : BitVec 32 := 0
  area   : Option Nat := none
  record : Nat := 0
deriving DecidableEq, Repr, Inhabited

/-- Source kinds of a fault record (R414). -/
inductive SrcKind where
  | core | cell | port | engine | memport | loader | network
deriving DecidableEq, Repr, Inhabited

/-- Where a spilled element goes once it is retried: a token of an AGN, a store of an AGN or of a command, a multicast token (first core of the
16 targets, their mask, window and offset), a weight column. -/
inductive SpillTo where
  | buf (inst id : Nat)
  | put (inst ack : Nat)
  | cmdPut
  | mcast (first : Nat) (mask : BitVec 16) (w : BitVec 4) (off : Nat)
  | lstat (node n : Nat)
deriving DecidableEq, Repr, Inhabited

/-- A spilled stream element (R357): its port, context, group and stream, the command it serves, the access, the faulting address, its
cause and level, whether a stage-2 fault holds it and whether it may be retried, and whether it has been tried itself. -/
structure Spill where
  port   : Nat
  ctx    : Nat
  group  : Nat
  stream : Nat × Nat × Nat
  cmd    : Option (Nat × Nat × Nat) := none
  dest   : SpillTo
  piece  : Piece
  fmt    : Nat
  spd    : Word
  write  : Bool
  fault  : Word
  cause  : BitVec 8
  level  : BitVec 32
  stage2 : Bool
  retry  : Bool := false
  tried  : Bool := true
  kind   : SrcKind
  loc    : BitVec 32
  src    : Nat
  sub    : Nat := 0
  a      : Word
deriving DecidableEq, Repr, Inhabited

/-- Load data of a retried element whose group is out (R135, R424): the element, what it read, its graph object, node and sideband, and its place in the
parking queue (R422). -/
structure Stray where
  elem   : Spill
  data   : List Byte
  geom   : Nat
  graph  : Nat
  node   : Nat
  tag    : Tag
  slot   : Nat := 0
deriving DecidableEq, Repr, Inhabited

/-- A context (R78, R208, R348, R421, R422); its graph objects go by their hashes (R56). -/
structure Context where
  cfg     : ContextCfg
  spd     : BitVec 30 := 0
  purging : Bool := false
  completion : List Word := []
  graphs  : Tbl GraphSt := []
  binds   : Tbl (List (Word × Word × Word)) := []
  parked  : List Stray := []
deriving DecidableEq, Repr, Inhabited

/-! ### Work in flight -/

/-- A fault record on its way to its queue (R413, R414), with its agent among those of its source index (R98). -/
structure FRec where
  tenant : Nat
  cause  : BitVec 8
  kind   : SrcKind
  posted : Bool := false
  halted : Bool := false
  nested : Bool := false
  ctx    : BitVec 12
  loc    : BitVec 32
  a      : Word
  b      : Word
  c      : BitVec 32
  src    : Nat
  sub    : Nat := 0
  idx    : BitVec 32 := 0
deriving DecidableEq, Repr, Inhabited

/-- What a posted request does where it is applied (R194); `fetch` is a host read that a stage-2 fault holds (R352, R440), `zero` a
64 KiB page that the management controller zeroes (R132). -/
inductive FlightOp where
  | store (a : Word) (bytes : List Byte)
  | amo (a : Word) (op : AmoOp) (v : Word) (rel : Bool)
  | wstore (w : BitVec 4) (off : Nat) (bytes : List Byte)
  | bzero (w : BitVec 4) (done : Nat)
  | xstore (a : Word) (bytes : List Byte)
  | dec (a : Word)
  | signal (a : Word) (v : BitVec 63)
  | bar (b : BitVec 2) (sc : Scope)
  | tap (node : Nat) (b : BitVec 2) (sc : Scope)
  | fetch (a : Word) (n : Nat)
  | zero (a : Word)
deriving DecidableEq, Repr, Inhabited

/-- A posted request in flight (R195, R402): the core that it belongs to, the index of its sender (R98) and the word's address, how it stands, where its
packet is. -/
structure Flight where
  id      : Nat
  core    : Nat
  src     : Nat
  ctx     : Nat
  tenant  : Nat
  group   : Nat
  pc      : Word
  kind    : SrcKind := .core
  op      : FlightOp
  order   : Nat
  release : Bool := false
  applied : Bool := false
  held    : Bool := false
  failed  : Bool := false
  entered : Bool := false
  die     : Nat
  router  : Nat
  ring    : Nat := 0
  toDie   : Nat
  toRouter : Nat
  since   : Nat
  aged    : Bool := false
deriving DecidableEq, Repr, Inhabited

/-- A submission of a launch block on its way to a counter, or a released block that its port has still to read (R96, R97). -/
structure Submission where
  addr    : Word
  block   : List Byte
  ctx     : Nat
  tenant  : Nat
  die     : Nat
  src     : Nat
  a       : Word := 0
  mgmt    : Bool := false
  fresh   : Bool := false
  held    : Bool := false
deriving DecidableEq, Repr, Inhabited

/-- A group ready in a launch unit (R100, R423): its block, and the pre-empted group where it is one. -/
structure Ready where
  addr   : Word
  block  : List Byte
  ctx    : Nat
  since  : Nat
  group  : Option Nat := none
  held   : Bool := false
deriving DecidableEq, Repr, Inhabited

/-- A launch unit (R100, R101): queues and credits by level × 64 + tenant, last tenant served by level, aged heads. -/
structure LaunchUnit where
  ready   : Tbl (List Ready) := []
  credits : Tbl Nat := []
  last    : Tbl Nat := []
  aged    : List Nat := []
deriving DecidableEq, Repr, Inhabited

/-- A layout kept in a layout cache (R115), with the cycle of its last use (R110). -/
structure Layout where
  tenant : Nat
  hash   : BitVec 128
  k      : Nat
  insts  : List Inst
  links  : List Link
  folds  : List (Nat × Nat)
  added  : Nat
  users  : List Nat := []
  used   : Nat := 0
deriving DecidableEq, Repr, Inhabited

/-- An entry of the recall store (R360), numbered; replays started and not finished; whether a part holds an uncorrectable error (R366). -/
structure RcEntry where
  id      : Nat
  ctx     : Nat
  blk     : Nat
  tile    : Nat
  step    : BitVec 32
  replays : Nat := 0
  input   : List (BitVec 1024)
  output  : List Token
  busy    : Nat := 0
  bad     : Bool := false
deriving DecidableEq, Repr, Inhabited

/-- An allocation of the recall store (R362). -/
structure RcAlloc where
  ctx   : Nat
  graph : Nat
  slots : Nat
  entries : List RcEntry := []
deriving DecidableEq, Repr, Inhabited

/-- A captured entry of a GAT instance on its way to the recall store (R328). -/
structure RcWrite where
  die   : Nat
  graph : Nat
  group : Nat
  inst  : Nat
  entry : RcEntry
deriving DecidableEq, Repr, Inhabited

/-- A combined translation (R353): its port, context, virtual page, physical frame, write permission, format and geometry. -/
structure TlbEntry where
  port  : Nat
  ctx   : Nat
  vpage : Nat
  large : Bool
  frame : Nat
  w     : Bool
  fmt   : Nat
  geom  : Nat
  gframe : Nat
deriving DecidableEq, Repr, Inhabited

/-- A retire record of the token at the head of a TAP, on its way to its queue (R333, R431); `due` once it is appended and the future is still to be
filled. -/
structure Retire where
  group : Nat
  inst  : Nat
  header : Word
  held  : Bool := false
  due   : Bool := false
deriving DecidableEq, Repr, Inhabited

/-- A pulse on its way to a core's event crossbar (R399). -/
structure Pulse where
  core : Nat
  src  : Nat
deriving DecidableEq, Repr, Inhabited

/-- An entry of a combining buffer (R409); `held` while a stage-2 fault holds its delivery (R352). -/
structure Merge where
  addr  : Word
  ctx   : Nat
  tenant : Nat
  wide  : Bool
  op    : AmoOp
  v     : Word
  since : Nat
  held  : Bool := false
deriving DecidableEq, Repr, Inhabited

/-- A counter addition of the step cache that a stage-2 fault holds (R372), or, without `held`, one that its port takes in the next cycle (R98). -/
structure HeldAdd where
  die : Nat
  ctx : Nat
  blk : Nat
  addr : Word
  v : Word
  zero : Bool := false
  held : Bool := true
deriving DecidableEq, Repr, Inhabited

/-- A write of a die's layout engine to a layout record that its port takes in the next cycle (R98, R132). -/
structure LateWrite where
  die   : Nat
  ctx   : Nat
  addr  : Word
  bytes : List Byte
deriving DecidableEq, Repr, Inhabited

/-- A clock region (R405): clock and bounds in steps of 50 MHz, the packets in its input buffers summed over the cycles since its last step. -/
structure Region where
  clock : Nat := 17
  lo    : Nat := 8
  hi    : Nat := 28
  occ   : Nat := 0
  since : Nat := 0
deriving DecidableEq, Repr, Inhabited

/-- A token bucket of a tenant on a die (R407). -/
structure Bucket where
  level : Int
  since : Nat
deriving DecidableEq, Repr, Inhabited

/-- Links with packet data (R339): in service, or retraining. -/
abbrev Links := List Nat

/-! ### Agents' turns -/

/-- Whose turn it is: a control core, the head command of one of its ports, an event, the management controller with a report that it was asked for (R447), or
the clock. -/
inductive Turn where
  | core (n : Nat)
  | port (n p : Nat)
  | event (i : Instr)
  | report
  | tick
deriving DecidableEq, Repr, Inhabited

/-- A stage-2 invalidation request (R355). -/
structure S2Req where
  bytes : List Byte
deriving DecidableEq, Repr, Inhabited

/-- The host's side of the package (R439 to R450): with the report that it has asked for and that is still to be written, whether an admission program
has been measured (R447), and the intake queues whose header a stage-2 fault holds back (R88, R352). -/
structure HostSt where
  mem     : Memory := []
  hfq     : Word := 0
  nonce   : BitVec 256 := 0
  meas    : Vector (BitVec 384) 4 := Vector.replicate 4 0
  msix    : List Nat := []
  s2      : List S2Req := []
  s2drop  : BitVec 16 := 0
  phase   : BitVec 4 := 0
  fail    : Bool := false
  ready   : Bool := false
  pkg     : BitVec 10 := 0
  withheld : List Nat := []
  recallMiB : List Nat := List.replicate 16 128
  cap     : Bool := false
  corrected : Tbl Nat := []
  answer  : List Byte := []
  packets : List (LaunchPkt × Bool) := []
  net     : List (Word × List Byte) := []
  asked   : Option Word := none
  named   : Bool := false
  creates : List IntakeCfg := []
deriving DecidableEq, Repr, Inhabited

/-- The machine: one package. -/
structure State where
  cycle    : Nat := 0
  agenda   : List Turn := []
  cur      : Nat := 0
  free     : Nat := 0
  off      : Bool := false
  cores    : Tbl CoreSt := []
  groups   : Tbl Group := []
  tenants  : Tbl Tenant := []
  contexts : Tbl Context := []
  mem      : Memory := []
  sealed   : Tbl Nat := []
  badMem   : List Nat := []
  softMem  : List Nat := []
  banks    : Memory := []
  badBank  : List Nat := []
  softBank : List Nat := []
  tlb      : List TlbEntry := []
  spill    : List Spill := []
  waits    : List (Nat × Word × Nat) := []
  flights  : List Flight := []
  recs     : List FRec := []
  hrecs    : List FRec := []
  subs     : List Submission := []
  retires  : List Retire := []
  pulses   : List Pulse := []
  units    : Tbl LaunchUnit := []
  layouts  : Tbl (List Layout) := []
  engines  : Tbl (List CopyJob) := []
  recalls  : Tbl (List RcAlloc) := []
  rcWrites : List RcWrite := []
  merges   : Tbl (List Merge) := []
  heldAdds : List HeldAdd := []
  lates    : List LateWrite := []
  strays   : List Stray := []
  buckets  : Tbl Bucket := []
  regions  : Tbl Region := []
  retrain  : Links := []
  served   : Tbl (Nat × Nat) := []
  nextId   : Nat := 1
  keys     : Nat := 1
  host     : HostSt := {}
deriving DecidableEq, Repr, Inhabited

/-- The machine right after reset (R442, R451, R337): phase 0, not ready, memory and banks zero, no tenant, context or group; the
values that the spec does not give are those of log entries 1 to 5 and 12. -/
def State.reset : State := {}

end Sys2Proof.Machine
end

