-- ==== Sys2Proof/Machine/Ops.lean ====
section
/-! DEFINITION. Named operations over cores, groups, windows, records, barrier phases and posted requests; taking a trap and returning
from one (R189 to R191). -/

namespace Sys2Proof.Machine

/-- The outcome of a step. -/
abbrev Out := Host.Outcome State Fault Refusal

/-! ### Control cores -/

/-- Die of a core's global number. -/
def dieOf (n : Nat) : Nat := n / 128
/-- Core within its die. -/
def coreIn (n : Nat) : Nat := n % 128
/-- Quad of a core within its die. -/
def quadOf (n : Nat) : Nat := n % 128 / 4

/-- The control core of a number. -/
def State.coreAt (s : State) (n : Nat) : CoreSt := findD s.cores n {}
/-- The control core whose turn it is. -/
def State.core (s : State) : CoreSt := s.coreAt s.cur
def State.setCoreAt (s : State) (n : Nat) (c : CoreSt) : State := { s with cores := put s.cores n c }
def State.setCore (s : State) (c : CoreSt) : State := s.setCoreAt s.cur c
def State.modCore (s : State) (n : Nat) (f : CoreSt → CoreSt) : State := s.setCoreAt n (f (s.coreAt n))

/-- Read a g register; g0 reads as zero (R159). -/
def CoreSt.rd (c : CoreSt) (r : Reg) : Word := if r = 0 then 0 else c.g[r.toNat]'r.isLt
/-- Write a g register; a write to g0 is discarded (R159). -/
def CoreSt.wr (c : CoreSt) (r : Reg) (v : Word) : CoreSt := if r = 0 then c else { c with g := c.g.set r.toNat v r.isLt }
/-- Read a predicate; p7 reads as true (R160). -/
def CoreSt.rdp (c : CoreSt) (p : PReg) : Bool := if p = 7 then true else c.p.getLsbD p.toNat
/-- Write a predicate; a write to p7 is discarded (R160). -/
def CoreSt.wrp (c : CoreSt) (p : PReg) (b : Bool) : CoreSt :=
  if p = 7 then c
  else { c with p := if b then c.p ||| ((1#7) <<< p.toNat) else c.p &&& ~~~((1#7) <<< p.toNat) }
/-- Move to the next word (R161). -/
def CoreSt.adv (c : CoreSt) : CoreSt := { c with pc := c.pc + 4 }
/-- Whether a guard holds (R23, R137). -/
def CoreSt.holds (c : CoreSt) (g : Guard) : Bool := c.rdp g.p != g.neg

/-- A window of a core. -/
def CoreSt.win (c : CoreSt) (w : BitVec 4) : Win := c.wins[w.toNat]'w.isLt
def CoreSt.setWin (c : CoreSt) (w : BitVec 4) (x : Win) : CoreSt := { c with wins := c.wins.set w.toNat x w.isLt }
/-- A port of a core. -/
def CoreSt.port (c : CoreSt) (p : BitVec 4) : Port := c.ports[p.toNat]'p.isLt
def CoreSt.setPort (c : CoreSt) (p : BitVec 4) (x : Port) : CoreSt := { c with ports := c.ports.set p.toNat x p.isLt }
/-- An event counter of a core (R167). -/
def CoreSt.evc (c : CoreSt) (n : BitVec 3) : BitVec 32 := c.ec[n.toNat]'n.isLt
def CoreSt.setEvc (c : CoreSt) (n : BitVec 3) (v : BitVec 32) : CoreSt := { c with ec := c.ec.set n.toNat v n.isLt }

/-- The locator of a core in COREID layout (R165). -/
def State.locator (s : State) (n : Nat) : Word := BitVec.ofNat 64 (s.host.pkg.toNat * 2 ^ 16 + n)

/-- The core that a locator names on this package, with the package's own number or 0x3FF (R156). -/
def State.named (s : State) (loc : Word) : Option Nat :=
  let p := bits loc.toNat 25 16
  if p = 0x3FF ∨ p = s.host.pkg.toNat then some (bits loc.toNat 10 7 * 128 + bits loc.toNat 6 0) else none

/-- A core that start-up did not withhold (R2). -/
def State.available (s : State) (n : Nat) : Bool := n < 2048 && !s.host.withheld.contains n

/-! ### Groups, contexts, tenants -/

def State.group? (s : State) (g : Nat) : Option Group := find s.groups g
def State.setGroup (s : State) (g : Nat) (x : Group) : State := { s with groups := put s.groups g x }
def State.modGroup (s : State) (g : Nat) (f : Group → Group) : State :=
  match find s.groups g with
  | some x => s.setGroup g (f x)
  | none => s

def State.context? (s : State) (c : Nat) : Option Context := find s.contexts c
def State.modContext (s : State) (c : Nat) (f : Context → Context) : State :=
  match find s.contexts c with
  | some x => { s with contexts := put s.contexts c (f x) }
  | none => s

def State.tenant? (s : State) (t : Nat) : Option Tenant := find s.tenants t
def State.modTenant (s : State) (t : Nat) (f : Tenant → Tenant) : State :=
  match find s.tenants t with
  | some x => { s with tenants := put s.tenants t (f x) }
  | none => s

/-- The tenant of a context; an absent context belongs to tenant 64, which does not exist. -/
def State.tenantOf (s : State) (c : Nat) : Nat :=
  match find s.contexts c with
  | some x => x.cfg.tenant
  | none => 64

/-- The group of a core. -/
def State.groupOf (s : State) (n : Nat) : Option Group := (s.coreAt n).group.bind (find s.groups ·)
/-- The context of a core's group (R164: CTXID). -/
def State.ctxOf (s : State) (n : Nat) : Nat := ((s.groupOf n).map (·.ctx)).getD 0
/-- What a context keeps of a graph object, by the number of its hash (R56). -/
def State.graphSt (s : State) (ctx : Nat) (key : Nat) : Option GraphSt := (find s.contexts ctx).bind fun c => find c.graphs key
def State.modGraphSt (s : State) (ctx : Nat) (key : Nat) (f : GraphSt → GraphSt) : State :=
  s.modContext ctx fun c =>
    match find c.graphs key with
    | some x => { c with graphs := put c.graphs key (f x) }
    | none => c
/-- The loaded graph object of a group. -/
def State.objOf (s : State) (x : Group) : GObj := ((s.graphSt x.ctx x.key).map (·.obj)).getD {}

/-- The cores of a group's placement (R99). -/
def Group.cores (x : Group) : List Nat := (List.range (2 ^ x.k)).map fun r => x.die * 128 + x.first + r

/-- Whether a core is running and nothing holds it. -/
def CoreSt.ready (c : CoreSt) : Bool := c.status == .running && c.wait == .none

/-! ### Free values -/

/-- One unconstrained bit, and the state with the counter advanced (R378). -/
def State.freeBit (s : State) : Bool × State := (Config.freeBit s.free, { s with free := s.free + 1 })
/-- A scale token of which nothing has been read: unconstrained scale bytes and one of the three geometries (R74). -/
def State.freeScale (s : State) : BitVec 1024 × State :=
  ((BitVec.ofNat 1024 ((Config.freeGeometry s.free).val + 1)) <<< 1016 ||| (Config.freeScales s.free).setWidth 1024, { s with free := s.free + 1 })
/-- One unconstrained choice among n things. -/
def State.choose (s : State) (n : Nat) : Nat × State := (Config.choose s.free % max n 1, { s with free := s.free + 1 })

/-! ### The order of arrivals in one cycle (R98, R338) -/

/-- The rank of an agent among those that reach a place in one cycle: its source index, then its number among the agents of that index: the
control core 0, a cell 1 + its number, a port 80 + its number (R98). -/
def rankOf (src sub : Nat) : Nat := src * 128 + sub
def cellSub (cell : Nat) : Nat := 1 + cell
def portSub (port : Nat) : Nat := 80 + port

/-- Whether an operation of a rank may be applied at a place in this cycle: none of a higher rank has been (R98). -/
def State.inOrder (s : State) (place rank : Nat) : Bool :=
  match find s.served place with
  | some (c, b) => c != s.cycle || b ≤ rank
  | none => true
/-- Note that an operation of a rank has been applied at a place. -/
def State.noteServed (s : State) (place rank : Nat) : State := { s with served := put s.served place (s.cycle, rank) }

/-- Places that apply operations one at a time: a bank, a barrier phase, a tenant's fault queue, an event counter, a window. Memory ports have
the numbers below 256. -/
def bankPlace (bank : Nat) : Nat := 2 ^ 20 + bank
def phasePlace (group key : Nat) : Nat := 2 ^ 24 + group * 2 ^ 16 + key
def queuePlace (tenant : Nat) : Nat := 2 ^ 40 + tenant
def retirePlace (port : Nat) : Nat := 2 ^ 41 + port
def countPlace (core : Nat) (n : BitVec 3) : Nat := 2 ^ 42 + core * 8 + n.toNat
def winPlace (core : Nat) (w : BitVec 4) : Nat := 2 ^ 43 + core * 16 + w.toNat
def hostPlace : Nat := 2 ^ 44

/-- Owning die and home memory port of a global address (R347). -/
def homeDie (a : Word) : Nat := bits a.toNat 49 46
def homePort (a : Word) : Nat := homeDie a * 16 + bits a.toNat 10 7

/-- Home ports of the units that n bytes from an address lie in. -/
def portsOf (a : Word) (n : Nat) : List Nat :=
  (List.range (min ((a.toNat % 128 + n + 127) / 128) 17)).map fun i => homePort (a + BitVec.ofNat 64 (128 * i))
/-- Whether a write of n bytes waits for the next cycle: one of its ports has served an agent of a higher rank in this one (R98, R346). -/
def State.portsLater (s : State) (a : Word) (n rank : Nat) : Bool := (portsOf a n).any fun p => !s.inOrder p rank
/-- Note that the ports of n bytes have served an agent. -/
def State.portsServed (s : State) (a : Word) (n rank : Nat) : State := (portsOf a n).foldl (fun s p => s.noteServed p rank) s

/-! ### The rate limiter at injection (R407, R408) -/

/-- The level of a tenant's bucket on a die now. -/
def State.bucketNow (s : State) (die tenant : Nat) : Int :=
  match s.tenant? tenant, find s.buckets (die * 64 + tenant) with
  | some t, some b => min (t.cfg.bucketDepth : Int) (b.level + ((s.cycle - b.since) * t.cfg.bucketRate : Nat))
  | _, _ => 0

/-- Subtract data bytes; no bucket falls below −64 KiB (R408). -/
def State.charge (s : State) (die tenant n : Nat) : State :=
  { s with buckets := put s.buckets (die * 64 + tenant) { level := max (-65536) (s.bucketNow die tenant - n), since := s.cycle } }

/-- Whether requests of a tenant wait at the limiter of a die (R407). -/
def State.bucketLow (s : State) (die tenant : Nat) : Bool := s.bucketNow die tenant < 0

/-! ### Fault records (R413, R414) -/

/-- The order of records that reach a queue in one cycle (R98, R416). -/
def FRec.rank (r : FRec) : Nat := rankOf r.src r.sub

/-- Put a record on its way to the tenant's fault queue. -/
def State.record (s : State) (r : FRec) : State := { s with recs := s.recs ++ [r] }
/-- Put a record on its way to the host fault queue (R352). -/
def State.hostRecord (s : State) (r : FRec) : State := { s with hrecs := s.hrecs ++ [r] }

/-- A record of a core of a group. -/
def State.coreRec (s : State) (n : Nat) (kind : SrcKind) (cause : BitVec 8) (a b : Word) (c : BitVec 32) : FRec :=
  { tenant := s.tenantOf (s.ctxOf n), cause := cause, kind := kind, ctx := BitVec.ofNat 12 (s.ctxOf n),
    loc := (s.locator n).setWidth 32, a := a, b := b, c := c, src := n }

/-! ### Barrier phases (R392 to R396) -/

/-- Scopes of a barrier, numbered. -/
def scopeIx : Scope → Nat
  | .core => 0 | .quad => 1 | _ => 2

/-- The instance of a scope that holds a core. -/
def scopeInst (sc : Scope) (n : Nat) : Nat :=
  match sc with
  | .core => n
  | .quad => n / 4
  | _ => n / 128

/-- The key of a phase. -/
def phaseKey (b : BitVec 2) (sc : Scope) (n : Nat) : Nat := (b.toNat * 3 + scopeIx sc) * 4096 + scopeInst sc n

/-- The key of a TAPSET count. -/
def tapKey (node : Nat) (b : BitVec 2) (sc : Scope) : Nat := node * 12 + b.toNat * 3 + scopeIx sc

/-- Arrivals that TAPSET has set for the taps of one scope instance (R212, R254). -/
def Group.tapsSet (x : Group) (b : BitVec 2) (sc : Scope) (n : Nat) : Nat :=
  ((x.insts.filter fun i => !i.gone && i.copy == 0 && i.role == .node
      && scopeInst sc (x.die * 128 + x.first + i.rank) == scopeInst sc n).map
    fun i => findD x.tapset (tapKey i.node b sc) 0).sum

/-- The expected count of a phase before its first arrival (R212). -/
def Group.expected (x : Group) (b : BitVec 2) (sc : Scope) (n : Nat) : Nat :=
  (x.cores.filter fun m => scopeInst sc m == scopeInst sc n).length + x.tapsSet b sc n

/-- The phase of (b, S) that a core of the group meets. -/
def Group.phase (x : Group) (b : BitVec 2) (sc : Scope) (n : Nat) : Phase := findD x.phases (phaseKey b sc n) {}

/-- Whether a core has exited or halted: it counts as arrived (R395). -/
def CoreSt.over (c : CoreSt) : Bool := c.status == .exited || c.status == .halted

/-- Whether every control core of a group has exited or halted (R428). -/
def State.coresDone (s : State) (x : Group) : Bool := x.cores.all fun n => (s.coreAt n).over
/-- Whether a running group has come to its end but for what it has in hand: its spilled elements are discarded, and nothing more starts (R428). -/
def State.over (s : State) (g : Nat) : Bool := ((s.group? g).map fun x => x.status == .running && s.coresDone x).getD false

/-- Cores of the instance that have exited or halted and not arrived: they count as arrived (R395). -/
def State.goneArrivals (s : State) (x : Group) (ph : Phase) (sc : Scope) (n : Nat) : Nat :=
  (x.cores.filter fun m => scopeInst sc m == scopeInst sc n && !(ph.arrived.map (·.1)).contains m
    && (s.coreAt m).over).length

/-- Requests that a swap of window w of core m must wait for: exchange writes posted before their core's arrival (R395, R396). -/
def State.coveredWrites (s : State) (ph : Phase) (m : Nat) (w : Nat) : List Nat :=
  (s.flights.filter fun f => !f.applied && (match f.op with
    | .xstore a _ => a.toNat / 2 ^ 39 % 2048 == m && bits a.toNat 38 35 == w
        && (match ph.arrived.find? (·.1 == f.core) with | some (_, id) => f.id < id | none => (s.coreAt f.core).over && (s.coreAt f.core).group == (s.coreAt m).group)
    | _ => false)).map (·.id)

/-- What the completion of a phase does to one core (R395, R396). -/
def State.phaseDone (s : State) (ph : Phase) (b : BitVec 2) (sc : Scope) (n m : Nat) : State :=
  if scopeInst sc m != scopeInst sc n then s
  else
    let c := s.coreAt m
    let c := match c.wait with
      | .barrier b' sc' false => if b' == b && sc' == sc then { c with wait := .barrier b sc true } else c
      | _ => c
    let swaps := if b == 0 && ((ph.arrived.map (·.1)).contains m || c.over) then
        ((List.range 16).filter fun w => (c.win (BitVec.ofNat 4 w)).state == .attached
            && (c.win (BitVec.ofNat 4 w)).mode == .exchange).map fun w => (w, s.coveredWrites ph m w)
      else []
    s.setCoreAt m { c with swaps := c.swaps ++ swaps }

/-- Complete a phase if its expected arrivals are in (R393, R395). -/
def State.tryComplete (s : State) (g : Nat) (b : BitVec 2) (sc : Scope) (n : Nat) : State :=
  match s.group? g with
  | none => s
  | some x =>
    let ph := x.phase b sc n
    if ph.busy && ph.count + s.goneArrivals x ph sc n ≥ ph.expected then
      let s1 := s.setGroup g { x with phases := put x.phases (phaseKey b sc n) {} }
      x.cores.foldl (fun s m => s.phaseDone ph b sc n m) s1
    else s

/-- Apply one arrival to a phase: a core's (with the number of its next request) or a tap node's (R393, R394). -/
def State.arrive (s : State) (g : Nat) (b : BitVec 2) (sc : Scope) (n : Nat) (tap : Option Nat) (id : Nat) : State :=
  match s.group? g with
  | none => s
  | some x =>
    let ph := x.phase b sc n
    let ph := if ph.busy then ph else { ph with busy := true, expected := x.expected b sc n, sets := x.tapset, since := s.cycle }
    let beyond : Bool := match tap with
      | none => (ph.arrived.map (·.1)).contains n
      | some t => decide (findD ph.sets (tapKey t b sc) 0 ≤ findD ph.taps t 0)
    if beyond then
      s.record { s.coreRec n (if tap.isSome then .cell else .core) 0x38#8 (zext b) (zext (scopeCode sc))
        (match tap with | none => (s.locator n).setWidth 32 | some t => BitVec.ofNat 32 (2 ^ 31 + t)) with
        tenant := x.tenant, ctx := BitVec.ofNat 12 x.ctx, sub := match tap with
          | none => 0
          | some t => cellSub (((x.insts.find? fun i => i.node == t && i.copy == 0).map (·.cell)).getD 0) }
    else
      let ph := match tap with
        | none => { ph with count := ph.count + 1, arrived := ph.arrived ++ [(n, id)] }
        | some t => { ph with count := ph.count + 1, taps := put ph.taps t (findD ph.taps t 0 + 1) }
      (s.setGroup g { x with phases := put x.phases (phaseKey b sc n) ph }).tryComplete g b sc n

/-- After a TAPSET for a tap of core n: a phase whose first arrival is of this cycle goes by the new counts; one that began before keeps
those it has (R254). -/
def State.retap (s : State) (g : Nat) (b : BitVec 2) (sc : Scope) (n : Nat) : State :=
  match s.group? g with
  | none => s
  | some x =>
    let ph := x.phase b sc n
    if ph.busy && ph.since == s.cycle then
      (s.setGroup g { x with phases := put x.phases (phaseKey b sc n) { ph with expected := x.expected b sc n, sets := x.tapset } }).tryComplete g b sc n
    else s

/-- The counts by which a tap's arrivals at a phase go: those of the phase in progress, else those set (R254). -/
def Group.tapCount (x : Group) (node : Nat) (b : BitVec 2) (sc : Scope) (n : Nat) : Nat :=
  let ph := x.phase b sc n
  findD (if ph.busy then ph.sets else x.tapset) (tapKey node b sc) 0

/-- After a core has exited or halted: phases that waited for it alone complete (R395). -/
def State.afterExit (s : State) (n : Nat) : State :=
  match (s.coreAt n).group with
  | none => s
  | some g => ((List.range 4).flatMap fun b => [(b, Scope.core), (b, Scope.quad), (b, Scope.die)]).foldl
      (fun s p => s.tryComplete g (BitVec.ofNat 2 p.1) p.2 n) s

/-! ### Traps (R141, R189 to R191) -/

/-- The control core halts (R190): it counts as exited, releases nothing and submits nothing. -/
def State.halt (s : State) (n : Nat) : State :=
  (s.modCore n fun c => { c with status := .halted, wait := .none }).afterExit n

/-- Take a synchronous trap with a cause, a code, an address and the value of a record's field C: enter the handler where CSTAT.INTRAP
is 0 and TRAPVEC.EN is 1 (R189), else write a record and halt (R190). -/
def State.trap (s : State) (cause : BitVec 8) (code : BitVec 16) (addr : Word) (cc : BitVec 32) : State :=
  let c := s.core
  if !c.intrap && c.tvEn then
    s.setCore { c with epc := c.pc, code := code, cause := cause, trapaddr := addr, intrap := true,
                       pc := (c.tvAddr.setWidth 64) <<< 2, wait := .none }
  else
    (s.record { s.coreRec s.cur .core cause c.pc addr cc with halted := true, nested := c.intrap }).halt s.cur

/-- The cause of R141's illegal instruction and R142's trap address. -/
def State.illegal (s : State) (word : Word) : State := s.trap 0x01#8 0 word 0
/-- A misalignment trap (R142, R197). -/
def State.misaligned (s : State) (a : Word) : State := s.trap 0x02#8 0 a 0

/-- Return from a trap (R191). -/
def CoreSt.eret (c : CoreSt) : CoreSt := { c with pc := c.epc, intrap := false }

/-- The word of an instruction, zero-extended: what an illegal-instruction trap raised in execution shows (R142, R413). -/
def wordOf (i : Instr) : Word := ((encodeWord i).getD 0).setWidth 64

/-! ### Guarded execution (R23, R141) -/

/-- Run a scalar instruction under its guard: a guard that does not hold only moves on (R23). -/
def guarded (g : Guard) (s : State) (f : CoreSt → State) : Out :=
  if s.core.holds g then .next (f s.core) else .next (s.setCore s.core.adv)

/-- An instruction that only computes on the core: its effect, then the next word. -/
def pure (g : Guard) (s : State) (f : CoreSt → CoreSt) : Out := guarded g s fun c => s.setCore (f c).adv

/-- Write a result to a g register and move on. -/
def writes (g : Guard) (d : Reg) (s : State) (f : CoreSt → Word) : Out := pure g s fun c => c.wr d (f c)

/-! ### Addresses (R154 to R158) -/

/-- Window and offset of a window address; none where bits [63:20] are set (R154). -/
def windowOf (a : Word) : Option (BitVec 4 × Nat) :=
  if a.toNat < 2 ^ 20 then some (BitVec.ofNat 4 (a.toNat / 2 ^ 16), a.toNat % 2 ^ 16) else none

/-- Whether a package field names this package (R156). -/
def State.ourPkg (s : State) (a : Word) : Bool := bits a.toNat 59 50 == 0x3FF || bits a.toNat 59 50 == s.host.pkg.toNat

/-- A global virtual address of this package (R155, R156, R158). -/
def State.isGlobal (s : State) (a : Word) : Bool := bits a.toNat 63 60 == 0 && s.ourPkg a

/-- An exchange address of this package (R157). -/
def State.isExchange (s : State) (a : Word) : Bool := bits a.toNat 63 60 == 8 && s.ourPkg a

/-- Core of an exchange address. -/
def xCore (a : Word) : Nat := bits a.toNat 49 46 * 128 + bits a.toNat 45 39
/-- Window of an exchange address; none where a reserved bit is set (R157). -/
def xWin (a : Word) : Option (BitVec 4) := if bits a.toNat 34 16 == 0 then some (BitVec.ofNat 4 (bits a.toNat 38 35)) else none
def xOff (a : Word) : Nat := bits a.toNat 15 0

/-! ### Posted requests (R194, R195) -/

/-- Posted requests of a core not yet acknowledged. -/
def State.posted (s : State) (n : Nat) : List Flight := s.flights.filter fun f => f.core == n && f.kind == .core

/-- Where the packet of a request goes: die and router (R402). -/
def State.target (s : State) (n : Nat) : FlightOp → Nat × Nat
  | .store a _ | .fetch a _ | .zero a => (homeDie a, 32 + bits a.toNat 10 7)
  | .amo a _ _ _ => (homeDie a, 32 + bits a.toNat 10 7)
  | .dec a => (homeDie a, 32 + bits a.toNat 10 7)
  | .signal a _ => (homeDie a, 32 + bits a.toNat 10 7)
  | .wstore w _ _ => (dieOf n, (((s.coreAt n).win w).bank.map (·.quad.toNat)).getD (quadOf n))
  | .bzero w _ => (dieOf n, (((s.coreAt n).win w).bank.map (·.quad.toNat)).getD (quadOf n))
  | .xstore a _ => (bits a.toNat 49 46, bits a.toNat 45 39 / 4)
  | .bar _ _ => (dieOf n, quadOf n)
  | .tap _ _ _ => (dieOf n, quadOf n)

/-- Put a request of an agent on its way. -/
def State.send (s : State) (n : Nat) (kind : SrcKind) (op : FlightOp) (release : Bool) : State :=
  let t := s.target n op
  let f : Flight := {
    id := s.nextId, core := n, src := n, ctx := s.ctxOf n, tenant := s.tenantOf (s.ctxOf n), group := ((s.coreAt n).group).getD 0,
    pc := (s.coreAt n).pc, kind := kind, op := op, order := s.nextId, release := release, die := dieOf n, router := quadOf n,
    toDie := t.1, toRouter := t.2, since := s.cycle }
  { s with flights := s.flights ++ [f], nextId := s.nextId + 1 }

/-- Post a request of the core and move on; while 32 are unacknowledged, the instruction waits (R195). -/
def State.post (s : State) (op : FlightOp) (release : Bool) : State :=
  if (s.posted s.cur).length ≥ Config.maxPosted then s
  else
    let s1 := s.send s.cur .core op release
    s1.setCore s1.core.adv

/-- Whether the requests that a core posted before a given one have been acknowledged: its release is done (R194, R382). -/
def State.released (s : State) (n id : Nat) : Bool := (s.posted n).all fun f => f.id ≥ id

end Sys2Proof.Machine
end

