-- ==== Sys2Proof/Machine/Operands.lean ====
section
/-! DEFINITION. Operand forms and the values that integer and atomic instructions compute from them (R169 to R174, R197, R198, R203). -/

namespace Sys2Proof.Machine

/-- Bytes of an access size (R198). -/
def sizeBytes : Size → Nat
  | .b1 => 1 | .b2 => 2 | .b4 => 4 | .b8 => 8

/-- Base plus sign-extended offset (R197). -/
def addrImm (c : CoreSt) (a : Reg) (imm : BitVec 11) : Word := c.rd a + sext imm

/-- Base plus index, scaled by the access size where asked (R198). -/
def addrIndex (c : CoreSt) (a b : Reg) (scaled : Bool) (z : Size) : Word :=
  c.rd a + c.rd b * (if scaled then BitVec.ofNat 64 (sizeBytes z) else 1)

/-- Whether an address is a multiple of n. -/
def alignedTo (a : Word) (n : Nat) : Bool := a.toNat % n == 0

/-- A loaded value as LDGX extends it (R198). -/
def extend (z : Size) (sign : Bool) (w : Word) : Word :=
  match z, sign with
  | .b1, true => sext (w.setWidth 8)
  | .b1, false => zext (w.setWidth 8)
  | .b2, true => sext (w.setWidth 16)
  | .b2, false => zext (w.setWidth 16)
  | .b4, true => sext (w.setWidth 32)
  | .b4, false => zext (w.setWidth 32)
  | .b8, _ => w

/-- The low bytes of a word that a store of a size writes (R198). -/
def lowBytes (z : Size) (w : Word) : List Byte := (wordBytes w).take (sizeBytes z)

/-- The value an atomic operation writes (R203). -/
def amoNew (op : AmoOp) (old v : Word) : Word :=
  match op with
  | .add => old + v
  | .and => old &&& v
  | .or => old ||| v
  | .xor => old ^^^ v
  | .min => if old.slt v then old else v
  | .max => if v.slt old then old else v
  | .minu => if old.ult v then old else v
  | .maxu => if v.ult old then old else v
  | .swap => v

/-- The same on 32-bit words (R243). -/
def amoNew32 (op : AmoOp) (old v : BitVec 32) : BitVec 32 :=
  match op with
  | .add => old + v
  | .and => old &&& v
  | .or => old ||| v
  | .xor => old ^^^ v
  | .min => if old.slt v then old else v
  | .max => if v.slt old then old else v
  | .minu => if old.ult v then old else v
  | .maxu => if v.ult old then old else v
  | .swap => v

/-- Signed quotient and remainder, toward zero; division by zero gives all ones and the dividend (R170). -/
def divS (a b : Word) : Word := if b = 0 then 0xFFFFFFFFFFFFFFFF#64 else BitVec.ofInt 64 (a.toInt.tdiv b.toInt)
def remS (a b : Word) : Word := if b = 0 then a else BitVec.ofInt 64 (a.toInt.tmod b.toInt)
/-- Unsigned quotient and remainder (R170). -/
def divU (a b : Word) : Word := if b = 0 then 0xFFFFFFFFFFFFFFFF#64 else BitVec.ofNat 64 (a.toNat / b.toNat)
def remU (a b : Word) : Word := if b = 0 then a else BitVec.ofNat 64 (a.toNat % b.toNat)

/-- High halves of the signed and unsigned product (R169). -/
def mulHi (a b : Word) : Word := BitVec.ofInt 64 (a.toInt * b.toInt / 2 ^ 64)
def mulHiU (a b : Word) : Word := BitVec.ofNat 64 (a.toNat * b.toNat / 2 ^ 64)

/-- Shift amount of a register operand: its low six bits (R172). -/
def shAmt (b : Word) : Nat := b.toNat % 64

/-- The field that a bit-field control word names: lowest bit and width (R174). -/
def fieldLo (b : Word) : Nat := bits b.toNat 5 0
def fieldWd (b : Word) : Nat := min (bits b.toNat 14 8) (64 - fieldLo b)
def fieldMask (b : Word) : Word := BitVec.ofNat 64 ((2 ^ fieldWd b - 1) * 2 ^ fieldLo b)

/-- Bit-field extract and insert (R174). -/
def bfxVal (a b : Word) : Word := if fieldWd b = 0 then 0 else (a &&& fieldMask b) >>> fieldLo b
def bfiVal (d a b : Word) : Word := if fieldWd b = 0 then d else (d &&& ~~~fieldMask b) ||| ((a <<< fieldLo b) &&& fieldMask b)

/-- Sign and zero extension from a width of w bits, w from 1 to 64 (R173). -/
def sextFrom (w : Nat) (a : Word) : Word := BitVec.ofInt 64 (toSigned w a.toNat)
def zextFrom (w : Nat) (a : Word) : Word := BitVec.ofNat 64 (a.toNat % 2 ^ w)

end Sys2Proof.Machine
end

