-- ==== Sys2Proof/Machine/Address.lean ====
section
/-! DEFINITION. Address instructions: they compute values and check nothing (R180 to R182). -/

namespace Sys2Proof.Machine

/-- R180. -/
def execLea (g : Guard) (d : Reg) (imm : BitVec 11) (s : State) : Out := writes g d s fun c => c.pc + (sext imm <<< 2)

/-- R181: the offset wraps within the window. -/
def execWaddr (g : Guard) (d a : Reg) (w : BitVec 4) (s : State) : Out :=
  writes g d s fun c => (zext w <<< 16) + ((c.rd a).setWidth 16).setWidth 64

/-- The exchange address of a locator and a window address (R182). -/
def xaddrVal (a b : Word) : Word :=
  BitVec.ofNat 64 (0x8 * 2 ^ 60 + bits a.toNat 25 16 * 2 ^ 50 + bits a.toNat 10 7 * 2 ^ 46 + bits a.toNat 6 0 * 2 ^ 39
    + bits b.toNat 19 16 * 2 ^ 35 + bits b.toNat 15 0)

/-- The global address of a locator and a virtual offset (R182). -/
def gaddrVal (a b : Word) : Word :=
  BitVec.ofNat 64 (bits a.toNat 25 16 * 2 ^ 50 + bits a.toNat 10 7 * 2 ^ 46 + bits b.toNat 45 0)

/-- R182. -/
def execXaddr (g : Guard) (d a b : Reg) (s : State) : Out := writes g d s fun c => xaddrVal (c.rd a) (c.rd b)

/-- R182. -/
def execGaddr (g : Guard) (d a b : Reg) (s : State) : Out := writes g d s fun c => gaddrVal (c.rd a) (c.rd b)

end Sys2Proof.Machine
end

