-- ==== Sys2Proof/Machine/Aes.lean ====
section
/-! DEFINITION. AES-256 in XTS mode over units of 128 bytes, with which the seal encrypts the comb die (R344; FIPS 197, IEEE 1619). -/

namespace Sys2Proof.Machine

/-! ### The field of 256 elements -/

/-- Multiply by x. -/
def xtime (a : Byte) : Byte := if a.msb then (a <<< 1) ^^^ 0x1B else a <<< 1
/-- The product of two field elements, from the bits of the second. -/
def gmul (a b : Byte) : Byte :=
  ((List.range 8).foldl (fun (p : Byte × Byte) i => (if b.getLsbD i then p.1 ^^^ p.2 else p.1, xtime p.2)) (0, a)).1
/-- The inverse of a field element, its power 254; that of 0 is 0. -/
def ginv (a : Byte) : Byte :=
  ((List.range 7).foldl (fun (p : Byte × Byte) _ => let q := gmul p.2 p.2; (gmul p.1 q, q)) (1, a)).1

/-- The substitution box and its inverse. -/
def sbox (a : Byte) : Byte :=
  let b := ginv a
  b ^^^ b.rotateLeft 1 ^^^ b.rotateLeft 2 ^^^ b.rotateLeft 3 ^^^ b.rotateLeft 4 ^^^ 0x63
def unsbox (a : Byte) : Byte := ginv (a.rotateLeft 1 ^^^ a.rotateLeft 3 ^^^ a.rotateLeft 6 ^^^ 0x05)

/-! ### The cipher on a block of 16 bytes, column by column -/

/-- Add bytes to bytes. -/
def xorBytes (a b : List Byte) : List Byte := a.zipWith (· ^^^ ·) b
/-- Rows moved to the left by their number, or to the right. -/
def shiftRows (s : List Byte) : List Byte := (List.range 16).map fun i => s.getD (i % 4 + 4 * ((i / 4 + i % 4) % 4)) 0
def unshiftRows (s : List Byte) : List Byte := (List.range 16).map fun i => s.getD (i % 4 + 4 * ((i / 4 + 4 - i % 4) % 4)) 0
/-- Columns multiplied by a fixed polynomial. -/
def mixWith (m : List Byte) (s : List Byte) : List Byte :=
  (List.range 16).map fun i => (List.range 4).foldl (fun (x : Byte) k => x ^^^ gmul (s.getD (i / 4 * 4 + (i % 4 + k) % 4) 0) (m.getD k 0)) 0

/-- The words of the key schedule behind a key of 256 bits, newest first: `n` words more, the next being word `i`. -/
def aesSchedule : Nat → Nat → List (List Byte) → List (List Byte)
  | 0, _, ws => ws
  | n + 1, i, ws =>
    let last := ws.headD []
    let t := if i % 8 = 0 then xorBytes ((last.drop 1 ++ last.take 1).map sbox) [1 <<< (i / 8 - 1), 0, 0, 0]
      else if i % 8 = 4 then last.map sbox else last
    aesSchedule n (i + 1) (xorBytes (ws.getD 7 []) t :: ws)
/-- The 15 round keys of a key of 32 bytes. -/
def aesKeys (key : List Byte) : List (List Byte) :=
  let ws := (aesSchedule 52 8 ((List.range 8).map fun i => (key.drop (4 * i)).take 4).reverse).reverse
  (List.range 15).map fun r => ((ws.drop (4 * r)).take 4).flatten

/-- Encrypt a block with the round keys. -/
def aesEncrypt (keys : List (List Byte)) (b : List Byte) : List Byte :=
  let s := ((keys.drop 1).take 13).foldl (fun s k => xorBytes (mixWith [2, 3, 1, 1] (shiftRows (s.map sbox))) k) (xorBytes b (keys.headD []))
  xorBytes (shiftRows (s.map sbox)) (keys.getD 14 [])
/-- Decrypt a block with the round keys. -/
def aesDecrypt (keys : List (List Byte)) (b : List Byte) : List Byte :=
  let s := ((keys.drop 1).take 13).reverse.foldl (fun s k => mixWith [14, 11, 13, 9] (xorBytes ((unshiftRows s).map unsbox) k)) (xorBytes b (keys.getD 14 []))
  xorBytes ((unshiftRows s).map unsbox) (keys.headD [])

/-! ### XTS mode (IEEE 1619) -/

/-- The two keys of a slot of 512 bits: the data key in its low half, the tweak key in its high half. -/
def dataKeys (key : Nat) : List (List Byte) := aesKeys (leBytes 32 (key % 2 ^ 256))
def tweakKeys (key : Nat) : List (List Byte) := aesKeys (leBytes 32 (key / 2 ^ 256))

/-- The tweaks of `n` blocks, from the first: each is the one before it times x. -/
def tweaks : Nat → Nat → List Nat
  | 0, _ => []
  | n + 1, t => t :: tweaks n ((2 * t % 2 ^ 128) ^^^ (if t / 2 ^ 127 = 1 then 0x87 else 0))

/-- Put a block cipher over the 8 blocks of a unit, whose number is the tweak (R344). -/
def xts (key unit : Nat) (f : List (List Byte) → List Byte → List Byte) (bs : List Byte) : List Byte :=
  let t0 := leNat (aesEncrypt (tweakKeys key) (leBytes 16 unit))
  let keys := dataKeys key
  (tweaks 8 t0).zipIdx.flatMap fun t =>
    let m := leBytes 16 t.1
    xorBytes (f keys (xorBytes ((bs.drop (16 * t.2)).take 16) m)) m

/-- A unit of 128 bytes encrypted, and decrypted, under the keys of a slot (R344). -/
def sealUnit (key unit : Nat) (bs : List Byte) : List Byte := xts key unit aesEncrypt bs
def unsealUnit (key unit : Nat) (bs : List Byte) : List Byte := xts key unit aesDecrypt bs

end Sys2Proof.Machine
end

