-- ==== Sys2Proof/Machine/Access.lean ====
section
/-! DEFINITION. Memory behind the home memory ports: the seal, ECC, the two-stage walk with its combined entries, loads, stores, futures and
the records that their faults write (R337 to R356, R416, R452). -/

namespace Sys2Proof.Machine

/-! ### Physical memory of the dies (R342 to R346) -/

/-- Region of a physical address (R342). -/
def region (a : Nat) : Nat := a / 2 ^ 44 % 4
/-- Bytes that the recall store takes of a die's comb die (R342). -/
def State.recallBytes (s : State) (die : Nat) : Nat := (s.host.recallMiB.getD die 128) * 2 ^ 20
/-- Whether a physical address reached by translation is populated (R342). -/
def State.populated (s : State) (die a : Nat) : Bool :=
  match region a with
  | 0 => a % 2 ^ 44 < Config.dramBytes
  | 1 => a % 2 ^ 44 < Config.combBytes - s.recallBytes die
  | _ => false

/-- The key slot of a context's tenant, as a number (R344, R345). -/
def State.keyOf (s : State) (ctx : Nat) : Nat := ((s.tenant? (s.tenantOf ctx)).map (·.key.toNat)).getD 0

/-- The 128 bytes that a unit of comb SRAM holds, encrypted: zero until it is first written through the seal, then what the last writer's key has made of
its data (R344, R451). The state keeps the data and the key. -/
def State.cipherUnit (s : State) (u : Nat) : List Byte :=
  match find s.sealed u with
  | none => List.replicate 128 0
  | some k => sealUnit k (u % 2 ^ 39) (Memory.readN s.mem (u * 128) 128)

/-- One byte of memory as a reader under a key sees it: comb SRAM lies behind the seal, and its bytes are what the reader's key decrypts, which is the
data for the key that wrote them (R343, R344, R451). -/
def State.memByte (s : State) (key a : Nat) : Byte :=
  if region a = 1 ∧ find s.sealed (a / 128) ≠ some key then
    (unsealUnit key (a / 128 % 2 ^ 39) (s.cipherUnit (a / 128))).getD (a % 128) 0
  else Memory.read s.mem a

def State.memBytes (s : State) (key a n : Nat) : List Byte := (List.range n).map fun i => s.memByte key (a + i)

/-- Whether a write of n bytes starts a monitor: over the tail word of its header, or over the byte that holds ERR (R90, R91). -/
def Monitor.startedBy (m : Monitor) (a n : Nat) : Bool :=
  (a < m.place + 8 && m.place < a + n) || (a ≤ m.place + 0x12 && m.place + 0x12 < a + n)
/-- A write that starts monitors starts their checks from the beginning (R90, R91). -/
def State.notice (s : State) (a n : Nat) : State :=
  if s.tenants.any fun t => t.2.queues.any fun q => q.2.startedBy a n then
    { s with tenants := s.tenants.map fun t => (t.1, { t.2 with queues := t.2.queues.map fun q =>
        (q.1, if q.2.startedBy a n then { q.2 with active := true, fresh := true } else q.2) }) }
  else s

/-- Whether a unit holds an error that its check cannot correct (R339). -/
def State.bad (s : State) (a : Nat) : Bool := s.badMem.contains (a / 128)
/-- A read corrects a correctable error, writes the data back and counts it (R339). -/
def State.scrub (s : State) (a : Nat) : State :=
  if s.softMem.contains (a / 128) then
    let d := a / 2 ^ 46
    { s with softMem := s.softMem.filter (· != a / 128), host := { s.host with corrected := put s.host.corrected d (findD s.host.corrected d 0 + 1) } }
  else s
/-- What a write of n bytes does to its unit's check: part of a unit is merged, which reads the unit; a whole unit is checked anew (R339,
R346). -/
def State.rewrite (s : State) (a n : Nat) : State :=
  if n = 128 then { s with softMem := s.softMem.filter (· != a / 128) } else s.scrub a

/-- Write bytes inside one 128-byte unit; a sealed unit last written under another key is decrypted, merged and written whole (R346). -/
def State.memWrite (s0 : State) (key a : Nat) (bs : List Byte) : State :=
  let s := (s0.notice a bs.length).rewrite a bs.length
  if region a = 1 then
    let u := a / 128
    let s1 := if find s.sealed u = some key then s
      else { s with mem := Memory.writeN s.mem (u * 128) (s.memBytes key (u * 128) 128), sealed := put s.sealed u key }
    { s1 with mem := Memory.writeN s1.mem a bs }
  else { s with mem := Memory.writeN s.mem a bs }

/-! ### Translation (R347 to R356) -/

/-- How an access fails, with the faulting address (R351, R413). -/
inductive TErr where
  | stage1 (va : Word) (lvl : BitVec 32)
  | perm (va : Word)
  | format (va : Word) (page decl : Nat)
  | stage2 (va : Word) (gpa lvl : Nat)
  | bad (va : Word)
deriving DecidableEq, Repr, Inhabited

/-- The level of a fault of a table walk; a fault of another kind has none (R351, R358). -/
def TErr.level : TErr → BitVec 32
  | .stage1 _ lvl => lvl
  | .stage2 _ _ lvl => BitVec.ofNat 32 lvl
  | _ => 0
/-- The cause code (R413). -/
def TErr.cause : TErr → BitVec 8
  | .stage1 _ _ => 0x20 | .perm _ => 0x11 | .format _ _ _ => 0x21
  | .stage2 _ _ lvl => if lvl = 0 then 0x22 else 0x23
  | .bad _ => 0x50
/-- The address that a trap or record shows (R413, column B). -/
def TErr.addr : TErr → Word
  | .stage1 va _ | .perm va | .format va _ _ | .stage2 va _ _ | .bad va => va
/-- Field C of a record (R413). -/
def TErr.fieldC : TErr → BitVec 32
  | .stage1 _ lvl => lvl
  | .format _ page decl => BitVec.ofNat 32 (page + decl * 16)
  | .stage2 _ _ lvl => BitVec.ofNat 32 lvl
  | _ => 0
/-- Whether the fault belongs to the hypervisor alone (R352). -/
def TErr.host : TErr → Bool
  | .stage2 _ _ _ => true
  | _ => false

/-- The answer of an access: a value, or how it failed, and the next state, with the translations made and the units corrected on the way. -/
inductive Res (α : Type) where
  | ok (x : α) (s : State)
  | err (e : TErr) (s : State)

/-- The stage-1 fault of R158, raised before any walk. -/
def noWalk (a : Word) : TErr := .stage1 a Config.noWalkLevel

/-- An entry of the second-stage array maps a guest address (R350, R351); none is a stage-2 fault. -/
def State.stage2 (s : State) (key die : Nat) (d : TrDesc) (gpa : Nat) (write : Bool) : Option (Nat × Bool) :=
  let n := bits gpa 47 21
  if n ≥ d.s2len.toNat then none
  else
    let e := leNat (s.memBytes key (die * 2 ^ 46 + (d.s2base.toNat * 8 + 8 * n) % 2 ^ 46) 8)
    if !bit e 0 || bits e 63 46 != 0 || bits e 20 2 != 0 then none
    else if write && !bit e 1 then none
    else
      let hpa := bits e 45 21 * 2 ^ 21 + bits gpa 20 0
      if s.populated die hpa then some (die * 2 ^ 46 + hpa, bit e 1) else none

/-- Whether a first-stage entry breaks its layout (R349, R351). -/
def badBits (e lvl : Nat) : Bool :=
  let leaf := lvl == 3 || bit e 2
  bit e 63 || bits e 55 48 != 0 || bits e 7 3 != 0 || (bit e 2 && lvl != 2)
    || (!leaf && bits e 15 8 != 0) || (lvl == 2 && bit e 2 && bits e 25 16 != 0)

/-- The format rule of pages and of declared formats (R75, R76). -/
def formatOk (fmt geom decl : Nat) : Bool :=
  (if fmt == 8 then 1 ≤ geom && geom ≤ 3 else geom == 0 && (fmt < 8 || fmt == 15)) && (decl == 15 || decl == fmt)

/-- Index of a level (R349). -/
def levelIx (va lvl : Nat) : Nat := match lvl with
  | 1 => bits va 45 36
  | 2 => bits va 35 26
  | _ => bits va 25 16

/-- The physical address of the second-stage entry that maps a guest address, where there is one to read (R350). -/
def s2Entry (die : Nat) (d : TrDesc) (gpa : Nat) : List Nat :=
  if bits gpa 47 21 ≥ d.s2len.toNat then [] else [die * 2 ^ 46 + (d.s2base.toNat * 8 + 8 * bits gpa 47 21) % 2 ^ 46]

/-- The first-stage walk from a level, with what is left of the three levels (R351), and the physical addresses of the table entries that it has read. A
walk that reads an entry in a failed unit ends there, with the cause of an uncorrectable error (R339; DESIGN CHOICE, log 86). -/
def State.walk (s : State) (key die : Nat) (d : TrDesc) (va : Word) (write : Bool) (decl : Option Nat) :
    Nat → Nat → Nat → Bool → Except TErr (Nat × TlbEntry) × List Nat
  | 0, _, lvl, _ => (.error (.stage1 va (BitVec.ofNat 32 lvl)), [])
  | n + 1, tbl, lvl, w =>
    let gpa := tbl + 8 * levelIx va.toNat lvl
    let reads := s2Entry die d gpa
    if reads.any s.bad then (.error (.bad va), reads)
    else match s.stage2 key die d gpa false with
    | none => (.error (.stage2 va gpa lvl), reads)
    | some (hpa, _) =>
      let reads := reads ++ [hpa]
      let e := leNat (s.memBytes key hpa 8)
      if s.bad hpa then (.error (.bad va), reads)
      else if !bit e 0 || badBits e lvl then (.error (.stage1 va (BitVec.ofNat 32 lvl)), reads)
      else
        let w := w && bit e 1
        if lvl == 3 || bit e 2 then
          if write && !w then (.error (.perm va), reads)
          else if !((decl.map fun f => formatOk (bits e 11 8) (bits e 15 12) f).getD true) then
            (.error (.format va (bits e 11 8) (decl.getD 15)), reads)
          else
            let size := if lvl == 3 then 2 ^ 16 else 2 ^ 26
            let gpa := bits e 47 16 * 2 ^ 16 + va.toNat % 2 ^ 46 % size
            let last := s2Entry die d gpa
            if last.any s.bad then (.error (.bad va), reads ++ last)
            else match s.stage2 key die d gpa write with
            | none => (.error (.stage2 va gpa 0), reads ++ last)
            | some (hpa, w2) =>
              let part := if lvl == 3 then 2 ^ 16 else 2 ^ 21
              (.ok (hpa, { port := homePort va, ctx := 0, vpage := va.toNat % 2 ^ 46 / part, large := lvl != 3,
                           frame := hpa / part * part, w := w && w2, fmt := bits e 11 8, geom := bits e 15 12, gframe := bits gpa 47 21 }), reads ++ last)
        else
          let r := State.walk s key die d va write decl n (bits e 47 16 * 2 ^ 16) (lvl + 1) w
          (r.1, reads ++ r.2)

/-- A combined entry that maps an address (R353). -/
def State.tlbHit (s : State) (ctx : Nat) (va : Word) : Option TlbEntry :=
  s.tlb.find? fun e => e.port == homePort va && e.ctx == ctx
    && e.vpage == va.toNat % 2 ^ 46 / (if e.large then 2 ^ 21 else 2 ^ 16)

/-- First byte and length of the page whose leaf a combined entry holds: 64 KiB, or 64 MiB, of which the entry covers a part (R349, R353). -/
def TlbEntry.page (t : TlbEntry) : Nat × Nat := if t.large then (t.vpage / 32 * 2 ^ 26, 2 ^ 26) else (t.vpage * 2 ^ 16, 2 ^ 16)

/-- Whether the pages of two entries of one port and context meet (R391). -/
def TlbEntry.meets (x e : TlbEntry) : Bool :=
  x.port == e.port && x.ctx == e.ctx && x.page.1 < e.page.1 + e.page.2 && e.page.1 < x.page.1 + x.page.2

/-- Keep a combined entry at its port, in the place of older ones of its page, all parts of it (R391); a port holds 2,048 (R353). -/
def State.tlbAdd (s : State) (e : TlbEntry) : State :=
  let old := s.tlb.filter fun x => !x.meets e
  let mine := old.filter fun x => x.port == e.port
  let kept := if mine.length ≥ Config.tlbEntries then old.filter (fun x => some x != mine.head?) else old
  { s with tlb := kept ++ [e] }

/-- Translate an address of a context (R351): physical address, page format and geometry, and the state with the combined entry that
the walk made; the table entries that a walk read, to its end or to its fault, are corrected (R339). The declared format is checked where one is given (R76); a scale address gives none (R77). -/
def State.translate (s : State) (ctx : Nat) (va : Word) (write : Bool) (decl : Option Nat) : Res (Nat × Nat × Nat) :=
  if !s.isGlobal va then .err (noWalk va) s
  else
    let die := homeDie va
    let fresh : Res (Nat × Nat × Nat) :=
      match (s.context? ctx).bind fun c => c.cfg.descs[die]? with
      | none => .err (noWalk va) s
      | some d =>
        let (r, reads) := s.walk (s.keyOf ctx) die d va write decl 3 (d.s1root.toNat * 2 ^ 16) 1 true
        let s1 := reads.foldl State.scrub s
        match r with
        | .error e => .err e s1
        | .ok (hpa, e) => .ok (hpa, e.fmt, e.geom) (s1.tlbAdd { e with ctx := ctx })
    match s.tlbHit ctx va with
    | none => fresh
    | some e =>
      if write && !e.w then fresh
      else if !((decl.map fun f => formatOk e.fmt e.geom f).getD true) then .err (.format va e.fmt (decl.getD 15)) s
      else .ok (e.frame + va.toNat % (if e.large then 2 ^ 21 else 2 ^ 16), e.fmt, e.geom) s

/-- Read bytes inside one 128-byte unit at the home port (R351, R379). -/
def State.load (s : State) (ctx : Nat) (va : Word) (n : Nat) (decl : Option Nat) : Res (List Byte) :=
  match s.translate ctx va false decl with
  | .err e s => .err e s
  | .ok (pa, _, _) s1 => if s1.bad pa then .err (.bad va) s1 else .ok (s1.memBytes (s1.keyOf ctx) pa n) (s1.scrub pa)

/-- Write bytes inside one 128-byte unit at the home port; a write of part of a failed unit is dropped (R339). -/
def State.store (s : State) (ctx : Nat) (va : Word) (bs : List Byte) (decl : Option Nat) : Res Unit :=
  match s.translate ctx va true decl with
  | .err e s => .err e s
  | .ok (pa, _, _) s1 =>
    if s1.bad pa then
      if pa % 128 = 0 ∧ bs.length = 128 then
        .ok () ({ s1 with badMem := s1.badMem.filter (· != pa / 128) }.memWrite (s1.keyOf ctx) pa bs)
      else .err (.bad va) s1
    else .ok () (s1.memWrite (s1.keyOf ctx) pa bs)

/-- A read that may cross units, one access for each (R379). -/
def State.loadN (s : State) (ctx : Nat) (va : Word) (decl : Option Nat) : Nat → Nat → Res (List Byte)
  | _, 0 => .ok [] s
  | 0, _ => .ok [] s
  | fuel + 1, n =>
    let k := min n (128 - va.toNat % 128)
    match s.load ctx va k decl with
    | .err e s => .err e s
    | .ok bs s1 =>
      match State.loadN s1 ctx (va + BitVec.ofNat 64 k) decl fuel (n - k) with
      | .err e s1 => .err e s1
      | .ok cs s2 => .ok (bs ++ cs) s2

/-- Read bytes at a physical address, zero where the unit failed (R339). -/
def State.readUnit (s : State) (ctx pa n : Nat) : List Byte × State :=
  if s.bad pa then (List.replicate n 0, s) else (s.memBytes (s.keyOf ctx) pa n, s.scrub pa)

/-- A read of a cell, port or copy engine that may cross units: a failed unit reads as zero bytes, and the addresses of such parts are told (R339). -/
def State.loadZ (s : State) (ctx : Nat) (va : Word) : Nat → Nat → Res (List Byte × List Word)
  | _, 0 => .ok ([], []) s
  | 0, _ => .ok ([], []) s
  | fuel + 1, n =>
    let k := min n (128 - va.toNat % 128)
    match s.translate ctx va false (some 15) with
    | .err e s => .err e s
    | .ok (pa, _, _) s1 =>
      let (bs, s2) := s1.readUnit ctx pa k
      match State.loadZ s2 ctx (va + BitVec.ofNat 64 k) fuel (n - k) with
      | .err e s3 => .err e s3
      | .ok (cs, bad) s3 => .ok (bs ++ cs, if s1.bad pa then va :: bad else bad) s3

/-- A write that may cross units, one access for each; what lies before a faulting access is written. -/
def State.storeN (s : State) (ctx : Nat) (va : Word) (decl : Option Nat) : Nat → List Byte → State × Option TErr
  | _, [] => (s, none)
  | 0, _ => (s, none)
  | fuel + 1, bs =>
    let k := min bs.length (128 - va.toNat % 128)
    match s.store ctx va (bs.take k) decl with
    | .err e s => (s, some e)
    | .ok _ s1 => State.storeN s1 ctx (va + BitVec.ofNat 64 k) decl fuel (bs.drop k)

/-- Read a 64-bit word of raw bytes. -/
def State.load64 (s : State) (ctx : Nat) (va : Word) : Res Word :=
  match s.load ctx va 8 (some 15) with
  | .err e s => .err e s
  | .ok bs s1 => .ok (bytesWord bs) s1

/-- Read a 64-bit word at its home port for an operation on it, which also gives the physical address (R347). -/
def State.wordAt (s : State) (ctx : Nat) (va : Word) (write : Bool) : Res (Nat × Word) :=
  match s.translate ctx va write (some 15) with
  | .err e s => .err e s
  | .ok (pa, _, _) s1 =>
    if s1.bad pa then .err (.bad va) s1 else .ok (pa, bytesWord (s1.memBytes (s1.keyOf ctx) pa 8)) (s1.scrub pa)

/-- Write a 64-bit word of raw bytes. -/
def State.store64 (s : State) (ctx : Nat) (va v : Word) : Res Unit := s.store ctx va (wordBytes v) (some 15)

/-! ### Records of faulting accesses (R194, R352) -/

/-- A host record of a stage-2 fault (R352, R413). -/
def State.s2Rec (s : State) (ctx : Nat) (kind : SrcKind) (loc : BitVec 32) (src : Nat) (e : TErr) : State :=
  match e with
  | .stage2 va gpa lvl => s.hostRecord {
      tenant := s.tenantOf ctx, cause := e.cause, kind := kind, ctx := BitVec.ofNat 12 ctx, loc := loc,
      a := va, b := BitVec.ofNat 64 gpa, c := BitVec.ofNat 32 lvl, src := src }
  | _ => s

/-- The record of a faulting access: to the host for a stage-2 fault, else to the tenant with field A given. -/
def State.accessRec (s : State) (ctx : Nat) (kind : SrcKind) (loc : BitVec 32) (src : Nat) (posted : Bool) (a : Word) (e : TErr)
    (sub : Nat := 0) : State :=
  if e.host then s.s2Rec ctx kind loc src e
  else s.record {
    tenant := s.tenantOf ctx, cause := e.cause, kind := kind, posted := posted, ctx := BitVec.ofNat 12 ctx, loc := loc,
    a := a, b := e.addr, c := e.fieldC, src := src, sub := sub }

/-- Locator and source index of a memory port (R98, R414). -/
def portLoc (p : Nat) : BitVec 32 := BitVec.ofNat 32 (p / 16 * 128 + p % 16)
def portSrc (p : Nat) : Nat := 2177 + p

/-! ### Futures (R105, R106, R214) -/

/-- Release the entries of a future in table order: each parked core is woken with the value (R106). -/
def State.release (s : State) (pa : Nat) (v : BitVec 63) : State :=
  let mine := s.waits.filter fun x => x.1 == pa
  let s1 := { s with waits := s.waits.filter fun x => x.1 != pa }
  mine.foldl (fun s x => s.modCore x.2.2 fun c => match c.wait with
    | .parked d t _ => { c with wait := .woken d t (zext v) }
    | _ => c) s1

/-- Fill a future: value and full bit, then its waiters are released (R214). -/
def State.fill (s : State) (ctx : Nat) (a : Word) (v : BitVec 63) : Res Unit :=
  match s.translate ctx a true (some 15) with
  | .err e s => .err e s
  | .ok (pa, _, _) s1 =>
    if s1.bad pa then .err (.bad a) s1
    else
      let full := s1.waits.any fun x => x.1 == pa
      let s2 := s1.memWrite (s1.keyOf ctx) pa (wordBytes (zext v ||| 0x8000000000000000#64))
      .ok () (if full then s2.release pa v else s2)

/-! ### Fault queues (R414 to R416, R444, R452) -/

/-- Code of a source kind (R414). -/
def SrcKind.code : SrcKind → Nat
  | .core => 0 | .cell => 1 | .port => 2 | .engine => 3 | .memport => 4 | .loader => 5 | .network => 6

/-- The 32 bytes of a fault record, with its number in its queue (R414). -/
def FRec.bytes (r : FRec) (n : Word) : List Byte :=
  let flags := r.kind.code * 32 + (if r.posted then 4 else 0) + (if r.halted then 2 else 0) + (if r.nested then 1 else 0)
  leBytes 1 r.cause.toNat ++ leBytes 1 flags ++ leBytes 2 r.ctx.toNat ++ leBytes 4 r.loc.toNat ++ wordBytes r.a ++ wordBytes r.b
    ++ leBytes 4 r.c.toNat ++ leBytes 4 n.toNat

/-- A field of a 64-byte header. -/
def hdr64 (h : List Byte) (off : Nat) : Word := bytesWord ((h.drop off).take 8)

/-- Whether a queue is full: (tail − head) mod 2⁶⁴ ≥ 2^slots (R416). -/
def queueFull (h : List Byte) : Bool := (hdr64 h 0 - hdr64 h 0x18).toNat ≥ 2 ^ (leNat ((h.drop 0x10).take 1))

/-- Address of record n of a queue of 32-byte records. -/
def slotAddr (h : List Byte) (n : Word) : Word := hdr64 h 8 + BitVec.ofNat 64 (32 * (n.toNat % 2 ^ (leNat ((h.drop 0x10).take 1))))

/-- Add 1 to a saturating 64-bit count. -/
def satInc (w : Word) : Word := if w = 0xFFFFFFFFFFFFFFFF#64 then w else w + 1

/-- Append a record to the tenant's fault queue (R416); where its accesses fault, R452 decides. -/
def State.appendTenant (s : State) (r : FRec) : State :=
  match s.tenant? r.tenant with
  | none => s
  | some t =>
    let ctx := t.cfg.hostCtx
    let h := t.cfg.faultHdr
    match s.load ctx h 64 (some 15) with
    | .err _ s => s.hostRecord r
    | .ok hd s1 =>
      let tail := hdr64 hd 0
      let lose (s : State) : State := match s.store64 ctx (h + 0x20) (satInc (hdr64 hd 0x20)) with
        | .ok _ s => s
        | .err _ s => s
      if queueFull hd then lose s1
      else
        match s1.store ctx (slotAddr hd tail) (r.bytes tail) (some 15) with
        | .err _ s1 => (lose s1).hostRecord r
        | .ok _ s2 =>
          match s2.store64 ctx h (tail + 1) with
          | .err _ s2 => s2.hostRecord r
          | .ok _ s3 =>
            let fut := hdr64 hd 0x28
            if fut = 0 then s3
            else match s3.fill ctx fut ((tail + 1).setWidth 63) with
              | .ok _ s4 => s4
              | .err e s3 =>
                if e.host then s3.s2Rec ctx .memport (portLoc (homePort h)) (portSrc (homePort h)) e
                else s3.hostRecord {
                  tenant := r.tenant, cause := e.cause, kind := .memport, ctx := BitVec.ofNat 12 ctx, loc := portLoc (homePort h), a := 0, b := fut,
                  c := e.fieldC, src := portSrc (homePort h) }

/-- Append a record to the host fault queue by DMA and raise MSI-X vector 0; while HFQ is 0 it is lost (R444). -/
def State.appendHost (s : State) (r : FRec) : State :=
  if s.host.hfq = 0 then s
  else
    let m := s.host.mem
    let h := Memory.readN m s.host.hfq.toNat 64
    let m1 :=
      if queueFull h then Memory.writeN m (s.host.hfq.toNat + 0x20) (wordBytes (satInc (hdr64 h 0x20)))
      else Memory.writeN (Memory.writeN m (slotAddr h (hdr64 h 0)).toNat (r.bytes (hdr64 h 0))) s.host.hfq.toNat (wordBytes (hdr64 h 0 + 1))
    { s with host := { s.host with mem := m1, msix := if queueFull h then s.host.msix else s.host.msix ++ [0] } }

/-! ### Banks (R337 to R341) -/

/-- Place of a bank's byte in the banks of the package. -/
def bankAddr (die : Nat) (b : BankId) (off : Nat) : Nat := ((die * 32 + b.quad.toNat) * 32 + b.bank.toNat) * 65536 + off
/-- Every window that names a bank on a die. -/
def State.bankUsed (s : State) (die : Nat) (b : BankId) : Bool :=
  s.cores.any fun x => x.1 / 128 == die && x.2.wins.any fun w => w.bank == some b || w.shadow == some b
/-- Zero a live bank (R222); every unit is written whole (R339). -/
def State.zeroBank (s : State) (a : Nat) : State :=
  { s with banks := Memory.clear s.banks a 65536, badBank := s.badBank.filter fun u => !(a ≤ u * 8 && u * 8 < a + 65536),
           softBank := s.softBank.filter fun u => !(a ≤ u * 8 && u * 8 < a + 65536) }
/-- A bank returns to its switch's pool and is zeroed (R216). -/
def State.freeBank (s : State) (die : Nat) (b : BankId) : State := s.zeroBank (bankAddr die b 0)
/-- Free banks of a quad, lowest first (R337). -/
def State.freeBanks (s : State) (die quad : Nat) : List BankId :=
  ((List.range 32).map fun i => BankId.mk (BitVec.ofNat 5 quad) (BitVec.ofNat 5 i)).filter fun b => !s.bankUsed die b

/-- Whether a 64-bit unit of a bank holds an uncorrectable error (R339). -/
def State.badBankUnit (s : State) (a : Nat) : Bool := s.badBank.contains (a / 8)
/-- Correct a correctable error of a bank unit on a read (R339). -/
def State.scrubBank (s : State) (a : Nat) : State :=
  if s.softBank.contains (a / 8) then
    let d := a / 2 ^ 26
    { s with softBank := s.softBank.filter (· != a / 8), host := { s.host with corrected := put s.host.corrected d (findD s.host.corrected d 0 + 1) } }
  else s

/-- Correct every unit of n bytes of a bank from an address (R339). -/
def State.scrubBanks (s : State) (a n : Nat) : State := (List.range ((a % 8 + n + 7) / 8)).foldl (fun s i => s.scrubBank (a / 8 * 8 + 8 * i)) s

/-- Read a bank; a failed unit reads as zero bytes and is reported (R339). -/
def State.bankRead (s : State) (a n : Nat) : List Byte × Bool :=
  ((List.range n).map fun i => if s.badBankUnit (a + i) then 0 else Memory.read s.banks (a + i), (List.range n).any fun i => s.badBankUnit (a + i))

/-- Write a bank: bytes of a failed unit that the write does not cover whole are dropped, a unit covered whole is good again (R339). -/
def State.bankWrite (s : State) (a : Nat) (bs : List Byte) : State × Bool :=
  let whole (u : Nat) : Bool := a ≤ u * 8 && u * 8 + 8 ≤ a + bs.length
  let units := (List.range ((a % 8 + bs.length + 7) / 8)).map (a / 8 + ·)
  let s1 := (units.filter fun u => !whole u).foldl (fun s u => s.scrubBank (u * 8))
    { s with badBank := s.badBank.filter fun u => !whole u, softBank := s.softBank.filter fun u => !whole u }
  let step (acc : Memory × Nat) (b : Byte) : Memory × Nat :=
    (if s1.badBankUnit acc.2 then acc.1 else Memory.write acc.1 acc.2 b, acc.2 + 1)
  ({ s1 with banks := (bs.foldl step (s1.banks, a)).1 }, (List.range bs.length).any fun i => s1.badBankUnit (a + i))

end Sys2Proof.Machine
end

