-- ==== Sys2Proof/Machine/Submit.lean ====
section
/-! DEFINITION. Launch blocks: their fields, their validation, submission at a dependency counter and the ready queues (R92 to R101). -/

namespace Sys2Proof.Machine

/-! ### Fields of a launch block (R92) -/

def fieldN (bs : List Byte) (off n : Nat) : Nat := leNat ((bs.drop off).take n)

def blkGraph (b : List Byte) : Word := BitVec.ofNat 64 (fieldN b 0 8)
def blkEntry (b : List Byte) : Nat := fieldN b 8 4
def blkFlags (b : List Byte) : Nat := fieldN b 0xC 2
def blkShape (b : List Byte) : Nat := fieldN b 0xE 2
def blkCounter (b : List Byte) : Word := BitVec.ofNat 64 (fieldN b 0x10 8)
def blkArg (b : List Byte) (i : Nat) : Word := BitVec.ofNat 64 (fieldN b (0x18 + 8 * i) 8)
def blkCtx (b : List Byte) : Nat := fieldN b 0x38 2
def blkLevel (b : List Byte) : Nat := blkFlags b % 4
def blkAdmit (b : List Byte) : Bool := bit (blkFlags b) 2
def blkDie (b : List Byte) : Nat := bits (blkShape b) 15 12
def blkK (b : List Byte) : Nat := bits (blkShape b) 11 8
def blkQuad (b : List Byte) : Nat := bits (blkShape b) 7 0

/-- Available cores of a die (R2, R449). -/
def State.availCount (s : State) (die : Nat) : Nat := ((List.range 128).filter fun c => s.available (die * 128 + c)).length

/-- The context that a block names, for a submitter's context (R92). -/
def blkContext (b : List Byte) (ctx : Nat) : Nat := if blkCtx b = 0xFFFF then ctx else blkCtx b

/-- The die a block goes to: the one it names, or its submitter's (R99). -/
def blkGoes (b : List Byte) (die : Nat) : Nat := if blkDie b = 0xF then die else blkDie b

/-- The tests of R93 on a block and the header of its graph object. -/
def State.blockOk (s : State) (b h : List Byte) (ctx die : Nat) (mgmt : Bool) : Bool :=
  let codeBytes := fieldN h (0x10 + 8 * 8 + 4) 4 * 4
  let entryOk (e : Nat) : Bool := e % 4 == 0 && e < codeBytes
  bits (blkFlags b) 15 3 == 0 && fieldN b 0x3A 6 == 0 && (blkGraph b).toNat % 128 == 0 && (blkCounter b).toNat % 16 == 0
    && entryOk (if blkEntry b = 0xFFFFFFFF then fieldN h 0xC 4 else blkEntry b)
    && 2 ^ blkK b ≤ s.availCount (blkGoes b die)
    && ((s.context? (blkContext b ctx)).map fun c => c.cfg.tenant == s.tenantOf ctx).getD false
    && (!blkAdmit b || mgmt)

/-! ### Window lists (R103) -/

/-- Windows in a window list that is read as records of four bytes. -/
def parseWins : Nat → List Byte → List (Nat × Nat × Nat)
  | 0, _ => []
  | n + 1, bs => (fieldN bs 0 1, fieldN bs 1 1, fieldN bs 2 1) :: parseWins n (bs.drop 4)

/-- Index of the record at which the banks that one quad must give first exceed 32 (R103). -/
def overBanks (wins : List (Nat × Nat × Nat)) (k : Nat) : Option Nat :=
  let cores := min (2 ^ k) 4
  let need (i : Nat) : Nat := ((wins.take (i + 1)).map fun w => if w.2.1 = 2 then 2 else 1).sum * cores
  (List.range wins.length).find? fun i => need i > Config.banksPerQuad

/-- A window list in memory, as far as it can be read. -/
def State.winsOf (s : State) (ctx : Nat) (b : List Byte) : List (Nat × Nat × Nat) :=
  match s.load ctx (blkGraph b) 128 (some 15) with
  | .err _ _ => []
  | .ok h _ =>
    let n := min (fieldN h 0x14 4) 16
    match s.loadN ctx (blkGraph b + BitVec.ofNat 64 (fieldN h 0x10 4)) (some 15) 4 (4 * n) with
    | .ok bs _ => parseWins n bs
    | .err _ _ => []

/-! ### The ready queues (R99, R100) -/

/-- A launch unit's queue of a level and tenant. -/
def readyKey (level tenant : Nat) : Nat := level * 64 + tenant

/-- A setting-load record (R413). -/
def State.loadErr (s : State) (ctx : Nat) (kind : SrcKind) (loc : BitVec 32) (src : Nat) (a b : Word) (check : Nat) : State :=
  s.record { tenant := s.tenantOf ctx, cause := 0x41, kind := kind, ctx := BitVec.ofNat 12 ctx, loc := loc, a := a, b := b,
             c := BitVec.ofNat 32 check, src := src }

/-- Locator and source index of a die's launch unit (R98, R414). -/
def unitLoc (die : Nat) : BitVec 32 := BitVec.ofNat 32 (die * 128)
def unitSrc (die : Nat) : Nat := 2449 + die

/-- Put a ready entry at the tail of its tenant's queue. -/
def State.addReady (s : State) (die level tenant : Nat) (r : Ready) : State :=
  let u := findD s.units die {}
  let k := readyKey level tenant
  { s with units := put s.units die { u with ready := put u.ready k (findD u.ready k [] ++ [r]) } }

/-- Enqueue a validated block, unless its window list is one that no quad can serve: that is refused (R103). The second value tells whether it is
enqueued. -/
def State.enqueue (s : State) (addr : Word) (b : List Byte) (ctx die : Nat) : State × Bool :=
  let c := blkContext b ctx
  let d := blkGoes b die
  match overBanks (s.winsOf c b) (blkK b) with
  | some i => (s.loadErr c .loader (unitLoc d) (unitSrc d) (blkGraph b) (BitVec.ofNat 64 i) 8, false)
  | none => (s.addReady d (blkLevel b) (s.tenantOf c) { addr := addr, block := b, ctx := c, since := s.cycle }, true)

/-! ### Submission (R93, R96, R97) -/

/-- Who submits: its context, die, source kind, locator, source index, and the value of field A of its access records. -/
structure Submitter where
  ctx  : Nat
  die  : Nat
  kind : SrcKind
  loc  : BitVec 32
  src  : Nat
  a    : Word
  mgmt : Bool := false
deriving DecidableEq, Repr, Inhabited

/-- A control core as a submitter. -/
def State.coreSubmitter (s : State) (n : Nat) : Submitter :=
  { ctx := s.ctxOf n, die := dieOf n, kind := .core, loc := (s.locator n).setWidth 32, src := n, a := (s.coreAt n).pc }

/-- What a submission comes to: it passed, it was refused, an access of it is held by a stage-2 fault, or it reaches its counter in a cycle that has
served an agent of a higher source there (R98). -/
inductive SubRes where
  | pass (b : List Byte) (s : State)
  | refused (s : State)
  | held (s : State)
  | later

/-- A submission whose block is enqueued at once (R97, R103). -/
def State.subEnqueue (s : State) (w : Submitter) (addr : Word) (b : List Byte) : SubRes :=
  match s.enqueue addr b w.ctx w.die with
  | (s1, true) => .pass b s1
  | (s1, false) => .refused s1

/-- The answer to a faulting read of a submission (R93). -/
def State.subFault (s : State) (w : Submitter) (e : TErr) : SubRes :=
  let s1 := s.accessRec w.ctx w.kind w.loc w.src false w.a e
  if e.host then .held s1 else .refused s1

/-- A launch block with the admission bit set, as the management controller submits a tenant's admission program (R94). -/
def withAdmission (b : List Byte) : List Byte := modAt b 0xC fun x => x ||| 4

/-- Charge a submitter's tenant for what its reads return (R408); the management controller's are no tenant's. -/
def State.paySubmitter (s : State) (w : Submitter) (n : Nat) : State := if w.mgmt then s else s.charge w.die (s.tenantOf w.ctx) n

/-- Read and validate a block (R93); the management controller sets the admission bit of the one it submits (R94). The 64 bytes are read from any address, a
multiple of 64 or not (DESIGN CHOICE, log 98). -/
def State.readBlock (s : State) (w : Submitter) (addr : Word) : SubRes :=
  match s.loadN w.ctx addr (some 15) 2 64 with
  | .err e s => s.subFault w e
  | .ok b0 s0 =>
    let s1 := s0.paySubmitter w 64
    let b := if w.mgmt then withAdmission b0 else b0
    match s1.loadN w.ctx (blkGraph b) (some 15) 2 128 with
    | .err e s1 => s1.subFault w e
    | .ok h s1 =>
      let s2 := s1.paySubmitter w 128
      if s2.blockOk b h w.ctx w.die w.mgmt then .pass b s2
      else .refused (s2.loadErr w.ctx w.kind w.loc w.src addr 0 0)

/-- A submission at its counter (R97): the block is held, enqueued at once, or refused where the counter is armed. -/
def State.atCounter (s : State) (w : Submitter) (addr : Word) (b : List Byte) : SubRes :=
  let ca := blkCounter b
  match s.load w.ctx ca 16 (some 15) with
  | .err e s => s.subFault w e
  | .ok c s1 =>
    if bit (fieldN c 4 1) 0 then .refused (s1.loadErr w.ctx w.kind w.loc w.src addr 0 0)
    else if fieldN c 0 4 = 0 then s1.subEnqueue w addr b
    else
      match s1.store w.ctx ca (c.take 4 ++ [BitVec.ofNat 8 (fieldN c 4 1) ||| 1] ++ (c.drop 5).take 3 ++ wordBytes addr) (some 15) with
      | .err e s1 => s1.subFault w e
      | .ok _ s2 => .pass b s2

/-- Submit the block at an address and see it through at its counter. -/
def State.submit (s : State) (w : Submitter) (addr : Word) : SubRes :=
  match s.readBlock w addr with
  | .pass b s1 =>
    let home := homePort (blkCounter b)
    if blkCounter b = 0 then s1.subEnqueue w addr b
    else if s1.inOrder home (rankOf w.src 0) then (s1.noteServed home (rankOf w.src 0)).atCounter w addr b
    else .later
  | r => r

/-- Submit the block at an address; where it names a counter, the submission travels to the counter's home port. -/
def State.submitPosted (s : State) (w : Submitter) (addr : Word) : SubRes :=
  match s.readBlock w addr with
  | .pass b s1 =>
    if blkCounter b = 0 then s1.subEnqueue w addr b
    else .pass b { s1 with subs := s1.subs ++ [{ addr := addr, block := b, ctx := w.ctx, tenant := s1.tenantOf w.ctx, die := w.die,
                                                 src := w.src, a := w.a, mgmt := w.mgmt }] }
  | r => r

/-- Lower a counter by 1 (R97; the underflow record is the port's own, R427): where it reaches zero armed, it is disarmed and its held block read, validated and enqueued (R96); that
read waits while its tenant's bucket is below 0 (R407). The second value tells whether a stage-2 fault holds the operation. -/
def State.decrement (s : State) (ctx src : Nat) (kind : SrcKind) (loc : BitVec 32) (pc : Word) (ca : Word) : State × Bool :=
  match s.load ctx ca 16 (some 15) with
  | .err e s => (s.accessRec ctx kind loc src (kind == .core) pc e, e.host)
  | .ok c s1 =>
    let n := fieldN c 0 4
    if n = 0 then
      (s1.record {
        tenant := s1.tenantOf ctx, cause := 0x30, kind := .memport, ctx := BitVec.ofNat 12 ctx, loc := portLoc (homePort ca),
        a := ca, b := 0, c := BitVec.ofNat 32 src, src := portSrc (homePort ca) }, false)
    else
      let due := n == 1 && bit (fieldN c 4 1) 0
      let arm := if due then [BitVec.ofNat 8 (fieldN c 4 1 / 2 * 2)] else (c.drop 4).take 1
      match s1.store ctx ca (leBytes 4 (n - 1) ++ arm ++ c.drop 5) (some 15) with
      | .err e s1 => (s1.accessRec ctx kind loc src (kind == .core) pc e, e.host)
      | .ok _ s2 =>
        if !due then (s2, false)
        else
          let addr := BitVec.ofNat 64 (fieldN c 8 8)
          let w : Submitter := { ctx := ctx, die := homeDie ca, kind := .memport, loc := portLoc (homePort ca), src := portSrc (homePort ca), a := addr }
          let later (s : State) (held : Bool) : State × Bool :=
            ({ s with subs := s.subs ++ [{ addr := addr, block := [], ctx := ctx, tenant := s.tenantOf ctx, die := homeDie ca,
                                           src := portSrc (homePort ca), a := addr, fresh := true, held := held }] }, false)
          if s2.bucketLow (homeDie ca) (s2.tenantOf ctx) then later s2 false
          else match s2.readBlock w addr with
          | .pass b s3 => ((s3.enqueue addr b ctx (homeDie ca)).1, false)
          | .refused s3 => (s3, false)
          | .later => (s2, false)
          | .held s3 => later s3 true

end Sys2Proof.Machine
end

