-- ==== Sys2Proof/Machine/Blocking.lean ====
section
/-! DEFINITION. Blocking operations (R194): what each does at its target when it can be applied, and how it waits or traps when not. An
instruction tries its operation once; while it waits, ACCESS_RESPONSE tries it again. -/

namespace Sys2Proof.Machine

/-- What an attempt comes to: applied, to be tried again (held by a stage-2 fault or not), waiting for another agent, or a trap with its
cause, address and field C. -/
inductive Att where
  | done (s : State)
  | hold (s : State) (op : BlockOp) (stage2 : Bool)
  | park (s : State)
  | trap (s : State) (cause : BitVec 8) (a : Word) (c : BitVec 32)

/-- Finish the instruction that waits: its effect on the core, then the next word. -/
def State.finish (s : State) (f : CoreSt → CoreSt) : State := s.setCore { (f s.core).adv with wait := .none }

/-- A drain, a write-back or a swap of a bank is charged to the tenant that caused it: for bytes that the spec does not state (R408). -/
def State.drainCharge (s : State) (die tenant : Nat) : State :=
  { s with free := s.free + 1 }.charge die tenant (Config.drainBytes s.free % 65537)

/-- The answer to a failed access of a core (R200, R352). -/
def State.failed (s : State) (op : BlockOp) (e : TErr) : Att :=
  if e.host then .hold (s.s2Rec (s.ctxOf s.cur) .core ((s.locator s.cur).setWidth 32) s.cur e) op true
  else .trap s e.cause e.addr e.fieldC

/-- The answer to a failed update of a core, whose operand bytes have entered the network (R407); one that a stage-2 fault holds is charged once it is
applied. -/
def State.failedUpdate (s : State) (op : BlockOp) (e : TErr) (n : Nat) : Att :=
  (if e.host then s else s.charge (dieOf s.cur) (s.tenantOf (s.ctxOf s.cur)) n).failed op e

/-! ### Own posted accesses (R195) -/

/-- Whether two address ranges of global addresses meet. -/
def overlap (a : Word) (n : Nat) (b : Word) (m : Nat) : Bool :=
  let x := a.toNat % 2 ^ 50
  let y := b.toNat % 2 ^ 50
  x < y + m && y < x + n

/-- Bytes of memory that a request touches. -/
def Flight.range (f : Flight) : Option (Word × Nat) :=
  match f.op with
  | .store a bs => some (a, bs.length)
  | .fetch a n => some (a, n)
  | .amo a _ _ _ | .signal a _ => some (a, 8)
  | .dec a => some (a, 16)
  | _ => none

/-- Whether a request touches bytes of a range of virtual addresses. -/
def Flight.hits (f : Flight) (a : Word) (n : Nat) : Bool :=
  match f.range with
  | some (b, m) => overlap a n b m
  | none => false

/-- The physical address of a virtual one, where it has one. -/
def State.frameOf (s : State) (ctx : Nat) (a : Word) : Option Nat :=
  match s.translate ctx a false none with
  | .ok (pa, _, _) _ => some pa
  | .err _ _ => none

/-- Whether n bytes of memory from an address meet m bytes from another, by one address or through two pages of one frame (R195, R381). The n bytes lie
in one page. -/
def State.meetBytes (s : State) (ctx : Nat) (a : Word) (n : Nat) (b : Word) (m : Nat) : Bool :=
  overlap a n b m || (homeDie a == homeDie b && (match s.frameOf ctx a with
    | none => false
    | some p => (List.range ((b.toNat % 65536 + m + 65535) / 65536)).any fun i =>
      let page := b.toNat / 65536 * 65536 + 65536 * i
      let lo := max b.toNat page
      match s.frameOf ctx (BitVec.ofNat 64 lo) with
      | some q => p < q + (min (b.toNat + m) (page + 65536) - lo) && q < p + n
      | none => false))

/-- Whether a request of core m touches the live bank of window w of core n. -/
def Flight.hitsWin (f : Flight) (n : Nat) (w : BitVec 4) : Bool :=
  match f.op with
  | .wstore v _ _ => f.core == n && v == w
  | .bzero v _ => f.core == n && v == w
  | .xstore a _ => xCore a == n && xWin a == some w
  | _ => false

/-- The core's own earlier request to these bytes is still on its way (R195). -/
def State.ownPending (s : State) (a : Word) (n : Nat) : Bool := (s.posted s.cur).any fun f => !f.applied && (match f.range with
  | some (b, m) => s.meetBytes f.ctx a n b m
  | none => false)
/-- The core's own earlier access to a window of core m is still on its way. -/
def State.ownWinPending (s : State) (m : Nat) (w : BitVec 4) : Bool := (s.posted s.cur).any fun f => !f.applied && f.hitsWin m w
/-- Every earlier posted request of the core has been acknowledged: a release or fence is done (R211, R382). -/
def State.quiet (s : State) : Bool := (s.posted s.cur).isEmpty

/-! ### Address and count of a command (R145, R147, R148, R239) -/

/-- The port that a command word names (R145). -/
def cmdPort (w : CmdWord) : BitVec 4 := w.extractLsb' 116 4

/-- The address of a command with its override; none where R148 or R239 is broken. The 56-bit field of a command that has no class and takes a global address,
the open of a reduction window, gives address bits [49:0] of this package, and its other bits are reserved (R147, R266; DESIGN CHOICE, log 97). -/
def cmdAddr (u : AddrUse) (q : QCmd) (c : StreamCmd) : Option Word :=
  let ov := q.addrOv
  let form := bits ov.toNat 63 60
  match u with
  | .none => if ov = 0 then some 0 else none
  | .value n => if ov.toNat < 2 ^ n then some (if ov = 0 then zext c.addr else ov) else none
  | .global =>
    if ov = 0 then some (BitVec.ofNat 64 (0x3FF * 2 ^ 50 + c.addr.toNat % 2 ^ 50)) else if form = 0 ∨ form = 8 then some ov else none
  | .stream =>
    if c.cls = 0 ∨ c.cls = 1 then
      if ov = 0 then some (zext c.addr) else if ov.toNat < 2 ^ 20 then some ov else none
    else if ov = 0 then some (BitVec.ofNat 64 ((if c.addr.getLsbD 55 then 8 else 0) * 2 ^ 60 + 0x3FF * 2 ^ 50 + c.addr.toNat % 2 ^ 50))
    else if form = 0 ∨ form = 8 then some ov else none

/-- The count of a command with its override; none where R148 is broken. -/
def cmdCount (takes : Bool) (q : QCmd) (c : StreamCmd) : Option Nat :=
  if q.cntOv = 0 then some c.count.toNat else if takes && q.cntOv.toNat < 2 ^ 24 then some q.cntOv.toNat else none

/-! ### Copy commands (R244, R245) -/

/-- The exchange address of a window's byte on this package (R157). -/
def State.xAddr (s : State) (m : Nat) (w : BitVec 4) (off : Nat) : Word :=
  BitVec.ofNat 64 (8 * 2 ^ 60 + s.host.pkg.toNat * 2 ^ 50 + dieOf m * 2 ^ 46 + coreIn m * 2 ^ 39 + w.toNat * 2 ^ 35 + off)
/-- Whether an address has the form of an exchange address (R157). -/
def exchangeForm (a : Word) : Bool := bits a.toNat 63 60 == 8

/-- Address of the descriptor in progress, and its fields (R244). -/
def CopyJob.at (j : CopyJob) : Word := j.list + BitVec.ofNat 64 (64 * j.next)
def CopyJob.src (j : CopyJob) : Word := BitVec.ofNat 64 (fieldN j.desc 0 8)
def CopyJob.dst (j : CopyJob) : Word := BitVec.ofNat 64 (fieldN j.desc 8 8)
def CopyJob.len (j : CopyJob) : Nat := fieldN j.desc 0x10 4
def CopyJob.succs (j : CopyJob) : List Nat := (List.range 4).map fun i => fieldN j.desc (0x18 + 8 * i) 8

/-- Whether an exchange address of this package names a window of core n. -/
def State.namesWin (s : State) (a : Word) (n : Nat) (w : BitVec 4) : Bool := s.isExchange a && xCore a == n && xWin a == some w

/-- Whether a copy command has a write to a window of core n still to make: in its descriptor in progress, or in one that it has still to read, as
the list stands. -/
def State.copiesTo (s : State) (j : CopyJob) (n : Nat) (w : BitVec 4) : Bool :=
  (!j.desc.isEmpty && !j.ready && s.namesWin j.dst n w)
    || (List.range (j.count - j.next)).any fun i => (i != 0 || j.desc.isEmpty) &&
      match s.load j.ctx (j.at + BitVec.ofNat 64 (64 * i)) 64 (some 15) with
      | .ok d _ => s.namesWin (BitVec.ofNat 64 (fieldN d 8 8)) n w
      | .err _ _ => false

/-- The copy command that a queued CPY hands to its engine, where it has a list to hand over (R244). -/
def State.jobOf (s : State) (n : Nat) (q : QCmd) : Option CopyJob :=
  if q.empty || q.prog.dropped || (q.word.extractLsb' 120 8) != 0x07 then none
  else match cmdAddr .stream q (cmdFields q.word), cmdCount true q (cmdFields q.word) with
    | some a, some k =>
      if s.isGlobal a && a.toNat % 64 == 0 then
        some { num := q.num, core := n, port := (cmdPort q.word).toNat, id := q.id, ctx := s.ctxOf n, tenant := s.tenantOf (s.ctxOf n),
               group := ((s.coreAt n).group).getD 0, list := a, count := k }
      else none
    | _, _ => none

/-- Whether commands that wait at the ports of a core may come to start: its group runs and is not asked to stop, and not all its cores are done (R419,
R428). -/
def State.startsCmds (s : State) (n : Nat) : Bool :=
  ((s.groupOf n).map fun x => x.status == .running && x.preempt.isNone && (x.cores.any fun m => !(s.coreAt m).over)).getD false

/-- Accesses to a window's bank accepted before request number `below` and not yet done, with the writes of copy commands that were issued before it, at
an engine or still at their port: what a drain waits for (R218). A command that may not start any more is not waited for (log 90). -/
def State.draining (s : State) (n : Nat) (w : BitVec 4) (below : Nat) : Bool :=
  (s.flights.any fun f => !f.applied && f.id < below && f.hitsWin n w)
    || (s.engines.any fun e => e.2.any fun j => j.num < below && s.copiesTo j n w)
    || s.cores.any fun c => s.startsCmds c.1 && c.2.ports.toList.any fun p => p.queue.any fun q =>
      q.num < below && ((s.jobOf c.1 q).map fun j => s.copiesTo j n w).getD false

/-- The stream of a command that a port still has (R236). -/
def State.cmdStream (s : State) (n p id : Nat) : Option (Nat × Nat × Nat) :=
  let x := (s.coreAt n).port (BitVec.ofNat 4 p)
  ((x.left ++ x.queue).find? (·.id == id)).map fun q => (1 + (cmdFields q.word).cls.toNat * 256 + (cmdFields q.word).tag.toNat, n, p)

/-- Whether a copy command has still to write bytes of a range, or, for a write, to read them: in its descriptor in progress, or in one that it has
still to read, as the list stands, or as a part of its list; none of those starts once the cores of its group are done (R428). -/
def State.copyTouches (s : State) (k : CopyJob) (a : Word) (n : Nat) (write : Bool) : Bool :=
  let hit (d : List Byte) (pos : Nat) : Bool :=
    let j : CopyJob := { k with desc := d }
    let one (b : Word) : Bool := exchangeForm a == exchangeForm b && s.meetBytes k.ctx a n (b + BitVec.ofNat 64 pos) (j.len - pos)
    one j.dst || (write && one j.src)
  let unread := k.next + if k.desc.isEmpty then 0 else 1
  (!k.desc.isEmpty && !k.ready && hit k.desc k.pos)
    || (write && !s.over k.group && !exchangeForm a && s.meetBytes k.ctx a n (k.list + BitVec.ofNat 64 (64 * unread)) (64 * (k.count - unread)))
    || !s.over k.group && (List.range (k.count - unread)).any fun i =>
      match s.load k.ctx (k.list + BitVec.ofNat 64 (64 * (unread + i))) 64 (some 15) with
      | .ok d _ => hit d 0
      | .err _ _ => false

/-- Whether an earlier copy command of the stream of a command has still to make an access that comes before one of the command (R236). -/
def State.copyOwes (s : State) (n p id : Nat) (stream : Nat × Nat × Nat) (a : Word) (len : Nat) (write : Bool) : Bool :=
  s.engines.any fun o => o.2.any fun k => k.core == n && k.port == p && k.id < id
    && s.cmdStream k.core k.port k.id == some stream && s.copyTouches k a len write

/-- Whether a drain of a window waits for an access of a number: a give or a swap of it is under way that began later (R218, R220). -/
def State.drained (s : State) (n : Nat) (w : BitVec 4) (num : Nat) : Bool :=
  match (s.coreAt n).wait with
  | .access (.give _ v _ _ below) _ _ => v == w && num < below
  | _ => false

/-! ### The rate limiter at injection (R407, R408) -/

/-- Whether an earlier posted request of the core to a home port is still on its way there: packets of one source arrive in the order sent (R402). -/
def State.ownOnWay (s : State) (a : Word) : Bool :=
  (s.posted s.cur).any fun f => !f.applied && !f.held && !f.failed && f.toDie == homeDie a && f.toRouter == 32 + homePort a % 16
    && !(f.die == f.toDie && f.router == f.toRouter) && (!f.release || s.released s.cur f.id)

/-- Whether a request of the core to the home port of an address must wait: at the limiter (R407), behind its own requests on their way (R402), or
for the next cycle, since that port has served a higher source in this one (R98). -/
def State.limited (s : State) (a : Word) : Bool :=
  s.bucketLow (dieOf s.cur) (s.tenantOf (s.ctxOf s.cur)) || !s.inOrder (homePort a) (rankOf s.cur 0) || s.ownOnWay a
/-- Charge the core's tenant for the data of its request and of its response, and note that its home port has served it (R98, R407, R408). -/
def State.pay (s : State) (a : Word) (n : Nat) : State :=
  (s.charge (dieOf s.cur) (s.tenantOf (s.ctxOf s.cur)) n).noteServed (homePort a) (rankOf s.cur 0)

/-! ### Windows (R199) -/

/-- Place of the live bank of a window of core n. -/
def State.liveBank (s : State) (n : Nat) (w : BitVec 4) : Nat := ((((s.coreAt n).win w).bank).map fun b => bankAddr (dieOf n) b 0).getD 0

/-- Test a window for an access of its own core: wait, trap, or go on (R199). -/
def State.throughWindow (s : State) (op : BlockOp) (w : BitVec 4) (a : Word) (store : Bool) (k : State → Att) : Att :=
  let x := s.core.win w
  match x.state with
  | .attached => if store && !x.w then .trap s 0x11 a 0 else k s
  | .detached => .trap s 0x10 a 0
  | _ => .hold s op false

/-- The place of a window's live bank, and the rank there of an agent of its core: the core, its cells and its ports come first, unless the bank lies
in another quad (R338). -/
def State.bankAt (s : State) (n : Nat) (w : BitVec 4) : Nat := bankPlace (s.liveBank n w / 65536)
def State.bankRank (s : State) (n : Nat) (w : BitVec 4) (sub : Nat) : Nat :=
  if ((((s.coreAt n).win w).bank).map fun b => b.quad.toNat == quadOf n).getD true then sub else 128 + rankOf n sub
/-- The rank at a bank of an agent that reaches it over the network (R338). -/
def netRank (src sub : Nat) : Nat := 128 + rankOf src sub

/-- Whether core n reaches the bank of window w of core m over the network (R338). -/
def State.far (s : State) (n m : Nat) (w : BitVec 4) : Bool :=
  ((((s.coreAt m).win w).bank).map fun b => b.quad.toNat != quadOf n || dieOf m != dieOf n).getD false
/-- Whether an access of a tenant's agent at core n to the bank of window w of core m waits: for the limiter where it takes the network (R407), or
for the next cycle, since the bank has served an agent that comes after it (R338). -/
def State.bankLater (s : State) (n m tenant : Nat) (w : BitVec 4) (rank : Nat) : Bool :=
  !s.inOrder (s.bankAt m w) rank || (s.far n m w && s.bucketLow (dieOf n) tenant)
/-- Note such an access of k bytes, and charge the tenant where it takes the network (R338, R407, R408). -/
def State.bankServe (s : State) (n m tenant : Nat) (w : BitVec 4) (rank k : Nat) : State :=
  (if s.far n m w then s.charge (dieOf n) tenant k else s).noteServed (s.bankAt m w) rank

/-- A 64-bit word of a window of core n; a failed unit is told (R339). -/
def State.winWord (s : State) (n : Nat) (a : Nat) : Word :=
  bytesWord (Memory.readN s.banks (s.liveBank n (BitVec.ofNat 4 (a / 65536)) + a % 65536) 8)
def State.winBad (s : State) (n : Nat) (a : Nat) : Bool := s.badBankUnit (s.liveBank n (BitVec.ofNat 4 (a / 65536)) + a % 65536)
def State.scrubWin (s : State) (n : Nat) (a : Nat) : State := s.scrubBank (s.liveBank n (BitVec.ofNat 4 (a / 65536)) + a % 65536)
def State.setWinWord (s : State) (n : Nat) (a : Nat) (v : Word) : State :=
  (s.bankWrite (s.liveBank n (BitVec.ofNat 4 (a / 65536)) + a % 65536) (wordBytes v)).1

/-- The bank of a word of core v's windows has served the core (R338). -/
def State.wordServed (s : State) (v : Nat) (rank : BitVec 4 → Nat) (a : Nat) : State :=
  let w := BitVec.ofNat 4 (a / 65536)
  s.bankServe s.cur v (s.tenantOf (s.ctxOf s.cur)) w (rank w) 8
/-- The core has read words of core v's windows in one step: each is corrected, and its bank has served the core (R338, R339). -/
def State.wordsServed (s : State) (v : Nat) (rank : BitVec 4 → Nat) (words : List Nat) : State :=
  words.foldl (fun s a => (s.scrubWin v a).wordServed v rank a) s

/-- Test the window that a word of the core's own deque lies in, each word by its own (R154, R199), and what must come first: the core's own
accesses to it (R195), and agents that its bank has served in this cycle (R338). A word that is only written, whole, may have failed (R339). -/
def State.throughWord (s : State) (op : BlockOp) (a : Nat) (store reads : Bool) (k : Att) : Att :=
  match windowOf (BitVec.ofNat 64 a) with
  | none => .trap s 0x10 (BitVec.ofNat 64 a) 0
  | some (w, _) => s.throughWindow op w (BitVec.ofNat 64 a) store fun s =>
    if s.ownWinPending s.cur w || s.bankLater s.cur s.cur (s.tenantOf (s.ctxOf s.cur)) w (s.bankRank s.cur w 0) then .hold s op false
    else if reads && s.winBad s.cur a then .trap s 0x50 (BitVec.ofNat 64 a) 0
    else k

/-! ### Waiting and pre-emption (R107, R422) -/

/-- Bytes of a save record at most (R422). -/
def saveBound (k : Nat) : Nat := 128 + 2 ^ k * (6160 * 1024)
/-- The parts of a context's save area that save records take, those of groups still to be captured with them: offset and length (R421). -/
def State.saveTaken (s : State) (ctx : Nat) : List (Nat × Nat) :=
  s.groups.filterMap fun g =>
    if g.2.ctx != ctx then none
    else match g.2.saved, g.2.preempt with
      | some v, _ => some (v.place, saveBound g.2.k)
      | none, some p => some (p.place, saveBound g.2.k)
      | none, none => none
/-- Where a save record of a group would lie: the lowest place behind the parking queue that is free for its bound and ends inside the save area; none
where there is no such place (R421, R422). -/
def State.savePlace (s : State) (x : Group) : Option Nat :=
  match s.context? x.ctx with
  | none => none
  | some c =>
    let used := s.saveTaken x.ctx
    let free (a : Nat) : Bool := a + saveBound x.k ≤ c.cfg.saveLen && used.all fun u => a + saveBound x.k ≤ u.1 || u.1 + u.2 ≤ a
    match (640 * 1024 :: used.map fun u => u.1 + u.2).filter free with
    | [] => none
    | a :: rest => some (rest.foldl min a)
/-- Whether the context's save area has room for one more record (R422). -/
def State.canSave (s : State) (x : Group) : Bool := (s.savePlace x).isSome

/-- Request pre-emption of a group; a group already asked, not running or not pre-emptible is left (R418, R422). -/
def State.askPreempt (s : State) (g : Nat) (freeze : Bool) : State :=
  match s.group? g with
  | none => s
  | some x =>
    match s.savePlace x with
    | none => s
    | some a =>
      if x.status != .running || x.preempt.isSome then s
      else
        let lim := ((s.tenant? x.tenant).map (·.cfg.freezeLimit)).getD 0
        s.setGroup g { x with preempt := some { freeze := freeze || lim == 0, since := s.cycle, place := a } }

/-! ### Deques (R108, R225) -/

/-- Base address and entry count of a core's deque, if its limits are valid (R225). -/
def CoreSt.deque (c : CoreSt) : Option (Nat × Nat) :=
  let b := c.dqbase.toNat * 8
  let l := c.dqlim.toNat * 8
  if b + 24 ≤ l ∧ l ≤ b + 65536 then some (b, (l - b - 16) / 8) else none

/-! ### Objects (R207 to R210) -/

def objHeld (w : Word) : Bool := w.getLsbD 0
def objHolder (w : Word) : Nat := bits w.toNat 41 16
/-- The object as a successful ACQ leaves it (R209). -/
def objAcquire (w loc : Word) : Word := (w &&& 0xFFFFFC000000FFFE#64) ||| ((loc &&& 0x3FFFFFF#64) <<< 16) ||| 1
/-- The object as a successful REL leaves it (R210). -/
def objRelease (w : Word) : Word := (w &&& 0xFFFFFC000000FFFE#64) + 0x0001000000000000#64

/-- Whether two global addresses of this package name one byte (R156). -/
def sameAddr (a b : Word) : Bool := a.toNat % 2 ^ 50 == b.toNat % 2 ^ 50

/-- The bindings of a context at the home die of an object (R208). -/
def State.bindings (s : State) (ctx : Nat) (a : Word) : List (Word × Word × Word) :=
  ((s.context? ctx).map fun x => findD x.binds (homeDie a) []).getD []

/-- Whether an earlier posted write of the core to a region bound to an object has not been acknowledged: a REL of it waits for those (R210, R388). -/
def State.boundPending (s : State) (a : Word) : Bool :=
  (s.posted s.cur).any fun f => (s.bindings (s.ctxOf s.cur) a).any fun x => sameAddr x.1 a && f.hits x.2.1 x.2.2.toNat

/-- Invalidate combined translations of a context that a test names, and let the spilled elements it covers be tried again (R192, R354, R358). -/
def State.dropEntries (s : State) (ctx : Nat) (hit : TlbEntry → Bool) (covers : Word → Bool) : State :=
  { s with
    tlb := s.tlb.filter fun e => !(e.ctx == ctx && hit e)
    spill := s.spill.map fun x => if x.ctx == ctx && !x.stage2 && covers x.fault then { x with retry := true } else x }

/-- Whether an address lies in a 64 MiB leaf of the tables as they stand. -/
def State.inLarge (s : State) (ctx : Nat) (a : Word) : Bool :=
  match (s.context? ctx).bind fun c => c.cfg.descs[homeDie a]? with
  | none => false
  | some d =>
    match (s.walk (s.keyOf ctx) (homeDie a) d a false none 3 (d.s1root.toNat * 2 ^ 16) 1 true).1 with
    | .ok (_, e) => e.large
    | .error _ => false

/-- Whether two global addresses lie in one page of 2^n bytes. -/
def samePage (n : Nat) (a b : Word) : Bool := a.toNat % 2 ^ 50 / 2 ^ n == b.toNat % 2 ^ 50 / 2 ^ n

/-- TLBI.page at every memory port of the owning die (R192, R354). -/
def State.tlbiPage (s : State) (ctx : Nat) (a : Word) : State :=
  let large := s.inLarge ctx a || s.tlb.any fun e => e.ctx == ctx && e.large && e.port / 16 == homeDie a && e.vpage / 32 == a.toNat % 2 ^ 46 / 2 ^ 26
  s.dropEntries ctx
    (fun e => e.port / 16 == homeDie a && (if e.large then e.vpage / 32 == a.toNat % 2 ^ 46 / 2 ^ 26
      else if large then e.vpage / 1024 == a.toNat % 2 ^ 46 / 2 ^ 26 else e.vpage == a.toNat % 2 ^ 46 / 2 ^ 16))
    (fun x => samePage (if large then 26 else 16) a x)

/-! ### Commands outstanding (R229, R230, R234) -/

/-- Whether a port of a core still has an uncompleted command numbered below a bound. -/
def CoreSt.outstanding (c : CoreSt) (p : BitVec 4) (below : Nat) : Bool :=
  ((c.port p).left ++ (c.port p).queue).any fun q => q.id < below

/-! ### The attempt -/

/-- Try a blocking operation of the core whose turn it is. -/
def State.attempt (s : State) (op : BlockOp) : Att :=
  let n := s.cur
  let ctx := s.ctxOf n
  match op with
  | .ldg d a z sign =>
    if !s.isGlobal a then s.failed op (noWalk a)
    else if s.ownPending a (sizeBytes z) || s.limited a then .hold s op false
    else match s.load ctx a (sizeBytes z) (some 15) with
      | .err e s => s.failed op e
      | .ok bs s1 => .done ((s1.pay a (sizeBytes z)).finish fun c => c.wr d (extend z sign (bytesWord bs)))
  | .lds d a =>
    match windowOf a with
    | none => .trap s 0x10 a 0
    | some (w, off) => s.throughWindow op w a false fun s =>
      if s.ownWinPending n w || s.bankLater n n (s.tenantOf ctx) w (s.bankRank n w 0) then .hold s op false
      else
        let r := s.bankRead (s.liveBank n w + off) 8
        if r.2 then .trap s 0x50 a 0
        else .done (((s.scrubBank (s.liveBank n w + off)).bankServe n n (s.tenantOf ctx) w (s.bankRank n w 0) 8).finish fun c => c.wr d (bytesWord r.1))
  | .amof d a o v rel =>
    if !s.isGlobal a then s.failed op (noWalk a)
    else if (rel && !s.quiet) || s.ownPending a 8 || s.limited a then .hold s op false
    else match s.wordAt ctx a true with
      | .err e s => s.failedUpdate op e 8
      | .ok (pa, old) s1 => .done (((s1.memWrite (s1.keyOf ctx) pa (wordBytes (amoNew o old v))).pay a 16).finish fun c => c.wr d old)
  | .cas d a old new rel =>
    if !s.isGlobal a then s.failed op (noWalk a)
    else if (rel && !s.quiet) || s.ownPending a 8 || s.limited a then .hold s op false
    else match s.wordAt ctx a true with
      | .err e s => s.failedUpdate op e 16
      | .ok (pa, cur) s1 =>
        let s2 := if cur = old then s1.memWrite (s1.keyOf ctx) pa (wordBytes new) else s1
        .done ((s2.pay a 24).finish fun c => c.wr d cur)
  | .acq d a =>
    if !s.isGlobal a then s.failed op (noWalk a)
    else if s.ownPending a 8 || s.limited a then .hold s op false
    else match s.wordAt ctx a true with
      | .err e s => s.failed op e
      | .ok (pa, w) s1 =>
        if objHeld w then .done ((s1.pay a 8).finish fun c => c.wr d 1)
        else .done (((s1.memWrite (s1.keyOf ctx) pa (wordBytes (objAcquire w (s.locator n)))).pay a 8).finish fun c => c.wr d 0)
  | .rel d a =>
    if !s.isGlobal a then s.failed op (noWalk a)
    else if s.boundPending a || s.ownPending a 8 || s.limited a then .hold s op false
    else match s.wordAt ctx a true with
      | .err e s => s.failed op e
      | .ok (pa, w) s1 =>
        if objHeld w && objHolder w == (s.locator n).toNat then
          .done (((s1.memWrite (s1.keyOf ctx) pa (wordBytes (objRelease w))).pay a 8).finish fun c => c.wr d 0)
        else .done ((s1.pay a 8).finish fun c => c.wr d 1)
  | .bind d a base len =>
    if !s.isGlobal a then s.failed op (noWalk a)
    else if !s.isGlobal base then s.failed op (noWalk base)
    else if s.limited a then .hold s op false
    else
      let tab := s.bindings ctx a
      let full := tab.length ≥ Config.maxBindings
      let badLen := len = 0 ∨ len.toNat > 2 ^ 40 ∨ base.toNat + len.toNat > 2 ^ 64
      if full ∧ badLen then
        let (b, s1) := s.freeBit
        .done (s1.finish fun c => c.wr d (if b then 1 else 2))
      else if full then .done (s.finish fun c => c.wr d 1)
      else if badLen then .done (s.finish fun c => c.wr d 2)
      else .done ((s.modContext ctx fun x => { x with binds := put x.binds (homeDie a) (tab ++ [(a, base, len)]) }).finish fun c => c.wr d 0)
  | .unbind d a base =>
    if !s.isGlobal a then s.failed op (noWalk a)
    else if s.limited a then .hold s op false
    else
      let tab := s.bindings ctx a
      match tab.findIdx? fun x => sameAddr x.1 a && sameAddr x.2.1 base && s.isGlobal base with
      | none => .done (s.finish fun c => c.wr d 1)
      | some i => .done ((s.modContext ctx fun x => { x with binds := put x.binds (homeDie a) (dropAt tab i) }).finish fun c => c.wr d 0)
  | .fence => if s.quiet then .done (s.finish id) else .hold s op false
  | .wait d t a =>
    if !s.isGlobal a then s.failed op (noWalk a)
    else if s.ownPending a 8 || s.limited a then .hold s op false
    else match s.wordAt ctx a false with
      | .err e s => s.failed op e
      | .ok (pa, w) s0 =>
        let s1 := s0.pay a 8
        if w.getLsbD 63 then .done (s1.finish fun c => (c.wr d (w &&& 0x7FFFFFFFFFFFFFFF#64)).wr t 1)
        else if (s1.waits.filter fun x => x.1 / 2 ^ 46 == homeDie a).length < Config.waitTable then
          .park { s1.setCore { s1.core with wait := .parked d t a } with waits := s1.waits ++ [(pa, a, n)] }
        else
          match s1.core.group.bind fun g => (s1.group? g).map fun x => (g, x) with
          | none => .done (s1.finish fun c => c.wr t 2)
          | some (g, x) =>
            if s1.canSave x then .park ((s1.setCore { s1.core with wait := .full t }).askPreempt g false)
            else .done (s1.finish fun c => c.wr t 2)
  | .close d w below =>
    let x := s.core.win w
    match x.state with
    | .detached => .done (s.finish fun c => c.wr d 1)
    | .opened => if x.resv then .hold s op false else .done (s.finish fun c => (c.setWin w {}).wr d 0)
    | .draining => .hold s op false
    | .attached =>
      if s.draining n w below then .hold s op false
      else
        let s1 := (s.drainCharge (dieOf n) (s.tenantOf ctx)).finish fun c => (c.setWin w {}).wr d 0
        .done ((x.bank.toList ++ x.shadow.toList).foldl (fun s b => s.freeBank (dieOf n) b) s1)
  | .swapb d w w2 below =>
    let x := s.core.win w
    let y := s.core.win w2
    if x.state != .attached || y.state != .attached then .done (s.finish fun c => c.wr d 1)
    else if w = w2 then
      if x.mode != .exchange then .done (s.finish fun c => c.wr d 2)
      else if s.draining n w below then .hold s op false
      else .done ((s.drainCharge (dieOf n) (s.tenantOf ctx)).finish fun c => (c.setWin w { x with bank := x.shadow, shadow := x.bank }).wr d 0)
    else if x.mode != y.mode || x.mode == .exchange then .done (s.finish fun c => c.wr d 2)
    else if s.draining n w below || s.draining n w2 below then .hold s op false
    else .done ((s.drainCharge (dieOf n) (s.tenantOf ctx)).finish fun c => ((c.setWin w { x with bank := y.bank, tags := [] }).setWin w2 { y with bank := x.bank, tags := [] }).wr d 0)
  | .tlook d w a => s.throughWindow op w (zext w <<< 16) false fun s =>
      let x := s.core.win w
      if x.mode != .tagged then .trap s 0x01 0 0
      else .done (s.finish fun c => c.wr d (match x.tags.find? fun t => t.2.toNat == a.toNat / 1024 with
        | some (i, _) => BitVec.ofNat 64 (w.toNat * 65536 + i * 1024 + a.toNat % 1024)
        | none => 0xFFFFFFFFFFFFFFFF#64))
  | .tset w a b => s.throughWindow op w (zext w <<< 16) false fun s =>
      let x := s.core.win w
      if x.mode != .tagged then .trap s 0x01 0 0
      else .done (s.finish fun c => c.setWin w { x with tags := put x.tags (a.toNat % 64) (BitVec.ofNat 54 (b.toNat / 1024)) })
  | .tinv w a => s.throughWindow op w (zext w <<< 16) false fun s =>
      let x := s.core.win w
      if x.mode != .tagged then .trap s 0x01 0 0
      else .done (s.finish fun c => c.setWin w { x with tags := del x.tags (a.toNat % 64) })
  | .tclr w => s.throughWindow op w (zext w <<< 16) false fun s =>
      let x := s.core.win w
      if x.mode != .tagged then .trap s 0x01 0 0
      else .done (s.finish fun c => c.setWin w { x with tags := [] })
  | .dpush d v =>
    match s.core.deque with
    | none => .trap s 0x01 0 0
    | some (b0, m) =>
      let b := s.winWord n (b0 + 8)
      let e := b0 + 16 + 8 * (b.toNat % m)
      let served (l : List Nat) : State := s.wordsServed n (s.bankRank n · 0) l
      s.throughWord op b0 true true <| s.throughWord op (b0 + 8) true true <|
        if (b - s.winWord n b0).toNat = m then .done ((served [b0, b0 + 8]).finish fun c => c.wr d 1)
        else s.throughWord op e true false <|
          .done (((((served [b0, b0 + 8]).wordServed n (s.bankRank n · 0) e).setWinWord n e v).setWinWord n (b0 + 8) (b + 1)).finish fun c => c.wr d 0)
  | .dpop d t =>
    match s.core.deque with
    | none => .trap s 0x01 0 0
    | some (b0, m) =>
      let b := s.winWord n (b0 + 8)
      let e := b0 + 16 + 8 * ((b - 1).toNat % m)
      let served (l : List Nat) : State := s.wordsServed n (s.bankRank n · 0) l
      s.throughWord op b0 true true <| s.throughWord op (b0 + 8) true true <|
        if b = s.winWord n b0 then .done ((served [b0, b0 + 8]).finish fun c => (c.wr d 0).wr t 1)
        else s.throughWord op e false true <|
          .done (((served [b0, b0 + 8, e]).setWinWord n (b0 + 8) (b - 1)).finish fun c => (c.wr d (s.winWord n e)).wr t 0)
  | .dsteal d t victim =>
    match s.named victim with
    | none => .done (s.finish fun c => (c.wr d 0).wr t 2)
    | some v =>
      let vc := s.coreAt v
      let ok := dieOf v == dieOf n && ((s.groupOf v).map fun x => x.ctx == ctx && x.status == .running).getD false
      match if ok then vc.deque else none with
      | none => .done (s.finish fun c => (c.wr d 0).wr t 2)
      | some (b0, m) =>
        let top := s.winWord v b0
        let b := s.winWord v (b0 + 8)
        let e := b0 + 16 + 8 * (top.toNat % m)
        let words := if b = top then [b0, b0 + 8] else [b0, b0 + 8, e]
        let wins := words.map fun a => (windowOf (BitVec.ofNat 64 a)).map (·.1)
        let stealRank (w : BitVec 4) : Nat := if v = n then s.bankRank n w 0 else netRank n 0
        if wins.any fun w => ((w.map fun w => (vc.win w).state != .attached).getD true) then .done (s.finish fun c => (c.wr d 0).wr t 2)
        else if wins.any fun w => ((w.map fun w => s.ownWinPending v w || s.bankLater n v (s.tenantOf ctx) w (stealRank w)).getD false) then .hold s op false
        else match words.find? (s.winBad v) with
          | some a => .trap s 0x50 (BitVec.ofNat 64 a) 0
          | none =>
            let s1 := s.wordsServed v stealRank words
            if b = top then .done (s1.finish fun c => (c.wr d 0).wr t 1)
            else .done ((s1.setWinWord v b0 (top + 1)).finish fun c => (c.wr d (s.winWord v e)).wr t 0)
  | .launch d a =>
    if !s.quiet || s.limited a then .hold s op false
    else match s.submit (s.coreSubmitter n) a with
      | .pass _ s1 => .done (s1.finish fun c => c.wr d 0)
      | .refused s1 => .done (s1.finish fun c => c.wr d 1)
      | .held s1 => .hold s1 op true
      | .later => .hold s op false
  | .exit a i k =>
    if !s.quiet || (i < k && s.bucketLow (dieOf n) (s.tenantOf ctx)) then .hold s op false
    else
      let rec go (s : State) : Nat → Nat → Att
        | 0, _ => .done ((s.modCore n fun c => { c with status := .exited, wait := .none }).afterExit n)
        | m + 1, i =>
          match s.submitPosted (s.coreSubmitter n) (a + BitVec.ofNat 64 (64 * i)) with
          | .pass _ s1 => go s1 m (i + 1)
          | .refused s1 => go s1 m (i + 1)
          | .held s1 => .hold s1 (.exit a i k) true
          | .later => .hold s (.exit a i k) false
      go s (k - i) i
  | .tlbiPage a =>
    if !s.isGlobal a then s.failed op (noWalk a)
    else if !s.quiet then .hold s op false
    else .done ((s.tlbiPage ctx a).finish id)
  | .tlbiCtx => if !s.quiet then .hold s op false else .done ((s.dropEntries ctx (fun _ => true) (fun _ => true)).finish id)
  | .cdrain mask below =>
    if (List.range 16).any fun p => (mask == 0 || mask.getLsbD p) && s.core.outstanding (BitVec.ofNat 4 p) below then .hold s op false
    else .done (s.finish id)
  | .command p id =>
    if s.core.outstanding (BitVec.ofNat 4 p) (id + 1) then .hold s op false else .done (s.setCore { s.core with wait := .none })
  | .barw b sc =>
    if !s.quiet then .hold s op false
    else
      match s.core.group with
      | none => .done (s.finish id)
      | some g =>
        let place := phasePlace g (phaseKey b sc n)
        let s1 := s.setCore { s.core with wait := .barrier b sc false }
        let here := ((s.group? g).map fun x => ((x.phase b sc n).arrived.map (·.1)).contains n).getD false
        if here then .park s1
        else if !s.inOrder place (rankOf n 0) then .hold s op false
        else .park ((s1.noteServed place (rankOf n 0)).arrive g b sc n none s1.nextId)
  | .give d w target w2 below =>
    if s.draining n w below then .hold s op false
    else
      let x := s.core.win w
      let s1 := (s.drainCharge (dieOf n) (s.tenantOf ctx)).finish fun c => (c.setWin w {}).wr d 0
      .done (s1.modCore target fun c => c.setWin w2 { (c.win w2) with state := .attached, bank := x.bank, resv := false })

/-- Issue a blocking operation of an instruction word: apply it, trap, or wait for its response (R194). -/
def State.block (s : State) (word : Word) (op : BlockOp) : State :=
  match s.attempt op with
  | .done s1 => s1
  | .trap s1 cause a c => s1.trap cause 0 (if cause = 0x01#8 then word else a) c
  | .hold s1 op1 st2 => s1.setCore { s1.core with wait := .access op1 st2 word }
  | .park s1 => s1

end Sys2Proof.Machine
end

