-- ==== Sys2Proof/Machine/MemoryOps.lean ====
section
/-! DEFINITION. Loads, stores, prefetch and atomics of a control core (R197 to R206). -/

namespace Sys2Proof.Machine

/-- A posted request whose address names no memory of this package: its record is written, and the core goes on (R156, R158, R194); while 32 are
unacknowledged, the instruction waits (R195). -/
def State.postFault (s : State) (e : TErr) : State :=
  if (s.posted s.cur).length ≥ Config.maxPosted then s
  else
    let s1 := s.accessRec (s.ctxOf s.cur) .core ((s.locator s.cur).setWidth 32) s.cur true s.core.pc e
    s1.setCore s1.core.adv

/-- Post a request to a global address (R194, R200). -/
def State.postGlobal (s : State) (a : Word) (op : FlightOp) (release : Bool) : State :=
  if s.isGlobal a then s.post op release else s.postFault (noWalk a)

/-- LDG (R197, R200). -/
def execLdg (g : Guard) (d a : Reg) (imm : BitVec 11) (s : State) : Out := guarded g s fun c =>
  let x := addrImm c a imm
  if alignedTo x 8 then s.block (wordOf (.ldg g d a imm)) (.ldg d x .b8 false) else s.misaligned x

/-- STG (R197, R200). -/
def execStg (g : Guard) (d a : Reg) (imm : BitVec 11) (s : State) : Out := guarded g s fun c =>
  let x := addrImm c a imm
  if alignedTo x 8 then s.postGlobal x (.store x (wordBytes (c.rd d))) false else s.misaligned x

/-- LDGX (R198). -/
def execLdgx (g : Guard) (d a b : Reg) (scaled sign : Bool) (z : Size) (s : State) : Out := guarded g s fun c =>
  let x := addrIndex c a b scaled z
  if alignedTo x (sizeBytes z) then s.block (wordOf (.ldgx g d a b scaled sign z)) (.ldg d x z sign) else s.misaligned x

/-- STGX (R198). -/
def execStgx (g : Guard) (d a b : Reg) (scaled : Bool) (z : Size) (s : State) : Out := guarded g s fun c =>
  let x := addrIndex c a b scaled z
  if alignedTo x (sizeBytes z) then s.postGlobal x (.store x (lowBytes z (c.rd d))) false else s.misaligned x

/-- LDS (R197, R199). -/
def execLds (g : Guard) (d a : Reg) (imm : BitVec 11) (s : State) : Out := guarded g s fun c =>
  let x := addrImm c a imm
  if alignedTo x 8 then s.block (wordOf (.lds g d a imm)) (.lds d x) else s.misaligned x

/-- STS (R197, R199): the window's state is tested at the bank switch; an address that names no window traps at issue (R154). -/
def execSts (g : Guard) (d a : Reg) (imm : BitVec 11) (s : State) : Out := guarded g s fun c =>
  let x := addrImm c a imm
  if !alignedTo x 8 then s.misaligned x
  else match windowOf x with
    | none => s.trap 0x10 0 x 0
    | some (w, off) => s.post (.wstore w off (wordBytes (c.rd d))) false

/-- STX (R201): what form and alignment forbid traps at issue; the named core's bank switch decides the rest. -/
def execStx (g : Guard) (d a : Reg) (s : State) : Out := guarded g s fun c =>
  let x := c.rd a
  if bits x.toNat 63 60 != 8 then s.trap 0x20 0 x Config.noWalkLevel
  else if x.toNat % 8 != 0 then s.misaligned x
  else if !s.ourPkg x then s.postFault (noWalk x)
  else s.post (.xstore x (wordBytes (c.rd d))) false

/-- PREF (R202): a hint that changes no architectural state and never faults. -/
def execPref (g : Guard) (_a : Reg) (_imm : BitVec 11) (s : State) : Out := guarded g s fun c => s.setCore c.adv

/-- Whether an ordering releases (R204, R382). -/
def isRel : Ord → Bool
  | .rel | .acqrel | .sc => true
  | _ => false

/-- AMO (R203, R204). -/
def execAmo (g : Guard) (d a : Reg) (op : AmoOp) (o : Ord) (_sc : Scope) (s : State) : Out := guarded g s fun c =>
  let x := c.rd a
  if alignedTo x 8 then s.postGlobal x (.amo x op (c.rd d) (isRel o)) (isRel o) else s.misaligned x

/-- AMOF (R203, R204). -/
def execAmof (g : Guard) (d a : Reg) (op : AmoOp) (o : Ord) (sc : Scope) (s : State) : Out := guarded g s fun c =>
  let x := c.rd a
  if alignedTo x 8 then s.block (wordOf (.amof g d a op o sc)) (.amof d x op (c.rd d) (isRel o)) else s.misaligned x

/-- CAS (R205). -/
def execCas (g : Guard) (d a b : Reg) (o : Ord) (sc : Scope) (s : State) : Out := guarded g s fun c =>
  let x := c.rd a
  if alignedTo x 8 then s.block (wordOf (.cas g d a b o sc)) (.cas d x (c.rd d) (c.rd b) (isRel o)) else s.misaligned x

/-- Whether an EXIT is what a blocking operation belongs to: it completes before any capture, where the others are abandoned (R163, R196). -/
def BlockOp.completes : BlockOp → Bool
  | .exit _ _ _ => true
  | _ => false

/-- Whether the outstanding access of a core is applied no more: its group is asked to stop (R163, R196), or its context is purging (R433). -/
def State.abandons (s : State) (core : Nat) (op : BlockOp) : Bool :=
  (((s.groupOf core).bind (·.preempt)).isSome && !op.completes) || ((s.context? (s.ctxOf core)).map (·.purging)).getD false

/-- ACCESS_RESPONSE: the response of an outstanding access, or its trap, reaches the waiting core (R194); what a stage-2 fault holds
waits for its invalidation (R352). -/
def execAccessResponse (core : Nat) (s : State) : Out :=
  match (s.coreAt core).wait with
  | .access op false word => if s.abandons core op then .next s else .next ({ s with cur := core }.block word op)
  | _ => .next s

end Sys2Proof.Machine
end

