-- ==== Sys2Proof/Machine/Banks.lean ====
section
/-! DEFINITION. Bank and tag instructions of a control core (R215 to R224). -/

namespace Sys2Proof.Machine

/-- OPEN (R215): takes effect before the next instruction; an exchange window is never opened. In a cycle in which a give has reached the window, it
waits for the next (R219). -/
def execOpen (g : Guard) (d : Reg) (rw tagged : Bool) (w : BitVec 4) (s : State) : Out := guarded g s fun c =>
  if !s.inOrder (winPlace s.cur w) 0 then s
  else s.setCore (if (c.win w).state = .detached then
      (c.setWin w { state := .opened, mode := if tagged then .tagged else .plain, w := rw }).wr d 0
    else c.wr d 1).adv

/-- CLOSE (R216). -/
def execClose (g : Guard) (d : Reg) (w : BitVec 4) (s : State) : Out := guarded g s fun _ =>
  s.block (wordOf (.close g d w)) (.close d w s.nextId)

/-- The status of a give before any drain (R217); 0 lets it begin. -/
def State.giveStatus (s : State) (w : BitVec 4) (loc : Word) (w2 : BitVec 4) : Nat :=
  let n := s.cur
  let ctx := s.ctxOf n
  let x := s.core.win w
  match s.named loc with
  | none => 2
  | some t =>
    if dieOf t != dieOf n || !s.available t then 2
    else if x.state != .attached then 3
    else if x.mode == .exchange then 4
    else if s.groups.any fun g => g.2.ctx == ctx && g.2.status == .preempted && g.2.cores.contains t then 6
    else if !((s.groupOf t).map fun y => y.ctx == ctx && y.status == .running).getD false then 5
    else if ((s.coreAt t).win w2).state != .opened || ((s.coreAt t).win w2).resv then 1
    else 0

/-- GIVE (R217, R218): reserve the target window, start the drain; GIVE_DRAIN_DONE attaches the bank. Of gives that reach one window in one cycle, the
lowest source comes first; in a cycle that has served a higher one, it waits for the next (R219). -/
def execGive (g : Guard) (d a b : Reg) (w : BitVec 4) (s : State) : Out := guarded g s fun c =>
  let w2 : BitVec 4 := (c.rd b).setWidth 4
  match s.giveStatus w (c.rd a) w2, s.named (c.rd a) with
  | 0, some t =>
    if !s.inOrder (winPlace t w2) (1 + s.cur) then s
    else
      let s1 := (s.noteServed (winPlace t w2) (1 + s.cur)).modCore t fun y => y.setWin w2 { (y.win w2) with resv := true }
      let c1 := s1.core
      s1.setCore { c1.setWin w { (c1.win w) with state := .draining } with
        wait := .access (.give d w t w2 s.nextId) false (wordOf (.give g d a b w)) }
  | 1, some t =>
    if !s.inOrder (winPlace t w2) (1 + s.cur) then s
    else (s.noteServed (winPlace t w2) (1 + s.cur)).setCore (c.wr d 1).adv
  | k, _ => s.setCore (c.wr d (BitVec.ofNat 64 k)).adv

/-- GIVE_DRAIN_DONE: the drain has ended, and the bank is attached to the target window (R218). -/
def execGiveDrainDone (core : Nat) (s : State) : Out :=
  match (s.coreAt core).wait with
  | .access (.give d w t w2 below) _ word => .next ({ s with cur := core }.block word (.give d w t w2 below))
  | _ => .next s

/-- SWAPB (R220). -/
def execSwapb (g : Guard) (d a : Reg) (w : BitVec 4) (s : State) : Out := guarded g s fun c =>
  s.block (wordOf (.swapb g d a w)) (.swapb d w ((c.rd a).setWidth 4) s.nextId)

/-- Code of a window state and of a mode (R166). -/
def WinState.code : WinState → Nat
  | .detached => 0 | .attached => 1 | .opened => 2 | .draining => 3
def WinMode.code : WinMode → Nat
  | .plain => 0 | .tagged => 1 | .exchange => 2

/-- A bank map register (R166): V, QUAD, BANK, MODE and W read zero where the window is detached or open. -/
def Win.bmap (x : Win) : Nat :=
  match x.state with
  | .attached | .draining =>
    (if x.w then 2 ^ 15 else 0) + x.mode.code * 2 ^ 13 + x.state.code * 2 ^ 11 + 2 ^ 10
      + ((x.bank.map fun b => b.quad.toNat * 32 + b.bank.toNat).getD 0)
  | _ => x.state.code * 2 ^ 11

/-- Whether a request of a core is a write by exchange address. -/
def FlightOp.exchange : FlightOp → Bool
  | .xstore _ _ => true
  | _ => false

/-- Accesses to a window's live bank accepted and not done (R221): a write by exchange address to an exchange window goes to its shadow bank, and no
read reaches that (R340); a copy engine has one access in hand. -/
def State.pending (s : State) (n : Nat) (w : BitVec 4) : Nat :=
  let shadowed := ((s.coreAt n).win w).mode == .exchange
  (s.flights.filter fun f => !f.applied && f.hitsWin n w && !(shadowed && f.op.exchange)).length
    + (s.engines.filter fun e => match e.2.head? with
        | some j => !j.desc.isEmpty && !j.ready && (s.namesWin j.src n w || (!shadowed && s.namesWin j.dst n w))
        | none => false).length

/-- BSTAT (R221). -/
def execBstat (g : Guard) (d : Reg) (w : BitVec 4) (s : State) : Out := writes g d s fun c =>
  let x := c.win w
  let sh := (x.shadow.map fun b => 2 ^ 42 + b.quad.toNat * 2 ^ 37 + b.bank.toNat * 2 ^ 32).getD 0
  BitVec.ofNat 64 (sh + min (s.pending s.cur w) 0xFFFF * 2 ^ 16 + x.bmap)

/-- BZERO (R222): a tagged window's table is cleared as it is posted. -/
def execBzero (g : Guard) (w : BitVec 4) (s : State) : Out := guarded g s fun _ =>
  let s1 := s.post (.bzero w 0) false
  if s1.nextId = s.nextId then s1
  else
    let c := s1.core
    if (c.win w).mode = .tagged then s1.setCore (c.setWin w { (c.win w) with tags := [] }) else s1

/-- TLOOK (R224). -/
def execTlook (g : Guard) (d a : Reg) (w : BitVec 4) (s : State) : Out := guarded g s fun c =>
  s.block (wordOf (.tlook g d a w)) (.tlook d w (c.rd a))
/-- TSET (R224). -/
def execTset (g : Guard) (a b : Reg) (w : BitVec 4) (s : State) : Out := guarded g s fun c =>
  s.block (wordOf (.tset g a b w)) (.tset w (c.rd a) (c.rd b))
/-- TINV (R224). -/
def execTinv (g : Guard) (a : Reg) (w : BitVec 4) (s : State) : Out := guarded g s fun c =>
  s.block (wordOf (.tinv g a w)) (.tinv w (c.rd a))
/-- TCLR (R224). -/
def execTclr (g : Guard) (w : BitVec 4) (s : State) : Out := guarded g s fun _ => s.block (wordOf (.tclr g w)) (.tclr w)

end Sys2Proof.Machine
end

