-- ==== Sys2Proof/Machine/Float.lean ====
section
/-! DEFINITION. Number formats and exact arithmetic (R61 to R72, R80 to R82): exact values, rounding once, conversions. -/

namespace Sys2Proof.Machine

/-- Element formats (R53). -/
inductive Fmt where
  | f32 | bf16 | f16 | e4m3 | e5m2 | s8 | s32 | x80 | q4 | raw
deriving DecidableEq, Repr, Inhabited

/-- The format codes of R53; 0x9 to 0xE are reserved. -/
def fmtOf : Nat → Option Fmt
  | 0 => some .f32 | 1 => some .bf16 | 2 => some .f16 | 3 => some .e4m3 | 4 => some .e5m2
  | 5 => some .s8 | 6 => some .s32 | 7 => some .x80 | 8 => some .q4 | 15 => some .raw | _ => none

/-- The code of a format (R53). -/
def fmtCode : Fmt → Nat
  | .f32 => 0 | .bf16 => 1 | .f16 => 2 | .e4m3 => 3 | .e5m2 => 4 | .s8 => 5 | .s32 => 6 | .x80 => 7 | .q4 => 8 | .raw => 15

/-- Element bits in a token (the table under R70; ext80 stands in a 128-bit container, R69). -/
def elemBits : Fmt → Nat
  | .f32 | .s32 => 32
  | .bf16 | .f16 => 16
  | .e4m3 | .e5m2 | .s8 | .raw => 8
  | .x80 => 128
  | .q4 => 4

/-- Elements of one token (the table under R70). -/
def elemsPerToken (f : Fmt) : Nat := 1024 / elemBits f

/-- Integer formats (R67). -/
def isInt : Fmt → Bool
  | .s8 | .s32 => true
  | _ => false

/-- The floating-point formats a VEC takes (R280). -/
def isFloat : Fmt → Bool
  | .f32 | .bf16 | .f16 | .e4m3 | .e5m2 => true
  | _ => false

/-- An exact value: NaN, an infinity, or (-1)^neg * m * 2^e. -/
inductive Val where
  | nan
  | inf (neg : Bool)
  | num (neg : Bool) (m : Nat) (e : Int)
deriving DecidableEq, Repr, Inhabited

/-- Positive zero. -/
def Val.zero : Val := .num false 0 0

/-- Rounding modes (R80). -/
inductive RMode where
  | rne | rtz
deriving DecidableEq, Repr, Inhabited

/-- The rounding codes of R80; 0b10 and 0b11 are reserved. -/
def rmodeOf : Nat → Option RMode
  | 0 => some .rne | 1 => some .rtz | _ => none

/-- Exponent bits, fraction bits and bias of a floating format (R61, R68). -/
def fpParams : Fmt → Nat × Nat × Nat
  | .f32 => (8, 23, 127)
  | .bf16 => (8, 7, 127)
  | .f16 => (5, 10, 15)
  | .e4m3 => (4, 3, 7)
  | .e5m2 => (5, 2, 15)
  | .x80 => (15, 64, 16383)
  | _ => (8, 23, 127)

/-- Two to the power of an integer times a number, as an exact value. -/
def Val.scale (v : Val) (k : Int) : Val :=
  match v with
  | .num n m e => .num n m (e + k)
  | v => v

/-- The exact value of a floating-point element (R62, R64, R68). -/
def fpValue (f : Fmt) (x : Nat) : Val :=
  let (eb, fb, bias) := fpParams f
  let fr := x % 2 ^ fb
  let ex := x / 2 ^ fb % 2 ^ eb
  let neg := bit x (eb + fb)
  if f = .e4m3 ∧ ex = 15 ∧ fr = 7 then .nan
  else if f ≠ .e4m3 ∧ ex = 2 ^ eb - 1 then (if fr = 0 then .inf neg else .nan)
  else if ex = 0 then .num neg fr (1 - (bias : Int) - (fb : Int))
  else .num neg (2 ^ fb + fr) ((ex : Int) - (bias : Int) - (fb : Int))

/-- An integer as an exact value; zero is +0. -/
def Val.ofInt (i : Int) : Val := .num (decide (i < 0)) i.natAbs 0

/-- The exact value of an element: floating point, INT8 or INT32 (R62, R67). -/
def value (f : Fmt) (x : Nat) : Val :=
  match f with
  | .s8 => .ofInt (toSigned 8 x)
  | .s32 => .ofInt (toSigned 32 x)
  | f => fpValue f x

/-- The canonical NaN of a format (R63); integers convert NaN to 0 (R82). -/
def canonNan : Fmt → Nat
  | .f32 => 0x7FC00000
  | .bf16 => 0x7FC0
  | .f16 => 0x7E00
  | .e4m3 => 0x7F
  | .e5m2 => 0x7E
  | .x80 => 0x7FFF8000000000000000
  | _ => 0

/-- floor(log2(|v|)) of a nonzero number. -/
def ilog2 (m : Nat) (e : Int) : Int := (m.log2 : Int) + e

/-- m * 2^k rounded to an integer by the mode (R80). -/
def roundShift (m : Nat) (k : Int) (r : RMode) : Nat :=
  if 0 ≤ k then m * 2 ^ k.toNat
  else
    let d := 2 ^ (-k).toNat
    let q := m / d
    let rem := m % d
    match r with
    | .rtz => q
    | .rne => if 2 * rem > d ∨ (2 * rem = d ∧ q % 2 = 1) then q + 1 else q

/-- The largest finite magnitude of a format as fraction and exponent fields (R61, R68). -/
def maxFin (f : Fmt) : Nat :=
  let (eb, fb, _) := fpParams f
  if f = .e4m3 then 0x7E else (2 ^ eb - 2) * 2 ^ fb + (2 ^ fb - 1)

/-- The sign bit placed above a magnitude's fields. -/
def withSign (f : Fmt) (neg : Bool) (mag : Nat) : Nat :=
  let (eb, fb, _) := fpParams f
  (if neg then 2 ^ (eb + fb) else 0) + mag

/-- An infinity's fields (R63). -/
def infMag (f : Fmt) : Nat :=
  let (eb, fb, _) := fpParams f
  (2 ^ eb - 1) * 2 ^ fb

/-- Rounding of an exact value to a floating-point format, once, at the target's own grain (R81). -/
def roundTo (v : Val) (f : Fmt) (r : RMode) (satf : Bool) : Nat :=
  let (_, fb, bias) := fpParams f
  match v with
  | .nan => canonNan f
  | .inf neg => if f = .e4m3 ∨ satf then withSign f neg (maxFin f) else withSign f neg (infMag f)
  | .num neg m e =>
    if m = 0 then withSign f neg 0
    else
      let emin : Int := 1 - (bias : Int)
      let q := max (ilog2 m e) emin
      let n := roundShift m (e - (q - (fb : Int))) r
      -- n counts grains of 2^(q - fb); a carry out moves the exponent by one
      let mag := if n < 2 ^ fb then n else (q - emin).toNat * 2 ^ fb + n
      if mag > maxFin f then
        (if r = .rtz ∨ satf ∨ f = .e4m3 then withSign f neg (maxFin f) else withSign f neg (infMag f))
      else withSign f neg mag

/-- Rounding of an exact value to an integer by the mode, sign kept. -/
def roundInt (neg : Bool) (m : Nat) (e : Int) (r : RMode) : Int :=
  let n : Int := (roundShift m e r : Nat)
  if neg then -n else n

/-- Clamp to the range of an n-bit signed integer. -/
def clampInt (n : Nat) (i : Int) : Int := max (-(2 ^ (n - 1) : Nat) : Int) (min i ((2 ^ (n - 1) : Nat) - 1 : Int))

/-- Conversion of an exact value to INT8 or INT32 (R82). -/
def toIntFmt (v : Val) (n : Nat) (r : RMode) : Nat :=
  match v with
  | .nan => 0
  | .inf neg => ofSigned n (if neg then -(2 ^ (n - 1) : Nat) else (2 ^ (n - 1) : Nat) - 1)
  | .num neg m e => ofSigned n (clampInt n (roundInt neg m e r))

/-- Conversion of an exact value to any element format (R81, R82). -/
def convert (v : Val) (f : Fmt) (r : RMode) (satf : Bool) : Nat :=
  match f with
  | .s8 => toIntFmt v 8 r
  | .s32 => toIntFmt v 32 r
  | f => roundTo v f r satf

/-! ### Exact operations (R64, R66) -/

/-- A signed integer mantissa. -/
def sgn (neg : Bool) (m : Nat) : Int := if neg then -(m : Int) else (m : Int)

/-- Exact addition: a zero sum is +0 unless both operands are -0 (R66). -/
def vadd : Val → Val → Val
  | .nan, _ => .nan
  | _, .nan => .nan
  | .inf a, .inf b => if a = b then .inf a else .nan
  | .inf a, _ => .inf a
  | _, .inf b => .inf b
  | .num a m e, .num b n k =>
    if m = 0 ∧ n = 0 then .num (a && b) 0 0
    else
      let lo := min e k
      let t := sgn a (m * 2 ^ (e - lo).toNat) + sgn b (n * 2 ^ (k - lo).toNat)
      if t = 0 then .zero else .num (decide (t < 0)) t.natAbs lo

def vneg : Val → Val
  | .nan => .nan
  | .inf a => .inf (!a)
  | .num a m e => .num (!a) m e

def vsub (a b : Val) : Val := vadd a (vneg b)

def vabs : Val → Val
  | .nan => .nan
  | .inf _ => .inf false
  | .num _ m e => .num false m e

/-- Exact product; an infinity times a zero is NaN (R64). -/
def vmul : Val → Val → Val
  | .nan, _ => .nan
  | _, .nan => .nan
  | .inf a, .inf b => .inf (a != b)
  | .inf a, .num b n _ => if n = 0 then .nan else .inf (a != b)
  | .num a m _, .inf b => if m = 0 then .nan else .inf (a != b)
  | .num a m e, .num b n k => .num (a != b) (m * n) (e + k)

/-- The sign and aligned size of two numbers: whether a < b as reals. -/
def numLt (a : Bool) (m : Nat) (e : Int) (b : Bool) (n : Nat) (k : Int) : Bool :=
  let lo := min e k
  decide (sgn a (m * 2 ^ (e - lo).toNat) < sgn b (n * 2 ^ (k - lo).toNat))

/-- The order of values, -0 below +0 (R66); NaN compares false. -/
def vlt : Val → Val → Bool
  | .nan, _ => false
  | _, .nan => false
  | .inf a, .inf b => a && !b
  | .inf a, _ => a
  | _, .inf b => !b
  | .num a m e, .num b n k => if m = 0 ∧ n = 0 then a && !b else numLt a m e b n k

/-- Equal in that order: same value, zeros of one sign. -/
def veq (a b : Val) : Bool :=
  match a, b with
  | .nan, _ => false
  | _, .nan => false
  | a, b => !vlt a b && !vlt b a

def isNan : Val → Bool
  | .nan => true
  | _ => false

/-- The smaller value, NaN if either is (R66). -/
def vmin (a b : Val) : Val := if isNan a || isNan b then .nan else if vlt b a then b else a

/-- The larger value, NaN if either is (R66). -/
def vmax (a b : Val) : Val := if isNan a || isNan b then .nan else if vlt a b then b else a

/-- Less or equal as real numbers: zeros of either sign are equal (the comparisons of R294, R297 and R298). -/
def realLe (a b : Val) : Bool :=
  match a, b with
  | .nan, _ => false
  | _, .nan => false
  | .num a m e, .num b n k => !numLt b n k a m e
  | a, b => !vlt b a

/-- FP32 rounding to nearest (the helper rnd of R293). -/
def rnd (v : Val) : Nat := roundTo v .f32 .rne false

/-- FP32 addition, rounded to nearest. -/
def fadd (a b : Nat) : Nat := rnd (vadd (fpValue .f32 a) (fpValue .f32 b))

/-- FP32 multiplication, rounded to nearest. -/
def fmul (a b : Nat) : Nat := rnd (vmul (fpValue .f32 a) (fpValue .f32 b))

/-- ext80 addition, rounded to nearest (R84). -/
def xadd (a : Nat) (x : Val) : Nat := roundTo (vadd (fpValue .x80 a) x) .x80 .rne false

/-! ### The 4-bit block family (R71, R72) -/

/-- The value of a code by type, doubled so that halves are whole (R72). -/
def codeTwice (ty c : Nat) : Int :=
  let mag (t : List Int) : Int := (t.getD (c % 8) 0) * (if c ≥ 8 then -1 else 1)
  match ty with
  | 0 => 2 * toSigned 4 c
  | 1 => mag [0, 1, 2, 3, 4, 6, 8, 12]
  | 2 => mag [0, 2, 4, 8, 16, 32, 64, 128]
  | _ => mag [0, 2, 4, 6, 8, 16, 32, 64]

/-- The exact value of a code under a scale byte (R71): type in bits [7:6], exponent in bits [5:0], 63 meaning NaN. -/
def codeValue (scale c : Nat) : Val :=
  let ty := scale / 64 % 4
  let e := scale % 64
  if e = 63 then .nan
  else
    let t := codeTwice ty c
    if t = 0 then .num (decide (ty ≠ 0 ∧ c = 8)) 0 0
    else .num (decide (t < 0)) t.natAbs ((e : Int) - 32)

/-- Block length of a geometry code (R75). -/
def blockLen : Nat → Nat
  | 1 => 16
  | 2 => 32
  | 3 => 64
  | _ => 0

end Sys2Proof.Machine
end

