-- ==== Sys2Proof/Machine/Graph.lean ====
section
/-! DEFINITION. Graph objects: settings and their fields, the file layout, and the load-time checks (R32 to R60, R152, R153 and the load
rules of the cell chapters). -/

namespace Sys2Proof.Machine

/-! ### Fields of a setting (R33) -/

/-- Bits [hi:lo] of a header. -/
def hf (h : BitVec 64) (hi lo : Nat) : Nat := bits h.toNat hi lo
def kindOf (h : BitVec 64) : Nat := hf h 63 60
def modeOf (h : BitVec 64) : Nat := hf h 59 52
def classOf (h : BitVec 64) : Nat := hf h 51 50
def commuteOf (h : BitVec 64) : Bool := h.getLsbD 49
def pinOf (h : BitVec 64) : Bool := h.getLsbD 48
def iiOf (h : BitVec 64) : Nat := hf h 47 40
/-- A parameter word. -/
def pw (ws : List Word) (i : Nat) : Nat := (ws.getD i 0).toNat

/-- Kind codes (R32). -/
def kMAT : Nat := 0
def kACC : Nat := 1
def kVEC : Nat := 2
def kRED : Nat := 3
def kFNC : Nat := 4
def kCVT : Nat := 5
def kBFY : Nat := 6
def kCNT : Nat := 7
def kAGN : Nat := 8
def kRTE : Nat := 9
def kGAT : Nat := 10
def kTAP : Nat := 11

/-- Whether a node is a block-family tensor node: an AGN whose map has format 0x8. -/
def blockMap (o : GObj) (h : BitVec 64) : Bool := ((o.maps[hf h 30 19]?).map fun m => m.fmt == 8).getD false

/-! ### Tensor maps (R51, R52) -/

def TMap.dim (m : TMap) (d : Nat) : Nat := m.dims.getD d 1
def TMap.ext (m : TMap) (d : Nat) : Nat := m.tile.getD d 1
/-- Tiles in dimension d. -/
def TMap.tilesIn (m : TMap) (d : Nat) : Nat := ceilDiv (m.dim d) (m.ext d)
/-- Tiles of a map. -/
def TMap.tiles (m : TMap) : Nat := ((List.range m.rank).map m.tilesIn).foldl (· * ·) 1
/-- Element bits of a format code (R69). -/
def bitsOf (f : Nat) : Nat := match f with
  | 0 | 6 => 32 | 1 | 2 => 16 | 3 | 4 | 5 | 15 => 8 | 7 => 128 | _ => 4
/-- Elements of one tile. -/
def TMap.tileElems (m : TMap) : Nat := ((List.range m.rank).map m.ext).foldl (· * ·) 1
/-- Tokens of one tile (R52). -/
def TMap.tileTokens (m : TMap) : Nat := ceilDiv (m.tileElems * bitsOf m.fmt) 1024
/-- The map obeys R51. -/
def TMap.ok (m : TMap) : Bool :=
  1 ≤ m.rank && m.rank ≤ 6 && (m.fmt ≤ 8 || m.fmt == 15)
    && (List.range m.rank).all (fun d => 1 ≤ m.dim d && 1 ≤ m.ext d && m.ext d ≤ m.dim d)
    && m.strides.getD 0 0 == (if m.fmt == 8 then 0 else (bitsOf m.fmt / 8 : Nat))
    && !(m.fmt == 7 && m.pad.toNat ≥ 2 ^ 80)

/-! ### The file (R54, R55) -/

/-- Offset and record count of part i. -/
def partOff (bs : List Byte) (i : Nat) : Nat := fieldN bs (0x10 + 8 * i) 4
def partCount (bs : List Byte) (i : Nat) : Nat := fieldN bs (0x14 + 8 * i) 4
/-- Record sizes and limits of the parts (R55). -/
def partSize : List Nat := [4, 64, 32, 8, 16, 4, 128, 16, 4]
def partLimit : List Nat := [16, 65535, 65535, 65535, 4096, 16, 4096, 256, 262144]

/-- The records of a part, each as its bytes. -/
def recordsOf (size : Nat) : Nat → List Byte → List (List Byte)
  | 0, _ => []
  | n + 1, bs => bs.take size :: recordsOf size n (bs.drop size)
def partRecs (bs : List Byte) (i : Nat) : List (List Byte) :=
  recordsOf (partSize.getD i 1) (partCount bs i) (bs.drop (partOff bs i))

def parseNode (r : List Byte × List Byte) : Node :=
  { hdr := BitVec.ofNat 64 (fieldN r.1 0 8), words := (List.range 7).map fun i => BitVec.ofNat 64 (fieldN r.1 (8 + 8 * i) 8),
    lo := BitVec.ofNat 64 (fieldN r.2 0 8), hi := BitVec.ofNat 64 (fieldN r.2 8 8), space := fieldN r.2 16 1, noclone := bit (fieldN r.2 17 1) 0 }
def parseLink (r : List Byte) : GLink :=
  { src := fieldN r 0 2, sp := fieldN r 2 1, dst := fieldN r 3 2, dp := fieldN r 5 1, slots := fieldN r 6 1 }
def parseSec (bs r : List Byte) : GSec :=
  { members := (List.range (fieldN r 4 2)).map fun i => fieldN bs (fieldN r 0 4 + 2 * i) 2, point := fieldN r 6 2 }
def parseTerm (r : List Byte) : GTerm := { counter := fieldN r 0 1, kind := fieldN r 1 1, index := fieldN r 2 1, amt := fieldN r 3 1 }
def parseMap (r : List Byte) : TMap :=
  { rank := fieldN r 0 1, fmt := fieldN r 1 1, pad := BitVec.ofNat 128 (fieldN r 8 16), dims := (List.range 6).map fun i => fieldN r (24 + 4 * i) 4,
    tile := (List.range 6).map fun i => fieldN r (48 + 2 * i) 2, strides := (List.range 6).map fun i => toSigned 64 (fieldN r (64 + 8 * i) 8) }

/-- A graph object as its bytes state it. -/
def parseObj (bs : List Byte) : GObj :=
  { wins := parseWins (partCount bs 0) (bs.drop (partOff bs 0)),
    nodes := ((partRecs bs 1).zip (partRecs bs 2)).map parseNode,
    links := (partRecs bs 3).map parseLink,
    secs := (partRecs bs 4).map (parseSec bs),
    terms := (partRecs bs 5).map parseTerm,
    maps := (partRecs bs 6).map parseMap,
    cmds := (partRecs bs 7).map fun r => BitVec.ofNat 128 (fieldN r 0 16),
    code := (partRecs bs 8).map fun r => BitVec.ofNat 32 (fieldN r 0 4),
    entry := if fieldN bs 0xC 4 = 0xFFFFFFFF then none else some (fieldN bs 0xC 4),
    hash := BitVec.ofNat 384 (leNat (sha384 bs).reverse) }

/-- First index at which a test of numbered records fails. -/
def firstBad {α : Type} (l : List α) (ok : Nat → α → Bool) : Option Nat :=
  (l.zipIdx.find? fun p => !ok p.2 p.1).map (·.2)

/-- Check 1 (R54, R55): header, directory, limits, and the bytes that R55 reserves or sets to zero, those of a tensor map's dimensions at or above its
rank among them (log 31). -/
def check1 (bs : List Byte) : Option Nat :=
  let zero (r : List Byte) (o n : Nat) : Bool := fieldN r o n == 0
  let headOk := 128 ≤ bs.length && fieldN bs 0 4 == 0x014F4753 && fieldN bs 4 2 == 1 && zero bs 6 2 && fieldN bs 8 4 == bs.length && zero bs 0x58 40
  let partsOk := (List.range 9).all fun i => partCount bs i == 0
    || (partCount bs i ≤ partLimit.getD i 0 && partOff bs i + partCount bs i * partSize.getD i 1 ≤ bs.length)
  if !headOk || !partsOk || partCount bs 1 != partCount bs 2 then some 0
  else
    let wins := partRecs bs 0
    (firstBad wins fun i r => fieldN r 0 1 ≤ 15 && fieldN r 1 1 ≤ 2 && fieldN r 2 1 ≤ 1 && zero r 3 1
        && !((wins.take i).any fun q => fieldN q 0 1 == fieldN r 0 1))
    <|> (firstBad (partRecs bs 2) fun _ r => fieldN r 16 1 ≤ 2 && fieldN r 17 1 ≤ 1 && zero r 18 14)
    <|> (firstBad (partRecs bs 3) fun _ r => fieldN r 2 1 ≤ 3 && fieldN r 5 1 ≤ 3 && fieldN r 6 1 ≤ 15 && zero r 7 1)
    <|> (firstBad (partRecs bs 4) fun _ r => fieldN r 0 4 + 2 * fieldN r 4 2 ≤ bs.length && zero r 8 8)
    <|> (firstBad (partRecs bs 5) fun _ r => fieldN r 0 1 ≤ 7 && fieldN r 1 1 ≤ 3 && 1 ≤ fieldN r 3 1)
    <|> (firstBad (partRecs bs 6) fun _ r => zero r 2 6 && zero r 60 4 && zero r 112 16 && (List.range 6).all fun d =>
      d < fieldN r 0 1 || (zero r (24 + 4 * d) 4 && zero r (48 + 2 * d) 2 && zero r (64 + 8 * d) 8))

/-! ### Check 2: kinds, modes, classes, settings (R32 to R34, R47, R152, the cell chapters) -/

/-- State classes that a kind allows (R47): 0 stateless, 1 keyed, 2 segment-ordered, 3 carried. -/
def classes (k : Nat) : List Nat := match k with
  | 0 => [0, 2] | 1 => [1, 2, 3] | 2 | 4 | 5 | 6 => [0] | 3 => [2, 3] | 7 => [3] | 8 => [0, 2, 3] | 9 => [0, 3] | 10 => [1, 3] | _ => [0, 3]

/-- Mode codes of a kind (R272 to R330). -/
def modes (k : Nat) : List Nat := match k with
  | 0 => [0, 1, 2, 3, 4, 5] | 1 => [0, 1] | 3 => [0, 1, 8, 9, 10, 16, 17, 18, 24, 32] | 4 => [0, 1, 2, 3, 4, 5] | 5 => [0, 1, 2]
  | 6 => [0] | 7 => [0, 1] | 8 => [0, 1, 2, 3, 4] | 9 => [0, 1, 2, 3, 4, 5] | 10 => [0] | 11 => [0, 1, 2, 3] | _ => []

/-- Whether a kind lists a mode code; a VEC splits it into function and source (R279, R280). -/
def modeOk (k m : Nat) : Bool := if k == kVEC then m % 64 ≤ 0xE && m / 64 != 3 else (modes k).contains m

/-- Header bits [39:0] that a kind defines in a mode (R152). A field that another bit of the header makes unused, WIN beside GLB = 1 and PL beside SEL = 0,
must be zero too (DESIGN CHOICE, log 96). -/
def headerMask (h : BitVec 64) : Nat :=
  let m := modeOf h
  let f (hi lo : Nat) : Nat := 2 ^ (hi + 1) - 2 ^ lo
  match kindOf h with
  | 1 => f 39 33 + f 31 25 + (if m = 0 then f 24 9 else 0)
  | 2 => f 39 28
  | 3 => f 39 36
  | 4 => f 39 29
  | 5 => f 39 29 + (if m = 1 then f 28 25 else 0)
  | 6 => f 39 33
  | 7 => f 39 30
  | 8 => (if h.getLsbD 35 then 0 else f 39 36) + f 35 35 + (if m = 2 ∨ m = 3 then f 34 31 else f 30 19)
  | 9 => (if m = 1 then f 39 34 else 0) + f 33 33 + (if m = 4 then f 32 32 + (if h.getLsbD 32 then f 31 27 else 0) else 0)
  | 10 => f 39 2
  | 11 => match m with
    | 0 => f 39 37 | 1 => f 37 37 | 2 => f 39 38 + f 36 36 | _ => 0
  | _ => 0

/-- Bits of parameter word i that a node's mode reads (R152). -/
def wordMask (h : BitVec 64) (i : Nat) : Nat :=
  let m := modeOf h
  let all := 2 ^ 64 - 1
  let low := 2 ^ 32 - 1
  match kindOf h, i with
  | 2, 0 => if m / 64 = 1 then 2 ^ bitsOf (hf h 39 36) - 1 else 0
  | 4, 0 => all
  | 4, 1 => low
  | 5, 0 => low
  | 7, 0 => all
  | 7, 1 => all
  | 7, 2 => if m = 0 then low else 0
  | 7, 3 => if m = 0 then 2 ^ 20 - 1 else 0
  | 8, 0 => if h.getLsbD 35 then all else 0
  | 8, 1 => if m = 1 ∨ m = 4 then 0 else 2 ^ 20 - 1
  | 10, 0 => low
  | 11, 0 => if m = 3 then all else 0
  | _, _ => 0

/-- The field rules of one kind (R275, R279, R280, R286, R291, R295, R303, R305, R310, R320, R321, R325, R330, R80). -/
def kindRules (o : GObj) (h : BitVec 64) (ws : List Word) : Bool :=
  let m := modeOf h
  let cls := classOf h
  match kindOf h with
  | 1 => (if m = 0 then cls == 1 || cls == 3 else cls == 2) && hf h 39 36 ≤ 7 && hf h 34 33 != 3
  | 2 =>
    let fn := m % 64
    let fmt := hf h 39 36
    let int := fmt == 5 || fmt == 6
    let cond := hf h 31 28
    fmt ≤ 6 && !(int && (fn == 2 || fn == 3)) && !(!int && (fn == 8 || fn == 9 || fn == 10 || fn == 14))
      && cond ≤ 9 && (fn == 6 || cond == 0) && !(cond ≥ 6 && !int) && hf h 35 34 ≤ 1
  | 3 => hf h 39 36 ≤ 6 && (m != 0x20 || hf h 39 36 == 0)
  | 4 =>
    let i := hf h 39 36
    let f := hf h 35 32
    ((i == 0 && f == 0) || ((i == 1 || i == 2) && (f == 1 || f == 2))) && hf h 31 30 ≤ 1 && pw ws 0 % 128 == 0
  | 5 =>
    let i := hf h 39 36
    let f := hf h 35 32
    (match m with
      | 0 => i ≤ 7 && f ≤ 7
      | 1 => i ≤ 7 && f == 8 && hf h 26 25 != 0
      | _ => i == 8 && f ≤ 7) && hf h 31 30 ≤ 1
  | 6 => hf h 39 36 ≤ 2 && hf h 35 33 ≤ 5
  | 7 => !(h.getLsbD 38 && m == 0) && !(h.getLsbD 38 && !h.getLsbD 39) && !(h.getLsbD 39 && pw ws 1 % 4 != 0)
  | 8 =>
    let map := o.maps[hf h 30 19]?
    (if m = 2 ∨ m = 3 then true
      else match map with
        | none => false
        | some t => !(m == 4 && t.fmt == 8) && !(h.getLsbD 35 && pw ws 0 % max (bitsOf t.fmt / 8) 1 != 0))
      && !(h.getLsbD 35 && pw ws 0 ≥ 2 ^ 60)
  | 9 => (cls == 3) == (m == 2) && !h.getLsbD 33 && (m != 1 || hf h 39 34 ≤ 31 || hf h 39 34 == 63)
  | 10 => hf h 5 2 ≤ 7 && hf h 17 6 < o.secs.length
  | 11 => m != 3 || (pw ws 0 < 2 ^ 60 && pw ws 0 % 64 == 0)
  | _ => true

/-- The smallest II of a mode (R270, R301): 4 for the 32-bit multiplication of a VEC, from whatever source its second operand comes. R270 names `imul` and
`imulx`; that `imulc` is as slow is DESIGN CHOICE, log 94. -/
def minII (h : BitVec 64) : Nat := if kindOf h = kVEC ∧ modeOf h % 64 = 0xE ∧ hf h 39 36 = 6 then 4 else 1

/-- Whether a node passes check 2. -/
def nodeOk (o : GObj) (i : Nat) (x : Node) : Bool :=
  let h := x.hdr
  let k := kindOf h
  k ≤ 0xB && modeOk k (modeOf h) && (classes k).contains (classOf h) && minII h ≤ iiOf h
    && (hf h 39 0 &&& (2 ^ 40 - 1 - headerMask h)) == 0
    && (List.range 7).all (fun j => (pw x.words j &&& (2 ^ 64 - 1 - wordMask h j)) == 0)
    && kindRules o h x.words
    && (if k == kGAT then
          !((o.secs.getD (hf h 17 6) ⟨[], 0⟩).members.contains i)
            && !((o.nodes.take i).any fun y => kindOf y.hdr == kGAT && hf y.hdr 29 18 == hf h 29 18)
        else if k == kAGN && (modeOf h == 2 || modeOf h == 3) then
          !((o.nodes.take i).any fun y => kindOf y.hdr == kAGN && (modeOf y.hdr == 2 || modeOf y.hdr == 3) && hf y.hdr 34 31 == hf h 34 31)
        else true)

/-! ### Check 3: ports and links (R19, R269, R275, R300, R311, R320) -/

/-- Inputs that a node's mode names: those that must be linked, and those that may be. Beside the inputs that R311 calls optional, the model lets
i0 of a `cmdld` and i1 of a `cmdst` go without a link: only GATHER and SCATTER take tokens there (DESIGN CHOICE, log 31). -/
def inPorts (o : GObj) (h : BitVec 64) : List Nat × List Nat :=
  let m := modeOf h
  match kindOf h with
  | 0 => if m = 5 then ([0, 1], []) else ([0], [])
  | 2 =>
    let b := if m / 64 = 0 then [1] else []
    let c := if m % 64 = 3 ∨ m % 64 = 7 then [2] else []
    (0 :: b ++ c, [])
  | 3 => if m = 0x20 then ([0, 1], []) else ([0], [])
  | 5 => if m = 2 then ([0, 1], []) else ([0], [])
  | 7 => ((if m = 1 then [0] else []) ++ (if hf h 37 30 = 0 then [] else [1]), [])
  | 8 => match m with
    | 0 => ([], [0])
    | 1 => if blockMap o h then ([0, 1], [2]) else ([0], [2])
    | 2 => ([], [0])
    | 3 => ([0], [1])
    | _ => ([0], [])
  | 9 => match m with
    | 3 => ([0, 1], [2, 3])
    | 4 => if h.getLsbD 32 then ([0], []) else ([0, 1], [])
    | _ => ([0], [])
  | 10 => ([0, 1], [])
  | _ => ([0], [])

/-- Outputs of a node's mode, each with the links it may feed (R269, R300). -/
def outPorts (o : GObj) (h : BitVec 64) : List (Nat × Nat) :=
  let m := modeOf h
  match kindOf h with
  | 0 => [(0, 1)]
  | 5 => if m = 1 then [(0, 4), (1, 4)] else [(0, 4)]
  | 8 => match m with
    | 0 => if blockMap o h then [(0, 1), (1, 1)] else [(0, 1)]
    | 1 => [(0, 1)]
    | 2 => [(0, 1), (1, 1)]
    | 3 => []
    | _ => [(0, 1)]
  | 9 => if m = 3 then [(0, 4)] else [(0, 1), (1, 1), (2, 1), (3, 1)]
  | 10 => [(0, 1), (1, 4)]
  | _ => [(0, 4)]

/-- The header of a node; a missing node has header 0. -/
def GObj.hdr (o : GObj) (n : Nat) : BitVec 64 := ((o.nodes[n]?).map (·.hdr)).getD 0

/-- Whether link i passes check 3. -/
def linkOk (o : GObj) (i : Nat) (l : GLink) : Bool :=
  let before := o.links.take i
  let s := o.hdr l.src
  let d := o.hdr l.dst
  let ins := inPorts o d
  l.src < o.nodes.length && l.dst < o.nodes.length
    && (ins.1 ++ ins.2).contains l.dp && !(before.any fun x => x.dst == l.dst && x.dp == l.dp)
    && ((outPorts o s).find? (·.1 == l.sp)).any (fun p => (before.filter fun x => x.src == l.src && x.sp == l.sp).length < p.2)
    && (kindOf s != kMAT || (kindOf d == kACC && l.dp == 0))
    && (kindOf d != kACC || (hf d 34 33 == 0) == (kindOf s == kMAT))

/-- Outputs that feed exactly one link and are not called optional (R269, R300, R311): a scale output of a command AGN serves the block family
alone, and may go without (DESIGN CHOICE, log 31). -/
def neededOut (o : GObj) (h : BitVec 64) : List Nat :=
  if kindOf h == kMAT || kindOf h == kGAT then [0]
  else if kindOf h == kAGN then (match modeOf h with
    | 0 => if blockMap o h then [0, 1] else [0]
    | 2 | 4 => [0]
    | _ => [])
  else []

/-- Whether node i has the links that its mode needs. -/
def portsOk (o : GObj) (i : Nat) (x : Node) : Bool :=
  let h := x.hdr
  let linkedIn (p : Nat) : Bool := o.links.any fun l => l.dst == i && l.dp == p
  let linkedOut (p : Nat) : Bool := o.links.any fun l => l.src == i && l.sp == p
  let rows (f : Nat → Bool) : Bool := f 0 && f 1 && (!f 3 || f 2)
  (inPorts o h).1.all linkedIn
    && (if kindOf h == kRTE then (if modeOf h == 3 then rows linkedIn else rows linkedOut) else true)
    && (neededOut o h).all linkedOut

/-! ### Checks 4 to 7 -/

/-- Nodes reached from a set along an edge relation, in n rounds. -/
def closure (next : Nat → List Nat) : Nat → List Nat → List Nat
  | 0, seen => seen
  | n + 1, seen => closure next n (seen ++ ((seen.flatMap next).eraseDups.filter fun x => !seen.contains x))

/-- Whether an ordering path leads from a to b (R59). -/
def GObj.path (o : GObj) (a b : Nat) : Bool :=
  (closure (fun x => (o.links.filter fun l => l.src == x).map (·.dst)) o.nodes.length
    ((o.links.filter fun l => l.src == a).map (·.dst))).contains b

/-- Check 4 (R45): section i is connected, its members are in no other section, its count point is a member. -/
def secOk (o : GObj) (i : Nat) (x : GSec) : Bool :=
  let m := x.members
  let next (a : Nat) : List Nat := (o.links.filter fun l => (l.src == a || l.dst == a) && m.contains l.src && m.contains l.dst).map
    fun l => if l.src == a then l.dst else l.src
  m.length ≥ 1 && m.eraseDups.length == m.length && m.all (· < o.nodes.length) && m.contains x.point
    && !((o.secs.take i).any fun y => y.members.any m.contains)
    && m.all (fun a => (closure next m.length (m.take 1)).contains a)

/-- Whether a node's address is global: no window holds it (R50, R377, R437). -/
def memNode (h : BitVec 64) : Bool :=
  kindOf h == kAGN || kindOf h == kFNC || (kindOf h == kCNT && h.getLsbD 39) || (kindOf h == kTAP && modeOf h == 3)

/-- The declared range of a memory node: space (1 window, 2 global), low, high (R50, R377); none for a command AGN without one (R319). -/
def rangeOf (x : Node) : Option (Nat × Nat × Nat) :=
  let h := x.hdr
  if kindOf h == kFNC then some (2, pw x.words 0, pw x.words 0 + 2047)
  else if x.space != 0 then some (x.space, x.lo.toNat, x.hi.toNat)
  else if kindOf h == kAGN && !(modeOf h == 2 || modeOf h == 3) && !h.getLsbD 35 then
    some (1, hf h 39 36 * 2 ^ 16, hf h 39 36 * 2 ^ 16 + 0xFFFF)
  else none

/-- Check 5 for node i: its window is declared; a global memory node declares a range (R50, R310, R319). -/
def memOk (o : GObj) (x : Node) : Bool :=
  let h := x.hdr
  let cmd := kindOf h == kAGN && (modeOf h == 2 || modeOf h == 3)
  (kindOf h != kAGN || h.getLsbD 35 || (o.wins.map (·.1)).contains (hf h 39 36))
    && (!memNode h || cmd || (rangeOf x).isSome)

/-- Nodes that are TAPs, in node order (R399). -/
def GObj.taps (o : GObj) : List Nat := (List.range o.nodes.length).filter fun i => kindOf (o.hdr i) == kTAP

/-- Check 5 for an event term (R55, R399). A source that names no engine, signal, section or TAP of the graph fails here and not at check 1 (DESIGN CHOICE,
log 95). -/
def termOk (o : GObj) (t : GTerm) : Bool :=
  match t.kind with
  | 0 => t.index < 16 && t.index < o.secs.length
  | 1 => t.index < 7 && ((o.taps[t.index]?).map fun i => modeOf (o.hdr i) == 1 || modeOf (o.hdr i) == 2).getD false
  | 2 => t.index < 8
  | _ => t.index == 0

/-- Check 6 (R58): the lowest link on a cycle of zero-slot links. -/
def zeroLoop (o : GObj) : Option Nat :=
  let next (a : Nat) : List Nat := (o.links.filter fun l => l.src == a && l.slots == 0).map (·.dst)
  firstBad o.links fun _ l => !(l.slots == 0 && (closure next o.nodes.length [l.dst]).contains l.src)

/-- Whether a memory node stores (R59, R377, R437). -/
def storesNode (h : BitVec 64) : Bool := (kindOf h == kAGN && (modeOf h == 1 || modeOf h == 3)) || (kindOf h == kTAP && modeOf h == 3)

/-- The race pairs of R59, lower node index first. -/
def races (o : GObj) : List (Nat × Nat) :=
  let ix := o.nodes.zipIdx
  ix.flatMap fun a => (ix.filter fun b =>
    a.2 < b.2 && memNode a.1.hdr && memNode b.1.hdr && (storesNode a.1.hdr || storesNode b.1.hdr)
      && (match rangeOf a.1, rangeOf b.1 with
        | some (s, lo, hi), some (t, lo', hi') => s == t && lo ≤ hi' && lo' ≤ hi
        | _, _ => false)
      && !o.path a.2 b.2 && !o.path b.2 a.2).map fun b => (a.2, b.2)

/-- The load checks of R57 on the bytes of an object: the number of the first that fails and the index of the record at fault. -/
def loadChecks (bs : List Byte) (flag : Bool) : Option (Nat × Nat) :=
  match check1 bs with
  | some i => some (1, i)
  | none =>
    let o := parseObj bs
    let at2 := (firstBad o.nodes (nodeOk o)).map fun i => (2, i)
    let at3 := ((firstBad o.links (linkOk o)).map fun i => (3, i)) <|> ((firstBad o.nodes (portsOk o)).map fun i => (3, i))
    let at4 := (firstBad o.secs (secOk o)).map fun i => (4, i)
    let at5 := ((firstBad o.nodes fun _ x => memOk o x).map fun i => (5, i)) <|> ((firstBad o.maps fun _ m => m.ok).map fun i => (5, i))
      <|> ((firstBad o.terms fun _ t => termOk o t).map fun i => (5, i))
    let at6 := (zeroLoop o).map fun i => (6, i)
    let at7 := if flag then none else (races o).head?.map fun p => (7, p.1)
    at2 <|> at3 <|> at4 <|> at5 <|> at6 <|> at7

end Sys2Proof.Machine
end

