-- ==== Sys2Proof/Machine/Cells.lean ====
section
/-! DEFINITION. What the cells share: links, firing, segments, section counts, tags of emitted tokens, and emission over several cycles
(R34 to R46, R125, R271, R334). -/

namespace Sys2Proof.Machine

/-- The data bits of a token as a number. -/
def Token.nat (t : Token) : Nat := t.data.toNat

/-! ### Links (R38, R39, R117) -/

/-- Among numbered tokens, the place of the earliest of a thread by sequence: the last of those that precede all before them. Of two whose
sequences differ by 2²³ neither precedes by R37, and the later written one is taken (DESIGN CHOICE, log 88). -/
def earliest (ts : List (Token × Nat)) (th : BitVec 20) : Option (BitVec 24 × Nat) :=
  (ts.filter fun t => t.1.tag.thread == th).foldl (fun (b : Option (BitVec 24 × Nat)) t => match b with
    | some c => if (t.1.tag.seq - c.1).msb then some (t.1.tag.seq, t.2) else b
    | none => some (t.1.tag.seq, t.2)) none

/-- How an input takes its tokens: as they arrive, or each thread's in sequence order; then it tells whether an earlier token of a thread is still
to come than one of a sequence (R49). -/
abbrev Order := Option (BitVec 20 → BitVec 24 → Bool)

/-- The place of the token that the consumer takes next, once it may: the head, or, in sequence order, the earliest of the first thread of which no
earlier one is still to come, among those it may take before a barrier token (R49, R412). -/
def Link.pick (l : Link) (now : Nat) (order : Order) : Option Nat :=
  match l.toks, order with
  | [], _ => none
  | h :: _, none => if h.ready > now then none else some 0
  | h :: _, some waits =>
    if h.ready > now then none
    else if h.tok.tag.barrier then some 0
    else
      let ts := (l.toks.takeWhile fun t => decide (t.ready ≤ now) && !t.tok.tag.barrier).zipIdx.map fun t => (t.1.tok, t.2)
      ts.findSome? fun t => (earliest ts t.1.tag.thread).bind fun e => if waits t.1.tag.thread e.1 then none else some e.2
/-- The token that the consumer takes next. -/
def Link.head (l : Link) (now : Nat) (order : Order) : Option Token := (l.pick now order).bind fun k => (l.toks[k]?).map (·.tok)

/-- Whether a producer may write a token: a free slot that was not freed this cycle, or, with no slot, a free output stage (R38, R39). -/
def Link.room (l : Link) (now : Nat) : Bool :=
  if l.slots = 0 then l.toks.isEmpty else l.toks.length + (if l.freedAt = now then l.freed else 0) < l.slots

/-- Take a token, counting it as passed (R117). -/
def Link.popAt (l : Link) (now k : Nat) : Link :=
  { l with toks := l.toks.eraseIdx k, freed := (if l.freedAt = now then l.freed else 0) + 1, freedAt := now, passed := l.passed + 1 }

/-- Write a token that may be taken from a cycle on. -/
def Link.push (l : Link) (t : Token) (ready : Nat) : Link := { l with toks := l.toks ++ [{ tok := t, ready := ready }] }

/-- The link that an input reads: the oldest, while a splice switches it (R127). -/
def Group.inLink (x : Group) (i p : Nat) : Option Nat := x.links.findIdx? fun l => l.dst == i && l.dp == p
/-- The links that an output port feeds. -/
def Group.outLinks (x : Group) (i p : Nat) : List Nat := (List.range x.links.length).filter fun j =>
  match x.links[j]? with
  | some l => l.src == i && l.sp == p
  | none => false
def Group.inLinked (x : Group) (i p : Nat) : Bool := (x.inLink i p).isSome
def Group.outLinked (x : Group) (i p : Nat) : Bool := !(x.outLinks i p).isEmpty
/-- Linked inputs and outputs of an instance. -/
def Group.ins (x : Group) (i : Nat) : List Nat := (List.range 4).filter (x.inLinked i)
def Group.outs (x : Group) (i : Nat) : List Nat := (List.range 4).filter (x.outLinked i)
/-- Header of the written node that an instance is or serves. -/
def Group.served (x : Group) (n : Nat) : BitVec 64 := ((x.insts.find? fun i => i.node == n && i.role == .node).map (·.hdr)).getD 0
/-- Kinds that number their own output (R271, R302). -/
def ownKinds : List Nat := [kACC, kRED, kCVT, kBFY, kGAT, kAGN]

/-- What a port of a node makes of the sequences first, first + step, … of its i0, where that is known: the numbers that its tokens carry, none
missing. An RTE of mode rr sends every nth to an output; a merge with commute, and modes whose choice hangs on data, leave it open, as do a VEC
that may discard tokens, a TAP that drops barrier tokens, and an AGN whose commands may be dropped (R36, R237, R271, R285, R320, R332). -/
def stepsOut (h : BitVec 64) (outs p : Nat) (many : Bool) (i0 : Option (Nat × Nat)) : Option (Nat × Nat) :=
  let k := kindOf h
  let m := modeOf h
  if k == kCNT || (ownKinds.contains k && !(k == kAGN && (m == 2 || m == 3))) then some (0, 1)
  else if k == kMAT || k == kFNC || (k == kVEC && !many) || (k == kTAP && m != 2) || (k == kRTE && m == 5) then i0
  else if k == kRTE && m == 0 then i0.bind fun a => if a == (0, 1) then some (p, outs) else none
  else if k == kRTE && m == 1 && hf h 39 34 == 63 then i0
  else if k == kRTE && m == 3 && !commuteOf h then some (0, 1)
  else none

/-- The sequences that come by a link, first and step, where every one of a thread is known to come (R36, R49): followed back to the source that
numbers them. -/
def Group.steps (x : Group) : Nat → Nat → Option (Nat × Nat)
  | 0, _ => none
  | f + 1, j =>
    (x.links[j]?).bind fun l => (x.insts[l.src]?).bind fun y =>
      let back (n : Nat) : Option (Nat × Nat) := (x.inLink n 0).bind (Group.steps x f)
      match y.role with
      | .node => stepsOut y.hdr (x.outs l.src).length l.sp (decide (1 < (x.ins l.src).length)) (back l.src)
      | .merge =>
        let one := (x.insts.findIdx? fun i => i.node == y.node && i.role == .node && !i.gone).getD 0
        let first := x.insts.findIdx? fun i => i.node == y.node && i.role == .split && i.iport == 0 && !i.gone
        stepsOut (x.served y.node) (x.outs one).length y.iport (decide (1 < (x.ins one).length)) (first.bind back)
      | .split => none

/-- Whether a sequence lies behind one still to come: the first of the sequences start, start + step, … from the one after the last taken (R37,
R49). -/
def isBehind (st : Nat × Nat) (after q : BitVec 24) : Bool :=
  let v := after.toNat + (st.1 + st.2 - after.toNat % max st.2 1) % max st.2 1
  let next := BitVec.ofNat 24 (if v < 2 ^ 24 then v else st.1)
  q != next && !(q - next).msb

/-- How an instance takes the tokens of an input: its node has no commute (R49), and then it waits for the next of a thread where all of them come
(DEDUCED, log 88). An inserted merge follows its route queue instead, which names the next token of each instance (R128); a written merge counts
what it expects itself (R323); a clone takes what its splits, which have put them in order, send it. -/
def Group.ordered (x : Group) (i p : Nat) : Order := match x.insts[i]? with
  | some y =>
    let h := if y.role == .split then x.served y.node else y.hdr
    if y.role == .merge || commuteOf h then none
    else some fun th q =>
      let after := (find y.nexts (p * 2 ^ 20 + th.toNat)).getD 0
      q != after
        && !(y.role == .node && (x.insts.filter fun c => c.node == y.node && c.role == .node && !c.gone).length > 1)
        && !(kindOf h == kRTE && modeOf h == 3) && !(kindOf h == kCNT && p == 1)
        && (((x.inLink i p).bind (x.steps x.insts.length)).map fun st => isBehind st after q).getD false
  | none => none
/-- The head token of an input, data or barrier. -/
def Group.headAny (x : Group) (now i p : Nat) : Option Token :=
  ((x.inLink i p).bind fun j => x.links[j]?).bind fun l => l.head now (x.ordered i p)
/-- The head data token of an input; a barrier token at its head holds the input back (R397). -/
def Group.head (x : Group) (now i p : Nat) : Option Token := (x.headAny now i p).filter fun t => !t.tag.barrier
/-- Whether a port has room on every link that it feeds (R40). -/
def Group.room (x : Group) (now i p : Nat) : Bool := (x.outLinks i p).all fun j => ((x.links[j]?).map fun l => l.room now).getD true

/-! ### Instances -/

def State.inst? (s : State) (r : CellRef) : Option (Group × Inst) := (s.group? r.group).bind fun x => (x.insts[r.inst]?).map fun i => (x, i)
def State.modInst (s : State) (r : CellRef) (f : Inst → Inst) : State := s.modGroup r.group fun x => { x with insts := modAt x.insts r.inst f }
def State.setSt (s : State) (r : CellRef) (c : CellState) : State := s.modInst r fun i => { i with st := c }
/-- Instances of a written node that are in use. -/
def Group.copies (x : Group) (n : Nat) : List Nat := (List.range x.insts.length).filter fun j =>
  match x.insts[j]? with
  | some i => i.node == n && i.role == .node && !i.gone
  | none => false
/-- Stateless nodes whose output for a token depends on others of its segment: a split hands them whole segments, so that no result
changes with the layout (R123, R130). -/
def wholeKind (h : BitVec 64) : Bool :=
  kindOf h == kCVT || kindOf h == kBFY || kindOf h == kAGN || (kindOf h == kRTE && modeOf h == 4)
/-- Whether the splits of a node hand out single tokens: segments are then followed, and their errors counted, at the splits (R44, R123). -/
def perTok (h : BitVec 64) : Bool := classOf h == 0 && !wholeKind h
/-- Whether a node's clones take whole segments (R123). -/
def segWise (h : BitVec 64) : Bool := classOf h == 2 || (classOf h == 0 && wholeKind h)
/-- A clone that sees single tokens of each segment. -/
def Group.perToken (x : Group) (i : Inst) : Bool := i.role == .node && perTok i.hdr && (x.copies i.node).length > 1
/-- Whether an instance is where the segment errors of its node's inputs are counted (R44). -/
def Group.counts44 (x : Group) (i : Inst) : Bool := match i.role with
  | .node => !x.perToken i
  | .split => perTok (x.served i.node)
  | .merge => false
def Inst.rte (i : Inst) : RteSt := match i.st with
  | .rte q => q
  | _ => {}
def State.modRte (s : State) (r : CellRef) (f : RteSt → RteSt) : State := s.modInst r fun i => { i with st := .rte (f i.rte) }
/-- Core of an instance. -/
def Group.coreOf (x : Group) (i : Inst) : Nat := x.die * 128 + x.first + i.rank

/-! ### Records of a cell (R413, R414) -/

/-- A record of an instance: its node index in A. -/
def State.cellRec (s : State) (x : Group) (i : Inst) (cause : BitVec 8) (b : Word) (c : BitVec 32) : State :=
  s.record { tenant := x.tenant, cause := cause, kind := .cell, ctx := BitVec.ofNat 12 x.ctx,
             loc := (s.locator (x.coreOf i)).setWidth 32, a := BitVec.ofNat 64 i.node, b := b, c := c, src := x.coreOf i,
             sub := cellSub i.cell }
/-- The record of an access of an instance that failed. -/
def State.cellErr (s : State) (x : Group) (i : Inst) (e : TErr) : State :=
  s.accessRec x.ctx .cell ((s.locator (x.coreOf i)).setWidth 32) (x.coreOf i) false (BitVec.ofNat 64 i.node) e
    (cellSub i.cell)

/-! ### Counts of the layout record (R44, R132) -/

/-- Add to a count with saturation. -/
def satAdd (w : BitVec 32) (n : Nat) : BitVec 32 := BitVec.ofNat 32 (min (w.toNat + n) 0xFFFFFFFF)

/-- Write raw bytes as the layout engine of a die; a write that faults is recorded and lost (R132). -/
def State.enginePut (s : State) (die ctx : Nat) (a : Word) (bs : List Byte) : State :=
  match (s.portsServed a bs.length (rankOf (unitSrc die) 0)).storeN ctx a (some 15) (bs.length + 2) bs with
  | (s1, none) => s1
  | (s1, some e) => s1.accessRec ctx .loader (unitLoc die) (unitSrc die) false 0 e
/-- A write of the layout engine of a group's die: where a port has served a later agent in this cycle, in the next (R98, R346). -/
def State.layoutWrite (s : State) (x : Group) (a : Word) (bs : List Byte) : State :=
  if s.portsLater a bs.length (rankOf (unitSrc x.die) 0) || s.lates.any (·.die == x.die) then
    { s with lates := s.lates ++ [{ die := x.die, ctx := x.ctx, addr := a, bytes := bs }] }
  else s.enginePut x.die x.ctx a bs
/-- Whether a layout engine has to wait for the next cycle with a whole record of a context: a port of its layout region has served a later agent,
or an earlier write of the engine waits (R98). -/
def State.engineLater (s : State) (die ctx : Nat) : Bool :=
  s.portsLater (((s.context? ctx).map (·.cfg.region)).getD 0) 2048 (rankOf (unitSrc die) 0) || s.lates.any (·.die == die)

/-- Address of the record of a version of a group's graph object (R132). -/
def State.recordAt (s : State) (x : Group) (v : BitVec 32) : Word :=
  let area := ((s.graphSt x.ctx x.key).bind (·.area)).getD 0
  ((s.context? x.ctx).map (·.cfg.region)).getD 0 + BitVec.ofNat 64 (area * 2 ^ 21 + v.toNat % 2 * 2 ^ 20)

/-- Write a count into the record of the current version, if that record describes the group. -/
def State.countInPlace (s : State) (g : Nat) (off : Nat) (v : BitVec 32) : State :=
  match s.group? g with
  | none => s
  | some x =>
    match s.graphSt x.ctx x.key with
    | some gs => if gs.record = g ∧ gs.lver ≠ 0 then s.layoutWrite x (s.recordAt x gs.lver + BitVec.ofNat 64 off) (leBytes 4 v.toNat) else s
    | none => s

/-- Count segment errors, orphan tokens and cancelled splices (R44, R129, R135). -/
def State.segErr (s : State) (g n : Nat) : State :=
  let s1 := s.modGroup g fun x => { x with counts := { x.counts with segErr := satAdd x.counts.segErr n } }
  s1.countInPlace g 0x10 (((s1.group? g).map (·.counts.segErr)).getD 0)
def State.orphans (s : State) (g n : Nat) : State :=
  let s1 := s.modGroup g fun x => { x with counts := { x.counts with orphans := satAdd x.counts.orphans n } }
  s1.countInPlace g 0x14 (((s1.group? g).map (·.counts.orphans)).getD 0)
def State.cancelled (s : State) (g : Nat) : State :=
  let s1 := s.modGroup g fun x => { x with counts := { x.counts with cancel := satAdd x.counts.cancel 1 } }
  s1.countInPlace g 0x24 (((s1.group? g).map (·.counts.cancel)).getD 0)

/-! ### Sections (R40, R41, R45, R334) -/

/-- The section of a node. -/
def GObj.secOf (o : GObj) (n : Nat) : Option Nat := o.secs.findIdx? fun x => x.members.contains n
/-- Tiles of a section that its count point has not yet finished. -/
def Sec.left (e : Sec) : Nat := e.count.toNat - e.fin
/-- Whether the section of an instance is armed; an inserted RTE and a clone go with their node (R334). -/
def State.armed (s : State) (x : Group) (i : Inst) : Bool :=
  match (s.objOf x).secOf i.node with
  | none => true
  | some k => match x.secs[k]? with
    | some e => decide (0 < e.left)
    | none => false
/-- The section whose count point an instance is (R45, R334). -/
def State.countsFor (s : State) (x : Group) (i : Inst) : Option Nat :=
  if i.role == .node && i.copy == 0 then
    (s.objOf x).secs.findIdx? fun e => e.point == i.node && e.members.contains i.node
  else none
/-- The count point of a section has finished its effect for a token with end-of-tile (R45). -/
def State.finishTile (s : State) (r : CellRef) : State :=
  match s.inst? r with
  | none => s
  | some (x, i) =>
    match s.countsFor x i with
    | some k => s.modGroup r.group fun x => { x with secs := modAt x.secs k fun e => { e with fin := e.fin + 1 } }
    | none => s

/-- A pulse of a section or TAP reaches the crossbar of every core of the placement (R399). -/
def State.pulseAll (s : State) (x : Group) (src : Nat) : State := { s with pulses := s.pulses ++ x.cores.map fun n => { core := n, src := src } }

/-- Count one finished tile; at zero the section disarms and sends one completion pulse (R45, R399). -/
def State.countTile (s : State) (g k : Nat) : State :=
  match s.group? g with
  | none => s
  | some x =>
    match x.secs[k]? with
    | none => s
    | some e =>
      let e1 := { e with count := e.count - 1, fin := e.fin - 1 }
      let s1 := s.setGroup g { x with secs := setAt x.secs k (if e1.count = 0 then {} else e1) }
      if e1.count = 0 ∧ k < 16 then s1.pulseAll x k else s1

/-- Count every tile of a section that is finished: ARM and DISARM act on the count as it then stands (R251). -/
def State.settleSec (s : State) (g k : Nat) : State :=
  let n := (((s.group? g).bind fun x => x.secs[k]?).map fun e => min e.fin e.count.toNat).getD 0
  (List.range n).foldl (fun s _ => s.countTile g k) s

/-- ARM (R251): the count is set, or raised up to 2²⁴ − 1, and every source of the section is funded (R309). -/
def State.armSec (s : State) (g k n : Nat) : State :=
  let s1 := s.settleSec g k
  let o := ((s1.group? g).map s1.objOf).getD {}
  s1.modGroup g fun x => { x with
    secs := modAt x.secs k fun e => { e with count := BitVec.ofNat 24 (min (e.count.toNat + n) 0xFFFFFF) }
    insts := x.insts.map fun i =>
      if i.role == .node && o.secOf i.node == some k then
        match i.st with
        | .cnt c => { i with st := .cnt { c with budget := c.budget + n } }
        | .agn a => { i with st := .agn { a with budget := a.budget + n } }
        | _ => i
      else i }

/-! ### When a cell may fire (R34, R40, R43, R125, R419, R420, R428) -/

/-- Whether the cells of a group run. -/
def State.live (s : State) (x : Group) : Bool :=
  x.status == .running && !((x.preempt.map (·.frozen)).getD false) && !s.coresDone x
    && !((s.context? x.ctx).map (·.purging)).getD true

/-- Whether a cell stands at a segment boundary with nothing in hand (R42). -/
def Inst.atBoundary (i : Inst) : Bool :=
  i.opens.isEmpty && i.outq.isEmpty && i.skip.isEmpty && (match i.st with
    | .cnt c => !c.running
    | .agn a => !a.walking && a.bufs.isEmpty && a.puts.isEmpty
    | .gat g => g.held.isEmpty && g.fwd.isEmpty
    | .acc sets => sets.all fun x => x.rel.isNone
    | .rte q => i.role != .merge || q.held.isEmpty
    | _ => true)

/-- Whether an instance stands at a segment boundary: a clone that sees single tokens, where its splits do and none is on its way to it (R42, R44). -/
def Group.atBound (x : Group) (j : Nat) (i : Inst) : Bool :=
  i.atBoundary && (!x.perToken i
    || (x.insts.all (fun y => !(y.node == i.node && y.role == .split && !y.gone) || (y.opens.isEmpty && y.skip.isEmpty && y.rte.route.isEmpty))
        && (x.ins j).all fun p => ((x.inLink j p).bind fun k => x.links[k]?).all fun l => l.toks.isEmpty))

/-- Whether an instance is one that a splice concerns: the node, and the splits in front of an already cloned node. -/
def Splice.concerns (p : Splice) (i : Inst) : Bool :=
  match p.change with
  | .clone n => i.node == n && i.role != .merge
  | .fold m _ => i.node == m && i.role == .node
  | .unfold m => i.node == m && i.role == .node

/-- Whether a split is the first of its node, which chooses the instance for every firing (R123). -/
def Group.firstSplit (x : Group) (i : Inst) : Bool :=
  !(x.insts.any fun y => y.node == i.node && y.role == .split && !y.gone && y.iport < i.iport)
/-- Whether an instance leads its node: its first split once it is cloned, else the node itself. -/
def Group.leads (x : Group) (i : Inst) : Bool := match i.role with
  | .node => !x.insts.any fun y => y.node == i.node && y.role == .split && !y.gone
  | .split => x.firstSplit i
  | .merge => false
/-- Whether the leading instance of a splice's node has fired since it was armed: the boundary that it reaches next is the splice point (R127). -/
def Group.splicePassed (x : Group) (p : Splice) : Bool :=
  x.insts.zipIdx.any fun q => p.concerns q.1 && !q.1.gone && x.leads q.1 && !p.marks.contains (q.2, q.1.fired)

/-- The output that a key chooses among n (R123, R320). -/
def keyOut (key n : Nat) : Nat := (key * 0x9E3779B1 % 2 ^ 32) * n / 2 ^ 32
def GatOut.thread : GatOut → BitVec 20
  | .miss t => t
  | .replay t _ _ => t
/-- The key of a thread at a GAT: the thread for a keyed one, one key for a carried one (R325). -/
def gatKey (h : BitVec 64) (th : BitVec 20) : Nat := if classOf h = 1 then th.toNat else 0
/-- Keys of which an instance holds state. -/
def Inst.keysHeld (i : Inst) : List Nat :=
  match i.st with
  | .acc sets => sets.filterMap fun e => e.key.map (·.toNat)
  | .gat g => g.tiles.map (·.1) ++ g.steps.map (·.1) ++ g.caps.map (·.thread.toNat) ++ g.outs.map (·.thread.toNat)
  | _ => []
/-- The keys of a node whose state is not where its split now sends their tokens, each with its place and its owner (R123, R127). -/
def Group.keysOut (x : Group) (n : Nat) : List (Nat × Nat × Nat) :=
  let cs := x.copies n
  cs.flatMap fun j => (((x.insts[j]?).map (·.keysHeld)).getD []).filterMap fun key =>
    let d := cs.getD (keyOut key cs.length) 0
    if d = j then none else some (key, j, d)
/-- Whether a token that an instance would take next has a key whose state is still to come to it (R127). -/
def Group.awaitsKey (x : Group) (now j : Nat) (i : Inst) : Bool :=
  (x.ins j).any fun p => ((x.headAny now j p).map fun t => (x.keysOut i.node).any fun e =>
    e.2.2 == j && (e.1 == t.tag.thread.toNat || (kindOf i.hdr == kGAT && e.1 == gatKey i.hdr t.tag.thread))).getD false

/-- A splice holds a node at its next boundary once armed: its splits, once it is cloned, with every token routed; and an instance while the state of
the key of its next token moves (R127). -/
def Group.spliceHolds (x : Group) (now j : Nat) (i : Inst) : Bool :=
  match x.splice with
  | none => false
  | some p => p.concerns i && (match p.phase with
    | .prepare => false
    | .armed => i.atBoundary && x.splicePassed p && (if i.role == .split then i.rte.route.isEmpty else x.leads i)
    | .move => i.role == .node && x.awaitsKey now j i
    | .switch => false)

/-- Whether a MAT instance has an exchange of planes waiting. -/
def Inst.swapWaits (i : Inst) : Bool := match i.st with
  | .mat m => m.swap
  | _ => false

/-- A weight-plane swap waits for the written node's segment boundary: an instance that stands at it goes no further before the swap. The
boundary of a cloned node is one of its splits, which send no later segment before every instance has swapped (R129, R250). -/
def Group.swapHolds (x : Group) (i : Inst) : Bool :=
  match i.role with
  | .node => i.swapWaits && (x.copies i.node).length ≤ 1 && i.opens.isEmpty
  | .split => i.opens.isEmpty && i.rte.route.isEmpty && x.insts.any fun y => y.node == i.node && y.role == .node && !y.gone && y.swapWaits
  | .merge => false

/-- The output that `rr` and `key` choose for a token among n (R320). -/
def rteOut (h : BitVec 64) (n : Nat) (t : Token) : Nat :=
  if modeOf h = 0 then t.tag.seq.toNat % n
  else keyOut (if hf h 39 34 = 63 then t.tag.thread.toNat else elemAt t.nat 32 (hf h 39 34)) n
/-- The output that a `steer` chooses by a segment's first token, or by its control token; 4 or more is none (R324). -/
def steerOut (h : BitVec 64) (t : Token) (ctl : Option Token) : Nat :=
  if h.getLsbD 32 then (if elemAt t.nat 32 (hf h 31 27) ≠ 0 then 1 else 0) else min ((ctl.map fun c => elemAt c.nat 32 0).getD 4) 4

/-- The outputs that a written RTE, but for a merge, writes for its head token (R320, R324). -/
def Group.rtePorts (x : Group) (now j : Nat) (i : Inst) (t : Token) : List Nat :=
  let n := max (x.outs j).length 1
  let th := t.tag.thread.toNat
  match modeOf i.hdr with
  | 5 => x.outs j
  | 2 => [(find i.rte.cur th).getD (i.rte.pos % n)]
  | 4 => [(find i.rte.cur th).getD (steerOut i.hdr t (x.head now j 1))]
  | _ => [rteOut i.hdr n t]

/-- Whether a CNT with credits has one left (R308). -/
def creditOk (h : BitVec 64) (c : CntSt) : Bool := hf h 37 30 == 0 || c.credits < hf h 37 30
/-- Whether a CNT may start a run (R306, R307, R309). -/
def CntSt.funded (c : CntSt) (h : BitVec 64) (ws : List Word) (inSec token : Bool) : Bool :=
  if modeOf h = 1 then token
  else if pw ws 2 % 2 ^ 32 ≠ 0 then c.runs < pw ws 2 % 2 ^ 32
  else if inSec then c.budget > 0 else !c.started
/-- Whether an AGN that is a source may start a tile (R309). -/
def AgnSt.funded (a : AgnSt) (inSec : Bool) : Bool := if inSec then a.budget > 0 else !a.started

/-- Whether an instance is ready: it has what a firing needs, its cell and, but for a firing that must write, its outputs aside (R40, R125). -/
def State.wants (s : State) (x : Group) (j : Nat) (i : Inst) : Bool :=
  let has (p : Nat) : Bool := (x.headAny s.cycle j p).isSome
  let need := (inPorts (s.objOf x) i.hdr).1
  let inSec := ((s.objOf x).secOf i.node).isSome
  i.loaded && !i.dead && !i.gone && s.armed x i && (!i.outq.isEmpty || (match i.st with
    | .cnt c => creditOk i.hdr c && (if c.running then (modeOf i.hdr != 1 || has 0) && x.room s.cycle j 0 else c.funded i.hdr i.words inSec (has 0))
    | .agn a => !a.bufs.isEmpty || !a.puts.isEmpty || (match modeOf i.hdr with
      | 0 => a.walking || (if x.inLinked j 0 then has 0 else a.funded inSec)
      | 1 => need.all has && (a.walking || !x.inLinked j 2 || has 2)
      | 4 => has 0
      | _ => false)
    | .rte q => if i.role == .merge || modeOf i.hdr == 3 then (!q.held.isEmpty || (x.ins j).any has) && x.room s.cycle j 0
        else need.all has && (match x.headAny s.cycle j 0 with
          | some t => i.role == .split || (x.rtePorts s.cycle j i t).all (x.room s.cycle j)
          | none => false)
    | .gat g => !g.fwd.isEmpty || g.whole.isSome || has 0 || has 1 || g.outs.any fun o => match o with
        | .replay _ _ _ => true
        | .miss _ => false
    | .acc sets => (sets.any fun e => e.rel.isSome) || has 0
    | .mat _ | .vec | .fnc _ | .tap => need.all has && x.room s.cycle j 0
    | _ => need.all has))

/-- Whether a shared cell may serve an instance: it changes nodes only at a boundary, in cyclic order of entries (R113, R125). -/
def State.cellFree (s : State) (x : Group) (j : Nat) (i : Inst) : Bool :=
  let mates := x.insts.zipIdx.filter fun p => p.2 != j && p.1.rank == i.rank && p.1.cell == i.cell && !p.1.gone
  let last := ((x.insts.filter fun y => y.rank == i.rank && y.cell == i.cell && !y.gone).foldl
    (fun (b : Nat × Nat) y => match y.fired with | some c => if c ≥ b.1 then (c, y.entry) else b | none => b) (0, 3)).2
  let place (e : Nat) : Nat := (e + 3 - last) % 4
  mates.all fun p => p.1.atBoundary && (match p.1.fired with | some c => s.cycle ≥ c + iiOf p.1.hdr | none => true)
    && (!i.atBoundary || !(s.wants x p.2 p.1 && place p.1.entry < place i.entry))

/-- Whether an instance has still to drain a link that a splice past its cut replaces (R127, R424). -/
def Group.drainsOld (x : Group) (j : Nat) : Bool :=
  match x.splice with
  | some p => p.phase == .switch && p.switch.any fun w => ((x.links[w.1]?).map fun l => l.dst == j && !l.toks.isEmpty).getD false
  | none => false

/-- Whether an instance may fire now, its tokens and slots aside. -/
def State.mayFire (s : State) (x : Group) (j : Nat) (i : Inst) : Bool :=
  s.live x && i.loaded && !i.dead && !i.gone && s.armed x i
    && (match i.fired with | some c => s.cycle ≥ c + iiOf i.hdr | none => true)
    && !(x.preempt.isSome && x.atBound j i && !x.drainsOld j) && !x.spliceHolds s.cycle j i && !x.swapHolds i && s.cellFree x j i

/-- Note a firing. -/
def State.fired (s : State) (r : CellRef) : State := s.modInst r fun i => { i with fired := some s.cycle }

/-! ### Taking tokens (R42, R44) -/

/-- The segment of input p that is paired with a segment; threads may differ (R284). `lead` is the input whose threads name the pairs. -/
def Inst.mateOf (i : Inst) (lead : Nat) (e : Nat × Nat) (p : Nat) : Nat × Nat :=
  (((i.mates.find? fun m => (lead, m.1) == e || m.2.contains e).map fun m => (lead, m.1) :: m.2).bind (List.find? fun q => q.1 == p)).getD (p, e.2)
/-- Note which segments a firing pairs, until they end: only where their threads differ. -/
def Inst.pairUp (i : Inst) (ts : List (Nat × Token)) : Inst :=
  match ts with
  | [] => i
  | t :: rest =>
    let th := t.2.tag.thread.toNat
    let ends := (t :: rest).any fun q => q.2.tag.eot
    let same := rest.all fun q => q.2.tag.thread == t.2.tag.thread
    { i with mates := if ends || same then del i.mates th else put i.mates th (rest.map fun q => (q.1, q.2.tag.thread.toNat)) }

/-- Whether a segment of a token's thread is open on an input. -/
def Inst.isOpen (i : Inst) (p : Nat) (t : Token) : Bool := i.opens.contains (p, t.tag.thread.toNat)

/-- Note the sequence after one taken in order (R49). -/
def Inst.taken (i : Inst) (p : Nat) (t : Token) : Inst :=
  let k := p * 2 ^ 20 + t.tag.thread.toNat
  if (t.tag.seq - (find i.nexts k).getD 0).msb then i else { i with nexts := put i.nexts k (t.tag.seq + 1) }

/-- Consume the head token of an input; segments open and close by their markers (R42, R44). -/
def State.take (s : State) (r : CellRef) (p : Nat) : State :=
  match s.inst? r with
  | none => s
  | some (x, i) =>
    let order := x.ordered r.inst p
    match x.inLink r.inst p, x.headAny s.cycle r.inst p with
    | some j, some t =>
      let s1 := (s.modGroup r.group fun x => { x with links := modAt x.links j fun l => l.popAt s.cycle ((l.pick s.cycle order).getD 0) }).modInst r
        fun i => if order.isSome then i.taken p t else i
      if t.tag.barrier || x.perToken i || i.role == .merge then s1
      else
        let key := (p, t.tag.thread.toNat)
        let opens := if t.tag.sot then i.opens.filter (· != key) ++ [key] else i.opens
        let opens := if t.tag.eot then opens.filter (· != key) else opens
        let s2 := s1.modInst r fun i => { i with opens := opens }
        if t.tag.eot && !t.tag.sot && !i.isOpen p t && x.counts44 i then s2.segErr r.group 1 else s2
    | _, _ => s

/-- The segments that close before an instance takes another token of its inputs, all paired with one: those that its split has told it to
close, or, once every input holds a token, those that a start-of-tile token meets open (R44). -/
def Group.closing (x : Group) (now j : Nat) (i : Inst) (ins : List Nat) : List (Nat × Nat) :=
  let all : List (Nat × Nat) := match i.ends.filter fun e => ins.contains e.1 && i.opens.contains e with
    | [] =>
      let heads : List (Nat × Token) := ins.filterMap fun p => (x.head now j p).map fun t => (p, t)
      if heads.length < ins.length then []
      else (heads.filter fun q => q.2.tag.sot && i.isOpen q.1 q.2).map fun q => (q.1, q.2.tag.thread.toNat)
    | told => told
  all.filter fun e => all.head?.map (fun a => i.mateOf 0 a e.1) == some e

/-- Inputs whose open segment is left over where those paired with it close (R285). -/
def Inst.leftOver (i : Inst) (cl : List (Nat × Nat)) (ins : List Nat) : List Nat :=
  match cl with
  | [] => []
  | e :: _ => ins.filter fun p => !(cl.map (·.1)).contains p && i.opens.contains (i.mateOf 0 e p)

/-- Close segments, as if the last token of each had carried end-of-tile, counting the errors (R44); the inputs of `rest` discard what is left
of theirs (R285). Kinds that count the tiles they emit count none here, nor does a cell that has still to write a token for the segments (`tile`). -/
def State.closeSegs (s : State) (r : CellRef) (cl : List (Nat × Nat)) (rest : List Nat := []) (tile : Bool := true) : State :=
  match s.inst? r with
  | none => s
  | some (x, i) =>
    let s1 := s.modInst r fun i => { i with
      opens := i.opens.filter fun e => !cl.contains e, ends := i.ends.filter fun e => !cl.contains e, skip := i.skip ++ rest
      mates := i.mates.filter fun m => !cl.any fun e => e == (0, m.1) || m.2.contains e }
    let s2 := if !tile || [kCNT, kAGN, kGAT].contains (kindOf i.hdr) then s1 else s1.finishTile r
    if x.counts44 i then s2.segErr r.group (cl.length + if rest.isEmpty then 0 else 1) else s2

/-- After a segment of an instance that emits nothing at its close has been closed early: the merges behind it end it too, at its last token where
that has still to leave the merge, else in their route queue (R44, R128). -/
def State.closeMerges (s : State) (r : CellRef) (th : Nat) : State :=
  match s.inst? r with
  | none => s
  | some (x, i) =>
    let endLast (l : List Token) : List Token :=
      match l.reverse.findIdx? fun t => t.tag.thread.toNat == th with
      | some k => modAt l (l.length - 1 - k) fun t => { t with tag := { t.tag with eot := true } }
      | none => l
    ((List.range 4).flatMap (x.outLinks r.inst)).foldl (fun s j =>
      match x.links[j]? with
      | none => s
      | some l =>
        match x.insts[l.dst]? with
        | none => s
        | some m =>
          if m.role != .merge then s
          else if l.toks.any fun t => t.tok.tag.thread.toNat == th then
            s.modGroup r.group fun x => { x with links := modAt x.links j fun l => { l with
              toks := (l.toks.zip (endLast (l.toks.map (·.tok)))).map fun p => { p.1 with tok := p.2 } } }
          else s.modRte { group := r.group, inst := l.dst } fun q =>
            if q.held.any fun p => p.1 == i.copy && p.2.tag.thread.toNat == th then
              { q with held := (q.held.filter fun p => p.1 != i.copy) ++ ((endLast ((q.held.filter fun p => p.1 == i.copy).map (·.2))).map fun t => (i.copy, t)) }
            else if q.route.head? == some i.copy then { q with route := q.route.drop 1 }
            else q) s

/-! ### Writing tokens (R36, R40, R271) -/

/-- Write a token to every link of a port. -/
def State.write (s : State) (r : CellRef) (p : Nat) (t : Token) (lat : Nat) : State :=
  s.modGroup r.group fun x => { x with links := (x.outLinks r.inst p).foldl (fun ls j => modAt ls j fun l => l.push t (s.cycle + lat)) x.links }

/-- The next sequence of a thread at a port of an instance, and the count advanced (R36, R271). -/
def Inst.nextSeq (i : Inst) (p : Nat) (th : BitVec 20) : BitVec 24 × Inst :=
  let k := p * 2 ^ 20 + th.toNat
  let n := findD i.seqs k 0
  (n, { i with seqs := put i.seqs k (n + 1) })

/-- A tag of an instance's own numbering. -/
def State.ownTag (s : State) (r : CellRef) (p : Nat) (th : BitVec 20) (t : Tag) : Tag × State :=
  match s.inst? r with
  | none => (t, s)
  | some (x, i) =>
    let (n, i1) := i.nextSeq p th
    ({ t with ctx := BitVec.ofNat 12 x.ctx, thread := th, seq := n }, s.modInst r fun _ => i1)

/-- A token of data bits and a tag. -/
def mkTok (d : Nat) (t : Tag) : Token := { data := BitVec.ofNat 2560 d, tag := t }

/-- Whether every port of an emission has room. -/
def Group.roomFor (x : Group) (now j : Nat) (e : Emit) : Bool := e.toks.all fun p => x.room now j p.1
def State.writeAll (s : State) (r : CellRef) (e : Emit) : State := e.toks.foldl (fun s p => s.write r p.1 p.2 e.lat) s

/-- Consume the inputs of a firing that has written its last token; an end-of-tile ends a tile of the section (R45, R271). -/
def State.consume (s : State) (r : CellRef) (ps : List Nat) : State :=
  let eot := ((s.inst? r).map fun p => ps.any fun q => ((p.1.head s.cycle r.inst q).map (·.tag.eot)).getD false).getD false
  let s1 := ps.foldl (fun s p => s.take r p) s
  if eot then s1.finishTile r else s1

/-- Write the next token that a firing still holds, one a cycle; after the last its inputs are consumed (R271). -/
def State.drain (s : State) (r : CellRef) (x : Group) (i : Inst) : State :=
  match i.outq with
  | [] => s
  | e :: rest =>
    if s.live x && i.outAt != some s.cycle && x.roomFor s.cycle r.inst e then
      let s1 := (s.writeAll r e).modInst r fun i => { i with outq := rest, outAt := some s.cycle }
      if rest.isEmpty then
        let s2 := (s1.modInst r fun i => { i with due := [], shut := false }).consume r i.due
        if i.shut then s2.finishTile r else s2
      else s1
    else s

/-- A firing that writes some tokens in turn and then consumes inputs: the first is written at once and needs room; what is left follows
one a cycle. The state change of the firing is `f`; with `tile` the tile of a segment closed early ends with the last token (R44, R45). -/
def State.fireWith (s : State) (r : CellRef) (x : Group) (es : List Emit) (ins : List Nat) (f : State → State) (tile : Bool := false) : State :=
  let ends (s : State) : State := if tile then (s.consume r ins).finishTile r else s.consume r ins
  match es with
  | [] => ends ((f s).fired r)
  | e :: rest =>
    if !x.roomFor s.cycle r.inst e then s
    else
      let s1 := ((f s).fired r).writeAll r e
      if rest.isEmpty then ends s1
      else s1.modInst r fun i => { i with outq := rest, outAt := some s.cycle, due := ins, shut := tile }

/-- A step of a cell of some kinds: write what a firing still holds, else fire where it may. -/
def cellStep (s : State) (r : CellRef) (is : BitVec 64 → Bool) (f : Group → Inst → State) : Out :=
  match s.inst? r with
  | none => .next s
  | some (x, i) =>
    if !is i.hdr then .next s
    else if !i.outq.isEmpty then .next (s.drain r x i)
    else if s.mayFire x r.inst i then .next (f x i)
    else .next s

/-- Whether a setting is of a kind. -/
def isKind (k : Nat) (h : BitVec 64) : Bool := kindOf h == k

/-! ### Packing results into tokens (R6, R271, R288) -/

/-- Output tokens of packed results: full ones, and, at the end of the segment, the rest padded with zero bits. The tokens carry first and
last where the results in them do. -/
def packToks (w : Nat) (closing : Bool) : Nat → Pack → List (Nat × Tag) → List (Nat × Tag) × Pack
  | 0, p, acc => (acc, p)
  | fuel + 1, p, acc =>
    let per := 1024 / w
    if p.pend.length ≥ per || (closing && !p.pend.isEmpty) then
      let now := p.pend.take per
      let rest := p.pend.drop per
      let t : Tag := { thread := p.thread, replayed := p.replayed, sot := !p.begun, eot := closing && rest.isEmpty,
                       first := now.any (·.first), last := now.any (·.last) }
      packToks w closing fuel { p with pend := rest, begun := true } (acc ++ [(packElems w (now.map (·.bits)), t)])
    else (acc, p)

/-- Number packed tokens in turn for one port (R271). -/
def State.numbered (s : State) (r : CellRef) (ports : List Nat) (lat : Nat) (ts : List (Nat × Tag)) : List Emit × State :=
  ts.foldl (fun (acc : List Emit × State) t =>
    let (toks, s1) := ports.foldl (fun (b : List (Nat × Token) × State) p =>
      let (tag, s2) := b.2.ownTag r p t.2.thread t.2
      (b.1 ++ [(p, mkTok t.1 tag)], s2)) ([], acc.2)
    (acc.1 ++ [{ toks := toks, lat := lat }], s1)) ([], s)

end Sys2Proof.Machine
end

