-- ==== Sys2Proof/Machine/CellsCompute.lean ====
section
/-! DEFINITION. Cells that compute: MAT, ACC, VEC, RED, FNC and CVT (R269 to R299). -/

namespace Sys2Proof.Machine

/-! ### MAT (R83, R272 to R274) -/

/-- Byte k of a token. -/
def tokByte (t k : Nat) : Nat := t / 2 ^ (8 * k) % 256

/-- The 256 values of a code token under its scale token; a bad geometry byte makes every one NaN (R74). -/
def q4Vals (codes scales : Nat) : List Val :=
  let l := if 1 ≤ tokByte scales 127 ∧ tokByte scales 127 ≤ 3 then blockLen (tokByte scales 127) else 0
  (List.range 256).map fun k => if l = 0 then .nan else codeValue (tokByte scales (k / l)) (elemAt codes 4 k)

/-- Element format of a MAT mode (R272). -/
def matFmt (mode : Nat) : Fmt := match mode with
  | 0 => .bf16 | 1 => .f16 | 2 => .e4m3 | 3 => .e5m2 | 4 => .s8 | _ => .q4

/-- The values of an activation or weight token in a MAT mode. -/
def matVals (mode codes scales : Nat) : List Val :=
  if mode = 5 then q4Vals codes scales
  else (elems codes (elemBits (matFmt mode)) (elemsPerToken (matFmt mode))).map (value (matFmt mode))

def isInfVal : Val → Bool
  | .inf _ => true
  | _ => false
def isZeroVal : Val → Bool
  | .num _ 0 _ => true
  | _ => false

/-- The exact terms of a sum as whole grains of 2^k, toward zero. -/
def truncSum (k : Int) (ps : List Val) : Int :=
  (ps.map fun p => match p with
    | .num n m e => sgn n (roundShift m (e - k) .rtz)
    | _ => 0).sum

/-- One column of a MAT (R83). -/
def matColumn (a w : List Val) : Nat :=
  let ps := List.zipWith vmul a w
  if ps.any isNan then canonNan .x80
  else if ps.contains (.inf false) && ps.contains (.inf true) then canonNan .x80
  else if ps.contains (.inf false) then withSign .x80 false (infMag .x80)
  else if ps.contains (.inf true) then withSign .x80 true (infMag .x80)
  else
    let es := ps.filterMap fun p => match p with
      | .num _ m e => if m = 0 then none else some (ilog2 m e)
      | _ => none
    match es with
    | [] => 0
    | e :: rest =>
      let k := rest.foldl max e - 66
      let t := truncSum k ps
      if t = 0 then 0 else roundTo (.num (decide (t < 0)) t.natAbs k) .x80 .rne false

/-- The 32 partial sums of an activation token against a plane; a plane never loaded holds +0 (R273, R274). -/
def matSums (mode : Nat) (plane : Plane) (codes scales : Nat) : List Nat :=
  let a := matVals mode codes scales
  (List.range 32).map fun j => matColumn a (match plane[j]? with
    | some (c, s) => matVals mode c.toNat s.toNat
    | none => a.map fun _ => Val.zero)

/-- A firing of a cell that writes one token a firing with the tag of i0 (R36): its inputs, and the data it makes of their tokens. -/
def State.fireOne (s : State) (r : CellRef) (x : Group) (i : Inst) (ins : List Nat) (lat : Nat) (f : List Token → Nat) : State :=
  let cl := x.closing s.cycle r.inst i ins
  if !cl.isEmpty then (s.closeSegs r cl).closeMerges r ((cl.map (·.2)).headD 0)
  else
    let toks := ins.filterMap fun p => x.head s.cycle r.inst p
    if toks.length < ins.length then s
    else s.fireWith r x [{ toks := [(0, mkTok (f toks) ((toks.map (·.tag)).headD {}))], lat := lat }] ins id

/-- MAT_FIRE (R274). -/
def execMatFire (r : CellRef) (s : State) : Out := cellStep s r (isKind kMAT) fun x i =>
  match i.st with
  | .mat m => s.fireOne r x i (if modeOf i.hdr = 5 then [0, 1] else [0]) 4 fun toks =>
      packElems 80 (matSums (modeOf i.hdr) m.active ((toks[0]?.map Token.nat).getD 0) ((toks[1]?.map Token.nat).getD 0))
  | _ => s

/-- Whether a MAT instance stands where its node's swap happens: with no open segment, and, where the node is cloned, with its splits between
segments and nothing of an earlier segment left on its own inputs (R129, R250). -/
def State.atSwap (s : State) (x : Group) (j : Nat) (i : Inst) : Bool :=
  i.outq.isEmpty && i.opens.isEmpty && s.live x && ((x.copies i.node).length ≤ 1
    || (x.insts.all (fun y => !(y.node == i.node && y.role == .split && !y.gone) || (y.opens.isEmpty && y.rte.route.isEmpty))
        && (x.ins j).all fun p => ((x.inLink j p).bind fun k => x.links[k]?).all fun l => l.toks.isEmpty))

/-- PLANE_SWAP (R250, R273). -/
def execPlaneSwap (r : CellRef) (s : State) : Out :=
  match s.inst? r with
  | none => .next s
  | some (x, i) =>
    match i.st with
    | .mat m =>
      .next (if m.swap && s.atSwap x r.inst i then s.setSt r (.mat { active := m.shadow, shadow := m.active, swap := false }) else s)
    | _ => .next s

/-! ### ACC (R84, R275 to R278) -/

def accRows (h : BitVec 64) : Nat := hf h 31 25 + 1
def accDepth (h : BitVec 64) : Nat := hf h 24 9 + 1
/-- The set that a token's key uses: its own, or a free one; none where every set serves another key (R276). -/
def accSetOf (h : BitVec 64) (sets : List AccSet) (th : BitVec 20) : Option Nat :=
  if classOf h ≠ 1 then some 0
  else match sets.findIdx? fun x => x.key == some th with
    | some k => some k
    | none => sets.findIdx? fun x => x.key.isNone
/-- The exact value of lane j of an input token (R277). -/
def accLane (h : BitVec 64) (t j : Nat) : Val :=
  match hf h 34 33 with
  | 0 => fpValue .x80 (elemAt t 80 j)
  | 1 => fpValue .f32 (elemAt t 32 j)
  | _ => value .s32 (elemAt t 32 j)
/-- Add a token into a row (R277). -/
def accAdd (h : BitVec 64) (x : AccSet) (t : Nat) : AccSet :=
  let row := x.n % accRows h
  { x with
    n := x.n + 1
    acc := (List.range 32).foldl (fun a j =>
      let k := row * 32 + j
      let v := xadd (findD a k 0).toNat (accLane h t j)
      if v = 0 then del a k else put a k (BitVec.ofNat 80 v)) x.acc }
/-- The released results of a set, in row order (R278). -/
def accResults (h : BitVec 64) (x : AccSet) : List Nat :=
  match fmtOf (hf h 39 36) with
  | none => []
  | some f => (List.range (accRows h * 32)).map fun k => convert (fpValue .x80 (findD x.acc k 0).toNat) f .rne (h.getLsbD 35)
/-- The tokens of a release (R278). -/
def accTokens (h : BitVec 64) (x : AccSet) : List Nat :=
  match fmtOf (hf h 39 36) with
  | none => []
  | some f =>
    let n := ceilDiv (accRows h * 32 * elemBits f) 1024
    (List.range n).map fun k => packElems (elemBits f) (((accResults h x).drop (k * elemsPerToken f)).take (elemsPerToken f))

/-- ACC_FIRE (R277): add a token; the token that fills the set, or ends the segment, starts a release and is consumed with its last output. -/
def execAccFire (r : CellRef) (s : State) : Out := cellStep s r (isKind kACC) fun x i =>
  match i.st, x.closing s.cycle r.inst i [0], x.head s.cycle r.inst 0 with
  | .acc sets, e :: cl, _ =>
    if sets.any fun e => e.rel.isSome then s
    else
      let k := (if classOf i.hdr = 1 then sets.findIdx? fun y => y.key == some (BitVec.ofNat 20 e.2) else some 0).getD sets.length
      if modeOf i.hdr = 1 then (s.setSt r (.acc (modAt sets k fun e => { e with rel := some (0, false) }))).closeSegs r (e :: cl) [] false
      else s.closeSegs r (e :: cl)
  | .acc sets, [], some t =>
    if sets.any fun e => e.rel.isSome then s
    else
      match accSetOf i.hdr sets t.tag.thread with
      | none => s
      | some k =>
        let e := accAdd i.hdr (sets.getD k {}) t.nat
        let e1 := { e with
          key := if classOf i.hdr = 1 then some t.tag.thread else none, thread := t.tag.thread,
          carry := { first := e.carry.first || t.tag.first, last := e.carry.last || t.tag.last, replayed := e.carry.replayed || t.tag.replayed } }
        let full := if modeOf i.hdr = 0 then e1.n == accRows i.hdr * accDepth i.hdr else t.tag.eot
        let s1 := (s.setSt r (.acc (setAt sets k (if full then { e1 with rel := some (0, true) } else e1)))).fired r
        if full then s1 else s1.consume r [0]
  | _, _, _ => s

/-- ACC_RELEASE (R278): write the next token of a release; the last one empties the set and ends the tile (R45). -/
def execAccRelease (r : CellRef) (s : State) : Out :=
  match s.inst? r with
  | none => .next s
  | some (x, i) =>
    match i.st with
    | .acc sets =>
      match sets.findIdx? fun e => e.rel.isSome with
      | none => .next s
      | some k =>
        let e := sets.getD k {}
        let (n, eats) := e.rel.getD (0, false)
        let toks := accTokens i.hdr e
        if !s.live x || i.outAt == some s.cycle || !x.room s.cycle r.inst 0 then .next s
        else
          let lastTok := n + 1 ≥ toks.length
          let (tag, s1) := s.ownTag r 0 e.thread {
            sot := n == 0, eot := lastTok, first := n == 0 && e.carry.first, last := lastTok && e.carry.last, replayed := e.carry.replayed }
          let s2 := s1.write r 0 (mkTok (toks.getD n 0) tag) 2
          let s3 := (s2.setSt r (.acc (setAt sets k (if lastTok then {} else { e with rel := some (n + 1, eats) })))).modInst r
            fun i => { i with outAt := some s.cycle }
          .next (if !lastTok then s3 else if eats then s3.consume r [0] else s3.finishTile r)
    | _ => .next s

/-! ### VEC (R279 to R285) -/

/-- A condition on two float values, −0 below +0 and NaN unequal to everything (R66, R281). -/
def fcond (c : Nat) (a b : Val) : Bool :=
  match c with
  | 0 => veq a b
  | 1 => !veq a b
  | 2 => vlt a b
  | 3 => vlt a b || veq a b
  | 4 => vlt b a
  | _ => vlt b a || veq a b
/-- A condition on two integers of width w (R282). -/
def icond (c w a b : Nat) : Bool :=
  let x := toSigned w a
  let y := toSigned w b
  match c with
  | 0 => a == b | 1 => a != b | 2 => x < y | 3 => x ≤ y | 4 => y < x | 5 => y ≤ x
  | 6 => a < b | 7 => a ≤ b | 8 => b < a | _ => b ≤ a

/-- An exact integer result, wrapped or clamped (R282). -/
def intRes (w : Nat) (sat : Bool) (v : Int) : Nat := ofSigned w (if sat then clampInt w v else v)

/-- The element result of a VEC function (R280 to R283). -/
def vecElem (fn : Nat) (f : Fmt) (rm : RMode) (sat : Bool) (cond a b c : Nat) : Nat :=
  let w := elemBits f
  let va := value f a
  let vb := value f b
  let int := isInt f
  match fn with
  | 0x0 => if int then intRes w sat (toSigned w a + toSigned w b) else roundTo (vadd va vb) f rm sat
  | 0x1 => if int then intRes w sat (toSigned w a - toSigned w b) else roundTo (vadd va (vneg vb)) f rm sat
  | 0x2 => roundTo (vmul va vb) f rm sat
  | 0x3 => roundTo (vadd (vmul va vb) (value f c)) f rm sat
  | 0x4 => if !int && (isNan va || isNan vb) then canonNan f else if vlt vb va then b else a
  | 0x5 => if !int && (isNan va || isNan vb) then canonNan f else if vlt va vb then b else a
  | 0x6 => if (if int then icond cond w a b else fcond cond va vb) then 2 ^ w - 1 else 0
  | 0x7 => if c ≠ 0 then a else b
  | 0x8 => a * 2 ^ (b % w) % 2 ^ w
  | 0x9 => a / 2 ^ (b % w)
  | 0xA => ofSigned w (toSigned w a / ((2 ^ (b % w) : Nat) : Int))
  | 0xB => a &&& b
  | 0xC => a ||| b
  | 0xD => a ^^^ b
  | _ => intRes w sat (toSigned w a * toSigned w b)

/-- The token that a VEC makes of its operands. -/
def vecTok (h : BitVec 64) (ws : List Word) (a b c : Nat) : Nat :=
  let fn := modeOf h % 64
  let f := (fmtOf (hf h 39 36)).getD .f32
  let rm := (rmodeOf (hf h 35 34)).getD .rne
  let w := elemBits f
  packElems w ((List.range (elemsPerToken f)).map fun j =>
    let x := elemAt a w j
    let y := match modeOf h / 64 with
      | 0 => elemAt b w j
      | 1 => pw ws 0 % 2 ^ w
      | _ => x
    vecElem fn f rm (h.getLsbD 33) (hf h 31 28) x y (elemAt c w j))

/-- Inputs of a VEC mode (R269). -/
def vecIns (h : BitVec 64) : List Nat :=
  0 :: ((if modeOf h / 64 = 0 then [1] else []) ++ (if modeOf h % 64 = 3 ∨ modeOf h % 64 = 7 then [2] else []))

/-- Discard one token of each input whose segment is longer than the others', up to its end-of-tile (R285). -/
def State.discard (s : State) (r : CellRef) (x : Group) (i : Inst) : State :=
  i.skip.foldl (fun s p =>
    match x.head s.cycle r.inst p with
    | none => s
    | some t =>
      let stop (s : State) : State := s.modInst r fun i => { i with skip := i.skip.filter (· != p) }
      if t.tag.sot && i.isOpen p t then
        stop ((s.modInst r fun i => { i with opens := i.opens.filter (· != (p, t.tag.thread.toNat)) }).segErr r.group 1)
      else if t.tag.eot then stop (s.take r p) else s.take r p) s

/-- A firing that pairs tokens of several inputs: where one ends its segment and another does not, the output ends, carries late and
counts an error, and the rest of the other is discarded (R284, R285, R289). -/
def pairEnds (toks : List (Nat × Token)) : Bool × List Nat :=
  let eot := toks.any fun p => p.2.tag.eot
  (eot, if eot then (toks.filter fun p => !p.2.tag.eot).map (·.1) else [])

/-- The record of a VEC's length mismatch with STRICT = 1: the context, the node and the sequence of the emitted token (R285). -/
def State.mismatch (s : State) (x : Group) (i : Inst) (n : BitVec 24) : State :=
  if i.hdr.getLsbD 32 then s.cellRec x i 0x43 (zext n) 0 else s

/-- VEC_FIRE (R284, R285); the splits of a cloned node discard what is left over. -/
def execVecFire (r : CellRef) (s : State) : Out := cellStep s r (isKind kVEC) fun x i =>
  if !i.skip.isEmpty then s.discard r x i
  else
    let ins := vecIns i.hdr
    let cl := x.closing s.cycle r.inst i ins
    if !cl.isEmpty then
      let rest := i.leftOver cl ins
      let s1 := s.closeSegs r cl rest
      if rest.isEmpty then s1 else s1.mismatch x i i.emitted
    else
      let toks := ins.filterMap fun p => (x.head s.cycle r.inst p).map fun t => (p, t)
      if toks.length < ins.length then s
      else
        let d (p : Nat) : Nat := ((toks.find? fun q => q.1 == p).map fun q => q.2.nat).getD 0
        let t0 : Tag := ((toks.map fun q => q.2.tag).head?).getD {}
        let (eot, late) := pairEnds toks
        let tag : Tag := { t0 with eot := eot, late := !late.isEmpty }
        let e : Emit := { toks := [(0, mkTok (vecTok i.hdr i.words (d 0) (d 1) (d 2)) tag)], lat := 1 }
        s.fireWith r x [e] ins fun s =>
          let s1 := s.modInst r fun i => { (i.pairUp toks) with emitted := t0.seq, skip := if x.perToken i then [] else late }
          if late.isEmpty then s1 else (s1.segErr r.group 1).mismatch x i t0.seq

/-! ### RED (R86, R286 to R290) -/

/-- Whether a RED mode takes sums, and whether it keeps indices. -/
def redSums (m : Nat) : Bool := m == 0 || m == 8 || m == 0x10 || m == 0x18
def redArgs (m : Nat) : Bool := m == 0xA || m == 0x12
/-- Whether a RED mode keeps positions apart, and whether it gives results for each token. -/
def redByPos (m : Nat) : Bool := m == 0x10 || m == 0x11 || m == 0x12 || m == 0x18
def redPerTok (m : Nat) : Bool := m == 0 || m == 1 || m == 0x18
/-- Bits of a result (R287). -/
def redBits (m : Nat) (f : Fmt) : Nat := if m == 1 || m == 9 || m == 0x11 then elemBits f else 32

/-- A sum of 64-bit integers; one whose exact value is past 64 bits is a free value (R86). -/
def sum64 (v : Int) : Int := if -(2 : Int) ^ 63 ≤ v ∧ v < (2 : Int) ^ 63 then v else (Config.sumPast v).toInt

/-- Take one element into a running value (R86, R287). -/
def redTake (m : Nat) (f : Fmt) (v : Tbl Int × Tbl Nat) (p x ix : Nat) : Tbl Int × Tbl Nat :=
  let w := elemBits f
  if redSums m then
    if isInt f then (put v.1 p (sum64 (findD v.1 p 0 + toSigned w x)), v.2)
    else (put v.1 p (rnd (vadd (fpValue .f32 (findD v.1 p 0).toNat) (value f x)) : Nat), v.2)
  else
    let x1 := if isNan (value f x) then canonNan f else x
    match find v.1 p with
    | none => (put v.1 p (x1 : Nat), put v.2 p ix)
    | some o =>
      let a := value f o.toNat
      let b := value f x1
      if !isNan a && (isNan b || vlt a b) then (put v.1 p (x1 : Nat), put v.2 p ix) else v

/-- The result of a position (R287). -/
def redResult (m : Nat) (f : Fmt) (v : Tbl Int × Tbl Nat) (p : Nat) : Nat :=
  if redArgs m then findD v.2 p 0 % 2 ^ 32
  else if redSums m && isInt f then ofSigned 32 (clampInt 32 (findD v.1 p 0))
  else (findD v.1 p 0).toNat

/-- Mark results with what an input token, or a whole segment, carries (R271). -/
def markElems (c : Carry) (l : List Nat) : List Elem :=
  l.zipIdx.map fun p => { bits := p.1, first := c.first && p.2 == 0, last := c.last && p.2 + 1 == l.length }

/-- Take the elements of a token into the running values. -/
def redToken (m : Nat) (f : Fmt) (q : RedSt) (t : Nat) : Tbl Int × Tbl Nat :=
  let n := elemsPerToken f
  let start := if redPerTok m && m != 0x18 then ([], []) else (q.vals, q.idxs)
  (elems t (elemBits f) n).zipIdx.foldl (fun v e =>
    if redByPos m then redTake m f v e.2 e.1 q.taken else redTake m f v 0 e.1 (q.taken * n + e.2)) start

/-- The results at the end of a segment for the modes that reduce across tokens. -/
def redEnd (m : Nat) (f : Fmt) (q : RedSt) : List Elem :=
  if redPerTok m then []
  else markElems q.carry ((if redByPos m then List.range (elemsPerToken f) else [0]).map (redResult m f (q.vals, q.idxs)))

/-- A RED's state at the start of its next segment (R290). -/
def redReset (h : BitVec 64) (q : RedSt) : RedSt := if classOf h = 2 then {} else { q with carry := {}, pack := {} }

/-- RED_FIRE (R287 to R290): one segment at a time; other threads' tokens wait. A prefix of `sscan` includes the element of the present token (DESIGN
CHOICE, log 100). -/
def execRedFire (r : CellRef) (s : State) : Out := cellStep s r (fun h => isKind kRED h && modeOf h != 0x20) fun x i =>
  let m := modeOf i.hdr
  let f := (fmtOf (hf i.hdr 39 36)).getD .f32
  let w := redBits m f
  match i.st, x.closing s.cycle r.inst i [0], x.head s.cycle r.inst 0 with
  | .red q, e :: cl, _ =>
    let (ts, _) := packToks w true 200 { q.pack with pend := q.pack.pend ++ redEnd m f q } []
    let (es, s1) := s.numbered r [0] 2 ts
    s.fireWith r x es [] (fun _ => (s1.setSt r (.red (redReset i.hdr q))).closeSegs r (e :: cl) [] false) true
  | .red q, [], some t =>
    if i.opens.any fun k => k.2 != t.tag.thread.toNat then s
    else
      let v := redToken m f q t.nat
      let mine : Carry := { first := t.tag.first, last := t.tag.last }
      let q1 : RedSt := { q with
        vals := if redPerTok m && m != 0x18 then [] else v.1
        idxs := if redPerTok m then [] else v.2
        taken := q.taken + 1
        carry := { first := q.carry.first || t.tag.first, last := q.carry.last || t.tag.last, replayed := q.carry.replayed || t.tag.replayed } }
      let res := if redPerTok m then markElems mine ((if m == 0x18 then List.range (elemsPerToken f) else [0]).map (redResult m f v))
        else if t.tag.eot then redEnd m f q1 else []
      let (ts, p1) := packToks w t.tag.eot 200 { q.pack with
        pend := q.pack.pend ++ res, thread := t.tag.thread, replayed := q1.carry.replayed } []
      let (es, s1) := s.numbered r [0] 2 ts
      s.fireWith r x es [0] fun _ => s1.setSt r (.red (if t.tag.eot then redReset i.hdr q1 else { q1 with pack := p1 }))
  | _, _, _ => s

/-- The result of an `rsum` segment (R289). -/
def rsumOut (q : RedSt) (late : Bool) : Nat × Tag :=
  (packElems 32 ((List.range 32).map fun j => (findD q.vals j 0).toNat),
    { thread := q.pack.thread, sot := true, eot := true, first := q.carry.first, last := q.carry.last, replayed := q.carry.replayed, late := late })

/-- RSUM_FIRE (R289). -/
def execRsumFire (r : CellRef) (s : State) : Out := cellStep s r (fun h => isKind kRED h && modeOf h == 0x20) fun x i =>
  let cl := x.closing s.cycle r.inst i [0, 1]
  match i.st, x.head s.cycle r.inst 0, x.head s.cycle r.inst 1 with
  | .red q, e?, g? =>
    if !i.skip.isEmpty then s.discard r x i
    else if !cl.isEmpty then
      let rest := i.leftOver cl [0, 1]
      let (es, s1) := s.numbered r [0] 2 [rsumOut q !rest.isEmpty]
      s.fireWith r x es [] (fun _ => (s1.setSt r (.red (redReset i.hdr q))).closeSegs r cl rest false) true
    else
      match e?, g? with
      | some e, some g =>
        if i.opens.any fun k => (k.1 == 0 && k.2 != e.tag.thread.toNat) || (k.1 == 1 && k.2 != g.tag.thread.toNat) then s
        else
          let q1 : RedSt := { q with
            vals := (List.range 32).foldl (fun v j =>
              put v j (fadd (fmul (findD v j 0).toNat (elemAt g.nat 32 j)) (elemAt e.nat 32 j) : Nat)) q.vals
            taken := q.taken + 1
            pack := { q.pack with thread := e.tag.thread }
            carry := { first := q.carry.first || e.tag.first, last := q.carry.last || e.tag.last, replayed := q.carry.replayed || e.tag.replayed } }
          let (eot, late) := pairEnds [(0, e), (1, g)]
          if !eot then s.fireWith r x [] [0, 1] fun s => (s.setSt r (.red q1)).modInst r fun i => i.pairUp [(0, e), (1, g)]
          else
            let (es, s1) := s.numbered r [0] 2 [rsumOut q1 !late.isEmpty]
            s.fireWith r x es [0, 1] fun _ =>
              let s2 := (s1.setSt r (.red (redReset i.hdr q1))).modInst r fun i => i.pairUp [(0, e), (1, g)]
              if late.isEmpty then s2 else (s2.modInst r fun i => { i with skip := if x.perToken i then [] else late }).segErr r.group 1
      | _, _ => s
  | _, _, _ => s

/-! ### FNC (R291 to R294) -/

/-- Floor of a finite value. -/
def vfloor (v : Val) : Int := match v with
  | .num n m e => if 0 ≤ e then sgn n (m * 2 ^ e.toNat) else (sgn n m) / ((2 ^ (-e).toNat : Nat) : Int)
  | _ => 0
/-- floor(log2 v) of a positive value. -/
def vexp (v : Val) : Int := match v with
  | .num _ m e => ilog2 m e
  | _ => 0
/-- The rounded value of an exact value. -/
def frnd (v : Val) : Val := fpValue .f32 (rnd v)

/-- interp of R293 over a table. -/
def interp (t : List (BitVec 32)) (i : Nat) (f : Val) : Val :=
  let e (k : Nat) : Val := fpValue .f32 (t.getD k 0).toNat
  let d := frnd (vsub (e (i + 1)) (e i))
  let p := frnd (vmul f d)
  frnd (vadd (e i) p)

/-- split of R293. -/
def split (u : Val) : Nat × Val := ((vfloor u).toNat, vsub u (.ofInt (vfloor u)))

/-- The function of an FNC mode (R294). -/
def fncVal (mode : Nat) (t : List (BitVec 32)) (z : Val) : Val :=
  let lt (a b : Val) : Bool := vlt a b && !(isZeroVal a && isZeroVal b)
  match mode, z with
  | _, .nan => .nan
  | 0, z =>
    if realLe (.ofInt 128) z then .inf false
    else if lt z (.ofInt (-150)) then .zero
    else
      let n := vfloor z
      let (i, f) := split ((vsub z (.ofInt n)).scale 8)
      frnd ((interp t i f).scale n)
  | 1, .inf n => if n then .nan else .inf false
  | 1, .num n m e =>
    if m = 0 then .inf true
    else if n then .nan
    else
      let (i, f) := split ((vsub ((Val.num n m e).scale (-ilog2 m e)) (.ofInt 1)).scale 8)
      frnd (vadd (.ofInt (ilog2 m e)) (interp t i f))
  | 2, .inf n => .num n 0 0
  | 2, .num n m e =>
    if m = 0 then .inf n
    else
      let (i, f) := split ((vsub ((Val.num false m e).scale (-ilog2 m e)) (.ofInt 1)).scale 8)
      let y := frnd ((interp t i f).scale (-ilog2 m e))
      if n then vneg y else y
  | 3, .inf n => if n then .nan else .zero
  | 3, .num n m e =>
    if m = 0 then .inf n
    else if n then .nan
    else
      let k := ilog2 m e - ilog2 m e % 2
      let (i, f) := split ((vsub ((Val.num n m e).scale (-k)) (.ofInt 1)).scale 7)
      frnd ((interp t i f).scale (-(k / 2)))
  | _, z =>
    if realLe (.ofInt 16) z then z
    else if lt z (.ofInt (-16)) then .zero
    else
      let (i, f) := split ((frnd (vadd z (.ofInt 16))).scale 3)
      if i = 256 then interp t 255 (.ofInt 1) else interp t i f

/-- The token that an FNC makes of its arguments (R293, R294). -/
def fncTok (h : BitVec 64) (ws : List Word) (t : List (BitVec 32)) (a : Nat) : Nat :=
  let fi := (fmtOf (hf h 39 36)).getD .f32
  let fo := (fmtOf (hf h 35 32)).getD .f32
  let rm := (rmodeOf (hf h 31 30)).getD .rne
  let k := if pw ws 1 % 2 ^ 32 = 0 then Val.ofInt 1 else fpValue .f32 (pw ws 1 % 2 ^ 32)
  packElems (elemBits fo) ((elems a (elemBits fi) (elemsPerToken fi)).map fun e =>
    roundTo (fncVal (modeOf h) t (frnd (vmul (value fi e) k))) fo rm (h.getLsbD 29))

/-- FNC_FIRE (R293). -/
def execFncFire (r : CellRef) (s : State) : Out := cellStep s r (isKind kFNC) fun x i =>
  match i.st with
  | .fnc t => s.fireOne r x i [0] 4 fun toks => fncTok i.hdr i.words t ((toks[0]?.map Token.nat).getD 0)
  | _ => s

/-! ### CVT (R85, R295 to R299) -/

/-- The post-multiplier m (R295). -/
def cvtM (ws : List Word) : Val := if pw ws 0 % 2 ^ 32 = 0 then Val.ofInt 1 else fpValue .f32 (pw ws 0 % 2 ^ 32)

/-- Magnitudes of the codes of a block type, doubled, for a sign (R72). -/
def mags (ty : Nat) (neg : Bool) : List Nat :=
  match ty with
  | 0 => if neg then [0, 2, 4, 6, 8, 10, 12, 14, 16] else [0, 2, 4, 6, 8, 10, 12, 14]
  | 1 => [0, 1, 2, 3, 4, 6, 8, 12]
  | 2 => [0, 2, 4, 8, 16, 32, 64, 128]
  | _ => [0, 2, 4, 6, 8, 16, 32, 64]

/-- The code of a type nearest to q (R298). -/
def nearestCode (q : Val) (ty : Nat) (rm : RMode) : Nat :=
  match q with
  | .num n m e =>
    let neg := n && m != 0
    let ms := mags ty neg
    let twice : Val := .num false m (e + 1)
    let lo := ((List.range ms.length).filter fun c => realLe (.ofInt (ms.getD c 0 : Nat)) twice).length - 1
    let hi := min (lo + 1) (ms.length - 1)
    let mid : Val := .ofInt ((ms.getD lo 0 + ms.getD hi 0 : Nat) : Int)
    let four : Val := .num false m (e + 2)
    let up := hi != lo && rm == .rne && (vlt mid four || (realLe mid four && realLe four mid && lo % 2 == 1))
    let k := if up then hi else lo
    if ty = 0 then (if neg then (16 - k) % 16 else k) else (if neg then k + 8 else k)
  | _ => 0

/-- Largest code magnitude of a type (R297). -/
def maxMag (ty : Nat) : Nat := match ty with
  | 0 => 7 | 1 => 6 | 2 => 64 | _ => 32

/-- The scale byte and codes of a block (R297). -/
def quantBlock (ty : Nat) (rm : RMode) (vs : List Val) : Nat × List Nat :=
  if vs.any fun v => isNan v || isInfVal v then (ty * 64 + 63, vs.map fun _ => 0)
  else
    let amax := vs.foldl (fun a v => if vlt a (vabs v) then vabs v else a) Val.zero
    let e : Int :=
      if isZeroVal amax then 0
      else
        let k := vexp amax - (Nat.log2 (maxMag ty) : Int)
        let c := if realLe amax ((Val.ofInt (maxMag ty : Nat)).scale k) then k else k + 1
        max 0 (min 62 (c + 31))
    (ty * 64 + e.toNat, vs.map fun v => nearestCode (v.scale (-(e - 31))) ty rm)

/-- Code token and scale token of up to 256 elements (R297, R299). -/
def quantTok (h : BitVec 64) (vs : List Val) : Nat × Nat :=
  let ty := hf h 28 27
  let geom := hf h 26 25
  let l := max (blockLen geom) 1
  let rm := (rmodeOf (hf h 31 30)).getD .rne
  let nb := ceilDiv vs.length l
  let blocks := (List.range nb).map fun b =>
    let v := (vs.drop (b * l)).take l
    quantBlock ty rm (v ++ List.replicate (l - v.length) Val.zero)
  (packElems 4 (blocks.flatMap (·.2)), packElems 8 (blocks.map (·.1)) + geom * 2 ^ (8 * 127))

/-- Pairs of code and scale tokens of a quantisation, full ones and, at the end, the rest, with their tags. -/
def quantToks (h : BitVec 64) (ws : List Word) (closing : Bool) : Nat → List Elem → Pack → List (Nat × Nat × Tag) → List (Nat × Nat × Tag) × List Elem × Pack
  | 0, ins, p, acc => (acc, ins, p)
  | fuel + 1, ins, p, acc =>
    if ins.length ≥ 256 || (closing && !ins.isEmpty) then
      let now := ins.take 256
      let rest := ins.drop 256
      let f := (fmtOf (hf h 39 36)).getD .f32
      let (c, k) := quantTok h (now.map fun e => vmul (value f e.bits) (cvtM ws))
      let t : Tag := { thread := p.thread, replayed := p.replayed, sot := !p.begun, eot := closing && rest.isEmpty,
                       first := now.any (·.first), last := now.any (·.last) }
      quantToks h ws closing fuel rest { p with begun := true } (acc ++ [(c, k, t)])
    else (acc, ins, p)

/-- The elements of an input token with what it carries. -/
def carried (t : Token) (l : List Nat) : List Elem := markElems { first := t.tag.first, last := t.tag.last } l

/-- The results of a CVT's input token in `conv` and `dequant` (R296). -/
def cvtVals (h : BitVec 64) (ws : List Word) (t : Nat) (scale : Nat) : List Nat :=
  let fo := (fmtOf (hf h 35 32)).getD .f32
  let rm := (rmodeOf (hf h 31 30)).getD .rne
  let vs := if modeOf h = 2 then q4Vals t scale
    else let f := (fmtOf (hf h 39 36)).getD .f32; (elems t (elemBits f) (elemsPerToken f)).map (value f)
  vs.map fun v => convert (vmul v (cvtM ws)) fo rm (h.getLsbD 29)

/-- Emissions of a quantisation: a code token and its scale token in one cycle, numbered alike (R299). -/
def State.numberPairs (s : State) (r : CellRef) (ts : List (Nat × Nat × Tag)) : List Emit × State :=
  ts.foldl (fun (acc : List Emit × State) t =>
    let (g0, s1) := acc.2.ownTag r 0 t.2.2.thread t.2.2
    let (g1, s2) := s1.ownTag r 1 t.2.2.thread t.2.2
    (acc.1 ++ [{ toks := [(0, mkTok t.1 g0), (1, mkTok t.2.1 g1)], lat := 2 }], s2)) ([], s)

/-- The open segments of a CVT or BFY after one of a thread has gone on or ended (R42). -/
def Tbl.seg (l : Tbl RepackSt) (th : BitVec 20) (closing : Bool) (q : RepackSt) : Tbl RepackSt :=
  if closing then del l th.toNat else put l th.toNat q

/-- Emissions of a CVT after taking elements of a thread's segment, or at its end, and the open segments then. -/
def State.cvtOut (s : State) (r : CellRef) (h : BitVec 64) (ws : List Word) (l : Tbl RepackSt) (q : RepackSt) (closing : Bool) : List Emit × State :=
  if modeOf h = 1 then
    let (ts, ins, p) := quantToks h ws closing 8 q.ins q.pack []
    let (es, s1) := s.numberPairs r ts
    (es, s1.setSt r (.cvt (l.seg q.pack.thread closing { ins := ins, pack := p })))
  else
    let fo := (fmtOf (hf h 35 32)).getD .f32
    let (ts, p) := packToks (elemBits fo) closing 64 q.pack []
    let (es, s1) := s.numbered r [0] 2 ts
    (es, s1.setSt r (.cvt (l.seg q.pack.thread closing { ins := [], pack := p })))

/-- CVT_FIRE (R296 to R299). -/
def execCvtFire (r : CellRef) (s : State) : Out := cellStep s r (isKind kCVT) fun x i =>
  let ins := if modeOf i.hdr = 2 then [0, 1] else [0]
  match i.st, x.closing s.cycle r.inst i ins, x.head s.cycle r.inst 0 with
  | .cvt l, e :: cl, _ =>
    let (es, s1) := s.cvtOut r i.hdr i.words l (findD l e.2 {}) true
    s.fireWith r x es [] (fun _ => s1.closeSegs r (e :: cl) [] false) true
  | .cvt l, [], some t =>
    let sc := x.head s.cycle r.inst 1
    if modeOf i.hdr = 2 && sc.isNone then s
    else
      let q := findD l t.tag.thread.toNat {}
      let p := { q.pack with thread := t.tag.thread, replayed := q.pack.replayed || t.tag.replayed }
      let f := (fmtOf (hf i.hdr 39 36)).getD .f32
      let q1 : RepackSt :=
        if modeOf i.hdr = 1 then { ins := q.ins ++ carried t (elems t.nat (elemBits f) (elemsPerToken f)), pack := p }
        else { ins := [], pack := { p with pend := p.pend ++ carried t (cvtVals i.hdr i.words t.nat ((sc.map Token.nat).getD 0)) } }
      let (es, s1) := s.cvtOut r i.hdr i.words l q1 t.tag.eot
      s.fireWith r x es ins fun _ => s1
  | _, _, _ => s

end Sys2Proof.Machine
end

