-- ==== Sys2Proof/Machine/Fabric.lean ====
section
/-! DEFINITION. Issue of stream commands and the reads of layout and rates (R228 to R232). -/

namespace Sys2Proof.Machine

/-- SPD of a context as a displacement of addresses (R78). -/
def State.spdOf (s : State) (ctx : Nat) : Word := ((s.context? ctx).map fun c => (zext c.spd) <<< 16).getD 0

/-- Commands of a core's graph object. -/
def State.cmdsOf (s : State) (n : Nat) : List CmdWord := ((s.groupOf n).map fun x => (s.objOf x).cmds).getD []

/-- The command-store entry of an index as it is queued, and its port: an empty entry goes to port 0 (R150, R228). -/
def State.entryAt (s : State) (n idx : Nat) (ao co : Word) : QCmd × BitVec 4 :=
  match (s.cmdsOf n)[idx]? with
  | some w => ({ word := w, index := idx, addrOv := ao, cntOv := co, spd := s.spdOf (s.ctxOf n), id := (s.coreAt n).issued, num := s.nextId }, cmdPort w)
  | none => ({ word := 0, index := idx, empty := true, id := (s.coreAt n).issued, num := s.nextId }, 0)

/-- Codes of the load commands that a SEGMARK acts on (R257). -/
def markable (w : CmdWord) : Bool := [0x01#8, 0x03#8, 0x05#8, 0x08#8].contains (w.extractLsb' 120 8)

/-- A load command queued while a SEGMARK waits takes its marks (R257). -/
def Port.marked (x : Port) (q : QCmd) : Port × QCmd :=
  if !q.empty && markable q.word then ({ x with mark := 0 }, { q with prog := { q.prog with mark := x.mark } }) else (x, q)

/-- Queue a command-store entry at its port, unless the port's queue of 8 is full (R229). -/
def State.queueCmd (s : State) (n idx : Nat) (ao co : Word) : Option State :=
  let (q, p) := s.entryAt n idx ao co
  let c := s.coreAt n
  if (c.port p).queue.length ≥ Config.portQueue then none
  else
    let (x, q1) := (c.port p).marked q
    some { s.setCoreAt n { c.setPort p { x with queue := x.queue ++ [q1] } with issued := c.issued + 1 } with nextId := s.nextId + 1 }

/-- Issue an entry: wait while the port is full; with `.wt`, wait for the command's completion (R229). -/
def State.issue (s : State) (idx : Nat) (ao co : Word) (wt : Bool) : State :=
  let (q, p) := s.entryAt s.cur idx ao co
  match s.queueCmd s.cur idx ao co with
  | none => s
  | some s1 => s1.setCore { s1.core.adv with wait := if wt then .access (.command p.toNat q.id) false 0 else .none }

/-- ISSUE (R228). -/
def execIssue (g : Guard) (cmd : BitVec 8) (a b : Reg) (wt : Bool) (s : State) : Out := guarded g s fun c =>
  s.issue cmd.toNat (c.rd a) (c.rd b) wt

/-- ISSUEX (R228). -/
def execIssuex (g : Guard) (cmd : BitVec 8) (a b : Reg) (wt : Bool) (s : State) : Out := guarded g s fun c =>
  s.issue ((cmd.toNat + (c.rd a).toNat) % 256) (c.rd b) 0 wt

/-- CDRAIN (R230). -/
def execCdrain (g : Guard) (a : Reg) (s : State) : Out := guarded g s fun c =>
  s.block (wordOf (.cdrain g a)) (.cdrain ((c.rd a).setWidth 16) c.issued)

/-- Layout region and area of a core's graph object (R132). -/
def State.regionOf (s : State) (n : Nat) : Word := ((s.context? (s.ctxOf n)).map (·.cfg.region)).getD 0
def State.graphOf (s : State) (n : Nat) : Option GraphSt := (s.groupOf n).bind fun x => s.graphSt x.ctx x.key
def State.areaOf (s : State) (n : Nat) : Word :=
  s.regionOf n + BitVec.ofNat 64 ((((s.graphOf n).bind (·.area)).getD 0) * 2 ^ 21)

/-- GLV (R231). -/
def execGlv (g : Guard) (d : Reg) (s : State) : Out := writes g d s fun _ => s.areaOf s.cur

/-- GLV.cur (R231). -/
def execGlvCur (g : Guard) (d : Reg) (s : State) : Out := writes g d s fun _ =>
  s.areaOf s.cur + BitVec.ofNat 64 ((((s.graphOf s.cur).map (·.lver.toNat)).getD 0) % 2 * 2 ^ 20)

/-- GLV.reg (R231). -/
def execGlvReg (g : Guard) (d : Reg) (s : State) : Out := writes g d s fun _ => s.regionOf s.cur

/-- The waggle rates of a group's written links in the window in progress (R117). -/
def Group.ratesNow (x : Group) (n : Nat) : List Rate :=
  (List.range n).map fun j => ((x.links.find? fun l => l.written == some j).map fun l => Rate.mk l.passed l.stall l.starve).getD {}

/-- The end of a window: the counters of n written links are latched and restart, and the next window begins at its own length (R117, R118, R335). -/
def Group.latch (x : Group) (n : Nat) : Group :=
  { x with
    links := x.links.map fun l => { l with passed := 0, stall := 0, starve := 0 }
    rates := x.ratesNow n, prev := x.rates, wins := x.wins + 1, winPrev := x.winLen, winAt := x.winAt + x.winLen, winLen := x.winNext, bottle := [] }

/-- Whether the window of a group has ended. -/
def State.windowOver (s : State) (x : Group) : Bool := x.status == .running && x.winLen ≤ s.cycle - x.winAt

/-- The group of the current core as RATE sees it in this cycle: with its window ended, whether or not WINDOW_END has had its turn (R335). -/
def State.rated (s : State) : Option Group :=
  (s.groupOf s.cur).map fun x => if s.windowOver x then x.latch (s.objOf x).links.length else x

/-- The rates of a written link as RATE shows them; none latched, or no such link, reads as zero (R232). -/
def State.rateWord (s : State) (link : Nat) : Word :=
  match s.rated.bind fun x => x.rates[link]? with
  | some r => BitVec.ofNat 64 (r.passed.toNat + r.stall.toNat * 2 ^ 17 + r.starve.toNat * 2 ^ 34)
  | none => 0

/-- RATE (R232). -/
def execRate (g : Guard) (d a : Reg) (s : State) : Out := writes g d s fun c => s.rateWord ((c.rd a).toNat % 2 ^ 16)

/-- RATE.win (R232). -/
def execRateWin (g : Guard) (d : Reg) (s : State) : Out := writes g d s fun _ =>
  match s.rated with
  | some x => BitVec.ofNat 64 (x.winLen + min x.wins (2 ^ 32 - 1) * 2 ^ 32)
  | none => 0

end Sys2Proof.Machine
end

