-- ==== Sys2Proof/Machine/Streams.lean ====
section
/-! DEFINITION. Stream elements: the accesses of AGNs and of data commands, scale bytes, the walk of a tile, spilling and retry (R51, R52, R76
to R79, R199, R237, R312, R318, R339, R357 to R359). -/

namespace Sys2Proof.Machine

/-! ### Tiles (R51, R52, R312) -/

/-- Digit d of a number in the mixed radix of an extent function. -/
def digit (ext : Nat → Nat) (d n : Nat) : Nat := n / ((List.range d).map ext).foldl (· * ·) 1 % max (ext d) 1

/-- What a position of a tile is: an element in memory, at a byte and, for 4-bit elements, in its lower or upper half; padding; or none. -/
inductive TPos where
  | mem (a : Word) (half : Nat)
  | pad
  | unused
deriving DecidableEq, Repr, Inhabited

/-- Index of a position of tile t in dimension d (R312). -/
def TMap.index (m : TMap) (t q d : Nat) : Nat := digit m.tilesIn d t * m.ext d + digit m.ext d q

/-- Position q of tile t (R312). -/
def TMap.posOf (m : TMap) (base : Word) (t q : Nat) : TPos :=
  if q ≥ m.tileElems then .unused
  else if (List.range m.rank).all fun d => m.index t q d < m.dim d then
    let off : Int := ((List.range m.rank).map fun d => (m.index t q d : Int) * (m.strides.getD d 0)).sum
    if bitsOf m.fmt = 4 then .mem (base + BitVec.ofInt 64 (off + (m.index t q 0 : Int) / 2)) (m.index t q 0 % 2)
    else .mem (base + BitVec.ofInt 64 off) 0
  else .pad

/-- Join bytes of a token into accesses that lie in one 128-byte unit. -/
def joinBytes : List (Nat × Word) → List Piece → List Piece
  | [], acc => acc.reverse
  | (k, a) :: rest, p :: acc =>
    if a = p.addr + BitVec.ofNat 64 p.bytes ∧ p.bitOff + 8 * p.bytes = 8 * k ∧ a.toNat % 128 ≠ 0 then
      joinBytes rest ({ p with bytes := p.bytes + 1 } :: acc)
    else joinBytes rest ({ addr := a, bytes := 1, bitOff := 8 * k } :: p :: acc)
  | (k, a) :: rest, [] => joinBytes rest [{ addr := a, bytes := 1, bitOff := 8 * k }]

/-- What the block length of a block-family stream of a map must divide, in elements: its tile[0] and dims[0], and twice the byte address of the
start of every dimension-0 run (R76). -/
def TMap.grain (m : TMap) (base : Word) : Nat :=
  ((List.range m.rank).filter fun d => d != 0 && 1 < m.dim d).foldl (fun g d => Nat.gcd g (2 * (m.strides.getD d 0).natAbs))
    (Nat.gcd (Nat.gcd (m.ext 0) (m.dim 0)) (2 * base.toNat))

/-- The bytes of memory that bytes of token j of tile t are, each with its place in the token: where elements have 4 bits, those of which both halves lie
in one byte of memory. -/
def TMap.wholes (m : TMap) (base : Word) (t j : Nat) : List (Nat × Word) :=
  let w := bitsOf m.fmt
  let per := 1024 / w
  (List.range 128).filterMap fun k =>
    if w = 4 then match m.posOf base t (j * per + 2 * k), m.posOf base t (j * per + 2 * k + 1) with
      | .mem a 0, .mem b 1 => if a = b then some (k, a) else none
      | _, _ => none
    else match m.posOf base t (j * per + k / (w / 8)) with
      | .mem a _ => some (k, a + BitVec.ofNat 64 (k % (w / 8)))
      | _ => none
/-- The 4-bit elements of token j of tile t that do not lie so, each an access of its own. -/
def TMap.halves (m : TMap) (base : Word) (t j : Nat) : List Piece :=
  if bitsOf m.fmt = 4 then
    let ks := (m.wholes base t j).map (·.1)
    (List.range 256).filterMap fun e => match m.posOf base t (j * 256 + e) with
      | .mem a h => if ks.contains (e / 2) then none else some { addr := a, bytes := 1, bitOff := 4 * e, nib := some h }
      | _ => none
  else []

/-- The accesses of token j of tile t; the first of a tile stands for its stream's block rule (R76). -/
def TMap.pieces (m : TMap) (base : Word) (t j : Nat) : List Piece :=
  let ps := joinBytes (m.wholes base t j) [] ++ m.halves base t j
  match ps with
  | p :: rest => if m.fmt == 8 && j == 0 then { p with grain := m.grain base } :: rest else ps
  | [] => []

/-- The data of token j of tile t before anything is read: padding, and zero where the tile has no element (R51, R52). -/
def TMap.padding (m : TMap) (base : Word) (t j : Nat) : BitVec 1024 :=
  let w := bitsOf m.fmt
  BitVec.ofNat 1024 (packElems w ((List.range (1024 / w)).map fun e => match m.posOf base t (j * (1024 / w) + e) with
    | .pad => m.pad.toNat
    | _ => 0))

/-- A byte with one of its halves replaced. -/
def putHalf (b : Byte) (half : Nat) (v : Byte) : Byte := if half = 0 then (b &&& 0xF0#8) ||| (v &&& 0x0F#8) else (b &&& 0x0F#8) ||| (v <<< 4)

/-- Give accesses of a store the bytes of a data token and of its scale token (R79, R312); an ext80 element goes with all 128 bits of its container as
it came (DESIGN CHOICE, log 89). Under a bad geometry byte every element of the token is
NaN (R74): each block is written with e = 63 in its scale byte, which makes it so (R71). -/
def withData (data scale : Nat) (ps : List Piece) : List Piece :=
  let nan := !(1 ≤ tokenByte scale 127 && tokenByte scale 127 ≤ 3)
  ps.map fun p => { p with
    out := if p.nib.isSome then [BitVec.ofNat 8 (data / 2 ^ p.bitOff % 16)]
      else (List.range p.bytes).map fun i => BitVec.ofNat 8 (tokenByte data (p.bitOff / 8 + i)),
    scale := (List.range 128).map fun i => BitVec.ofNat 8 (if nan then tokenByte scale i / 64 * 64 + 63 else tokenByte scale i) }
where tokenByte (t k : Nat) : Nat := t / 2 ^ (8 * k) % 256

/-! ### Scale bytes (R77) -/

/-- Address of the scale byte of the block that holds a code (R77). -/
def scaleAddr (va spd : Word) (geom : Nat) : Word :=
  ((va &&& 0xFFFFFFFFFFFF0000#64) ^^^ spd) + BitVec.ofNat 64 (va.toNat % 65536 / max (blockLen geom / 2) 1)

/-! ### Updates merged in reduction windows (R265, R266, R409) -/

/-- Whether an address lies in a reduction window. -/
def RedWin.holds (r : RedWin) (a : Word) : Bool := r.base.toNat % 2 ^ 50 ≤ a.toNat % 2 ^ 50 && a.toNat % 2 ^ 50 < r.base.toNat % 2 ^ 50 + 8 * r.words

/-- Whether an open window of a tenant covers a word. -/
def State.covered (s : State) (tenant : Nat) (a : Word) : Bool := ((s.tenant? tenant).map fun t => t.redwin.any fun r => r.2.holds a).getD false

/-- Whether an entry takes an update: one word, width and operation (R409). -/
def Merge.takes (m : Merge) (ctx : Nat) (a : Word) (wide : Bool) (op : AmoOp) : Bool :=
  m.ctx == ctx && m.addr.toNat % 2 ^ 50 == a.toNat % 2 ^ 50 && m.wide == wide && m.op == op
/-- An entry with one more update (R409). -/
def Merge.join (m : Merge) (v : Word) : Merge :=
  { m with v := if m.wide then amoNew m.op m.v v else zext (amoNew32 m.op (m.v.setWidth 32) (v.setWidth 32)) }

/-- A combinable update of a covered word: it merges in the combining buffer of the UALink port that a free value names, or, where the free value
names none or the buffer has neither its entry nor a free one, goes to its home port by itself (R265, R266, R409; log 14). The second value
tells whether it has merged. -/
def State.combine (s : State) (ctx tenant : Nat) (a : Word) (wide : Bool) (op : AmoOp) (v : Word) : State × Bool :=
  if op == .swap || !s.covered tenant a then (s, false)
  else
    let (port, s1) := s.choose (Config.ualinkPorts + 1)
    let l := findD s1.merges port []
    if port = Config.ualinkPorts then (s1, false)
    else if l.any fun m => m.takes ctx a wide op then
      ({ s1 with merges := put s1.merges port (l.map fun m => if m.takes ctx a wide op then m.join v else m) }, true)
    else if l.length < Config.combineEntries then
      ({ s1 with merges := put s1.merges port (l ++ [Merge.mk a ctx tenant wide op v s.cycle false]) }, true)
    else (s1, false)

/-! ### One element -/

/-- What an access of an element in memory gives: its bytes or scale bytes, the geometry, the access that follows it (the scale bytes of the
codes), and the addresses of units that failed. -/
inductive ElRes where
  | ok (s : State) (data : List Byte) (geom : Nat) (rest : List Piece) (bad : List Word)
  | err (e : TErr) (s : State)

/-- Write bytes at a physical address; false where a failed unit drops them (R339). -/
def State.writeUnit (s : State) (ctx pa : Nat) (bs : List Byte) : State × Bool :=
  if s.bad pa then
    if pa % 128 = 0 ∧ bs.length = 128 then
      (({ s with badMem := s.badMem.filter (· != pa / 128) }).memWrite (s.keyOf ctx) pa bs, true)
    else (s, false)
  else (s.memWrite (s.keyOf ctx) pa bs, true)

/-- Write or read what an access names at a physical address, by its unit (R339, R379). -/
def State.unitEl (s : State) (ctx pa : Nat) (va : Word) (write : Bool) (out : List Byte) (n : Nat) : List Byte × State × List Word :=
  if write then
    let (s1, ok) := s.writeUnit ctx pa out
    ([], s1, if ok then [] else [va])
  else
    let (bs, s1) := s.readUnit ctx pa n
    (bs, s1, if s.bad pa then [va] else [])

/-- An atomic update of a word by a stream (R243): merged in a reduction window, or applied at its home port. -/
def State.updateEl (s : State) (ctx pa : Nat) (va : Word) (op : AmoOp) (v : BitVec 32) : State × List Word :=
  if s.bad pa then (s, [va])
  else
    match s.combine ctx (s.tenantOf ctx) va false op (zext v) with
    | (s1, true) => (s1, [])
    | (s1, false) =>
      let s2 := s1.scrub pa
      let old := BitVec.ofNat 32 (leNat (s2.memBytes (s2.keyOf ctx) pa 4))
      (s2.memWrite (s2.keyOf ctx) pa (leBytes 4 (amoNew32 op old v).toNat), [])

/-- Access an element in memory by R200 and R237: its bytes after translation and the checks of format and block rule; for block-family data
the scale bytes of their blocks are an access of their own, which follows (R76, R77, R79). -/
def State.globalEl (s : State) (ctx : Nat) (p : Piece) (fmt : Nat) (spd : Word) (write : Bool) : ElRes :=
  match p.geom with
  | some g =>
    let half := max (blockLen g / 2) 1
    let sa := scaleAddr p.addr spd g
    match s.translate ctx sa write none with
    | .err e s => .err e s
    | .ok (qa, _, _) s1 =>
      let (bs, s2, bad) := s1.unitEl ctx qa sa write ((p.scale.drop (p.bitOff / 4 / max (blockLen g) 1)).take (p.bytes / half)) (p.bytes / half)
      .ok s2 bs g [] bad
  | none =>
    match s.translate ctx p.addr write (some fmt) with
    | .err e s => .err e s
    | .ok (pa, pf, geom) s1 =>
      let half := max (blockLen geom / 2) 1
      if fmt == 8 && (p.addr.toNat % half != 0 || p.bytes % half != 0 || p.grain % max (blockLen geom) 1 != 0) then .err (.format p.addr pf 8) s1
      else
        match p.upd with
        | some (op, v) =>
          let (s2, bad) := s1.updateEl ctx pa p.addr op v
          .ok s2 [] geom [] bad
        | none =>
          let (bs, s2, bad) := s1.unitEl ctx pa p.addr write p.out p.bytes
          .ok s2 bs geom (if fmt == 8 && !(write && p.scale.isEmpty) then [{ p with geom := some geom }] else []) bad

/-- Who makes a stream element: context, group, the core whose windows it uses, how records name it, its stream, the command it serves. -/
structure Who where
  ctx    : Nat
  tenant : Nat
  group  : Nat
  core   : Nat
  kind   : SrcKind
  loc    : BitVec 32
  src    : Nat
  sub    : Nat
  a      : Word
  stream : Nat × Nat × Nat
  cmd    : Option (Nat × Nat × Nat) := none
  window : Bool
  fmt    : Nat
  spd    : Word
  write  : Bool
  dest   : SpillTo
deriving DecidableEq, Repr, Inhabited

/-- What trying an element comes to: it must wait; it is done, with the access that follows; it was spilled; or the agent stops, its record
written. -/
inductive ElOut where
  | wait
  | done (s : State) (data : List Byte) (geom : Nat) (rest : List Piece)
  | spilled (s : State)
  | stop (s : State)

/-- The record of an element's access (R237, R318, R339). -/
def State.elRec (s : State) (w : Who) (cause : BitVec 8) (b : Word) (c : BitVec 32) : State :=
  s.record { tenant := w.tenant, cause := cause, kind := w.kind, ctx := BitVec.ofNat 12 w.ctx, loc := w.loc, a := w.a, b := b, c := c,
             src := w.src, sub := w.sub }

/-- Whether a spilled MCAST token of a stream has still to write bytes of a window (R236, R357). -/
def State.mcastOwes (s : State) (stream : Nat × Nat × Nat) (m : Nat) (w : BitVec 4) (off n : Nat) : Bool :=
  s.spill.any fun e => e.stream == stream && !s.over e.group && (match e.dest with
    | .mcast first mask v o => first ≤ m && m < first + 16 && mask.getLsbD (m - first) && v == w && off < o + 128 && o < off + n
    | _ => false)

/-- Access a window's live bank for a cell or port (R154, R199, R237, R318, R338, R339). -/
def State.windowEl (s : State) (w : Who) (p : Piece) : ElOut :=
  match windowOf p.addr with
  | none => .stop (s.elRec w 0x10 p.addr 0)
  | some (k, off) =>
    let x := (s.coreAt w.core).win k
    match x.state with
    | .opened | .draining => .wait
    | .detached => .stop (s.elRec w 0x10 p.addr 0)
    | .attached =>
      let rank := s.bankRank w.core k w.sub
      if w.write && !x.w then .stop (s.elRec w 0x11 p.addr 0)
      else if s.bankLater w.core w.core w.tenant k rank || s.mcastOwes w.stream w.core k off p.bytes then .wait
      else
        let a := s.liveBank w.core k + off
        let s0 := s.bankServe w.core w.core w.tenant k rank p.bytes
        if w.write then
          let (s1, bad) := s0.bankWrite a (match p.nib with
            | some h => [putHalf ((s0.bankRead a 1).1.headD 0) h (p.out.headD 0)]
            | none => p.out)
          .done (if bad then s1.elRec w 0x50 p.addr 0 else s1) [] 0 []
        else
          let (bs, bad) := s0.bankRead a p.bytes
          let s1 := s0.scrubBanks a p.bytes
          .done (if bad then s1.elRec w 0x50 p.addr 0 else s1) bs 0 []

/-- A spilled element, as it waits in its port's queue (R357). -/
def spillOf (w : Who) (p : Piece) (e : TErr) : Spill :=
  { port := homePort e.addr, ctx := w.ctx, group := w.group, stream := w.stream, cmd := w.cmd, dest := w.dest, piece := p, fmt := w.fmt, spd := w.spd,
    write := w.write, fault := e.addr, cause := e.cause, level := e.level, stage2 := e.host, kind := w.kind, loc := w.loc, src := w.src, sub := w.sub, a := w.a }

/-- The bytes that an access reaches: those named, or the scale bytes of their blocks (R77). -/
def Piece.span (p : Piece) (spd : Word) : Word × Nat := match p.geom with
  | some g => (scaleAddr p.addr spd g, p.bytes / max (blockLen g / 2) 1)
  | none => (p.addr, p.bytes)
/-- Whether a spilled element reaches a byte of an access (R357, R381). -/
def State.spillMeets (s : State) (e : Spill) (p : Piece) (spd : Word) : Bool :=
  s.meetBytes e.ctx (p.span spd).1 (p.span spd).2 (e.piece.span e.spd).1 (e.piece.span e.spd).2

/-- Whether a request of a stream to the home port of an address waits: at the limiter of its die (R407), or for the next cycle, since that port has
served a later agent (R98). -/
def State.portLater (s : State) (w : Who) (a : Word) : Bool :=
  s.bucketLow (dieOf w.core) w.tenant || !s.inOrder (homePort a) (rankOf w.src w.sub)

/-- The address that orders an access of a stream of a core with others: a window's byte by its exchange address, else the address of what it reaches. -/
def State.elAt (s : State) (core : Nat) (window : Bool) (p : Piece) (spd : Word) : Option Word :=
  if window then (windowOf p.addr).map fun k => s.xAddr core k.1 k.2 else some (p.span spd).1
/-- Whether an earlier copy command of an element's stream comes first (R236). -/
def State.elBehind (s : State) (w : Who) (p : Piece) : Bool :=
  match w.cmd, s.elAt w.core w.window p w.spd with
  | some (n, q, id), some a => s.copyOwes n q id w.stream a (p.span w.spd).2 w.write
  | _, _ => false

/-- Try an element (R199, R200, R236, R237, R357): a window access, or a global one that spills where it faults; once the cores of its group are done, one that
faults is recorded and discarded (R428). -/
def State.tryEl (s : State) (w : Who) (p : Piece) : ElOut :=
  if s.elBehind w p then .wait
  else if w.window then s.windowEl w p
  else if !s.isGlobal p.addr then .stop (s.elRec w 0x20 p.addr Config.noWalkLevel)
  else
    let full (port : Nat) : Bool := (s.spill.filter fun e => e.port == port).length ≥ Config.spillQueue
    let ended := s.over w.group
    match (s.spill.reverse.find? fun e => !ended && e.stream == w.stream && e.ctx == w.ctx && s.spillMeets e p w.spd) with
    | some e =>
      if full e.port then .wait
      else .spilled { s with spill := s.spill ++ [{ e with tried := false, dest := w.dest, piece := p, fmt := w.fmt, spd := w.spd, write := w.write, cmd := w.cmd, retry := false }] }
    | none =>
      if s.portLater w (p.span w.spd).1 then .wait
      else match (s.noteServed (homePort (p.span w.spd).1) (rankOf w.src w.sub)).globalEl w.ctx p w.fmt w.spd w.write with
      | .err e s =>
        if p.upd.isSome && e.cause = 0x11 then .done (s.elRec w 0x11 e.addr 0) [] 0 []
        else if ended then .spilled (s.accessRec w.ctx w.kind w.loc w.src false w.a e w.sub)
        else if full (homePort e.addr) then .wait
        else .spilled { (s.accessRec w.ctx w.kind w.loc w.src false w.a e w.sub) with spill := s.spill ++ [spillOf w p e] }
      | .ok s1 bs g rest bad => .done (bad.foldl (fun s b => s.elRec w 0x50 b 0) (s1.charge (dieOf w.core) w.tenant p.bytes)) bs g rest

/-! ### Tokens being read (R318, R359) -/

/-- Replace bytes k … of a scale token, or its geometry byte (R74). -/
def putScales (t : BitVec 1024) (k : Nat) (bs : List Byte) : BitVec 1024 :=
  bs.zipIdx.foldl (fun (t : BitVec 1024) (b : Byte × Nat) => (t &&& ~~~(0xFF#1024 <<< (8 * (k + b.2)))) ||| (b.1.setWidth 1024 <<< (8 * (k + b.2)))) t
def putGeom (t : BitVec 1024) (geom : Nat) : BitVec 1024 := putScales t 127 [BitVec.ofNat 8 geom]

/-- A scale token as it leaves: the bytes behind those of its blocks, but for the geometry byte, are zero (R74). -/
def trimScale (t : BitVec 1024) : BitVec 1024 :=
  let g := (t >>> 1016).toNat
  if 1 ≤ g ∧ g ≤ 3 then t &&& (BitVec.ofNat 1024 (2 ^ (8 * (256 / blockLen g)) - 1) ||| (0xFF#1024 <<< 1016)) else t

/-- Put what an access read into its token: codes and the geometry of their page, or scale bytes (R6, R74). The bits of an ext80 container stay as they
were read (DESIGN CHOICE, log 89). -/
def TokBuf.fillIn (b : TokBuf) (p : Piece) (data : List Byte) (geom : Nat) : TokBuf :=
  match p.geom with
  | some g => { b with scale := putScales b.scale (p.bitOff / 4 / max (blockLen g) 1) data }
  | none =>
    let v := match p.nib with
      | some h => leNat data / 2 ^ (4 * h) % 16
      | none => leNat data
    let d := b.data ||| BitVec.ofNat 1024 (v * 2 ^ p.bitOff)
    if b.block then { b with data := d, scale := putGeom b.scale geom } else { b with data := d }

/-- Whether a token is whole. -/
def TokBuf.ready (b : TokBuf) : Bool := b.todo.isEmpty && b.spilled == 0 && !b.opened

/-- Change one token of an AGN. -/
def AgnSt.modBuf (a : AgnSt) (id : Nat) (f : TokBuf → TokBuf) : AgnSt := { a with bufs := a.bufs.map fun b => if b.id = id then f b else b }
/-- The AGN state of an instance. -/
def Inst.agn (i : Inst) : AgnSt := match i.st with
  | .agn a => a
  | _ => {}
def State.modAgn (s : State) (r : CellRef) (f : AgnSt → AgnSt) : State := s.modInst r fun i => { i with st := .agn (f i.agn) }

/-- Whether every consumer of an AGN's data output has commute (R359). -/
def Group.allCommute (x : Group) (j : Nat) : Bool :=
  let ls := x.outLinks j 0
  !ls.isEmpty && ls.all fun k => (((x.links[k]?).bind fun l => x.insts[l.dst]?).map fun i => commuteOf i.hdr).getD false

/-- The token that an AGN emits next: the oldest, or any whole one before a barrier token where every consumer has commute (R258, R359). -/
def nextBuf (commute : Bool) : List TokBuf → Option TokBuf
  | [] => none
  | b :: rest =>
    if b.ready then some b
    else if !commute || b.tag.barrier then none
    else (nextBuf commute rest).filter fun c => !c.tag.barrier

/-- The stream of an AGN of its own modes. -/
def State.agnWho (s : State) (r : CellRef) (x : Group) (i : Inst) (fmt : Nat) (spd : Word) (dest : SpillTo) (write : Bool) : Who :=
  { ctx := x.ctx, tenant := x.tenant, group := r.group, core := x.coreOf i, kind := .cell, loc := (s.locator (x.coreOf i)).setWidth 32, src := x.coreOf i, sub := cellSub i.cell,
    a := BitVec.ofNat 64 i.node, stream := (0, r.group, r.inst), window := !i.hdr.getLsbD 35, fmt := fmt, spd := spd, write := write, dest := dest }

/-- Emit the next whole token of an AGN, if its outputs have room (R40, R301, R359); one that needs no access is a firing by itself (R34). -/
def State.agnEmit (s : State) (r : CellRef) (x : Group) (i : Inst) : Option State :=
  let commute := x.allCommute r.inst
  match nextBuf commute i.agn.bufs with
  | none => none
  | some b =>
    let tag := { b.tag with late := commute && b.late }
    let e : Emit := { toks := (0, mkTok b.data.toNat tag) :: (if b.block then [(1, mkTok (trimScale b.scale).toNat tag)] else []), lat := max (b.due - s.cycle) 1 }
    if i.outAt == some s.cycle || !x.roomFor s.cycle r.inst e then none
    else
      let s1 := ((s.modAgn r fun a => { a with bufs := a.bufs.filter (·.id != b.id) }).writeAll r e).modInst r fun i => { i with outAt := some s.cycle, fired := if b.quiet then some s.cycle else i.fired }
      some (if tag.eot && !tag.barrier then s1.finishTile r else s1)

/-- The cycle from which a token may be consumed whose window read is issued now: 4 cycles on in the core's own quad, and a free number of cycles
up to 44 in another (R202, R301). -/
def State.winDue (s : State) (w : Who) (p : Piece) : Nat × State :=
  if ((windowOf p.addr).map fun k => s.far w.core w.core k.1).getD false then
    let (n, s1) := s.choose 41
    (s.cycle + 4 + n, s1)
  else (s.cycle + 4, s)

/-- Make the next access of the tokens that an AGN is reading, for the agent that `who` names; none where there is none to make. `stop` says
what becomes of an agent whose access is refused. -/
def State.agnRead (s : State) (r : CellRef) (i : Inst) (who : TokBuf → Who) (stop : TokBuf → State → State) : Option State :=
  match i.agn.bufs.find? fun b => !b.todo.isEmpty with
  | none => none
  | some b =>
    match b.todo with
    | [] => none
    | p :: rest =>
      match s.tryEl (who b) p with
      | .wait => none
      | .done s1 data geom more =>
        let (due, s2) := if b.win then s1.winDue (who b) p else (0, s1)
        some ((s2.modAgn r fun a => a.modBuf b.id fun b => { (b.fillIn p data geom) with todo := more ++ rest, due := due }).fired r)
      | .spilled s1 => some ((s1.modAgn r fun a => a.modBuf b.id fun b => { b with todo := rest, spilled := b.spilled + 1 }).fired r)
      | .stop s1 => some (stop b s1)

/-- One step of a loading AGN: emit a whole token and make an access, in either order, so that a window load's token leaves in the cycle of
its read (R301). `next` starts the next token where no access is due. -/
def State.agnStep (s : State) (r : CellRef) (x : Group) (i : Inst) (who : TokBuf → Who) (stop : TokBuf → State → State) (next : State → Inst → State) : State :=
  let s1 := (s.agnEmit r x i).getD s
  let read (s : State) (i : Inst) : State :=
    if i.agn.bufs.any fun b => !b.todo.isEmpty then (s.agnRead r i who stop).getD s else s
  let s2 := match s1.inst? r with
    | none => s1
    | some (_, i1) =>
      if i1.agn.bufs.any fun b => !b.todo.isEmpty then read s1 i1
      else
        let s2 := next s1 i1
        match s2.inst? r with
        | some (_, i2) => read s2 i2
        | none => s2
  match s2.inst? r with
  | some (x2, i2) => (s2.agnEmit r x2 i2).getD s2
  | none => s2

/-- Whether an AGN reads no further token for now: 8 whole later ones wait in its arrival buffer, or 9 where none is waited for (R359). Spilled tokens wait
in the spill queue instead (R357). -/
def AgnSt.full (a : AgnSt) (commute : Bool) : Bool :=
  if commute then (a.bufs.filter fun b => b.spilled == 0).length ≥ 9 else ((a.bufs.drop 1).filter fun b => b.spilled == 0).length ≥ 8

/-- Add a token to an AGN's reads, numbered in walk order (R36). What is never read of a block-family token's scale token is free (R74). -/
def State.addBuf (s : State) (r : CellRef) (th : BitVec 20) (b : TokBuf) : State :=
  let (tag, s0) := s.ownTag r 0 th b.tag
  let (scale, s1) := if b.block && !b.tag.barrier then s0.freeScale else (b.scale, s0)
  s1.modAgn r fun a => { a with bufs := a.bufs ++ [{ b with id := a.nextId, tag := tag, scale := scale, quiet := b.todo.isEmpty && !b.opened && !tag.barrier }], nextId := a.nextId + 1 }

/-! ### Retry of a spilled element (R355, R358, R359, R424) -/

/-- A column that no LSTAT has written: zero codes under scale bytes of 0x00 (R273). -/
def emptyColumn : BitVec 1024 × BitVec 1024 := (0, BitVec.ofNat 1024 (2 ^ 1016))

/-- Write what an access of column n has read into the shadow plane of every instance of a MAT node: codes, or the scale bytes of their blocks
(R74, R249). -/
def State.setColumn (s : State) (g node n : Nat) (p : Piece) (data : List Byte) (geom : Nat) : State :=
  let col (c : BitVec 1024 × BitVec 1024) : BitVec 1024 × BitVec 1024 := match p.geom with
    | some _ => (c.1, putScales c.2 0 data)
    | none => (BitVec.ofNat 1024 (leNat data), putGeom 0 geom)
  s.modGroup g fun x => { x with insts := x.insts.map fun i =>
    if i.node == node && i.role == .node && !i.gone then
      match i.st with
      | .mat m => { i with st := .mat { m with shadow := modAt (m.shadow ++ List.replicate (32 - m.shadow.length) emptyColumn) n col } }
      | _ => i
    else i }

/-- Deliver what a retried element read. -/
def State.deliver (s : State) (e : Spill) (data : List Byte) (geom : Nat) : State :=
  match e.dest with
  | .buf inst id => s.modAgn { group := e.group, inst := inst } fun a => a.modBuf id fun b =>
      { (b.fillIn e.piece data geom) with spilled := if e.piece.geom.isNone && e.fmt == 8 then b.spilled else b.spilled - 1, late := true }
  | .lstat node n => s.setColumn e.group node n e.piece data geom
  | _ => s

end Sys2Proof.Machine
end

