-- ==== Sys2Proof/Machine/System.lean ====
section
/-! DEFINITION. System registers and TLB invalidation (R164 to R168, R192). -/

namespace Sys2Proof.Machine

/-- The CYCLE register of a die (R168). -/
def State.cycleOf (s : State) (die : Nat) : Word := BitVec.ofNat 64 (s.cycle + (Config.dieSkew die).val)

/-- The value of a system register of the current core; none for a number that names no register (R164 to R168). -/
def State.sysRead (s : State) (n : Nat) : Option Word :=
  let c := s.core
  let lay := s.graphOf s.cur
  if 0x10 ≤ n ∧ n ≤ 0x1F then some (BitVec.ofNat 64 (c.win (BitVec.ofNat 4 (n - 0x10))).bmap)
  else if 0x20 ≤ n ∧ n ≤ 0x27 then some (zext (c.evc (BitVec.ofNat 3 (n - 0x20))))
  else match n with
    | 0x00 => some (BitVec.ofNat 64 (s.ctxOf s.cur % 4096))
    | 0x01 => some (BitVec.ofNat 64 (s.tenantOf (s.ctxOf s.cur) % 64))
    | 0x02 => some (s.locator s.cur)
    | 0x03 => some (zext ((lay.map (·.lver)).getD 0))
    | 0x04 => some (zext ((lay.map (·.stepno)).getD 0))
    | 0x05 => some (s.cycleOf (dieOf s.cur))
    | 0x06 => some (s.spdOf (s.ctxOf s.cur))
    | 0x07 => some (((s.tenant? (s.tenantOf (s.ctxOf s.cur))).map (·.cfg.faultHdr)).getD 0)
    | 0x08 => some (if c.intrap then 1 else 0)
    | 0x09 => some (zext (((s.groupOf s.cur).map (·.gver)).getD 0))
    | 0x28 => some ((zext c.dqbase) <<< 3)
    | 0x29 => some ((zext c.dqlim) <<< 3)
    | 0x30 => some ((if c.tvEn then 0x8000000000000000#64 else 0) ||| ((zext c.tvAddr) <<< 2))
    | 0x31 => some (((zext c.code) <<< 48) ||| zext c.cause)
    | 0x32 => some c.trapaddr
    | 0x33 => some c.epc
    | _ => none

/-- Write a system register: its defined bits take the value, reserved bits are ignored (R8, R164, R165); none for a register that is
read-only or does not exist. -/
def State.sysWrite (s : State) (n : Nat) (v : Word) : Option State :=
  let c := s.core
  if 0x20 ≤ n ∧ n ≤ 0x27 then some (s.setCore (c.setEvc (BitVec.ofNat 3 (n - 0x20)) (v.setWidth 32)))
  else match n with
    | 0x06 => some (s.modContext (s.ctxOf s.cur) fun x => { x with spd := v.extractLsb' 16 30 })
    | 0x28 => some (s.setCore { c with dqbase := v.extractLsb' 3 17 })
    | 0x29 => some (s.setCore { c with dqlim := v.extractLsb' 3 18 })
    | 0x30 => some (s.setCore { c with tvEn := v.getLsbD 63, tvAddr := v.extractLsb' 2 30 })
    | 0x31 => some (s.setCore { c with code := v.extractLsb' 48 16, cause := v.extractLsb' 0 8 })
    | 0x32 => some (s.setCore { c with trapaddr := v })
    | 0x33 => some (s.setCore { c with epc := v })
    | _ => none

/-- MFS (R164). -/
def execMfs (g : Guard) (d : Reg) (n : BitVec 16) (s : State) : Out := guarded g s fun c =>
  match s.sysRead n.toNat with
  | some v => s.setCore (c.wr d v).adv
  | none => s.illegal (wordOf (.mfs g d n))

/-- Whether an MTS of a number must wait for the next cycle: it writes an event counter that the crossbar or a WAITE has changed in this one (R167). -/
def State.mtsWaits (s : State) (n : Nat) : Bool :=
  0x20 ≤ n && n ≤ 0x27 && !s.inOrder (countPlace s.cur (BitVec.ofNat 3 (n - 0x20))) 0

/-- MTS (R164). -/
def execMts (g : Guard) (d : Reg) (n : BitVec 16) (s : State) : Out := guarded g s fun c =>
  if s.mtsWaits n.toNat then s
  else match s.sysWrite n.toNat (c.rd d) with
    | some s1 => s1.setCore s1.core.adv
    | none => s.illegal (wordOf (.mts g d n))

/-- TLBI.page (R192, R354). -/
def execTlbiPage (g : Guard) (a : Reg) (s : State) : Out := guarded g s fun c =>
  s.block (wordOf (.tlbiPage g a)) (.tlbiPage (c.rd a))

/-- TLBI.ctx (R192). -/
def execTlbiCtx (g : Guard) (s : State) : Out := guarded g s fun _ => s.block (wordOf (.tlbiCtx g)) .tlbiCtx

end Sys2Proof.Machine
end

