-- ==== Sys2Proof/Machine/CellsFlow.lean ====
section
/-! DEFINITION. Cells that move and decide: BFY, CNT, AGN, RTE, TAP, barrier tokens, setting loads and section counts (R45, R134, R300 to R324,
R330 to R333, R397). -/

namespace Sys2Proof.Machine

/-! ### BFY (R85, R303, R304) -/

/-- The sums and differences of one group of up to 2h elements; missing ones are +0, and only positions that exist give results (R304). -/
def bfyGroup (h : Nat) (l : List Elem) : List Elem :=
  let e (k : Nat) : Nat := ((l[k]?).map (·.bits)).getD 0
  let v (k : Nat) : Val := fpValue .f32 (e k)
  let out := (List.range (2 * h)).map fun k => if k < h then rnd (vadd (v k) (v (k + h))) else rnd (vsub (v (k - h)) (v k))
  markElems { first := l.any (·.first), last := l.any (·.last) } (out.take l.length)

/-- Cut whole groups, and at the end of a segment a short one. -/
def bfyGroups (h : Nat) (closing : Bool) : Nat → List Elem → List Elem → List Elem × List Elem
  | 0, ins, acc => (ins, acc)
  | fuel + 1, ins, acc =>
    if ins.length ≥ 2 * h || (closing && !ins.isEmpty) then bfyGroups h closing fuel (ins.drop (2 * h)) (acc ++ bfyGroup h (ins.take (2 * h)))
    else (ins, acc)

/-- Emissions of a BFY for a thread's segment, the open segments then, and the error of a group cut short. -/
def State.bfyOut (s : State) (r : CellRef) (h : BitVec 64) (l : Tbl RepackSt) (q : RepackSt) (closing : Bool) : List Emit × State :=
  let g := 2 ^ hf h 35 33
  let cut := closing && q.ins.length % (2 * g) != 0
  let (ins, res) := bfyGroups g closing 200 q.ins []
  let (ts, p) := packToks 32 closing 16 { q.pack with pend := q.pack.pend ++ res } []
  let (es, s1) := s.numbered r [0] 2 ts
  let s2 := s1.setSt r (.bfy (l.seg q.pack.thread closing { ins := ins, pack := p }))
  (es, if cut then s2.segErr r.group 1 else s2)

/-- BFY_FIRE (R304). -/
def execBfyFire (r : CellRef) (s : State) : Out := cellStep s r (isKind kBFY) fun x i =>
  match i.st, x.closing s.cycle r.inst i [0], x.head s.cycle r.inst 0 with
  | .bfy l, e :: cl, _ =>
    let (es, s1) := s.bfyOut r i.hdr l (findD l e.2 {}) true
    s.fireWith r x es [] (fun _ => s1.closeSegs r (e :: cl) [] false) true
  | .bfy l, [], some t =>
    let q := findD l t.tag.thread.toNat {}
    let f := (fmtOf (hf i.hdr 39 36)).getD .f32
    let els := carried t ((elems t.nat (elemBits f) (elemsPerToken f)).map fun e => rnd (value f e))
    let q1 : RepackSt := { ins := q.ins ++ els, pack := { q.pack with thread := t.tag.thread, replayed := q.pack.replayed || t.tag.replayed } }
    let (es, s1) := s.bfyOut r i.hdr l q1 t.tag.eot
    s.fireWith r x es [0] fun _ => s1
  | _, _, _ => s

/-! ### CNT (R305 to R309) -/

/-- Lane k of a token, signed. -/
def laneS (t : Token) (k : Nat) : Int := toSigned 32 (elemAt t.nat 32 k)

/-- Whether a cell's read of n bytes waits: at the limiter of its die (R407), or for the next cycle at a port (R98). -/
def State.cellReadLater (s : State) (x : Group) (i : Inst) (a : Word) (n : Nat) : Bool :=
  s.bucketLow x.die x.tenant || s.portsLater a n (rankOf (x.coreOf i) (cellSub i.cell))
/-- Charge a cell's read of n bytes, and note that its ports have served it (R98, R408). -/
def State.cellReadPaid (s : State) (x : Group) (i : Inst) (a : Word) (n : Nat) : State :=
  (s.charge x.die x.tenant n).portsServed a n (rankOf (x.coreOf i) (cellSub i.cell))

/-- The address of the INT32 that gives the count of a run (R307). -/
def countAddr (i : Inst) (t : Option Token) : Word :=
  BitVec.ofNat 64 (pw i.words 1) + (if i.hdr.getLsbD 38 then BitVec.ofInt 64 (4 * ((t.map fun t => laneS t 0).getD 0)) else 0)

/-- The count of a run: a parameter, or the INT32 in memory (R307); none while a stage-2 fault holds the read. -/
def State.runCount (s : State) (x : Group) (i : Inst) (t : Option Token) : State × Option Int :=
  if !i.hdr.getLsbD 39 then (s, some (toSigned 32 (pw i.words 1)))
  else
    let a := countAddr i t
    match s.loadN x.ctx a (some 15) 2 4 with
    | .ok bs s1 => (s1.cellReadPaid x i a 4, some (toSigned 32 (leNat bs)))
    | .err e s => (s.cellErr x i e, if e.host then none else some 0)

/-- CNT_RUN_START (R306, R307, R309). -/
def execCntRunStart (r : CellRef) (s : State) : Out := cellStep s r (isKind kCNT) fun x i =>
  match i.st with
  | .cnt c =>
    let t := x.head s.cycle r.inst 0
    let nest := modeOf i.hdr == 1
    let inSec := ((s.objOf x).secOf i.node).isSome
    if c.running || c.held || !c.funded i.hdr i.words inSec t.isSome || !creditOk i.hdr c then s
    else if nest && !(x.closing s.cycle r.inst i [0]).isEmpty then s.closeSegs r (x.closing s.cycle r.inst i [0])
    else if i.hdr.getLsbD 39 && s.cellReadLater x i (countAddr i t) 4 then s
    else
      match s.runCount x i t with
      | (s1, none) => s1.setSt r (.cnt { c with held := true })
      | (s1, some n) =>
        let c1 := { c with
          runs := c.runs + 1, started := true, budget := if !nest && pw i.words 2 % 2 ^ 32 = 0 then c.budget - 1 else c.budget
          running := decide (0 < n), n := n.toNat, k := 0 }
        let s2 := s1.setSt r (.cnt c1)
        if nest && n ≤ 0 then s2.take r 0 else s2
  | _ => s

/-- CNT_FIRE (R306, R308). -/
def execCntFire (r : CellRef) (s : State) : Out := cellStep s r (isKind kCNT) fun x i =>
  match i.st with
  | .cnt c =>
    let nest := modeOf i.hdr == 1
    let t := x.head s.cycle r.inst 0
    if !c.running || !creditOk i.hdr c || !x.room s.cycle r.inst 0 || (nest && t.isNone) then s
    else
      let p := pw i.words 0
      let lane (j : Nat) : Nat := match j with
        | 0 => (p % 2 ^ 32 + c.k * (p / 2 ^ 32)) % 2 ^ 32
        | 1 => c.k
        | j + 2 => if nest then (t.map fun t => elemAt t.nat 32 j).getD 0 else 0
      let th : BitVec 20 := if nest then (t.map (·.tag.thread)).getD 0 else BitVec.ofNat 20 (pw i.words 3)
      let isLast := c.k + 1 == c.n
      let (tag, s1) := s.ownTag r 0 th { first := c.k == 0, sot := c.k == 0, last := isLast, eot := isLast }
      let s2 := (s1.setSt r (.cnt { c with k := c.k + 1, running := !isLast, credits := if hf i.hdr 37 30 = 0 then 0 else c.credits + 1 })).fired r
      let s3 := s2.write r 0 (mkTok (packElems 32 ((List.range 32).map lane)) tag) 1
      if isLast then (if nest then s3.take r 0 else s3).finishTile r else s3
  | _ => s

/-- CNT_CREDIT_RETURN (R308): a token on i1, whatever it is, returns one credit. -/
def execCntCreditReturn (r : CellRef) (s : State) : Out :=
  match s.inst? r with
  | none => .next s
  | some (x, i) =>
    match i.st, x.inLink r.inst 1, x.headAny s.cycle r.inst 1 with
    | .cnt c, some j, some _ =>
      if !s.live x then .next s
      else
        let s1 := s.modGroup r.group fun x => { x with links := modAt x.links j fun l => l.popAt s.cycle ((l.pick s.cycle (x.ordered r.inst 1)).getD 0) }
        .next (s1.setSt r (.cnt { c with credits := c.credits - 1 }))
    | _, _, _ => .next s

/-! ### AGN (R310 to R319) -/

/-- The map of an AGN of modes `load`, `store` and `iload`. -/
def State.agnMap (s : State) (x : Group) (i : Inst) : TMap := ((s.objOf x).maps[hf i.hdr 30 19]?).getD ⟨1, 15, 0, [1], [1], [1]⟩
/-- Base address of an AGN (R310). -/
def agnBase (i : Inst) : Word := if i.hdr.getLsbD 35 then BitVec.ofNat 64 (pw i.words 0) else BitVec.ofNat 64 (hf i.hdr 39 36 * 65536)
/-- Tile that an index token names (R313). -/
def tileOf (m : TMap) (t : Token) : Nat := (laneS t 0 % ((max m.tiles 1 : Nat) : Int)).toNat

/-- AGN_TILE_WALK (R312, R313): an AGN starts a tile; under a pre-emption request only one of a segment that is open at its index input (R419). A storing one has the thread of the index token, or
without one that of the segment; the segment is the one whose token is at the head of i0 (DEDUCED, log 87). -/
def execAgnTileWalk (r : CellRef) (s : State) : Out := cellStep s r (fun h => isKind kAGN h && modeOf h ≤ 1) fun x i =>
  match i.st with
  | .agn a =>
    let m := s.agnMap x i
    if a.walking || (x.preempt.isSome && i.opens.isEmpty) then s
    else if modeOf i.hdr = 0 then
      if x.inLinked r.inst 0 then
        let cl := x.closing s.cycle r.inst i [0]
        if !cl.isEmpty then s.closeSegs r cl
        else
          match x.head s.cycle r.inst 0 with
          | none => s
          | some t => (s.take r 0).modAgn r fun a => { a with
              walking := true, tile := tileOf m t, j := 0, spd := s.spdOf x.ctx, thread := t.tag.thread, wfirst := true, wlast := true }
      else
        let inSec := ((s.objOf x).secOf i.node).isSome
        if !a.funded inSec then s
        else
          let lastTile := a.pos + 1 ≥ m.tiles
          s.modAgn r fun a => { a with
            walking := true, tile := a.pos, pos := (a.pos + 1) % max m.tiles 1, j := 0, spd := s.spdOf x.ctx
            thread := BitVec.ofNat 20 (pw i.words 1), wfirst := if inSec then a.fresh else a.pos == 0
            wlast := if inSec then a.budget == 1 else lastTile, budget := a.budget - 1
            fresh := if inSec then a.budget == 1 else a.fresh, started := !inSec && lastTile }
    else
      match x.head s.cycle r.inst 0 with
      | none => s
      | some t =>
        if x.inLinked r.inst 2 then
          let cl := x.closing s.cycle r.inst i [2]
          if !cl.isEmpty then s.closeSegs r cl
          else
            match x.head s.cycle r.inst 2 with
            | none => s
            | some k => (s.take r 2).modAgn r fun a => { a with
              walking := true, tile := tileOf m k, j := 0, spd := s.spdOf x.ctx, thread := k.tag.thread, taken := t.tag.thread, excess := false, eot := false, replayed := false }
        else s.modAgn r fun a => { a with
              walking := true, tile := a.pos, pos := (a.pos + 1) % max m.tiles 1, j := 0, spd := s.spdOf x.ctx, thread := t.tag.thread, taken := t.tag.thread
              excess := false, eot := false, replayed := false }
  | _ => s

/-- Whether elements of a stored segment are still spilled. -/
def State.putSpilled (s : State) (r : CellRef) (id : Nat) : Bool := s.spill.any fun e => e.group == r.group && e.dest == .put r.inst id

/-- A store AGN has taken the end of its segment and made its writes (R46, R314, R315). -/
def State.endStore (s : State) (r : CellRef) (x : Group) (m : TMap) : State :=
  match s.inst? r with
  | none => s
  | some (_, i) =>
    let a := i.agn
    let waits := s.putSpilled r a.nextId
    let s1 := if a.j < m.tileTokens then s.segErr r.group 1 else s
    let s2 := if waits then s1 else s1.finishTile r
    let tag : Tag := { thread := a.thread, first := true, last := true, sot := true, eot := true, replayed := a.replayed }
    s2.modAgn r fun a => { a with
      walking := false, eot := false, nextId := a.nextId + 1
      acks := if waits || x.outLinked r.inst 0 then a.acks ++ [{ id := a.nextId, tile := a.tile, tag := tag, counted := !waits }] else a.acks }

/-- An AGN whose window access was refused fires no more (R318). -/
def deaden (r : CellRef) (s : State) : State := s.modInst r fun i => { i with dead := true }

/-- A load AGN emits a token, makes an access, and starts the next token of its tile (R301, R312, R318). -/
def State.loadStep (s : State) (r : CellRef) (x : Group) (i : Inst) : State :=
  s.agnStep r x i (fun b => s.agnWho r x i b.fmt b.spd (.buf r.inst b.id) false) (fun _ => deaden r) fun s i =>
    let a := i.agn
    let m := s.agnMap x i
    let n := m.tileTokens
    if !a.walking || a.full (x.allCommute r.inst) then s
    else
      let b : TokBuf := {
        id := 0
        tag := { thread := a.thread, sot := a.j == 0, eot := a.j + 1 == n, first := a.wfirst && a.j == 0, last := a.wlast && a.j + 1 == n }
        data := m.padding (agnBase i) a.tile a.j
        block := m.fmt == 8, fmt := m.fmt, spd := a.spd, todo := m.pieces (agnBase i) a.tile a.j, win := !i.hdr.getLsbD 35 }
      (s.addBuf r a.thread b).modAgn r fun a => { a with j := a.j + 1, walking := a.j + 1 < n }

/-- One access of a store AGN, or the taking of a token of its tile's segment, which is a firing by itself where it calls for no access (R34); tokens of
other threads wait (R312, R314, R318). -/
def State.storeStep (s : State) (r : CellRef) (x : Group) (i : Inst) : State :=
  let a := i.agn
  let m := s.agnMap x i
  let ins := if m.fmt == 8 then [0, 1] else [0]
  match a.puts with
  | p :: rest =>
    let done (s : State) (more : List Piece) : State :=
      let s1 := (s.modAgn r fun a => { a with puts := more ++ rest }).fired r
      if (more ++ rest).isEmpty && a.eot then s1.endStore r x m else s1
    match s.tryEl (s.agnWho r x i m.fmt a.spd (.put r.inst a.nextId) true) p with
    | .wait => s
    | .done s1 _ _ more => done s1 more
    | .spilled s1 => done s1 []
    | .stop s1 => deaden r s1
  | [] =>
    let cl := x.closing s.cycle r.inst i ins
    if !a.walking then s
    else if !cl.isEmpty then (s.closeSegs r cl).endStore r x m
    else
      match x.head s.cycle r.inst 0, (x.head s.cycle r.inst 1).map Token.nat with
      | none, _ => s
      | some t, sc =>
        if t.tag.thread != a.taken || (m.fmt == 8 && sc.isNone) then s
        else
          let s1 := ins.foldl (fun s p => s.take r p) s
          if a.j < m.tileTokens then
            let ps := withData t.nat (sc.getD 0) (m.pieces (agnBase i) a.tile a.j)
            let s2 := (s1.modAgn r fun a => { a with j := a.j + 1, puts := ps, eot := t.tag.eot, replayed := a.replayed || t.tag.replayed })
            let s2 := if ps.isEmpty then s2.fired r else s2
            if ps.isEmpty && t.tag.eot then s2.endStore r x m else s2
          else
            let s2 := (if a.excess then s1 else (s1.segErr r.group 1).modAgn r fun a => { a with excess := true }).fired r
            if t.tag.eot then s2.endStore r x m else s2

/-- How a command that goes through a bound AGN makes its accesses (R235, R237). -/
def State.cmdWho (s : State) (n p : Nat) (q : QCmd) (node : Word) (dest : SpillTo) (fmt : Nat) (write : Bool) : Who :=
  let f := cmdFields q.word
  { ctx := s.ctxOf n, tenant := s.tenantOf (s.ctxOf n), group := ((s.coreAt n).group).getD 0, core := n, kind := .port, loc := (s.locator n).setWidth 32,
    src := n, sub := portSub p, a := node, stream := (1 + f.cls.toNat * 256 + f.tag.toNat, n, p), cmd := some (n, p, q.id), window := f.cls == 0 || f.cls == 1
    fmt := fmt, spd := q.spd, write := write, dest := dest }

/-- The command that a token in a command-mode AGN belongs to, and its core (R235: the graph's one AGN for a port serves that port of every
core of the group). -/
def State.ownerCmd (s : State) (p : BitVec 4) (b : TokBuf) : Nat × QCmd :=
  match b.owner with
  | none => (0, { word := 0 })
  | some (n, id) => (n, (((s.coreAt n).port p).left ++ ((s.coreAt n).port p).queue).find? (·.id == id) |>.getD { word := 0 })

/-- The rest of a command is dropped (R237): its tokens not yet emitted go, and the port takes the next command. -/
def State.dropCmd (s : State) (r : CellRef) (n : Nat) (p : BitVec 4) (id : Nat) : State :=
  let mark (q : QCmd) : QCmd := if q.id = id then { q with prog := { q.prog with dropped := true } } else q
  (s.modAgn r fun a => { a with bufs := a.bufs.filter (·.owner != some (n, id)) }).modCore n fun c =>
    c.setPort p { (c.port p) with queue := (c.port p).queue.map mark, left := (c.port p).left.map mark }

/-- An access of a command-mode load AGN for a started command, and the emission of a token (R301, R317). -/
def State.boundStep (s : State) (r : CellRef) (x : Group) (i : Inst) : State :=
  let p := hf i.hdr 34 31
  let who (b : TokBuf) : Who :=
    let (n, q) := s.ownerCmd (BitVec.ofNat 4 p) b
    s.cmdWho n p q (BitVec.ofNat 64 i.node) (.buf r.inst b.id) b.fmt false
  let stop (b : TokBuf) (s : State) : State := match b.owner with
    | some (n, id) => s.dropCmd r n (BitVec.ofNat 4 p) id
    | none => s
  s.agnStep r x i who stop fun s _ => s

/-- AGN_ACCESS (R318). -/
def execAgnAccess (r : CellRef) (s : State) : Out := cellStep s r (isKind kAGN) fun x i =>
  match modeOf i.hdr with
  | 1 => s.storeStep r x i
  | 2 => s.boundStep r x i
  | 3 => s
  | _ => s.loadStep r x i

/-- AGN_ACKNOWLEDGE (R315): the writes of a segment have all been accepted. -/
def execAgnAcknowledge (r : CellRef) (s : State) : Out :=
  match s.inst? r with
  | none => .next s
  | some (x, i) =>
    match i.agn.acks with
    | [] => .next s
    | k :: rest =>
      if s.putSpilled r k.id || !s.live x then .next s
      else
        let s0 := if k.counted then s else s.finishTile r
        if !x.outLinked r.inst 0 then .next (s0.modAgn r fun a => { a with acks := rest })
        else if !x.room s.cycle r.inst 0 then
          .next (s0.modAgn r fun a => { a with acks := { k with counted := true } :: rest })
        else
          let (tag, s1) := s0.ownTag r 0 k.tag.thread k.tag
          .next ((s1.modAgn r fun a => { a with acks := rest }).write r 0 (mkTok k.tile tag) 1)

/-- Elements of an `iload` AGN's map. -/
def TMap.elems (m : TMap) : Nat := ((List.range m.rank).map m.dim).foldl (· * ·) 1

/-- Add the element of an index to the token of its thread being filled, or to a new one (R316). -/
def State.iloadElem (s : State) (r : CellRef) (i : Inst) (m : TMap) (spd : Word) (th : BitVec 20) (v : Int) : State :=
  let w := bitsOf m.fmt
  match s.inst? r with
  | none => s
  | some (_, i1) =>
    let mine (b : TokBuf) : Bool := b.opened && b.tag.thread == th
    let begun := find i1.agn.begun th.toNat
    let s1 := if i1.agn.bufs.any mine then s
      else (s.addBuf r th { id := 0, tag := { sot := begun.isNone, first := begun.isNone }, fmt := m.fmt, spd := begun.getD spd, opened := true,
                             win := !i.hdr.getLsbD 35 }).modAgn r fun a => { a with begun := put a.begun th.toNat (begun.getD spd) }
    s1.modAgn r fun a => { a with bufs := a.bufs.map fun b =>
      if (mine b) = false then b
      else
        let off := b.fill * w
        let b1 := if 0 ≤ v ∧ v < (m.elems : Int) then
            let st := m.strides.getD 0 0
            { b with todo := b.todo ++ (joinBytes ((List.range (w / 8)).map fun k =>
                (off / 8 + k, agnBase i + BitVec.ofInt 64 (v * st) + BitVec.ofNat 64 k)) []) }
          else { b with data := b.data ||| BitVec.ofNat 1024 (m.pad.toNat % 2 ^ w * 2 ^ off) }
        { b1 with fill := b.fill + 1, opened := (b.fill + 1) * w < 1024 } }

/-- End the output segment of an `iload` for a thread's index segment (R313, R316). -/
def State.iloadEnd (s : State) (r : CellRef) (th : Nat) : State :=
  s.modAgn r fun a =>
    let k := (a.bufs.zipIdx.filter fun p => p.1.tag.thread.toNat == th).getLast?.map (·.2)
    { a with
      begun := del a.begun th
      bufs := a.bufs.zipIdx.map fun p => if k == some p.2 then { p.1 with opened := false, tag := { p.1.tag with eot := true, last := true } } else p.1 }

/-- ILOAD_FIRE (R316): take an index token; its elements are then read by AGN_ACCESS. -/
def execIloadFire (r : CellRef) (s : State) : Out := cellStep s r (fun h => isKind kAGN h && modeOf h == 4) fun x i =>
  match x.closing s.cycle r.inst i [0], x.head s.cycle r.inst 0 with
  | e :: cl, _ => (if (find i.agn.begun e.2).isSome then s.iloadEnd r e.2 else s).closeSegs r (e :: cl)
  | [], none => s
  | [], some t =>
    if i.agn.full (x.allCommute r.inst) then s
    else
      let m := s.agnMap x i
      let s1 := (List.range 32).foldl (fun s k => s.iloadElem r i m (s.spdOf x.ctx) t.tag.thread (laneS t k)) s
      ((if t.tag.eot then s1.iloadEnd r t.tag.thread.toNat else s1).fired r).take r 0

/-! ### RTE (R123, R128, R320 to R324) -/

/-- Pass a token to one output. -/
def State.passTo (s : State) (r : CellRef) (x : Group) (p out : Nat) (t : Token) (f : State → State) : State :=
  if !x.room s.cycle r.inst out then s
  else
    let s1 := (((f s).fired r).write r out t 1).take r p
    if t.tag.eot then s1.finishTile r else s1

/-- Whether a setting is an RTE of mode merge. -/
def isMerge (h : BitVec 64) : Bool := kindOf h == kRTE && modeOf h == 3
/-- Merges of a cloned node that follow a route queue (R128); those of a merging RTE, which fires for each token of any input, restore sequence
order as it does (R123, R323). -/
def Group.routed (x : Group) (n : Nat) : List Nat := (List.range x.insts.length).filter fun j =>
  match x.insts[j]? with
  | some i => i.node == n && i.role == .merge && !i.gone && classOf i.hdr != 1 && !x.allCommute j && !isMerge (x.served n)
  | none => false
/-- The splits behind the first. -/
def Group.followers (x : Group) (n first : Nat) : List Nat := (List.range x.insts.length).filter fun j =>
  match x.insts[j]? with
  | some i => i.node == n && i.role == .split && !i.gone && j != first
  | none => false
/-- Queue the instance that the first split chose at the merges and the other splits (R123, R128). -/
def State.route (s : State) (g : Nat) (js : List Nat) (k : Nat) : State :=
  js.foldl (fun s j => s.modRte { group := g, inst := j } fun q => { q with route := q.route ++ [k] }) s

/-- The merges whose outputs a firing of a cloned node writes: every one, but for a written RTE, which sends a token or segment to one output. -/
def Group.fedMerges (x : Group) (n : Nat) (t : Token) (ctl : Option Token) : List Nat :=
  let h := x.served n
  let outs := max (((x.copies n).head?.map fun j => (x.outs j).length).getD 1) 1
  (x.routed n).filter fun j =>
    kindOf h != kRTE || modeOf h == 5 || ((x.insts[j]?).map fun y => y.iport == (if modeOf h == 4 then steerOut h t ctl else rteOut h outs t)).getD false

/-- The first split of a node chooses the instance of a token, or of its segment, and sends it there; none where it must wait (R123, R128). -/
def State.chooseInst (s : State) (r : CellRef) (x : Group) (i : Inst) (t : Token) : Option State :=
  let h := x.served i.node
  let q := i.rte
  let n := max (x.copies i.node).length 1
  let th := t.tag.thread.toNat
  let whole := segWise h
  let known := find q.cur th
  let out := if whole then known.getD (if classOf h == 2 then q.pos % n else t.tag.seq.toNat % n) else t.tag.seq.toNat % n
  let fresh := !whole || known.isNone
  let ctl := (x.followers i.node r.inst).head?.bind fun j => x.head s.cycle j 0
  let others := x.fedMerges i.node t ctl ++ x.followers i.node r.inst
  let full := others.any fun j => match x.insts[j]? with | some y => decide (y.rte.route.length ≥ 64) | none => false
  let blind := kindOf h == kRTE && modeOf h == 4 && !h.getLsbD 32 && ctl.isNone
  if (fresh && (full || blind)) || !x.room s.cycle r.inst out then none
  else some (s.passTo r x 0 out t fun s =>
    let s1 := if fresh then s.route r.group others out else s
    (s1.modRte r fun q => { q with
      pos := if fresh && classOf h == 2 then (q.pos + 1) % n else q.pos
      cur := if !whole then [] else if t.tag.eot then del q.cur th else put q.cur th out }).modInst r fun i => { i with emitted := t.tag.seq })

/-- The splits of a node that hands out single tokens close segments (R44); where only some of a VEC's do, the others discard the rest of theirs
(R285). -/
def State.closeSplits (s : State) (r : CellRef) (x : Group) (i : Inst) (cl all : List (Nat × Token)) : State :=
  let s1 := cl.foldl (fun s p => s.closeSegs { group := r.group, inst := p.1 } [(0, p.2.tag.thread.toNat)]) s
  let rest := all.filter fun p => !(cl.map (·.1)).contains p.1
    && ((x.insts[p.1]?).map fun y => cl.any fun c => y.opens.contains (0, (i.mateOf r.inst (c.1, c.2.tag.thread.toNat) p.1).2)).getD false
  if kindOf (x.served i.node) != kVEC || rest.isEmpty then s1
  else
    let s2 := (rest.foldl (fun s p => s.modInst { group := r.group, inst := p.1 } fun y => { y with skip := [0] }) s1).segErr r.group 1
    match x.insts.find? fun y => y.node == i.node && y.role == .node with
    | some y => s2.mismatch x y i.emitted
    | none => s2

/-- The first split of a node whose splits hand out single tokens: the tokens of one firing are taken together, so that a length mismatch is met at
the splits, which discard what a VEC pairs with nothing (R123, R285). -/
def State.pairSplit (s : State) (r : CellRef) (x : Group) (i : Inst) (t : Token) : State :=
  let sibs := x.followers i.node r.inst
  let all := (r.inst, t) :: sibs.filterMap fun j => (x.head s.cycle j 0).map fun t => (j, t)
  let busy := sibs.any fun j => ((x.insts[j]?).map fun y => !y.rte.route.isEmpty || !y.skip.isEmpty).getD false
  if busy || all.length ≤ sibs.length then s
  else
    let meets := all.filter fun p => p.2.tag.sot && ((x.insts[p.1]?).map fun y => y.isOpen 0 p.2).getD false
    let cl := meets.filter fun p => meets.head?.map (fun a => i.mateOf r.inst (a.1, a.2.tag.thread.toNat) p.1) == some (p.1, p.2.tag.thread.toNat)
    let stale (m : Nat × List (Nat × Nat)) : Bool := cl.any fun e => (e.1, e.2.tag.thread.toNat) == (r.inst, m.1) || m.2.contains (e.1, e.2.tag.thread.toNat)
    if !cl.isEmpty then (s.closeSplits r x i cl all).modInst r fun y => { y with mates := y.mates.filter fun m => !stale m }
    else
      let late := if kindOf (x.served i.node) == kVEC && all.any (fun p => p.2.tag.eot) then all.filter fun p => !p.2.tag.eot else []
      match s.chooseInst r x i t with
      | none => s
      | some s1 => late.foldl (fun (s : State) p => s.modInst { group := r.group, inst := p.1 } fun y => { y with skip := [0] })
          (s1.modInst r fun y => y.pairUp all)

/-- A split ends the open segment of a thread in the instance that has it (R44): with end-of-tile on its last token while that is on its way, else
the instance is told. -/
def State.endSeg (s : State) (r : CellRef) (x : Group) (k th : Nat) : State :=
  (x.outLinks r.inst k).foldl (fun s j =>
    match x.links[j]? with
    | none => s
    | some l =>
      match l.toks.reverse.findIdx? fun t => t.tok.tag.thread.toNat == th with
      | some b => (s.modGroup r.group fun x => { x with links := modAt x.links j fun l => { l with
          toks := modAt l.toks (l.toks.length - 1 - b) fun t => { t with tok := { t.tok with tag := { t.tok.tag with eot := true } } } } }).segErr r.group 1
      | none => s.modInst { group := r.group, inst := l.dst } fun y => { y with ends := y.ends ++ [(l.dp, th)] }) s

/-- A step of an inserted split (R44, R123, R128). -/
def State.cloneSplit (s : State) (r : CellRef) (x : Group) (i : Inst) (t : Token) : State :=
  let h := x.served i.node
  let q := i.rte
  let whole := segWise h
  let each := (kindOf h == kAGN && i.iport == 2) || (kindOf h == kRTE && i.iport == 1)
  let cl := if whole && !each then x.closing s.cycle r.inst i [0] else []
  let shut (k : Nat) (f : RteSt → RteSt) : State := (((cl.map (·.2)).foldl (fun s th => s.endSeg r x k th) s).modRte r f).closeSegs r cl
  if classOf h == 1 then s.passTo r x 0 (keyOut t.tag.thread.toNat (max (x.copies i.node).length 1)) t id
  else if isMerge h then
    let cl := x.closing s.cycle r.inst i [0]
    if cl.isEmpty then s.passTo r x 0 (t.tag.seq.toNat % max (x.copies i.node).length 1) t id else s.closeSegs r cl
  else if x.firstSplit i then
    if !i.skip.isEmpty then s.discard r x i
    else if !cl.isEmpty then shut ((find q.cur t.tag.thread.toNat).getD 0) fun q => { q with cur := del q.cur t.tag.thread.toNat }
    else if perTok h then s.pairSplit r x i t
    else (s.chooseInst r x i t).getD s
  else
    match q.route with
    | [] => if i.skip.isEmpty then s else s.discard r x i
    | k :: rest =>
      if !cl.isEmpty then shut k fun q => { q with route := rest }
      else
        let ends := !whole || each || t.tag.eot
        s.passTo r x 0 k t fun s => if ends then s.modRte r fun q => { q with route := rest } else s

/-- RTE_SPLIT (R320, R322). -/
def execRteSplit (r : CellRef) (s : State) : Out := cellStep s r (fun h => isKind kRTE h && modeOf h != 3 && modeOf h != 4) fun x i =>
  match x.head s.cycle r.inst 0 with
  | none => s
  | some t =>
    if i.role == .split then s.cloneSplit r x i t
    else
      let n := max (x.outs r.inst).length 1
      let th := t.tag.thread.toNat
      let cl := x.closing s.cycle r.inst i [0]
      if !cl.isEmpty then (s.modRte r fun q => { q with cur := del q.cur th }).closeSegs r cl
      else
        match modeOf i.hdr with
        | 2 =>
          let out := (find i.rte.cur th).getD (i.rte.pos % n)
          let fresh := (find i.rte.cur th).isNone
          s.passTo r x 0 out t fun s => s.modRte r fun q => { q with
            pos := if fresh then (q.pos + 1) % n else q.pos
            cur := if t.tag.eot || !(t.tag.sot || !fresh) then del q.cur th else put q.cur th out }
        | 5 =>
          let outs := x.outs r.inst
          if !outs.all (x.room s.cycle r.inst) then s
          else
            let s1 := (outs.foldl (fun s p => s.write r p t 1) (s.fired r)).take r 0
            if t.tag.eot then s1.finishTile r else s1
        | _ => s.passTo r x 0 (rteOut i.hdr n t) t id

/-- Release a token at a merge; one whose node numbers its own output takes the merge's count, and it follows the segments that it writes (R42, R128,
R130, R271). -/
def State.mergeOut (s : State) (r : CellRef) (i : Inst) (t : Token) : State :=
  let own := i.role == .merge && ownKinds.contains (kindOf (((s.group? r.group).map fun x => x.served i.node).getD 0))
  let (tag, s1) := if own then s.ownTag r 0 t.tag.thread t.tag else (t.tag, s)
  let key := (0, t.tag.thread.toNat)
  let mark (y : Inst) : Inst :=
    let opens := if t.tag.sot then y.opens.filter (· != key) ++ [key] else y.opens
    { y with opens := if t.tag.eot then opens.filter (· != key) else opens }
  let s2 := ((if i.role == .merge then s1.modInst r mark else s1).fired r).write r 0 { t with tag := tag } 1
  if t.tag.eot then s2.finishTile r else s2

/-- The lowest input with a token at its head. -/
def Group.firstHead (x : Group) (now j : Nat) (ok : Nat → Token → Bool) : Option (Nat × Token) :=
  (x.ins j).findSome? fun p => ((x.head now j p).filter (ok p)).map fun t => (p, t)

/-- A merge that restores sequence order (R323). -/
def State.mergeSeq (s : State) (r : CellRef) (x : Group) (i : Inst) : State :=
  let q := i.rte
  let isNext (t : Token) : Bool := t.tag.seq == findD q.expect t.tag.thread.toNat 0
  let bump (q : RteSt) (t : Token) : RteSt := { q with expect := put q.expect t.tag.thread.toNat (t.tag.seq + 1) }
  match q.held.find? fun p => isNext p.2 with
  | some h =>
    if x.room s.cycle r.inst 0 then (s.modRte r fun q => bump { q with held := q.held.filter (· != h) } h.2).mergeOut r i h.2 else s
  | none =>
    match x.firstHead s.cycle r.inst fun _ t => isNext t with
    | some (p, t) => if x.room s.cycle r.inst 0 then ((s.modRte r fun q => bump q t).mergeOut r i t).take r p else s
    | none =>
      match x.firstHead s.cycle r.inst fun _ _ => true with
      | some (p, t) => if q.held.length < 64 then ((s.modRte r fun q => { q with held := q.held ++ [(p, t)] }).fired r).take r p else s
      | none => s

/-- The head token that arrived first, the lowest input first among those of one cycle (R323). -/
def Group.firstArrived (x : Group) (now j : Nat) : Option (Nat × Token) :=
  ((x.ins j).foldl (fun (b : Option (Nat × Nat × Token)) p =>
    match x.head now j p, ((x.inLink j p).bind fun k => x.links[k]?).bind fun l => l.toks.head? with
    | some t, some l => if (b.map fun c => decide (l.ready < c.1)).getD true then some (l.ready, p, t) else b
    | _, _ => b) none).map (·.2)

/-- A merge in arrival order (R123, R323). -/
def State.mergeAny (s : State) (r : CellRef) (x : Group) (i : Inst) : State :=
  match x.firstArrived s.cycle r.inst with
  | some (p, t) => if x.room s.cycle r.inst 0 then (s.mergeOut r i t).take r p else s
  | none => s

/-- An inserted merge, by its route queue (R128). -/
def State.mergeRoute (s : State) (r : CellRef) (x : Group) (i : Inst) : State :=
  let q := i.rte
  let whole := segWise (x.served i.node)
  let pop (t : Token) (q : RteSt) : RteSt := if !whole || t.tag.eot then { q with route := q.route.drop 1 } else q
  match q.route with
  | [] => s
  | k :: _ =>
    match q.held.find? fun p => p.1 == k with
    | some h =>
      if x.room s.cycle r.inst 0 then (s.modRte r fun q => pop h.2 { q with held := q.held.erase h }).mergeOut r i h.2 else s
    | none =>
      match x.head s.cycle r.inst k with
      | some t => if x.room s.cycle r.inst 0 then ((s.modRte r (pop t)).mergeOut r i t).take r k else s
      | none =>
        match x.firstHead s.cycle r.inst fun p _ => p != k with
        | some (p, t) => if q.held.length < 64 then ((s.modRte r fun q => { q with held := q.held ++ [(p, t)] }).fired r).take r p else s
        | none => s

/-- RTE_MERGE (R44, R123, R128, R323). -/
def execRteMerge (r : CellRef) (s : State) : Out := cellStep s r (fun h => isKind kRTE h && modeOf h == 3) fun x i =>
  if i.role == .merge then
    (if isMerge (x.served i.node) && !commuteOf (x.served i.node) then s.mergeSeq r x i
    else if (x.routed i.node).contains r.inst then s.mergeRoute r x i else s.mergeAny r x i)
  else if (x.copies i.node).length > 1 then s.mergeAny r x i
  else
    match (x.ins r.inst).findSome? fun p => (x.head s.cycle r.inst p).bind fun t => if t.tag.sot && i.isOpen p t then some (p, t.tag.thread.toNat) else none with
    | some e => s.closeSegs r [e]
    | none => if commuteOf i.hdr then s.mergeAny r x i else s.mergeSeq r x i

/-- RTE_STEER (R324): the output of each segment is decided at its first token; 4 discards it. -/
def execRteSteer (r : CellRef) (s : State) : Out := cellStep s r (fun h => isKind kRTE h && modeOf h == 4) fun x i =>
  let go (t : Token) (out : Nat) (ctl : Bool) : State :=
    let th := t.tag.thread.toNat
    let note (s : State) : State :=
      let s1 := s.modRte r fun q => { q with cur := if t.tag.eot then del q.cur th else put q.cur th out }
      if ctl then s1.take r 1 else s1
    if out < (x.outs r.inst).length then s.passTo r x 0 out t note
    else
      let s1 := ((note s).fired r).take r 0
      let s2 := if (find i.rte.cur th).isNone then s1.segErr r.group 1 else s1
      if t.tag.eot then s2.finishTile r else s2
  match x.closing s.cycle r.inst i [0], x.head s.cycle r.inst 0 with
  | e :: cl, _ => ((s.modRte r fun q => { q with cur := del q.cur e.2 }).closeSegs r (e :: cl)).closeMerges r e.2
  | [], none => s
  | [], some t =>
    match find i.rte.cur t.tag.thread.toNat with
    | some out => go t out false
    | none =>
      if i.hdr.getLsbD 32 then go t (steerOut i.hdr t none) false
      else if !(x.closing s.cycle r.inst i [1]).isEmpty then s.closeSegs r (x.closing s.cycle r.inst i [1]) [] false
      else
        match x.head s.cycle r.inst 1 with
        | none => s
        | some c => go t (steerOut i.hdr t (some c)) true

/-! ### TAP (R330 to R333) -/

/-- Post the arrivals that a TAP's count calls for: one for each scope at which TAPSET has set one (R254, R331). -/
def State.tapArrive (s : State) (x : Group) (i : Inst) : State :=
  [Scope.core, Scope.quad, Scope.die].foldl (fun s sc =>
    if x.tapCount i.node (BitVec.ofNat 2 (hf i.hdr 39 38)) sc (x.coreOf i) = 0 then s
    else s.send (x.coreOf i) .cell (.tap i.node (BitVec.ofNat 2 (hf i.hdr 39 38)) sc) false) s

/-- A TAP's pulse (R330, R399). -/
def State.tapPulse (s : State) (x : Group) (i : Inst) : State :=
  match (s.objOf x).taps.findIdx? (· == i.node) with
  | some k => if k < 7 then s.pulseAll x (16 + k) else s
  | none => s

/-- Whether a token carries the marker that a TAP acts on (R330); a barrier token carries none (R332). -/
def tapMark (h : BitVec 64) (t : Token) : Bool := !t.tag.barrier && (if h.getLsbD 37 then t.tag.eot else t.tag.last)

/-- The mask of a token's nonzero lanes (R333). -/
def laneMask (t : Token) : Nat := ((List.range 32).map fun k => if elemAt t.nat 32 k = 0 then 0 else 2 ^ k).sum

/-- The retire record of a token that passes now (R333). -/
def State.retireBytes (s : State) (x : Group) (i : Inst) (t : Token) : List Byte :=
  leBytes 2 x.ctx ++ leBytes 2 i.node ++ leBytes 4 t.tag.thread.toNat ++ leBytes 4 t.tag.seq.toNat ++ leBytes 4 (laneMask t)
    ++ wordBytes (s.cycleOf x.die) ++ leBytes 8 0

/-- A TAP passes its head token, or keeps it where its mode drops it. -/
def State.tapPass (s : State) (r : CellRef) (x : Group) (i : Inst) (t : Token) (f : State → State) : State :=
  let drop := t.tag.barrier && modeOf i.hdr == 2 && i.hdr.getLsbD 36
  if !drop && !x.room s.cycle r.inst 0 then s
  else
    let s1 := (f s).fired r
    let s2 := if drop then s1 else s1.write r 0 t 1
    let s3 := s2.take r 0
    if t.tag.eot && !t.tag.barrier then s3.finishTile r else s3

/-- What a TAP does with a token, by its mode (R330 to R333). One for which a record is due passes when the record is appended. Of a cloned TAP instance
0 acts on a barrier token, which comes to every instance (R397). -/
def State.tapStep (s : State) (r : CellRef) (x : Group) (i : Inst) (t : Token) : State :=
  match modeOf i.hdr with
  | 0 => s.tapPass r x i t fun s => if tapMark i.hdr t then s.tapArrive x i else s
  | 1 => s.tapPass r x i t fun s => if tapMark i.hdr t then s.tapPulse x i else s
  | 2 => s.tapPass r x i t fun s => if t.tag.barrier && i.copy == 0 then (s.tapPulse x i).tapArrive x i else s
  | _ =>
    if t.tag.barrier || laneMask t == 0 then s.tapPass r x i t id
    else if s.retires.any fun k => k.group == r.group && k.inst == r.inst && !k.due then s
    else { s with retires := s.retires ++ [{ group := r.group, inst := r.inst, header := BitVec.ofNat 64 (pw i.words 0) }] }

/-- TAP_FIRE (R330); the last token of a segment that closes early counts as one with end-of-tile (R44). -/
def execTapFire (r : CellRef) (s : State) : Out := cellStep s r (isKind kTAP) fun x i =>
  match x.headAny s.cycle r.inst 0 with
  | none => s
  | some t =>
    let cl := x.closing s.cycle r.inst i [0]
    if cl.isEmpty then s.tapStep r x i t
    else if !i.hdr.getLsbD 37 then s.closeSegs r cl
    else
      match modeOf i.hdr with
      | 0 => (s.closeSegs r cl).tapArrive x i
      | 1 => (s.closeSegs r cl).tapPulse x i
      | _ => s.closeSegs r cl

/-! ### Barrier tokens (R397) -/

/-- Inputs on which a barrier token is waited for: every linked one, but for a CNT's credit input, which takes any token (R308). -/
def Group.barIns (x : Group) (j : Nat) (i : Inst) : List Nat := (x.ins j).filter fun p => !(kindOf i.hdr == kCNT && p == 1)

/-- Kinds that pass i0's tag on with a token (R36, R302). -/
def copiesTag (k : Nat) : Bool := k == kMAT || k == kVEC || k == kFNC || k == kRTE || k == kTAP
/-- Whether an instance numbers its own output: by its kind, or, for an inserted merge, by that of the node it serves (R36, R128, R271). -/
def Group.numbersOwn (x : Group) (i : Inst) : Bool :=
  !copiesTag (kindOf i.hdr) || (i.role == .merge && ownKinds.contains (kindOf (x.served i.node)))

/-- Whether every token that an instance makes of what it has taken is written (R397): no segment is left that its split has told it to close, an ACC
releases none, a loading AGN has no tile, row or whole token in hand, a
storing one no write and no acknowledgement, an RTE holds no token, a GAT neither holds, forwards nor owes one. -/
def State.barIdle (s : State) (x : Group) (i : Inst) : Bool :=
  (i.ends.all fun e => !i.opens.contains e) && match i.st with
  | .acc sets => sets.all fun e => e.rel.isNone
  | .agn a =>
    let rows := modeOf i.hdr == 2 && x.cores.any fun n =>
      (((s.coreAt n).port (BitVec.ofNat 4 (hf i.hdr 34 31))).queue.head?.map fun q => !q.prog.idx.isEmpty).getD false
    a.bufs.all (·.opened) && a.puts.isEmpty && a.acks.isEmpty && !(modeOf i.hdr == 0 && a.walking) && !rows
  | .rte q => q.held.isEmpty
  | .gat g => g.held.isEmpty && g.fwd.isEmpty && g.outs.isEmpty
  | _ => true

/-- The state of an instance after barrier tokens have passed: a merge that restores sequence order goes on behind them (R323, R397). -/
def barSt (i : Inst) (ts : List Token) : CellState :=
  match i.st with
  | .rte q => .rte (ts.foldl (fun q t =>
      if modeOf i.hdr == 3 && t.tag.seq == findD q.expect t.tag.thread.toNat 0 then
        { q with expect := put q.expect t.tag.thread.toNat (t.tag.seq + 1) }
      else q) q)
  | st => st

/-- BARRIER_TOKEN_PASS (R397): barrier tokens at every input leave as one on each output. -/
def execBarrierTokenPass (r : CellRef) (s : State) : Out := cellStep s r (fun h => !isKind kTAP h) fun x i =>
  let ins := x.barIns r.inst i
  let heads := ins.filterMap fun p => x.headAny s.cycle r.inst p
  let outs := x.outs r.inst
  if ins.isEmpty || heads.length < ins.length || !heads.all (·.tag.barrier) || !outs.all (x.room s.cycle r.inst) || !s.barIdle x i then s
  else
    let t := heads.headD (mkTok 0 {})
    let s1 := outs.foldl (fun s p =>
      if x.numbersOwn i then
        let (tag, s1) := s.ownTag r p t.tag.thread { barrier := true }
        s1.write r p (mkTok 0 tag) 1
      else s.write r p (mkTok 0 t.tag) 1) ((s.fired r).setSt r (barSt i heads))
    ins.foldl (fun s p => s.take r p) s1

/-! ### Settings and sections (R45, R134, R292) -/

/-- Bytes of an FNC's table (R292). -/
def fncBytes : Nat := 2048
/-- Whether a node's setting waits: an FNC's table is read as a request of its cell is (R98, R407). -/
def State.settingLater (s : State) (x : Group) (i : Inst) : Bool :=
  kindOf i.hdr == kFNC && i.role == .node && s.cellReadLater x i (BitVec.ofNat 64 (pw i.words 0)) fncBytes

/-- Read an FNC's table (R292): its words; or the table cannot be read (false), or a stage-2 fault holds the read (true). -/
def State.fncTable (s : State) (x : Group) (i : Inst) : State × Except Bool (List (BitVec 32)) :=
  match s.loadZ x.ctx (BitVec.ofNat 64 (pw i.words 0)) 18 fncBytes with
  | .ok (bs, bad) s0 =>
    let s1 := s0.cellReadPaid x i (BitVec.ofNat 64 (pw i.words 0)) fncBytes
    (bad.foldl (fun s a => s.cellErr x i (.bad a)) s1, .ok ((List.range 512).map fun k => BitVec.ofNat 32 (fieldN bs (4 * k) 4)))
  | .err e s =>
    if e.host then (s.cellErr x i e, .error true)
    else ((s.cellErr x i e).loadErr x.ctx .loader (unitLoc x.die) (unitSrc x.die) x.graph (BitVec.ofNat 64 i.node) 9, .error false)

/-- Load a node's setting into its entry; an FNC reads its table again (R134, R292). -/
def State.loadSetting (s : State) (r : CellRef) (x : Group) (i : Inst) : State :=
  if kindOf i.hdr == kFNC && i.role == .node then
    match s.fncTable x i with
    | (s1, .ok t) => s1.modInst r fun i => { i with loaded := true, st := .fnc t }
    | (s1, .error true) => s1.modInst r fun i => { i with held := true }
    | (s1, .error false) => s1.modInst r fun i => { i with loaded := true, dead := true }
  else s.modInst r fun i => { i with loaded := true }

/-- Load a missing setting; a cell with four others first evicts the one that fired least recently and has no open segment (R134). -/
def State.fillSetting (s : State) (r : CellRef) : State :=
  match s.inst? r with
  | none => s
  | some (x, i) =>
    if i.loaded || i.gone || i.held || !s.live x || s.settingLater x i then s
    else
      let mates := x.insts.zipIdx.filter fun p => p.2 != r.inst && p.1.rank == i.rank && p.1.cell == i.cell && !p.1.gone && p.1.loaded
      if mates.length < 4 then s.loadSetting r x i
      else
        match (mates.filter fun p => p.1.opens.isEmpty).foldl (fun (b : Option (Nat × Nat)) p =>
            let c := p.1.fired.getD 0
            match b with
            | some (c0, _) => if c < c0 then some (c, p.2) else b
            | none => some (c, p.2)) none with
        | none => s
        | some (_, j) => (s.modInst { group := r.group, inst := j } fun y => { y with loaded := false }).loadSetting r x i

/-- SETTING_LOAD (R134). -/
def execSettingLoad (r : CellRef) (s : State) : Out := .next (s.fillSetting r)

/-- COUNT_POINT_FINISH (R45). -/
def execCountPointFinish (group sec : Nat) (s : State) : Out :=
  match (s.group? group).bind fun x => x.secs[sec]? with
  | some e => .next (if 0 < e.fin then (if e.count = 0 then s.modGroup group fun x => { x with secs := modAt x.secs sec fun e => { e with fin := 0 } } else s.countTile group sec) else s)
  | none => .next s

end Sys2Proof.Machine
end

