-- ==== Sys2Proof/Machine/Exchange.lean ====
section
/-! DEFINITION. Accesses to windows by exchange address: the tests of a bank switch, writes of STX, MCAST and copy engines, reads of copy
engines (R201, R245, R247, R338 to R340). -/

namespace Sys2Proof.Machine

/-- Whether a core holds a group of a tenant. -/
def State.holdsTenant (s : State) (m tenant : Nat) : Bool :=
  match s.groupOf m with
  | some x => x.tenant == tenant && x.status == .running
  | none => false

/-- Where a write to a window of core m goes, or the cause that discards it, by the first test of R201 that holds; a copy engine, named by its
command's number, also writes tagged windows of its context (R245), and what it was asked to write before a drain began (R218). -/
def State.xDest (s : State) (tenant ctx m : Nat) (w : BitVec 4) (copy : Option Nat) : Except (BitVec 8) BankId :=
  let x := (s.coreAt m).win w
  let up := x.state == .attached || x.state == .draining
  let owed := (copy.map fun num => s.drained m w num).getD false
  if !s.holdsTenant m tenant then .error 0x11
  else if !up || (x.state == .draining && x.mode == .plain && !owed) then .error 0x10
  else if copy.isSome && x.mode == .tagged && x.w && (x.state == .attached || owed) && s.ctxOf m == ctx then
    match x.bank with
    | some b => .ok b
    | none => .error 0x10
  else if x.mode == .tagged || !x.w then .error 0x11
  else
    match if x.mode == .exchange then x.shadow else x.bank with
    | some b => .ok b
    | none => .error 0x10

/-- The live bank that a copy engine reads, or the cause (R245). -/
def State.xSource (s : State) (tenant m : Nat) (w : BitVec 4) : Except (BitVec 8) BankId :=
  let x := (s.coreAt m).win w
  if !s.holdsTenant m tenant then .error 0x11
  else if x.state != .attached then .error 0x10
  else
    match x.bank with
    | some b => .ok b
    | none => .error 0x10

/-- The cause of an access whose address has reserved bits and so names no window, by the first test of R201 that holds. -/
def State.noWindow (s : State) (tenant m : Nat) : BitVec 8 := if s.holdsTenant m tenant then 0x10 else 0x11

/-- The record of an access to a window of core m that is discarded for want of permission: where a bank of another tenant, or a window of another context,
discards it, it names the network queue, by the router of the core's quad (R98, R406, R414). -/
def State.byQueue (s : State) (tenant ctx m : Nat) (r : FRec) : FRec :=
  if r.cause = 0x11 ∧ (!s.holdsTenant m tenant || s.ctxOf m != ctx) then { r with kind := .network, src := 2465 + dieOf m * 48 + quadOf m, sub := 0 } else r

/-- Whether a write to a window of core m waits for the next cycle, since its bank has served an agent that comes after (R338). -/
def State.xLater (s : State) (tenant ctx m : Nat) (w : BitVec 4) (copy : Option Nat) (rank : Nat) : Bool :=
  match s.xDest tenant ctx m w copy with
  | .ok b => !s.inOrder (bankPlace (bankAddr (dieOf m) b 0 / 65536)) rank
  | .error _ => false

/-- Write bytes at an offset of a core's window by exchange, for the agent of a rank; the cause where it is discarded, or where a failed unit drops
part (R338, R339). -/
def State.xWrite (s : State) (tenant ctx m : Nat) (w : BitVec 4) (off : Nat) (bs : List Byte) (copy : Option Nat) (rank : Nat) : State × Option (BitVec 8) :=
  match s.xDest tenant ctx m w copy with
  | .error c => (s, some c)
  | .ok b =>
    let (s1, bad) := (s.noteServed (bankPlace (bankAddr (dieOf m) b 0 / 65536)) rank).bankWrite (bankAddr (dieOf m) b off) bs
    (s1, if bad then some 0x50 else none)

/-- Exchange writes of a number that wait for a swap of their window to come first: those not posted before their core's arrival (R396), or
before the SWAPB that drains it (R220). -/
def State.swapFirst (s : State) (m : Nat) (w : BitVec 4) (id : Nat) : Bool :=
  ((s.coreAt m).swaps.any fun p => p.1 == w.toNat && !p.2.contains id) || (match (s.coreAt m).wait with
    | .access (.swapb _ v v2 below) _ _ => (v == w || v2 == w) && below ≤ id
    | _ => false)

end Sys2Proof.Machine
end

