-- ==== Sys2Proof/Machine/StepCache.lean ====
section
/-! DEFINITION. The step cache: GAT cells, the recall store of a die and the counter table (R87, R325 to R329, R360 to R375). -/

namespace Sys2Proof.Machine

/-! ### The recall store (R360 to R363) -/

/-- The entry of a tag on a die (R361). -/
def State.rcLookup (s : State) (die ctx blk tile : Nat) : Option RcEntry :=
  ((findD s.recalls die []).flatMap (·.entries)).find? fun e => e.ctx == ctx && e.blk == blk && e.tile == tile

/-- Change the entries of a die. -/
def State.modEntries (s : State) (die : Nat) (f : List RcEntry → List RcEntry) : State :=
  { s with recalls := put s.recalls die ((findD s.recalls die []).map fun a => { a with entries := f a.entries }) }

/-- Change the entry of a number. -/
def State.modEntry (s : State) (die id : Nat) (f : RcEntry → RcEntry) : State :=
  s.modEntries die fun es => es.map fun e => if e.id = id then f e else e

/-- Slots of a die's recall store (R360). -/
def State.rcSlots (s : State) (die : Nat) : Nat := s.recallBytes die / 16384

/-- Give a (context, graph object) its allocation on a die, once (R362). -/
def State.rcAllocate (s : State) (die ctx : Nat) (graph : Nat) : State :=
  let l := findD s.recalls die []
  if l.any fun a => a.ctx == ctx && a.graph == graph then s
  else
    let want := ((s.tenant? (s.tenantOf ctx)).map (·.cfg.recallAlloc)).getD 0
    let free := s.rcSlots die - (l.map (·.slots)).sum
    { s with recalls := put s.recalls die (l ++ [{ ctx := ctx, graph := graph, slots := min want free }]) }

/-- Whether entry a is replaced before entry b by a capture of step s: further behind, then lower block, then lower tile (R363). -/
def rcBefore (st : BitVec 32) (a b : RcEntry) : Bool :=
  let x := (st - a.step).toNat
  let y := (st - b.step).toNat
  x > y || (x == y && (a.blk < b.blk || (a.blk == b.blk && a.tile < b.tile)))

/-- The entry that a capture replaces in a full allocation; none where every one is being replayed (R363). -/
def rcVictim (st : BitVec 32) (es : List RcEntry) : Option RcEntry :=
  (es.filter fun e => e.busy == 0).foldl (fun b e => match b with
    | none => some e
    | some x => if rcBefore st e x then some e else b) none

/-- What becomes of the allocations of a die at an entry write; none where the capture is dropped (R361, R363). -/
def rcPlace (l : List RcAlloc) (graph : Nat) (e : RcEntry) : Option (List RcAlloc) :=
  let same (x : RcEntry) : Bool := x.ctx == e.ctx && x.blk == e.blk && x.tile == e.tile
  if l.any fun a => a.entries.any same then
    some (l.map fun a => { a with entries := a.entries.map fun x => if same x then e else x })
  else
    match l.find? fun a => a.ctx == e.ctx && a.graph == graph with
    | none => none
    | some a =>
      let set (es : List RcEntry) : List RcAlloc := l.map fun b => if b.ctx == e.ctx && b.graph == graph then { b with entries := es } else b
      if a.entries.length < a.slots then some (set (a.entries ++ [e]))
      else match rcVictim e.step a.entries with
        | none => none
        | some v => some (set ((a.entries.filter fun x => x.id != v.id) ++ [e]))

/-! ### The counter table (R371, R372) -/

/-- Address of a block's row (R371). -/
def State.rcRow (s : State) (ctx blk : Nat) : Word :=
  ((s.context? ctx).map (·.cfg.region)).getD 0 + BitVec.ofNat 64 (0x1C0000 + 64 * blk)

/-- Apply one addition to a row, or write its step of the last decision. -/
def State.rcApply (s : State) (ctx : Nat) (a v : Word) : Res Unit :=
  if a.toNat % 64 = 0x28 then s.store ctx a (leBytes 4 v.toNat) (some 15)
  else
    match s.load ctx a 8 (some 15) with
    | .err e s => .err e s
    | .ok bs s1 => s1.store ctx a (leBytes 8 (min (leNat bs + v.toNat) (2 ^ 64 - 1))) (some 15)

/-- Make an addition, or write zero to a row, as the recall store controller of a die: where it faults it is recorded and lost; a stage-2 fault holds
it (R372). -/
def State.rcPut (s0 : State) (h : HeldAdd) : State :=
  let s := s0.portsServed h.addr 8 (rankOf (2433 + h.die) 0)
  match if h.zero then s.store h.ctx h.addr (List.replicate 64 0) (some 15) else s.rcApply h.ctx h.addr h.v with
  | .ok _ s1 => s1
  | .err e s =>
    let s1 := s.accessRec h.ctx .memport (BitVec.ofNat 32 (h.die * 128)) (2433 + h.die) false (BitVec.ofNat 64 h.blk) e
    if e.host then { s1 with heldAdds := s1.heldAdds ++ [{ h with held := true }] } else s1
/-- Send an addition to its home port, which takes those of one controller in turn, and in a cycle in which it has served a later agent takes it in the
next (R98, R346). -/
def State.rcSend (s : State) (h : HeldAdd) : State :=
  if s.portsLater h.addr 8 (rankOf (2433 + h.die) 0) || s.heldAdds.any fun k => !k.held && k.die == h.die then
    { s with heldAdds := s.heldAdds ++ [{ h with held := false }] }
  else s.rcPut h
/-- An addition of the recall store controller of a die (R372). -/
def State.rcAdd (s : State) (die ctx blk off n : Nat) : State :=
  s.rcSend { die := die, ctx := ctx, blk := blk, addr := s.rcRow ctx blk + BitVec.ofNat 64 off, v := BitVec.ofNat 64 n }

/-- The additions of one decision (R371). -/
def State.rcDecision (s : State) (die ctx blk : Nat) (st : BitVec 32) (adds : List (Nat × Nat)) : State :=
  (adds ++ [(0x28, st.toNat)]).foldl (fun s (p : Nat × Nat) => s.rcAdd die ctx blk p.1 p.2) s

/-! ### The comparison (R87) -/

/-- An element as the comparison widens it to FP32. -/
def widen (f : Fmt) (x : Nat) : Val :=
  match f with
  | .s32 | .x80 => fpValue .f32 (rnd (value f x))
  | _ => value f x

/-- One element of the comparison: the running distance and the running sum of stored magnitudes. -/
def gatStep (rell1 : Bool) (f : Fmt) (acc : Val × Val) (xp : Nat × Nat) : Val × Val :=
  let e := frnd (vabs (vsub (widen f xp.1) (widen f xp.2)))
  if rell1 then (frnd (vadd acc.1 e), frnd (vadd acc.2 (vabs (widen f xp.2)))) else (vmax acc.1 e, acc.2)

/-- Whether an input lies within the threshold of a stored input (R87). -/
def gatMatch (f : Fmt) (x p : List Nat) (rell1 : Bool) (thr : Nat) : Bool :=
  let (d, sp) := (x.zip p).foldl (gatStep rell1 f) (Val.zero, Val.zero)
  let lim := if rell1 then frnd (vmul (fpValue .f32 thr) sp) else fpValue .f32 thr
  !isNan d && !isNan lim && (vlt d lim || veq d lim)

/-- The elements of tokens in a format. -/
def gatElems (f : Fmt) (ds : List Nat) : List Nat := ds.flatMap fun d => elems d (elemBits f) (elemsPerToken f)

/-! ### GAT (R325 to R329) -/

def gatBlk (h : BitVec 64) : Nat := hf h 29 18
def State.modGat (s : State) (r : CellRef) (f : GatSt → GatSt) : State :=
  s.modInst r fun i => match i.st with
    | .gat g => { i with st := .gat (f g) }
    | _ => i


/-- The outputs that are first of their key: no output passes an earlier one of its key (R328). -/
def gatFronts (h : BitVec 64) : List GatOut → List Nat → List GatOut
  | [], _ => []
  | o :: rest, seen =>
    let k := gatKey h o.thread
    if seen.contains k then gatFronts h rest seen else o :: gatFronts h rest (k :: seen)

/-- Tokens of a segment as they are forwarded on o0 (R302). -/
def forwarded (ts : List Token) (closed : Bool) : List Token :=
  let rep := ts.any (·.tag.replayed)
  ts.zipIdx.map fun p => { p.1 with tag := { p.1.tag with
    sot := p.2 == 0, eot := closed && p.2 + 1 == ts.length, replayed := rep, late := false } }

/-- Tile index of a segment of a key at a step, and the GAT with its counter advanced (R326). -/
def GatSt.nextTile (g : GatSt) (key : Nat) (st : BitVec 32) : Nat × GatSt :=
  let t := if find g.steps key = some st then findD g.tiles key 0 else 0
  (t, { g with tiles := put g.tiles key ((t + 1) % 2 ^ 32), steps := put g.steps key st })

/-- Handle a segment as a miss: forward it, and capture its output unless it is over-long (R327). -/
def GatSt.missed (g : GatSt) (th : BitVec 20) (ts : List Token) (tile : Nat) (st : BitVec 32) (closed capture : Bool) : GatSt :=
  { g with
    held := g.held.filter (·.tag.thread != th)
    sampled := del g.sampled th.toNat
    whole := none
    pass := if closed then g.pass else put g.pass th.toNat (ts.any (·.tag.replayed))
    fwd := g.fwd ++ forwarded ts closed
    caps := g.caps ++ [{ thread := th, tile := tile, step := st, input := if capture then ts.map (fun t => BitVec.ofNat 1024 t.nat) else [], bad := !capture }]
    outs := g.outs ++ [.miss th] }

/-- Whether a lookup of a tile waits for an open capture or an entry write of the same instance (R364). -/
def State.gatWaits (s : State) (r : CellRef) (g : GatSt) (tile : Nat) : Bool :=
  (g.caps.any fun c => c.tile == tile && !c.input.isEmpty)
    || s.rcWrites.any fun w => w.group == r.group && w.inst == r.inst && w.entry.tile == tile

/-- Decide a whole segment (R326, R327, R366, R369, R370); it waits for an open capture of its tile and, as a hit, for its section to be armed. -/
def State.gatDecide (s : State) (r : CellRef) (x : Group) (i : Inst) (g : GatSt) (th : BitVec 20) : State :=
  let h := i.hdr
  let blk := gatBlk h
  let ts := g.held.filter (·.tag.thread == th)
  let st : BitVec 32 := findD g.sampled th.toNat 0
  let (tile, g1) := g.nextTile (gatKey h th) st
  if s.gatWaits r g tile then s
  else
    let found := s.rcLookup x.die x.ctx blk tile
    let broken := (found.map (·.bad)).getD false
    let s1 := if broken then
        (s.modEntries x.die fun es => es.filter fun e => some e.id != found.map (·.id)).record {
          tenant := x.tenant, cause := 0x50, kind := .memport, ctx := BitVec.ofNat 12 x.ctx, loc := BitVec.ofNat 32 (x.die * 128),
          a := BitVec.ofNat 64 blk, b := BitVec.ofNat 64 tile, c := 0, src := 2433 + x.die }
      else s
    let cand := found.filter fun e => !e.bad && e.step == st - 1 && e.input.length == ts.length
    let force := hf h 38 31
    let forced := (cand.map fun e => force != 0 && decide (force ≤ e.replays)).getD false
    let f := (fmtOf (hf h 5 2)).getD .f32
    let near (e : RcEntry) : Bool :=
      (h.getLsbD 30 && ts.all (·.tag.replayed))
        || gatMatch f (gatElems f (ts.map fun t => t.nat % 2 ^ 1024)) (gatElems f (e.input.map (·.toNat))) (h.getLsbD 39) (pw i.words 0 % 2 ^ 32)
    match if forced then none else cand.filter near with
    | some e =>
      let k := hf h 17 6
      if !((x.secs[k]?).map fun c => decide (0 < c.left)).getD false then s
      else
        let s2 := s1.modGroup r.group fun x => { x with secs := modAt x.secs k fun c => { c with fin := c.fin + 1 } }
        let s3 := s2.modEntry x.die e.id fun e => { e with step := st, replays := min 255 (e.replays + 1), busy := e.busy + 1 }
        let s4 := s3.modGat r fun _ => { g1 with
          held := g1.held.filter (·.tag.thread != th), sampled := del g1.sampled th.toNat, whole := none, outs := g1.outs ++ [.replay th e.id e.output] }
        s4.rcDecision x.die x.ctx blk st [(0, 1), (0x10, 128 * ts.length)]
    | none =>
      (s1.modGat r fun _ => g1.missed th ts tile st true true).rcDecision x.die x.ctx blk st ((8, 1) :: if forced then [(0x18, 1)] else [])

/-- Write the next token of a replay on o1 (R328). -/
def State.gatReplay (s : State) (r : CellRef) (x : Group) (o : GatOut) : State :=
  match o with
  | .replay th id (t :: rest) =>
    let (tag, s1) := s.ownTag r 1 th { t.tag with replayed := true, late := false }
    let s2 := (s1.fired r).write r 1 { t with tag := tag } 1
    let s3 := s2.modGat r fun g => { g with outs := if rest.isEmpty then g.outs.erase o else modAt g.outs (g.outs.idxOf o) fun _ => .replay th id rest }
    let s4 := if rest.isEmpty then s3.modEntry x.die id fun e => { e with busy := e.busy - 1 } else s3
    if t.tag.eot then s4.finishTile r else s4
  | _ => s

/-- Take the head token of i0 into the segment of its thread (R326, R327). -/
def State.gatTake (s : State) (r : CellRef) (x : Group) (i : Inst) (g : GatSt) (t : Token) : State :=
  let th := t.tag.thread
  let k := th.toNat
  let s1 := (s.fired r).take r 0
  match find g.pass k with
  | some rep =>
    let t1 : Token := { t with tag := { t.tag with sot := false, replayed := rep || t.tag.replayed, late := false } }
    s1.modGat r fun g => { g with fwd := g.fwd ++ [t1], pass := if t.tag.eot then del g.pass k else put g.pass k (rep || t.tag.replayed) }
  | none =>
    let now : BitVec 32 := ((s.graphSt x.ctx x.key).map (·.stepno)).getD 0
    let g1 : GatSt := { g with
      held := g.held ++ [t]
      sampled := if (find g.sampled k).isSome then g.sampled else put g.sampled k now }
    let ts := g1.held.filter (·.tag.thread == th)
    if ts.length > 64 then
      let st : BitVec 32 := findD g1.sampled k 0
      let (tile, g2) := g1.nextTile (gatKey i.hdr th) st
      (s1.modGat r fun _ => g2.missed th ts tile st t.tag.eot false).rcDecision x.die x.ctx (gatBlk i.hdr) st [(8, 1)]
    else s1.modGat r fun _ => { g1 with whole := if t.tag.eot then some th else none }

/-- A start-of-tile token closes the open segment of its thread on i0 (R44). -/
def State.gatClose (s : State) (r : CellRef) (g : GatSt) (cl : List (Nat × Nat)) : State :=
  let th := BitVec.ofNat 20 ((cl.map (·.2)).headD 0)
  let s1 := s.closeSegs r cl
  if (find g.pass th.toNat).isSome then
    s1.modGat r fun g => { g with
      pass := del g.pass th.toNat
      fwd := g.fwd.zipIdx.map fun p => if p.2 + 1 == g.fwd.length && p.1.tag.thread == th then { p.1 with tag := { p.1.tag with eot := true } } else p.1 }
  else s1.modGat r fun g => { g with whole := some th }

/-- GAT_SEGMENT (R326, R327): forward, replay, decide, or take a token; while a segment is held, tokens of other threads wait. -/
def execGatSegment (r : CellRef) (s : State) : Out := cellStep s r (isKind kGAT) fun x i =>
  match i.st with
  | .gat g =>
    let replays := (gatFronts i.hdr g.outs []).filter fun o => match o with
      | .replay _ _ _ => true
      | _ => false
    let intake : State :=
      let cl := x.closing s.cycle r.inst i [0]
      match g.whole, x.head s.cycle r.inst 0 with
      | some th, _ => s.gatDecide r x i g th
      | none, some t =>
        if !cl.isEmpty then s.gatClose r g cl
        else if g.fwd.length ≥ 64 || g.held.any (·.tag.thread != t.tag.thread) then s else s.gatTake r x i g t
      | none, none => if cl.isEmpty then s else s.gatClose r g cl
    let next : State :=
      match replays with
      | o :: _ => if x.room s.cycle r.inst 1 then s.gatReplay r x o else intake
      | [] => intake
    match g.fwd with
    | t :: rest =>
      if x.room s.cycle r.inst 0 then
        let (tag, s1) := s.ownTag r 0 t.tag.thread t.tag
        ((s1.modGat r fun g => { g with fwd := rest }).fired r).write r 0 { t with tag := tag } 1
      else next
    | [] => next
  | _ => s

/-- A capture's output segment has ended: its entry goes to the recall store, unless it was discarded or is over-long (R260, R328). -/
def State.endCapture (s : State) (r : CellRef) (x : Group) (i : Inst) (th : BitVec 20) : State :=
  match i.st with
  | .gat g0 =>
    let g := ((s.inst? r).map fun p => match p.2.st with
      | .gat g => g
      | _ => g0).getD g0
    match g.caps.find? (·.thread == th) with
    | none => s
    | some c =>
      let s1 := s.modGat r fun g => { g with caps := g.caps.erase c, outs := g.outs.erase (.miss th) }
      if c.bad || c.output.length > 64 || c.output.isEmpty then s1
      else
        let e : RcEntry := { id := s1.nextId, ctx := x.ctx, blk := gatBlk i.hdr, tile := c.tile, step := c.step, input := c.input, output := c.output }
        { s1 with
          rcWrites := s1.rcWrites ++ [{ die := x.die, graph := x.key, group := r.group, inst := r.inst, entry := e }], nextId := s1.nextId + 1 }
  | _ => s

/-- GAT_RETURN (R328): a token of the block's output passes to o1 and into the capture of its thread. -/
def execGatReturn (r : CellRef) (s : State) : Out := cellStep s r (isKind kGAT) fun x i =>
  match i.st, x.head s.cycle r.inst 1 with
  | .gat g, some t =>
    let th := t.tag.thread
    let cl := x.closing s.cycle r.inst i [1]
    if !cl.isEmpty then (s.closeSegs r cl).endCapture r x i th
    else if !(gatFronts i.hdr g.outs []).contains (.miss th) || !x.room s.cycle r.inst 1 then s
    else
      let note (c : Capture) : Capture := if c.output.length > 64 then c else { c with output := c.output ++ [t] }
      let s1 := (s.modGat r fun g => match g.caps.find? (·.thread == th) with
        | some c => { g with caps := g.caps.map fun d => if d == c then note c else d }
        | none => g).fired r
      let (tag, s2) := s1.ownTag r 1 th { t.tag with late := false }
      let s3 := (s2.write r 1 { t with tag := tag } 1).take r 1
      if t.tag.eot then (s3.endCapture r x i th).finishTile r else s3
  | _, _ => s

/-- RECALL_ENTRY_WRITE (R328, R361, R363): the k-th captured entry is written, or dropped and counted. -/
def execRecallEntryWrite (k : Nat) (s : State) : Out :=
  match s.rcWrites[k]? with
  | none => .next s
  | some w =>
    let s1 := { s with rcWrites := dropAt s.rcWrites k }
    match rcPlace (findD s1.recalls w.die []) w.graph w.entry with
    | some l => .next { s1 with recalls := put s1.recalls w.die l }
    | none => .next (s1.rcAdd w.die w.entry.ctx w.entry.blk 0x20 1)

/-- RCFLUSH at a graph's GATs and entries (R260): entries of the graph's allocations are invalidated, their slots kept; open captures are
discarded when their segments close. -/
def State.rcFlush (s : State) (ctx : Nat) (graph : Nat) (blk : Option Nat) : State :=
  let hit (b : Nat) : Bool := match blk with
    | none => true
    | some k => b == k
  { s with
    recalls := s.recalls.map fun p => (p.1, p.2.map fun a =>
      if a.ctx == ctx && a.graph == graph then { a with entries := a.entries.filter fun e => !hit e.blk } else a)
    rcWrites := s.rcWrites.filter fun w => !(w.entry.ctx == ctx && w.graph == graph && hit w.entry.blk)
    groups := s.groups.map fun p => (p.1,
      if p.2.ctx == ctx && p.2.key == graph then { p.2 with insts := p.2.insts.map fun i => match i.st with
        | .gat g => if hit (gatBlk i.hdr) then { i with st := .gat { g with caps := g.caps.map fun c => { c with bad := true } } } else i
        | _ => i }
      else p.2) }

end Sys2Proof.Machine
end

