-- ==== Sys2Proof/Machine/CmdPort.lean ====
section
/-! DEFINITION. What the stream commands share: the head of a port, decoding with its overrides, faults, completion in queue order, the bound
AGN (R146 to R150, R233 to R239). -/

namespace Sys2Proof.Machine

/-! ### The queues of a port (R233, R234) -/

def State.modPort (s : State) (n : Nat) (p : BitVec 4) (f : Port → Port) : State := s.modCore n fun c => c.setPort p (f (c.port p))
def State.portAt (s : State) (n : Nat) (p : BitVec 4) : Port := (s.coreAt n).port p

/-- Change how far the head command of a port has got. -/
def State.modHead (s : State) (n : Nat) (p : BitVec 4) (f : Prog → Prog) : State :=
  s.modPort n p fun x => { x with queue := match x.queue with
    | q :: rest => { q with prog := f q.prog } :: rest
    | [] => [] }

/-- The AGN in command mode that serves a port in a group (R235). -/
def Group.boundAgn (x : Group) (p : BitVec 4) : Option Nat := x.insts.findIdx? fun i =>
  i.role == .node && !i.gone && kindOf i.hdr == kAGN && (modeOf i.hdr == 2 || modeOf i.hdr == 3) && hf i.hdr 34 31 == p.toNat

/-- Whether an AGN of a group still has a token of a command. -/
def Group.hasTokens (x : Group) (n id : Nat) : Bool := x.insts.any fun i => i.agn.bufs.any fun b => b.owner == some (n, id)

/-- Whether a command that has left its port's head has done what its description asks (R234, R238). -/
def State.cmdDone (s : State) (n : Nat) (p : BitVec 4) (q : QCmd) : Bool :=
  let waitsRec := q.prog.dropped && s.recs.any fun r => r.kind == .port && r.src == n && r.sub == portSub p.toNat
  let swapping := (q.word.extractLsb' 120 8) == 0x0C && !q.prog.dropped
    && ((s.groupOf n).map fun x => x.insts.any fun i => i.node == (q.word.extractLsb' 0 16).toNat && i.role == .node && !i.gone && i.swapWaits).getD false
  let c := s.coreAt n
  !waitsRec && !swapping
    && !(s.spill.any fun e => e.cmd == some (n, p.toNat, q.id))
    && ((q.word.extractLsb' 120 8) == 0x07 || !((s.groupOf n).map fun x => x.hasTokens n q.id).getD false)
    && !(s.engines.any fun e => e.2.any fun j => j.core == n && j.port == p.toNat && j.id == q.id)
    && !((c.walk.map fun w => w.port == p.toNat && w.id == q.id).getD false)

/-- Report completions of a port in queue order (R234). -/
def State.settlePort (s : State) (n : Nat) (p : BitVec 4) : State :=
  s.modPort n p fun x => { x with left := x.left.dropWhile (s.cmdDone n p) }

/-- The head command of a port leaves it (R233). -/
def State.leaveHead (s : State) (n : Nat) (p : BitVec 4) : State :=
  (s.modPort n p fun x => { x with queue := x.queue.drop 1, left := x.left ++ x.queue.take 1 }).settlePort n p

/-- The record of a command fault (R149, R150, R413). -/
def State.cmdRec (s : State) (n : Nat) (p : BitVec 4) (index : Nat) (w : CmdWord) : State :=
  s.record { s.coreRec n .port 0x40#8 (BitVec.ofNat 64 index) (zext (w.extractLsb' 96 32)) (BitVec.ofNat 32 p.toNat) with kind := .port, sub := portSub p.toNat }

/-- The head command of a port faults: it has no effect, and completes when its record is written (R149, R234). -/
def State.cmdFault (s : State) (n : Nat) (p : BitVec 4) : State :=
  match (s.portAt n p).queue with
  | [] => s
  | q :: _ => ((s.cmdRec n p q.index q.word).modHead n p fun g => { g with dropped := true }).leaveHead n p

/-- The head command of a port that takes only global addresses of this package names another: a stage-1 fault at the issuing port (R156, R158). -/
def State.cmdStage1 (s : State) (n : Nat) (p : BitVec 4) (a : Word) : State :=
  match (s.portAt n p).queue with
  | [] => s
  | q :: _ => ((s.record { s.coreRec n .port 0x20#8 (BitVec.ofNat 64 q.index) a Config.noWalkLevel with sub := portSub p.toNat }).modHead n p fun g =>
      { g with dropped := true }).leaveHead n p

/-- The head command of port p, which is word w: one that is not at the head is put there. -/
def State.headCmd (s : State) (n : Nat) (p : BitVec 4) (w : CmdWord) : State × QCmd :=
  let fresh : State × QCmd :=
    let (x, q) := ((s.coreAt n).port p).marked { word := w, spd := s.spdOf (s.ctxOf n), id := (s.coreAt n).issued, num := s.nextId }
    ({ s.modCore n fun c => { c.setPort p { x with queue := q :: x.queue } with issued := c.issued + 1 } with nextId := s.nextId + 1 }, q)
  match (s.portAt n p).queue with
  | q :: _ => if q.word = w ∧ !q.empty then (s, q) else fresh
  | [] => fresh

/-! ### Commands at the head (R233 to R239) -/

/-- A command at the head of a port: its core, port, queue entry, fields, address and count, and its group with the graph object. -/
structure Cmd where
  n     : Nat
  p     : BitVec 4
  q     : QCmd
  c     : StreamCmd
  addr  : Word
  count : Nat
  g     : Nat
  x     : Group
  o     : GObj

/-- SEG and FMT of a data command (R239). -/
def Cmd.seg (d : Cmd) : Nat := d.c.flags.toNat / 16 % 8
def Cmd.fmt (d : Cmd) : Nat := d.c.flags.toNat % 16
def Cmd.window (d : Cmd) : Bool := d.c.cls == 0 || d.c.cls == 1
def Cmd.index (d : Cmd) : Nat := d.c.index.toNat
def Cmd.node (d : Cmd) : BitVec 64 := d.o.hdr d.index
def Cmd.nodeIn (d : Cmd) : Bool := d.index < d.o.nodes.length
/-- Rank of the issuing core in its placement. -/
def Cmd.rank (d : Cmd) : Nat := d.n - (d.x.die * 128 + d.x.first)

/-- A window stream does not pass the end of its window (R237). -/
def Cmd.fits (d : Cmd) (bytes : Nat) : Bool := !d.window || d.addr.toNat % 65536 + bytes ≤ 65536
def Cmd.aligned (d : Cmd) : Bool := d.addr.toNat % 128 == 0

/-- Whether the port has a bound AGN, of the direction a command needs (R235): 2 load, 3 store, 0 either. -/
def Cmd.bound (d : Cmd) (mode : Nat) : Bool :=
  match d.x.boundAgn d.p with
  | none => false
  | some j => match d.x.insts[j]? with
    | some i => mode == 0 || modeOf i.hdr == mode
    | none => false

/-- Whether the commands of a group go on: it runs, is not frozen, and its context is not being purged (R406, R420). -/
def State.cmdLive (s : State) (x : Group) : Bool :=
  x.status == .running && !((x.preempt.map (·.frozen)).getD false) && !((s.context? x.ctx).map (·.purging)).getD true

/-- Whether commands of a group may start: none is started under a pre-emption request or after every core has exited (R419, R428). -/
def State.cmdStarts (s : State) (x : Group) : Bool := x.preempt.isNone && !s.coresDone x

/-- Commands whose address must be global (R243, R244, R266). -/
def takesGlobal : Instr → Bool
  | .amostrm _ | .cpy _ | .redwinOpen _ => true
  | _ => false

/-- A step of a command at the head of its port: it is decoded when it reaches the head, and from then on takes its steps (R149, R233). -/
def runCmd (i : Instr) (c : StreamCmd) (u : AddrUse) (counts : Bool) (rule : State → Cmd → Bool) (body : State → Cmd → State) (s : State) : Out :=
  let n := s.cur
  let w := (encodeCmd i).getD 0
  match (s.coreAt n).group.bind fun g => (s.group? g).map fun x => (g, x) with
  | none => .next s
  | some (g, x) =>
    if !s.cmdLive x then .next s
    else
      let (s1, q) := s.headCmd n c.port w
      match cmdAddr u q c, cmdCount counts q c with
      | some a, some k =>
        let d : Cmd := { n := n, p := c.port, q := q, c := c, addr := a, count := k, g := g, x := x, o := s.objOf x }
        if q.prog.started then .next (body s1 d)
        else if !s.cmdStarts x then .next s1
        else if i.wf && rule s1 d then
          if takesGlobal i && !s1.isGlobal a then .next (s1.cmdStage1 n c.port a)
          else
            .next (body (s1.modHead n c.port fun g => { g with started := true }) { d with q := { q with prog := { q.prog with started := true } } })
        else .next (s1.cmdFault n c.port)
      | _, _ => if q.prog.started || s.cmdStarts x then .next (s1.cmdFault n c.port) else .next s1

/-- The command's action is taken, and it leaves the head. -/
def Cmd.act (f : State → Cmd → State) (s : State) (d : Cmd) : State := (f s d).leaveHead d.n d.p

end Sys2Proof.Machine
end

