-- ==== Sys2Proof/Machine/CmdStream.lean ====
section
/-! DEFINITION. Data commands: linear loads and stores, tensor maps, GATHER, SCATTER, AMOSTRM, FILL, MCAST, LSTAT, CPY, SEGMARK, BTOKEN
(R235 to R249, R257, R258). -/

namespace Sys2Proof.Machine

/-! ### Loads through the bound AGN (R240, R241, R257, R317) -/

/-- Alter the markers of a command's first and last token (R257). -/
def markTag (m : BitVec 4) (isFirst isLast : Bool) (t : Tag) : Tag :=
  let t1 := if isFirst then { t with sot := (t.sot || m.getLsbD 0) && !m.getLsbD 2 } else t
  if isLast then { t1 with eot := (t1.eot || m.getLsbD 1) && !m.getLsbD 3 } else t1

/-- The bound AGN of a command, if it can take one more token to read (R359, R317). -/
def State.agnFor (s : State) (d : Cmd) : Option (CellRef × Inst) :=
  (d.x.boundAgn d.p).bind fun j => (d.x.insts[j]?).bind fun i =>
    if s.live d.x && i.loaded && !i.dead && s.armed d.x i && !i.agn.full (d.x.allCommute j) then some ({ group := d.g, inst := j }, i) else none

/-- The thread of a source (R36). -/
def srcThread (i : Inst) : BitVec 20 := BitVec.ofNat 20 (pw i.words 1)

/-- Give the bound AGN one token of a command to read and emit. -/
def State.cmdToken (s : State) (d : Cmd) (r : CellRef) (th : BitVec 20) (isFirst isLast : Bool) (b : TokBuf) : State :=
  s.addBuf r th { b with owner := some (d.n, d.q.id), tag := markTag d.q.prog.mark isFirst isLast b.tag, spd := d.q.spd, win := d.window }

/-- One whole access of a token. -/
def tokPiece (a : Word) : Piece := { addr := a, bytes := 128 }

/-- MLD and SLD: the next token (R240). -/
def linearLoad (s : State) (d : Cmd) : State :=
  let k := d.q.prog.n
  let len := if d.seg = 7 then max d.count 1 else 2 ^ d.seg
  if d.q.prog.dropped || k ≥ d.count then s.leaveHead d.n d.p
  else if d.x.preempt.isSome && k % len == 0 then s
  else
    match s.agnFor d with
    | none => s
    | some (r, i) =>
      let isLast := k + 1 == d.count
      let s1 := s.cmdToken d r (srcThread i) (k == 0) isLast {
        id := 0, block := d.fmt == 8, fmt := d.fmt, todo := [tokPiece (d.addr + BitVec.ofNat 64 (128 * k))]
        tag := { first := k == 0, last := isLast, sot := k % len == 0, eot := k % len + 1 == len || isLast } }
      let s2 := s1.modHead d.n d.p fun g => { g with n := k + 1 }
      if isLast then s2.leaveHead d.n d.p else s2

/-- The map that a command names. -/
def Cmd.map (d : Cmd) : TMap := (d.o.maps[d.index]?).getD ⟨1, 15, 0, [1], [1], [1]⟩
/-- Tiles that a tensor command walks (R241). -/
def Cmd.tiles (d : Cmd) : Nat := if d.count = 0 then d.map.tiles else d.count

/-- TLD: the next token of its walk (R241). -/
def tensorLoad (s : State) (d : Cmd) : State :=
  let m := d.map
  let t := d.q.prog.n
  let j := d.q.prog.j
  if d.q.prog.dropped || t ≥ d.tiles then s.leaveHead d.n d.p
  else if d.x.preempt.isSome && j == 0 then s
  else
    match s.agnFor d with
    | none => s
    | some (r, i) =>
      let ends := j + 1 ≥ m.tileTokens
      let isLast := ends && t + 1 == d.tiles
      let isFirst := t == 0 && j == 0
      let s1 := s.cmdToken d r (srcThread i) isFirst isLast {
        id := 0, block := m.fmt == 8, fmt := m.fmt, data := m.padding d.addr t j, todo := m.pieces d.addr t j
        tag := { first := isFirst, last := isLast, sot := j == 0, eot := ends } }
      let s2 := s1.modHead d.n d.p fun g => { g with n := if ends then t + 1 else t, j := if ends then 0 else j + 1 }
      if isLast then s2.leaveHead d.n d.p else s2

/-! ### Tokens that a command takes (R240, R242, R243) -/

/-- Take the head token of an input of the bound AGN: the token, or whether its open segment was closed by a new start (R44). -/
def State.cmdTake (s : State) (d : Cmd) (port : Nat) : State × Option Token × Bool :=
  match (d.x.boundAgn d.p).bind fun j => (d.x.insts[j]?).map fun i => (CellRef.mk d.g j, i) with
  | none => (s, none, false)
  | some (r, i) =>
    if !s.mayFire d.x r.inst i then (s, none, false)
    else if !(d.x.closing s.cycle r.inst i [port]).isEmpty then (s.closeSegs r (d.x.closing s.cycle r.inst i [port]), none, true)
    else
      match d.x.head s.cycle r.inst port with
      | none => (s, none, false)
      | some t => ((s.fired r).take r port, some t, false)

/-- The lanes of an index token as row indices, holes left out (R242). -/
def indexLanes (t : Token) : List (Int × BitVec 20) :=
  ((List.range 32).map fun k => (laneS t k, t.tag.thread)).filter fun p => p.1 != -1

/-- Take the next token of a command's index segment. -/
def takeIndex (s : State) (d : Cmd) : State :=
  match s.cmdTake d 0 with
  | (s1, some t, _) => s1.modHead d.n d.p fun g => { g with idx := g.idx ++ indexLanes t, eoi := t.tag.eot }
  | (s1, none, true) => s1.modHead d.n d.p fun g => { g with eoi := true }
  | (s1, none, false) => s1

/-- The token that an AGN began last has scale bytes of 0x00 (R242). -/
def State.zeroScales (s : State) (r : CellRef) : State :=
  s.modAgn r fun a => { a with bufs := modAt a.bufs (a.bufs.length - 1) fun b => { b with scale := b.scale &&& (0xFF#1024 <<< 1016) } }

/-- GATHER: take an index token, or emit the next token of a row (R242). -/
def gatherStep (s : State) (d : Cmd) : State :=
  let pr := d.q.prog
  let len := 2 ^ d.seg
  if pr.dropped then s.leaveHead d.n d.p
  else
    match pr.idx with
    | [] => if pr.eoi then s.leaveHead d.n d.p else takeIndex s d
    | (v, th) :: rest =>
      let ends := pr.j + 1 == len
      if ends && rest.isEmpty && !pr.eoi then takeIndex s d
      else if d.x.preempt.isSome && pr.j == 0 && pr.eoi then s
      else
        match s.agnFor d with
        | none => s
        | some (r, _) =>
          let isFirst := pr.n == 0 && pr.j == 0
          let isLast := ends && rest.isEmpty
          let hit := 0 ≤ v && v < (d.count : Int)
          let a := d.addr + BitVec.ofInt 64 ((v * (len : Int) + (pr.j : Int)) * 128)
          let s0 := s.cmdToken d r th isFirst isLast {
            id := 0, block := d.fmt == 8, fmt := d.fmt, todo := if hit then [tokPiece a] else []
            tag := { first := isFirst, last := isLast, sot := pr.j == 0, eot := ends } }
          let s1 := if hit then s0 else s0.zeroScales r
          s1.modHead d.n d.p fun g => { g with
            n := if ends then pr.n + 1 else pr.n, j := if ends then 0 else pr.j + 1, idx := if ends then rest else pr.idx }

/-! ### Stores through the bound AGN (R240 to R243) -/

/-- The writes of a token that ended a segment have been made: its tile is counted once memory has accepted them (R46). -/
def State.endPut (s : State) (r : CellRef) : State :=
  match s.inst? r with
  | none => s
  | some (_, i) =>
    let a := i.agn
    let waits := s.putSpilled r a.nextId
    let s1 := if waits then s else s.finishTile r
    s1.modAgn r fun a => { a with
      nextId := a.nextId + 1
      acks := if waits then a.acks ++ [{ id := a.nextId, tile := 0, tag := {} }] else a.acks }

/-- Make the first of the accesses in hand. -/
def putStep (fmt : Nat) (s : State) (d : Cmd) : State :=
  match d.q.prog.pieces, (d.x.boundAgn d.p).bind fun j => (d.x.insts[j]?).map fun i => (CellRef.mk d.g j, i) with
  | p :: rest, some (r, i) =>
    let done (s : State) (more : List Piece) : State :=
      let s1 := s.modHead d.n d.p fun g => { g with pieces := more ++ rest }
      if (more ++ rest).isEmpty && d.q.prog.eot then s1.endPut r else s1
    match s.tryEl (s.cmdWho d.n d.p.toNat d.q (BitVec.ofNat 64 i.node) (.put r.inst i.agn.nextId) fmt true) p with
    | .wait => s
    | .done s1 _ _ more => done s1 more
    | .spilled s1 => done s1 []
    | .stop s1 => s1.modHead d.n d.p fun g => { g with pieces := [], dropped := true }
  | _, _ => s

/-- Accesses of a store with the bytes of a token; a command has no scale input, so no scale byte is written. -/
def storePieces (t : Token) (ps : List Piece) : List Piece := (withData t.nat 0 ps).map fun p => { p with scale := [] }

/-- A token has been taken: its accesses are in hand. -/
def State.holdToken (s : State) (d : Cmd) (t : Token) (ps : List Piece) (f : Prog → Prog) : State :=
  let s1 := s.modHead d.n d.p fun g => { f g with pieces := ps, eot := t.tag.eot }
  match d.x.boundAgn d.p with
  | some j => if ps.isEmpty && t.tag.eot then s1.endPut { group := d.g, inst := j } else s1
  | none => s1

/-- Store commands of a fixed number of tokens: make an access, or take the next token (R240, R241). -/
def storeRun (fmt total : Nat) (at_ : Nat → List Piece) (s : State) (d : Cmd) : State :=
  let pr := d.q.prog
  if !pr.pieces.isEmpty then putStep fmt s d
  else if pr.dropped || pr.n ≥ total then s.leaveHead d.n d.p
  else if d.x.preempt.isSome && (pr.n == 0 || pr.eot) then s
  else
    match s.cmdTake d 0 with
    | (s1, some t, _) => s1.holdToken d t (storePieces t (at_ pr.n)) fun g => { g with n := g.n + 1 }
    | (s1, none, _) => s1

/-- MST and SST (R240). -/
def linearStore (s : State) (d : Cmd) : State := storeRun d.fmt d.count (fun k => [tokPiece (d.addr + BitVec.ofNat 64 (128 * k))]) s d

/-- TST (R241). -/
def tensorStore (s : State) (d : Cmd) : State :=
  let per := max d.map.tileTokens 1
  storeRun d.map.fmt (d.tiles * per) (fun k => d.map.pieces d.addr (k / per) (k % per)) s d

/-- SCATTER: make an access, take an index token, or take the next token of a row (R242). -/
def scatterStep (s : State) (d : Cmd) : State :=
  let pr := d.q.prog
  let len := 2 ^ d.seg
  if !pr.pieces.isEmpty then putStep d.fmt s d
  else if pr.dropped then s.leaveHead d.n d.p
  else
    match pr.idx with
    | [] => if pr.eoi then s.leaveHead d.n d.p else takeIndex s d
    | (v, _) :: rest =>
      if d.x.preempt.isSome && pr.j == 0 && pr.eoi then s
      else
        match s.cmdTake d 1 with
        | (s1, some t, _) =>
          let ends := pr.j + 1 == len
          let hit := 0 ≤ v && v < (d.count : Int)
          let a := d.addr + BitVec.ofInt 64 ((v * (len : Int) + (pr.j : Int)) * 128)
          s1.holdToken d t (if hit then storePieces t [tokPiece a] else []) fun g => { g with j := if ends then 0 else pr.j + 1, idx := if ends then rest else pr.idx }
        | (s1, none, _) => s1

/-- The operation of a code (R203, R243). -/
def amoOf (k : Nat) : AmoOp := match k with
  | 0 => .add | 1 => .and | 2 => .or | 3 => .xor | 4 => .min | 5 => .max | 6 => .minu | 7 => .maxu | _ => .swap

/-- The updates of a token of pairs (R243). -/
def updates (d : Cmd) (t : Token) : List Piece :=
  (List.range 16).filterMap fun j =>
    let i := laneS t (2 * j)
    if 0 ≤ i && i < (d.count : Int) then
      some { addr := d.addr + BitVec.ofInt 64 (4 * i), bytes := 4, upd := some (amoOf (d.fmt), BitVec.ofNat 32 (elemAt t.nat 32 (2 * j + 1))) }
    else none

/-- AMOSTRM: apply an update, or take the next token of its segment (R243). -/
def amoStep (s : State) (d : Cmd) : State :=
  let pr := d.q.prog
  if !pr.pieces.isEmpty then putStep 15 s d
  else if pr.dropped || pr.eoi then s.leaveHead d.n d.p
  else if d.x.preempt.isSome && pr.n == 0 then s
  else
    match s.cmdTake d 0 with
    | (s1, some t, _) => s1.holdToken d t (updates d t) fun g => { g with n := g.n + 1, eoi := t.tag.eot }
    | (s1, none, true) => s1.modHead d.n d.p fun g => { g with eoi := true }
    | (s1, none, false) => s1

/-! ### Commands without a cell (R235, R247 to R249) -/

/-- Try element k of a command that moves its own data, or the access that follows of it; the command goes on once they are done or spilled.
`f` uses what an access has read. -/
def ownElement (s : State) (d : Cmd) (dest : SpillTo) (fmt : Nat) (write : Bool) (p : Piece) (f : State → Piece → List Byte → Nat → State) : State :=
  let next (s : State) (more : List Piece) : State :=
    let s1 := s.modHead d.n d.p fun g => { g with n := if more.isEmpty then g.n + 1 else g.n, pieces := more }
    if more.isEmpty && d.q.prog.n + 1 ≥ d.count then s1.leaveHead d.n d.p else s1
  let p := d.q.prog.pieces.head?.getD p
  match s.tryEl (s.cmdWho d.n d.p.toNat d.q (BitVec.ofNat 64 d.q.index) dest fmt write) p with
  | .wait => s
  | .done s1 bs geom more => next (f s1 p bs geom) more
  | .spilled s1 => next s1 []
  | .stop s1 => (s1.modHead d.n d.p fun g => { g with dropped := true }).leaveHead d.n d.p

/-- Whether loads of a stream's commands before number `id` have still to read bytes of a range (R236). -/
def State.unread (s : State) (n p id : Nat) (stream : Nat × Nat × Nat) (a : Word) (len : Nat) : Bool :=
  ((s.groupOf n).map fun x => !s.coresDone x && x.insts.any fun i => i.agn.bufs.any fun b =>
    (match b.owner with
      | some (c, k) => c == n && k < id && s.cmdStream n p k == some stream
      | none => false)
    && b.todo.any fun q => (match s.elAt n b.win q b.spd with
        | some e => exchangeForm e == exchangeForm a && s.meetBytes x.ctx e (q.span b.spd).2 a len
        | none => false)).getD false

/-- FILL: the next token of a repeated pattern (R248), behind loads of its stream that have still to read its bytes (R236). -/
def fillStep (s : State) (d : Cmd) : State :=
  let k := d.q.prog.n
  let p : Piece := { addr := d.addr + BitVec.ofNat 64 (128 * k), bytes := 128, out := (List.replicate 64 (leBytes 2 d.index)).flatten }
  let who := s.cmdWho d.n d.p.toNat d.q (BitVec.ofNat 64 d.q.index) .cmdPut d.fmt true
  if k ≥ d.count then s.leaveHead d.n d.p
  else if ((s.elAt d.n d.window p d.q.spd).map fun a => s.unread d.n d.p.toNat d.q.id who.stream a 128).getD false then s
  else ownElement s d .cmdPut d.fmt true p fun s _ _ _ => s

/-- The targets of a multicast token: the cores of its mask. -/
def mcastTargets (first : Nat) (mask : BitVec 16) : List Nat := ((List.range 16).filter mask.getLsbD).map (first + ·)

/-- Whether a multicast token of core n's port must wait: for a swap of a target window (R220, R396), at the limiter (R407), for the next cycle at a
target's bank (R338), or, in its own stream, behind a spilled token, an unread load or a copy of the same bytes (R236, R381). -/
def State.mcastLater (s : State) (n p id : Nat) (stream : Nat × Nat × Nat) (first : Nat) (mask : BitVec 16) (w : BitVec 4) (off : Nat) : Bool :=
  s.bucketLow (dieOf n) (s.tenantOf (s.ctxOf n)) || (mcastTargets first mask).any fun m =>
    s.swapFirst m w s.nextId || s.xLater (s.tenantOf (s.ctxOf n)) (s.ctxOf n) m w none (netRank n (portSub p)) || s.mcastOwes stream m w off 128
      || s.unread n p id stream (s.xAddr m w off) 128 || s.copyOwes n p id stream (s.xAddr m w off) 128 true

/-- Write an MCAST token into the named window of every target; a refused target writes its record (R201, R247). -/
def State.mcastWrite (s : State) (n p ctx : Nat) (index : Word) (first : Nat) (mask : BitVec 16) (w : BitVec 4) (off : Nat) (data : List Byte) : State :=
  let tenant := s.tenantOf ctx
  (mcastTargets first mask).foldl (fun s m =>
    match (s.charge (dieOf n) tenant 128).xWrite tenant ctx m w off data none (netRank n (portSub p)) with
    | (s1, none) => s1
    | (s1, some cause) => s1.record (s1.byQueue tenant ctx m { s1.coreRec n .port cause index (s1.xAddr m w off) 0 with
        tenant := tenant, ctx := BitVec.ofNat 12 ctx, sub := portSub p })) s

/-- MCAST: the next token (R247). -/
def mcastStep (s : State) (d : Cmd) : State :=
  let k := d.q.prog.n
  let w : BitVec 4 := d.c.flags.setWidth 4
  let first := d.n - d.rank + d.rank / 16 * 16
  let off := d.addr.toNat % 65536 + 128 * k
  let who := s.cmdWho d.n d.p.toNat d.q (BitVec.ofNat 64 d.q.index) .cmdPut 15 false
  if k ≥ d.count then s.leaveHead d.n d.p
  else if s.mcastLater d.n d.p.toNat d.q.id who.stream first d.c.index w off then s
  else ownElement s d (.mcast first d.c.index w off) 15 false (tokPiece (d.addr + BitVec.ofNat 64 (128 * k))) fun s _ bs _ =>
    s.mcastWrite d.n d.p.toNat d.x.ctx (BitVec.ofNat 64 d.q.index) first d.c.index w off bs

/-- LSTAT: the next column; it waits while the node's exchange of planes is pending (R249). An LSWAP that still waits at its own port's head for earlier
LSTATs is not pending yet (DESIGN CHOICE, log 99). -/
def lstatStep (s : State) (d : Cmd) : State :=
  let k := d.q.prog.n
  if d.x.insts.any fun i => i.node == d.index && i.role == .node && !i.gone && i.swapWaits then s
  else ownElement s d (.lstat d.index k) d.fmt false (tokPiece (d.addr + BitVec.ofNat 64 (128 * k))) fun s p bs geom => s.setColumn d.g d.index k p bs geom

/-- CPY: hand the descriptors to the engine (R244, R246). -/
def cpyStart (s : State) (d : Cmd) : State :=
  let e := d.x.die * 8 + d.index % 8
  { s with engines := put s.engines e (findD s.engines e [] ++ [{
      num := d.q.num, core := d.n, port := d.p.toNat, id := d.q.id, ctx := d.x.ctx, tenant := d.x.tenant, group := d.g, list := d.addr, count := d.count
      pulse := d.c.flags.getLsbD 1, resp := d.c.flags.getLsbD 0 }]) }

/-! ### The rules that a decoded command must obey (R237 to R250) -/

/-- Elements lie on multiples of their size, and a walk stays in its window (R237, R241). -/
def TMap.span (m : TMap) (t : Nat) : Int × Int :=
  let dims := List.range m.rank
  let lo (d : Nat) : Int := (digit m.tilesIn d t * m.ext d : Nat)
  let hi (d : Nat) : Int := (min (digit m.tilesIn d t * m.ext d + m.ext d) (m.dim d) : Nat) - 1
  let st (d : Nat) : Int := m.strides.getD d 0
  let ends (d : Nat) : Int × Int :=
    if d == 0 && bitsOf m.fmt == 4 then (lo 0 / 2, hi 0 / 2) else (min (lo d * st d) (hi d * st d), max (lo d * st d) (hi d * st d))
  ((dims.map fun d => (ends d).1).sum, (dims.map fun d => (ends d).2).sum + (max (bitsOf m.fmt / 8) 1 : Nat))

/-- Whether a tensor command may run. -/
def tensorOk (mode : Nat) (_ : State) (d : Cmd) : Bool :=
  d.index < d.o.maps.length && d.count ≤ d.map.tiles && d.addr.toNat % max (bitsOf d.map.fmt / 8) 1 == 0
    && (!d.window || (List.range d.tiles).all fun t =>
      decide (0 ≤ ((d.addr.toNat % 65536 : Nat) : Int) + (d.map.span t).1) && decide (((d.addr.toNat % 65536 : Nat) : Int) + (d.map.span t).2 ≤ 65536))
    && d.bound mode

def linearOk (mode : Nat) (_ : State) (d : Cmd) : Bool := d.aligned && d.fits (128 * d.count) && d.bound mode
def rowsOk (mode : Nat) (_ : State) (d : Cmd) : Bool := d.aligned && d.fits (128 * d.count * 2 ^ d.seg) && d.bound mode
/-- Format of a MAT's mode (R272). -/
def matFmtCode (mode : Nat) : Nat := match mode with
  | 0 => 1 | 1 => 2 | 2 => 3 | 3 => 4 | 4 => 5 | _ => 8

/-! ### The meanings -/

/-- MLD (R240). -/
def execMld (c : StreamCmd) (s : State) : Out := runCmd (.mld c) c .stream true (linearOk 2) linearLoad s
/-- SLD (R240). -/
def execSld (c : StreamCmd) (s : State) : Out := runCmd (.sld c) c .stream true (linearOk 2) linearLoad s
/-- MST (R240). -/
def execMst (c : StreamCmd) (s : State) : Out := runCmd (.mst c) c .stream true (linearOk 3) linearStore s
/-- SST (R240). -/
def execSst (c : StreamCmd) (s : State) : Out := runCmd (.sst c) c .stream true (linearOk 3) linearStore s
/-- TLD (R241). -/
def execTld (c : StreamCmd) (s : State) : Out := runCmd (.tld c) c .stream true (tensorOk 2) tensorLoad s
/-- TST (R241). -/
def execTst (c : StreamCmd) (s : State) : Out := runCmd (.tst c) c .stream true (tensorOk 3) tensorStore s
/-- GATHER (R242). -/
def execGather (c : StreamCmd) (s : State) : Out := runCmd (.gather c) c .stream true (rowsOk 2) gatherStep s
/-- SCATTER (R242). -/
def execScatter (c : StreamCmd) (s : State) : Out := runCmd (.scatter c) c .stream true (rowsOk 3) scatterStep s
/-- AMOSTRM (R243): its base is global and a multiple of 4. -/
def execAmostrm (c : StreamCmd) (s : State) : Out := runCmd (.amostrm c) c .stream true
  (fun _ d => d.addr.toNat % 4 == 0 && d.bound 3) amoStep s
/-- CPY (R244 to R246). -/
def execCpy (c : StreamCmd) (s : State) : Out := runCmd (.cpy c) c .stream true
  (fun _ d => 1 ≤ d.count && d.addr.toNat % 64 == 0 && (!d.c.flags.getLsbD 0 || d.bound 2)) (Cmd.act cpyStart) s
/-- MCAST (R247). -/
def execMcast (c : StreamCmd) (s : State) : Out := runCmd (.mcast c) c .stream true
  (fun _ d => d.aligned && d.addr.toNat % 65536 + 128 * d.count ≤ 65536
    && (List.range 16).all fun j => !d.c.index.getLsbD j || decide (d.rank / 16 * 16 + j < 2 ^ d.x.k)) mcastStep s
/-- FILL (R248). -/
def execFill (c : StreamCmd) (s : State) : Out := runCmd (.fill c) c .stream true (fun _ d => d.aligned && d.fits (128 * d.count)) fillStep s
/-- LSTAT (R249). -/
def execLstat (c : StreamCmd) (s : State) : Out := runCmd (.lstat c) c .stream true
  (fun _ d => d.aligned && d.fits (128 * d.count) && d.nodeIn && kindOf d.node == kMAT && d.count == 32 && d.fmt == matFmtCode (modeOf d.node)) lstatStep s
/-- SEGMARK marks the next load command queued after it at its port, be it queued already or not; a later SEGMARK before that load replaces its
marks (R257). -/
def segmarkAct (s : State) (d : Cmd) : State :=
  s.modPort d.n d.p fun x =>
    match x.queue.findIdx? fun q => d.q.id < q.id && !q.empty && markable q.word with
    | some k => { x with mark := 0, queue := modAt x.queue k fun q => { q with prog := { q.prog with mark := d.c.flags.setWidth 4 } } }
    | none => { x with mark := d.c.flags.setWidth 4 }

/-- SEGMARK (R257). -/
def execSegmark (c : StreamCmd) (s : State) : Out := runCmd (.segmark c) c .none false (fun _ d => d.bound 0) (Cmd.act segmarkAct) s

/-- BTOKEN: the bound AGN emits a barrier token after the tokens of every command queued before it (R258); a store AGN has no output link. -/
def btokenStep (s : State) (d : Cmd) : State :=
  let waits := (s.portAt d.n d.p).left.any fun q => (q.word.extractLsb' 120 8) == 0x07 && q.word.getLsbD 104 && !s.cmdDone d.n d.p q
  if waits then s
  else if !d.bound 2 then s.leaveHead d.n d.p
  else
    match s.agnFor d with
    | none => s
    | some (r, i) =>
      (s.addBuf r (srcThread i) { id := 0, owner := some (d.n, d.q.id), tag := { barrier := true }, block := d.x.outLinked r.inst 1 }).leaveHead d.n d.p

/-- BTOKEN (R258). -/
def execBtoken (c : StreamCmd) (s : State) : Out := runCmd (.btoken c) c .none false (fun _ d => d.bound 0) btokenStep s

end Sys2Proof.Machine
end

