-- ==== Sys2Proof/Machine/CmdControl.lean ====
section
/-! DEFINITION. Commands without a data stream: sections, planes, the sequencer, BARRIER, taps, events, the step cache, layout control,
reduction windows, settings, queue control (R250 to R268). -/

namespace Sys2Proof.Machine

/-! ### Planes (R250) -/

/-- Whether a command of a core that was issued before number `below` has not completed, and is one that a test names. -/
def CoreSt.earlier (c : CoreSt) (below : Nat) (is : Nat → QCmd → Bool) : Bool :=
  (List.range 16).any fun p => ((c.port (BitVec.ofNat 4 p)).left ++ (c.port (BitVec.ofNat 4 p)).queue).any fun q => q.id < below && is p q

/-- LSWAP: wait until every LSTAT to the node that the core issued earlier has itself completed, whatever its port has still to report before it,
then mark the instances for the exchange (R129, R234, R250). -/
def lswapStep (s : State) (d : Cmd) : State :=
  let pending := d.x.insts.any fun i => i.node == d.index && i.role == .node && !i.gone && i.swapWaits
  let loads (q : QCmd) : Bool := q.id < d.q.id && (q.word.extractLsb' 120 8) == 0x0B && (q.word.extractLsb' 0 16).toNat == d.index
  let loading := (List.range 16).any fun p =>
    let x := s.portAt d.n (BitVec.ofNat 4 p)
    x.queue.any loads || x.left.any fun q => loads q && !s.cmdDone d.n (BitVec.ofNat 4 p) q
  if pending || loading then s
  else
    let s1 := s.modGroup d.g fun x => { x with insts := x.insts.map fun i =>
      if i.node == d.index && i.role == .node && !i.gone then
        match i.st with
        | .mat m => { i with st := .mat { m with swap := true } }
        | _ => i
      else i }
    s1.leaveHead d.n d.p

/-- LSWAP (R250). -/
def execLswap (c : StreamCmd) (s : State) : Out := runCmd (.lswap c) c .none false (fun _ d => d.nodeIn && kindOf d.node == kMAT) lswapStep s

/-! ### Sections (R251) -/

def Cmd.secIn (d : Cmd) : Bool := d.index < d.o.secs.length

/-- ARM (R251). -/
def execArm (c : StreamCmd) (s : State) : Out := runCmd (.arm c) c .none true (fun _ d => 1 ≤ d.count && d.secIn)
  (Cmd.act fun s d => s.armSec d.g d.index d.count) s

/-- DISARM: the count is cleared; an armed section sends its completion pulse where the flag asks for it (R251). -/
def disarm (s : State) (d : Cmd) : State :=
  let s1 := s.settleSec d.g d.index
  match s1.group? d.g with
  | none => s1
  | some x =>
    let armed := ((x.secs[d.index]?).map fun e => decide (0 < e.count.toNat)).getD false
    let s2 := s1.setGroup d.g { x with secs := setAt x.secs d.index {} }
    if armed && d.c.flags.getLsbD 0 && d.index < 16 then s2.pulseAll x d.index else s2

/-- DISARM (R251). -/
def execDisarm (c : StreamCmd) (s : State) : Out := runCmd (.disarm c) c .none false (fun _ d => d.secIn) (Cmd.act disarm) s

/-! ### The sequencer (R252) -/

/-- KGRAPH: hand the walk to the sequencer, once it is free (R252). -/
def kgraphStep (s : State) (d : Cmd) : State :=
  if (s.coreAt d.n).walk.isSome then s
  else
    let w : Walk := { next := d.index, left := d.count, free := d.c.flags.getLsbD 0, last := none, port := d.p.toNat, id := d.q.id }
    (s.modCore d.n fun c => { c with walk := some w }).leaveHead d.n d.p

/-- KGRAPH (R252). -/
def execKgraph (c : StreamCmd) (s : State) : Out := runCmd (.kgraph c) c .none true
  (fun _ d => 1 ≤ d.count && d.count ≤ 256 && d.index < d.o.cmds.length && d.index + d.count ≤ 256) kgraphStep s

/-- Whether a command of a port has itself done what it asks, the order of reports aside (R252). -/
def State.selfDone (s : State) (n p id : Nat) : Bool :=
  let x := s.portAt n (BitVec.ofNat 4 p)
  !(x.queue.any fun q => q.id == id) && (x.left.all fun q => q.id != id || s.cmdDone n (BitVec.ofNat 4 p) q)

/-- The walk of a core has ended: its KGRAPH may complete. -/
def State.endWalk (s : State) (n : Nat) (w : Walk) : State := (s.modCore n fun c => { c with walk := none }).settlePort n (BitVec.ofNat 4 w.port)

/-- KGRAPH_WALK_ENTRY (R252): queue the next walked entry once the one before it has completed, or, with the flag, at once; a walked KGRAPH
faults and stops the walk. -/
def execKgraphWalkEntry (core : Nat) (s : State) : Out :=
  match (s.coreAt core).walk, s.groupOf core with
  | some w, some x =>
    let waits := match w.last with
      | some (p, id) => !s.selfDone core p id
      | none => false
    if !s.cmdLive x then .next s
    else if w.left = 0 then .next (if waits then s else s.endWalk core w)
    else if !s.cmdStarts x || (waits && !w.free) then .next s
    else
      let (q, p) := s.entryAt core w.next 0 0
      if !q.empty && (q.word.extractLsb' 120 8) == 0x0F then
        .next ((s.cmdRec core p w.next q.word).modCore core fun c => { c with walk := some { w with left := 0 } })
      else
        match s.queueCmd core w.next 0 0 with
        | none => .next s
        | some s1 => .next (s1.modCore core fun c => { c with walk := some { w with next := w.next + 1, left := w.left - 1, last := some (p.toNat, q.id) } })
  | _, _ => .next s

/-! ### BARRIER (R253) -/

/-- Whether a scope code is one that BARRIER takes (R140, R253): 0b001 core to 0b101 pod. -/
def barrierStep (s : State) (d : Cmd) : State :=
  let cls := d.c.flags.toNat % 32
  let covered (p : Nat) (q : QCmd) : Bool :=
    let i := (q.word.extractLsb' 112 4).toNat
    (d.c.index == 0 || d.c.index.getLsbD p) && (cls == 0 || bit cls i) && !(match decodeCmd q.word with
      | .ok j => classless j
      | .error _ => true)
  if (s.coreAt d.n).earlier d.q.id covered then s else s.leaveHead d.n d.p
where
  classless : Instr → Bool
    | .mld _ | .mst _ | .sld _ | .sst _ | .tld _ | .tst _ | .cpy _ | .gather _ | .scatter _ | .mcast _ | .lstat _ | .amostrm _ | .fill _ => false
    | _ => true

/-- BARRIER (R253). -/
def execBarrier (c : StreamCmd) (s : State) : Out := runCmd (.barrier c) c .none true (fun _ d => 1 ≤ d.count && d.count ≤ 5) barrierStep s

/-! ### Taps and events (R254 to R256) -/

/-- The scope of a TAPSET (R254). -/
def tapScope (c : StreamCmd) : Option Scope := match c.flags.toNat / 4 % 8 with
  | 1 => some .core | 2 => some .quad | 3 => some .die | _ => none

/-- TAPSET at a TAP that arrives at barriers, in mode `bar` or `btok` (R254, R330, R398): a phase whose first arrival came in an earlier cycle keeps
its counts. In a cycle in which an arrival has completed a phase at once, or been one too many, the command waits for the next, since a TAPSET of the
cycle of a first arrival would come before it. -/
def tapsetStep (s : State) (d : Cmd) : State :=
  let b := BitVec.ofNat 2 (d.c.flags.toNat % 4)
  let sc := (tapScope d.c).getD .core
  let set (s : State) : State := s.modGroup d.g fun x => { x with tapset := put x.tapset (tapKey d.index b sc) d.count }
  match d.x.insts.find? fun i => i.node == d.index && i.role == .node && i.copy == 0 && !i.gone with
  | none => (set s).leaveHead d.n d.p
  | some i =>
    let n := d.x.coreOf i
    let arrived := ((find s.served (phasePlace d.g (phaseKey b sc n))).map (·.1)) == some s.cycle
    if arrived && !(d.x.phase b sc n).busy then s else ((set s).retap d.g b sc n).leaveHead d.n d.p

/-- TAPSET (R254). -/
def execTapset (c : StreamCmd) (s : State) : Out := runCmd (.tapset c) c .none true
  (fun _ d => d.count ≤ 255 && (tapScope c).isSome && d.nodeIn && kindOf d.node == kTAP && (modeOf d.node == 0 || modeOf d.node == 2))
  tapsetStep s

/-- Fields of a term word (R255). -/
def tSec (w : Nat) : Nat := bits w 37 26
def tCtr (w : Nat) : Nat := bits w 25 23
def tAmt (w : Nat) : Nat := bits w 22 15
def tAct (w : Nat) : Nat := bits w 14 12
def tOp (w : Nat) : Nat := bits w 11 10
def tSrcB (w : Nat) : Nat := bits w 9 5
def tSrcA (w : Nat) : Nat := bits w 4 0

/-- Whether a term word may be written (R255). -/
def termWordOk (w secs : Nat) : Bool :=
  w / 2 ^ 38 == 0 && tAct w ≤ 3 && tOp w != 3
    && (if tAct w == 2 then decide (tSec w < secs) else tSec w == 0)
    && (if tAct w == 1 then true else tCtr w == 0)
    && ((tAct w != 1 && tAct w != 2) || tAmt w != 0)

/-- Write a term slot. -/
def CoreSt.setTerm (c : CoreSt) (k : Nat) (t : Term) : CoreSt := { c with terms := c.terms.set (k % 16) t (Nat.mod_lt _ (by decide)) }

/-- EVCFG (R255). -/
def execEvcfg (c : StreamCmd) (s : State) : Out := runCmd (.evcfg c) c (.value 40) false (fun _ d => termWordOk d.addr.toNat d.o.secs.length)
  (Cmd.act fun s d => s.modCore d.n fun y => y.setTerm d.index { word := d.addr.setWidth 40 }) s

/-- EVPULSE: one pulse a cycle (R256); `j` holds the cycle after the last. -/
def evpulseStep (s : State) (d : Cmd) : State :=
  let k := d.q.prog.n
  if k ≥ d.count then s.leaveHead d.n d.p
  else if k != 0 && d.q.prog.j == s.cycle + 1 then s
  else
    let s1 := { s with pulses := s.pulses ++ [Pulse.mk d.n d.index] }
    let s2 := s1.modHead d.n d.p fun g => { g with n := k + 1, j := s.cycle + 1 }
    if k + 1 = d.count then s2.leaveHead d.n d.p else s2

/-- EVPULSE (R256). -/
def execEvpulse (c : StreamCmd) (s : State) : Out := runCmd (.evpulse c) c .none true (fun _ d => 1 ≤ d.count && d.count ≤ 255) evpulseStep s

/-! ### The step cache (R259, R260) -/

/-- STEP (R259). -/
def execStep (c : StreamCmd) (s : State) : Out := runCmd (.step c) c (.value 32) false (fun _ d => !d.c.flags.getLsbD 0 || d.addr == 0)
  (Cmd.act fun s d => s.modGraphSt d.x.ctx d.x.key fun y => { y with stepno := if d.c.flags.getLsbD 0 then y.stepno + 1 else d.addr.setWidth 32 }) s

/-- Zero the counter row of a block (R260, R372). -/
def State.rcZero (s : State) (die ctx blk : Nat) : State :=
  s.rcSend { die := die, ctx := ctx, blk := blk, addr := s.rcRow ctx blk, v := 0, zero := true }

/-- RCFLUSH (R260). -/
def rcflush (s : State) (d : Cmd) : State :=
  let one := d.c.flags.getLsbD 0
  let blks := if one then [d.index] else (d.o.nodes.filter fun y => kindOf y.hdr == kGAT).map fun y => gatBlk y.hdr
  let s1 := s.rcFlush d.x.ctx d.x.key (if one then some d.index else none)
  if d.c.flags.getLsbD 1 then blks.foldl (fun s b => s.rcZero d.x.die d.x.ctx b) s1 else s1

/-- RCFLUSH (R260). -/
def execRcflush (c : StreamCmd) (s : State) : Out := runCmd (.rcflush c) c .none false (fun _ _ => true) (Cmd.act rcflush) s

/-! ### Layout control (R261 to R264) -/

/-- WAGWIN: the length of the windows after the one in progress; where that has just ended, the end of the window comes first (R261, R335). -/
def wagwinStep (s : State) (d : Cmd) : State :=
  if s.windowOver d.x then s else (s.modGroup d.g fun x => { x with winNext := d.count }).leaveHead d.n d.p

/-- WAGWIN (R261). -/
def execWagwin (c : StreamCmd) (s : State) : Out := runCmd (.wagwin c) c .none true (fun _ d => 16 ≤ d.count && d.count ≤ 65536) wagwinStep s

/-- LAYPIN (R262). -/
def execLaypin (c : StreamCmd) (s : State) : Out := runCmd (.laypin c) c .none false (fun _ d => d.nodeIn)
  (Cmd.act fun s d => s.modGroup d.g fun x =>
    let others := x.pins.filter (· != d.index)
    { x with pins := if d.c.flags.getLsbD 0 then others ++ [d.index] else others }) s

/-- LAYREQ 0b00 (R263). -/
def execLayreqBottleneck (c : StreamCmd) (s : State) : Out := runCmd (.layreqBottleneck c) c .none false (fun _ d => d.nodeIn)
  (Cmd.act fun s d => s.modGroup d.g fun x => { x with bottle := x.bottle.filter (· != d.index) ++ [d.index] }) s

/-- LAYREQ 0b01 (R263). -/
def execLayreqSuspend (c : StreamCmd) (s : State) : Out := runCmd (.layreqSuspend c) c .none false (fun _ _ => true)
  (Cmd.act fun s d => s.modGroup d.g fun x => { x with suspend := true }) s

/-- LAYREQ 0b10 (R263). -/
def execLayreqResume (c : StreamCmd) (s : State) : Out := runCmd (.layreqResume c) c .none false (fun _ _ => true)
  (Cmd.act fun s d => s.modGroup d.g fun x => { x with suspend := false }) s

/-- CFGLD: load the setting at the first instance that lacks it; a node that is not placed makes it wait (R264). -/
def cfgldStep (s : State) (d : Cmd) : State :=
  let is (i : Inst) : Bool := i.node == d.index && i.role == .node && !i.gone
  if !d.x.insts.any is then s
  else
    match d.x.insts.findIdx? fun i => is i && !i.loaded with
    | none => s.leaveHead d.n d.p
    | some j =>
      let s1 := s.fillSetting { group := d.g, inst := j }
      if ((s1.group? d.g).map fun x => x.insts.all fun i => !is i || i.loaded).getD false then s1.leaveHead d.n d.p else s1

/-- CFGLD (R264). -/
def execCfgld (c : StreamCmd) (s : State) : Out := runCmd (.cfgld c) c .none false (fun _ d => d.nodeIn) cfgldStep s

/-! ### Reduction windows (R265, R266, R409) -/

/-- Apply a merged update at its home port; a fault writes its record, and a stage-2 fault holds the entry in its buffer (R352). -/
def State.deliverMerge (s : State) (port : Nat) (m : Merge) : State :=
  let fails (s : State) (e : TErr) : State :=
    let s2 := s.accessRec m.ctx .memport (portLoc (homePort m.addr)) (portSrc (homePort m.addr)) true m.addr e
    if e.host then { s2 with merges := put s2.merges port (findD s2.merges port [] ++ [{ m with held := true }]) } else s2
  match s.translate m.ctx m.addr true (some 15) with
  | .err e s => fails s e
  | .ok (pa, _, _) s1 =>
    if s1.bad pa then fails s1 (.bad m.addr)
    else
      let s2 := s1.scrub pa
      let key := s2.keyOf m.ctx
      if m.wide then s2.memWrite key pa (wordBytes (amoNew m.op (bytesWord (s2.memBytes key pa 8)) m.v))
      else s2.memWrite key pa (leBytes 4 (amoNew32 m.op (BitVec.ofNat 32 (leNat (s2.memBytes key pa 4))) (m.v.setWidth 32)).toNat)

/-- The buffer of the ingress port that a sending port's entries reach: the sending ports have the numbers below 32, the ingress ports those from 32
on (R409). -/
def ingressOf (port : Nat) : Nat := Config.ualinkPorts + port

/-- An entry leaves its buffer (R409): a sending port's merges again in the ingress port's buffer, where that has its entry or a free one; any other
is delivered, unless its home port has served a later agent in this cycle (R98). -/
def State.forwardMerge (s : State) (port : Nat) (m : Merge) : State :=
  let s1 := { s with merges := put s.merges port ((findD s.merges port []).erase m) }
  let l := findD s1.merges (ingressOf port) []
  let same (k : Merge) : Bool := k.takes m.ctx m.addr m.wide m.op && k.tenant == m.tenant && !k.held
  let home := homePort m.addr
  let rank := rankOf (portSrc home) 0
  let deliver := if s.inOrder home rank then (s1.noteServed home rank).deliverMerge port m else s
  if port ≥ Config.ualinkPorts then deliver
  else if l.any same then { s1 with merges := put s1.merges (ingressOf port) (l.map fun k => if same k then { k.join m.v with since := min k.since m.since } else k) }
  else if l.length < Config.combineEntries then { s1 with merges := put s1.merges (ingressOf port) (l ++ [m]) }
  else deliver

/-- REDWIN with bit 0 set (R266). -/
def execRedwinOpen (c : StreamCmd) (s : State) : Out := runCmd (.redwinOpen c) c .global true
  (fun s d =>
    let open_ := ((s.tenant? d.x.tenant).map (·.redwin)).getD []
    d.addr.toNat % 8 == 0 && (find open_ d.index).isNone
      && !(open_.any fun r => overlap d.addr (8 * d.count) r.2.base (8 * r.2.words)))
  (Cmd.act fun s d => s.modTenant d.x.tenant fun t => { t with redwin := put t.redwin d.index { base := d.addr, words := d.count } }) s

/-- Entries of the combining buffers whose words lie in a window of a tenant, with their ports. -/
def State.mergedIn (s : State) (tenant : Nat) (r : RedWin) : List (Nat × Merge) :=
  s.merges.flatMap fun p => (p.2.filter fun m => m.tenant == tenant && r.holds m.addr).map fun m => (p.1, m)

/-- REDWIN with bit 0 clear: every update merged in the window is delivered, and then the window is closed; a delivery that a stage-2 fault holds
is waited for (R266, R352). -/
def redwinClose (s : State) (d : Cmd) : State :=
  match ((s.tenant? d.x.tenant).bind fun t => find t.redwin d.index) with
  | none => s.leaveHead d.n d.p
  | some r =>
    let send (s : State) (ok : Nat → Bool) : State :=
      ((s.mergedIn d.x.tenant r).filter fun p => ok p.1 && !p.2.held).foldl (fun s p => s.forwardMerge p.1 p.2) s
    let s1 := send (send s fun p => decide (p < Config.ualinkPorts)) fun p => decide (Config.ualinkPorts ≤ p)
    if (s1.mergedIn d.x.tenant r).isEmpty then (s1.modTenant d.x.tenant fun t => { t with redwin := del t.redwin d.index }).leaveHead d.n d.p
    else s1

/-- REDWIN with bit 0 clear (R266). -/
def execRedwinClose (c : StreamCmd) (s : State) : Out := runCmd (.redwinClose c) c .none false
  (fun s d => ((s.tenant? d.x.tenant).bind fun t => find t.redwin d.index).isSome) redwinClose s

/-! ### Queue control (R267, R268) -/

/-- NOPC (R267). -/
def execNopc (c : StreamCmd) (s : State) : Out := runCmd (.nopc c) c .none false (fun _ _ => true) (Cmd.act fun s _ => s) s

/-- Discard the unstarted commands of masked ports that were issued before a number (R268). -/
def CoreSt.discard (c : CoreSt) (mask : BitVec 16) (below : Nat) : CoreSt :=
  let f (p : Nat) (x : Port) : Port :=
    if mask == 0 || mask.getLsbD p then { x with queue := x.queue.filter fun q => q.prog.started || decide (below ≤ q.id) } else x
  { c with ports := c.ports.mapIdx f }

/-- PFLUSH (R268). -/
def execPflush (c : StreamCmd) (s : State) : Out := runCmd (.pflush c) c .none false (fun _ _ => true)
  (Cmd.act fun s d => (List.range 16).foldl (fun s p => s.settlePort d.n (BitVec.ofNat 4 p)) (s.modCore d.n fun c => c.discard d.c.index d.q.id)) s

end Sys2Proof.Machine
end

