-- ==== Sys2Proof/Machine/Control.lean ====
section
/-! DEFINITION. Branches, loops, waits on event counters, exit and traps of a control core (R183 to R191). -/

namespace Sys2Proof.Machine

/-- Target of a branch: T + 4 × off16 (R183). -/
def branchTo (pc : Word) (off : BitVec 16) : Word := pc + (sext off <<< 2)

/-- A control instruction: a new core state that sets the pc itself. -/
def jumps (g : Guard) (s : State) (f : CoreSt → CoreSt) : Out := guarded g s fun c => s.setCore (f c)

/-- BR (R183). -/
def execBr (g : Guard) (off : BitVec 16) (s : State) : Out := jumps g s fun c => { c with pc := branchTo c.pc off }

/-- BRL (R183). -/
def execBrl (g : Guard) (a : Reg) (off : BitVec 16) (s : State) : Out :=
  jumps g s fun c => { c.wr a (c.pc + 4) with pc := branchTo c.pc off }

/-- JMP (R183): ga is read before gd is written. -/
def execJmp (g : Guard) (d a : Reg) (s : State) : Out := jumps g s fun c => { c.wr d (c.pc + 4) with pc := c.rd a }

/-- CALL (R183). -/
def execCall (g : Guard) (off : BitVec 16) (s : State) : Out :=
  jumps g s fun c => { c.wr 31 (c.pc + 4) with pc := branchTo c.pc off }

/-- RET (R183). -/
def execRet (g : Guard) (s : State) : Out := jumps g s fun c => { c with pc := c.rd 31 }

/-- LOOP (R184). -/
def execLoop (g : Guard) (a : Reg) (off : BitVec 16) (s : State) : Out :=
  jumps g s fun c =>
    let v := c.rd a - 1
    { c.wr a v with pc := if v ≠ 0 then branchTo c.pc off else c.pc + 4 }

/-- Subtract a WAITE's amount from its counter and move on (R185). -/
def CoreSt.waitePass (c : CoreSt) (n : BitVec 3) (amt : BitVec 16) : CoreSt :=
  { (c.setEvc n (c.evc n - amt.setWidth 32)).adv with wait := .none }

/-- Whether an event counter has reached an amount (R185). -/
def CoreSt.reached (c : CoreSt) (n : BitVec 3) (amt : BitVec 16) : Bool := amt.toNat ≤ (c.evc n).toNat

/-- WAITE (R185): passes at once where the counter has reached the amount, else holds the core; in a cycle it comes after the MTS and the crossbar's
additions (R167). -/
def execWaite (g : Guard) (n : BitVec 3) (amt : BitVec 16) (s : State) : Out := guarded g s fun c =>
  if c.reached n amt then (s.noteServed (countPlace s.cur n) 2).setCore (c.waitePass n amt) else s.setCore { c with wait := .event n amt }

/-- NOP (R186). -/
def execNop (g : Guard) (s : State) : Out := pure g s id

/-- EXIT without successors (R187): the release, then the core stops. -/
def execExit (g : Guard) (s : State) : Out := guarded g s fun _ => s.block (wordOf (.exit g)) (.exit 0 0 0)

/-- EXIT with successors (R187). -/
def execExitSuccessors (g : Guard) (a : Reg) (n : BitVec 3) (s : State) : Out := guarded g s fun c =>
  s.block (wordOf (.exitSuccessors g a n)) (.exit (c.rd a) 0 n.toNat)

/-- TRAP (R188). -/
def execTrap (g : Guard) (code : BitVec 16) (s : State) : Out := guarded g s fun _ => s.trap 0x03 code 0 (code.setWidth 32)

/-- ERET (R191); outside a handler it is an illegal instruction. -/
def execEret (g : Guard) (s : State) : Out := guarded g s fun c =>
  if c.intrap then s.setCore c.eret else s.illegal (wordOf (.eret g))

/-- A word that fails a check of R141: an illegal-instruction trap with the address that R142 gives. -/
def execIllegalInstructionTrap (addr : Word) (s : State) : Out := .next (s.illegal addr)

/-- WAITE_PASS: a waiting WAITE finds its counter at the amount (R185). -/
def execWaitePass (core : Nat) (s : State) : Out :=
  match (s.coreAt core).wait with
  | .event n amt => .next (if (s.coreAt core).reached n amt && !((s.groupOf core).bind (·.preempt)).isSome then
      (s.noteServed (countPlace core n) 2).setCoreAt core ((s.coreAt core).waitePass n amt) else s)
  | _ => .next s

/-- Whether the exchange windows that the completed phase of a core's BARW swaps have been swapped: those of every core of its scope's place (R396). -/
def State.swapsDone (s : State) (b : BitVec 2) (sc : Scope) (n : Nat) : Bool :=
  b != 0 || ((s.groupOf n).map fun x => x.cores.all fun m => scopeInst sc m != scopeInst sc n || (s.coreAt m).swaps.isEmpty).getD true

/-- BARW_RESUME: a BARW on a completed phase resumes, once the swaps of the phase are done (R395, R396). -/
def execBarwResume (core : Nat) (s : State) : Out :=
  match (s.coreAt core).wait with
  | .barrier b sc true =>
    .next (if s.swapsDone b sc core && !((s.groupOf core).bind (·.preempt)).isSome then s.setCoreAt core { (s.coreAt core).adv with wait := .none } else s)
  | _ => .next s

/-- WAITER_WAKE: a parked core resumes after its WAIT with the value (R106). -/
def execWaiterWake (core : Nat) (s : State) : Out :=
  match (s.coreAt core).wait with
  | .woken d t v => if ((s.groupOf core).bind (·.preempt)).isSome then .next s else .next (s.setCoreAt core { (((s.coreAt core).wr d v).wr t 0).adv with wait := .none })
  | _ => .next s

end Sys2Proof.Machine
end

