-- ==== Sys2Proof/Machine/Layout.lean ====
section
/-! DEFINITION. The layout engine: placing a graph, starting a group, layout versions and records, the layout cache, rate windows, and the
splice by which a clone, fold or unfold enters a running graph (R112 to R133, R454). -/

namespace Sys2Proof.Machine

/-! ### The cells of a core (00_scope) -/

/-- Cells of a core of each kind, by kind code (00_scope). -/
def cellMix : List Nat := [2, 4, 12, 4, 4, 6, 6, 6, 8, 8, 2, 2]
def cellCount (kd : Nat) : Nat := cellMix.getD kd 0
/-- Cell indices of a kind within a core: kinds in code order (log 13). -/
def cellsOf (kd : Nat) : List Nat := (List.range (cellCount kd)).map ((cellMix.take kd).sum + ·)

/-! ### Placing a graph (R112 to R114) -/

/-- The nodes that zero-slot links join to a node (R114). -/
def GObj.cluster (o : GObj) (n : Nat) : List Nat :=
  closure (fun a => (o.links.filter fun l => l.slots == 0 && (l.src == a || l.dst == a)).map fun l => if l.src == a then l.dst else l.src)
    o.nodes.length [n]
/-- Every cluster once, in node order. -/
def GObj.clusters (o : GObj) : List (List Nat) :=
  (List.range o.nodes.length).filterMap fun n => let c := o.cluster n; if c.all (n ≤ ·) then some c else none
/-- Whether a zero-slot link joins two nodes. -/
def GObj.zeroLinked (o : GObj) (a b : Nat) : Bool := o.links.any fun l => l.slots == 0 && ((l.src == a && l.dst == b) || (l.src == b && l.dst == a))
def GObj.kind (o : GObj) (n : Nat) : Nat := kindOf (o.hdr n)

/-- Whether a place may serve a node beside the places already taken (R113, R114). `share` tells the kinds whose nodes may share a cell. -/
def placeOk (o : GObj) (k : Nat) (share : Nat → Bool) (placed : List (Nat × Place)) (n : Nat) (p : Place) : Bool :=
  let mates := placed.filter fun q => q.2.rank == p.rank && q.2.cell == p.cell
  n < o.nodes.length && p.rank < 2 ^ k && (cellsOf (o.kind n)).contains p.cell && p.entry < 4
    && (mates.isEmpty || (share (o.kind n) && mates.all fun q => q.2.entry != p.entry && !o.path q.1 n && !o.path n q.1))
    && placed.all fun q => !o.zeroLinked q.1 n || q.2.rank == p.rank

/-- Every setting-store entry of the cells of a kind on some ranks. -/
def entriesOf (ranks : List Nat) (kd : Nat) : List Place :=
  ranks.flatMap fun r => (cellsOf kd).flatMap fun c => (List.range 4).map fun e => { rank := r, cell := c, entry := e }

/-- First fit of a cluster on one rank. -/
def fitCluster (o : GObj) (k : Nat) (share : Nat → Bool) (r : Nat) : List Nat → List (Nat × Place) → Option (List (Nat × Place))
  | [], placed => some placed
  | n :: ns, placed =>
    match (entriesOf [r] (o.kind n)).find? (placeOk o k share placed n) with
    | some p => fitCluster o k share r ns (placed ++ [(n, p)])
    | none => none
/-- First fit of every cluster; the error is the first node of one that fits nowhere. -/
def firstFit (o : GObj) (k : Nat) (share : Nat → Bool) : List (List Nat) → List (Nat × Place) → Except Nat (List (Nat × Place))
  | [], placed => .ok placed
  | c :: cs, placed =>
    match (List.range (2 ^ k)).findSome? fun r => fitCluster o k share r c placed with
    | some p => firstFit o k share cs p
    | none => .error (c.headD 0)
/-- Kinds whose nodes share cells: those of which the placement has not enough cells (R113). -/
def GObj.shares (o : GObj) (k : Nat) (kd : Nat) : Bool := ((List.range o.nodes.length).filter fun n => o.kind n == kd).length > 2 ^ k * cellCount kd
/-- Places worth trying for the next node: of the cells of a core without a node one stands for all, of each other the lowest free entry. -/
def tries (o : GObj) (k : Nat) (placed : List (Nat × Place)) : List Place :=
  (List.range (2 ^ k)).flatMap fun r =>
    let held (c : Nat) : List Nat := (placed.filter fun q => q.2.rank == r && q.2.cell == c).map (·.2.entry)
    let cs := cellsOf (o.kind placed.length)
    (((cs.find? fun c => (held c).isEmpty).toList ++ cs.filter fun c => !(held c).isEmpty).map fun c =>
      { rank := r, cell := c, entry := ((List.range 4).find? fun e => !(held c).contains e).getD 4 })
/-- A placing of the nodes that are left, if there is one: every way is tried. -/
def search (o : GObj) (k : Nat) : Nat → List (Nat × Place) → Option (List (Nat × Place))
  | 0, placed => some placed
  | f + 1, placed => ((tries o k placed).filter (placeOk o k (o.shares k) placed placed.length)).findSome? fun p =>
      search o k f (placed ++ [(placed.length, p)])
/-- Whether a graph has more nodes of a kind than the placement has setting-store entries in cells of that kind: then none of its placings is one. -/
def GObj.overfull (o : GObj) (k : Nat) : Bool :=
  (List.range cellMix.length).any fun kd => ((List.range o.nodes.length).filter fun n => o.kind n == kd).length > 4 * 2 ^ k * cellCount kd
/-- A placing of the whole graph, if there is one (R113). -/
def GObj.placing (o : GObj) (k : Nat) : Option (List (Nat × Place)) :=
  if o.overfull k then none
  else match firstFit o k (o.shares k) o.clusters [] with
  | .ok l => some l
  | .error _ => search o k o.nodes.length []
/-- First fit node by node, as far as it goes. -/
def fitPrefix (o : GObj) (k : Nat) (share : Nat → Bool) : Nat → List (Nat × Place) → List (Nat × Place)
  | 0, placed => placed
  | f + 1, placed =>
    match (entriesOf (List.range (2 ^ k)) (o.kind placed.length)).find? (placeOk o k share placed placed.length) with
    | some p => fitPrefix o k share f (placed ++ [(placed.length, p)])
    | none => placed
/-- Places for the nodes of a graph, in node order, as far as they can be found. -/
def GObj.somePlaces (o : GObj) (k : Nat) : List Place :=
  match o.placing k with
  | some l => (List.range o.nodes.length).filterMap fun n => (l.find? (·.1 == n)).map (·.2)
  | none => (fitPrefix o k (o.shares k) o.nodes.length []).map (·.2)

/-! ### Instances as they start -/

/-- The private state of a cell as it starts. -/
def initSt (h : BitVec 64) : CellState :=
  match kindOf h with
  | 0 => .mat {}
  | 1 => .acc (List.replicate (if classOf h = 1 then 128 / (hf h 31 25 + 1) else 1) {})
  | 3 => .red {}
  | 4 => .fnc []
  | 5 => .cvt []
  | 6 => .bfy []
  | 7 => .cnt {}
  | 8 => .agn {}
  | 9 => .rte {}
  | 10 => .gat {}
  | 11 => .tap
  | _ => .vec

/-- An end of a link that no instance has. -/
def nowhere : Nat := 2 ^ 32
/-- A link out of use; links keep their places in the list. -/
def Link.drop (l : Link) : Link := { src := nowhere, sp := l.sp, dst := nowhere, dp := l.dp, slots := l.slots }

/-- Instance 0 of a node at its place. -/
def nodeInst (o : GObj) (placed : List (Nat × Place)) (n : Nat) (p : Place) : Inst :=
  { node := n, rank := p.rank, cell := p.cell, entry := p.entry, hdr := o.hdr n, words := ((o.nodes[n]?).map (·.words)).getD [],
    loaded := o.kind n != kFNC, folded := placed.any fun q => q.1 < n && q.2.rank == p.rank && q.2.cell == p.cell, st := initSt (o.hdr n) }

/-- A layout made anew (R112): its instances, links, and the nodes that share the cell of an earlier one, in the order they came to it. -/
def newLayout (o : GObj) (placed : List (Nat × Place)) : List Inst × List Link × List (Nat × Nat) :=
  let insts := placed.map fun q => nodeInst o placed q.1 q.2
  let links := o.links.zipIdx.map fun (p : GLink × Nat) => ({ src := p.1.src, sp := p.1.sp, dst := p.1.dst, dp := p.1.dp, slots := p.1.slots, written := some p.2 } : Link)
  let folds := (insts.filter (·.folded)).map fun i => (i.node, ((insts.find? fun y => y.rank == i.rank && y.cell == i.cell).map (·.node)).getD 0)
  (insts, links, folds)

/-! ### Versions and records (R131 to R133) -/

/-- The version after a version (R131). -/
def nextVersion (v : BitVec 32) : BitVec 32 := if v = 0xFFFFFFFF#32 then 2 else v + 1

/-- A cell that cloning added (R120). -/
def Inst.extra (i : Inst) : Bool := !i.gone && (i.role != .node || i.copy > 0)

/-- Whether a node is held against layout changes by its setting or by LAYPIN (R49, R262). -/
def Group.holdsNode (x : Group) (n : Nat) : Bool := x.pins.contains n || pinOf (x.served n)

def roleCode : Role → Nat
  | .node => 0 | .split => 1 | .merge => 2

/-- The 16 bytes of a record entry (R133). -/
def entryBytes (o : GObj) (x : Group) (i : Inst) : List Byte :=
  let fl := (if i.folded then 1 else 0) + (if i.role == .node && x.holdsNode i.node then 2 else 0)
    + (if i.role == .node && ((o.nodes[i.node]?).map (·.noclone)).getD false then 4 else 0)
  leBytes 2 i.node ++ leBytes 1 (if i.role == .node then i.copy else i.iport) ++ leBytes 1 (roleCode i.role) ++ leBytes 2 i.rank
    ++ leBytes 1 i.cell ++ leBytes 1 i.entry ++ leBytes 1 fl ++ leBytes 7 0

/-- Instances in the order of a record: by node, then instances, then splits and merges (R133). -/
def Group.entryOrder (o : GObj) (x : Group) : List Inst :=
  (List.range o.nodes.length).flatMap fun n =>
    let mine := x.insts.filter fun i => i.node == n && !i.gone
    (mine.filter (·.role == .node)) ++ (mine.filter (·.role == .split)) ++ (mine.filter (·.role == .merge))

/-- The layout record of a version (R132, R133). -/
def State.recordBytes (s : State) (o : GObj) (x : Group) (v : BitVec 32) : List Byte :=
  let es := (x.entryOrder o).take 32768
  let c := x.counts
  leBytes 8 v.toNat ++ leBytes 4 o.nodes.length ++ leBytes 4 es.length ++ leBytes 4 c.segErr.toNat ++ leBytes 4 c.orphans.toNat
    ++ leBytes 4 c.clones.toNat ++ leBytes 4 c.folds.toNat ++ leBytes 4 c.unfolds.toNat ++ leBytes 4 c.cancel.toNat
    ++ wordBytes (s.cycleOf x.die) ++ leBytes 4 x.gver.toNat ++ leBytes 12 0 ++ es.flatMap (entryBytes o x)

/-- Publish the next version of a group's graph object: its record is written, then LVER takes it (R131, R132). -/
def State.publish (s : State) (g : Nat) (launch : Bool) : State :=
  match s.group? g with
  | none => s
  | some x =>
    match s.graphSt x.ctx x.key with
    | none => s
    | some gs =>
      let v := nextVersion gs.lver
      let x1 := if launch then { x with gver := v } else x
      let s1 := s.setGroup g x1
      let s2 := s1.layoutWrite x1 (s1.recordAt x1 v) (s1.recordBytes gs.obj x1 v)
      s2.modGraphSt x1.ctx x1.key fun y => { y with lver := v, record := g }

/-- The lowest free area of a context's layout region; none where the tenant's graph limit is reached (R132). -/
def State.freeArea (s : State) (ctx : Nat) : Option Nat :=
  match s.context? ctx with
  | none => none
  | some c =>
    let used := c.graphs.filterMap fun y => y.2.area
    let lim := ((s.tenant? c.cfg.tenant).map (·.cfg.graphLimit)).getD 0
    (List.range lim).find? fun a => !used.contains a

/-- Zero bytes 0 to 0x1B_FFFF of an area, a page at a time (R132). -/
def State.zeroArea (s : State) (x : Group) (a : Nat) : State :=
  let base := ((s.context? x.ctx).map (·.cfg.region)).getD 0
  (List.range 28).foldl (fun s k => s.layoutWrite x (base + BitVec.ofNat 64 (a * 2 ^ 21 + k * 65536)) (List.replicate 65536 0)) s

/-! ### Cores of a launch (R103, R337) -/

/-- Give the core of a rank its windows and banks, lowest-numbered free banks first (R103, R337). -/
def State.attachBanks (s : State) (n : Nat) (wins : List (Nat × Nat × Nat)) : State :=
  wins.foldl (fun s (w : Nat × Nat × Nat) =>
    let free := s.freeBanks (dieOf n) (quadOf n)
    let x : Win := { state := .attached, mode := if w.2.1 = 1 then .tagged else if w.2.1 = 2 then .exchange else .plain, w := w.2.2 == 1,
                     bank := free.head?, shadow := if w.2.1 = 2 then (free.drop 1).head? else none }
    s.modCore n fun c => c.setWin (BitVec.ofNat 4 w.1) x) s

/-- Crossbar source of an event term of the graph (R55, R399). -/
def GTerm.src (t : GTerm) : Nat := match t.kind with
  | 0 => t.index | 1 => 16 + t.index | 2 => 23 + t.index | _ => 31
/-- The term word of an `.event` term (R401). -/
def GTerm.word (t : GTerm) : BitVec 40 := BitVec.ofNat 40 (t.counter % 8 * 2 ^ 23 + t.amt * 2 ^ 15 + 2 ^ 12 + t.src)

/-- A control core as a launch sets it (R103): idle until the group starts. -/
def launchCore (old : CoreSt) (o : GObj) (b : List Byte) (g r : Nat) : CoreSt :=
  let entry := if blkEntry b = 0xFFFFFFFF then o.entry.getD 0 else blkEntry b
  let c : CoreSt := { pc := BitVec.ofNat 64 entry, group := some g, rank := r, issued := old.issued }
  let c := (((((c.wr 1 (blkArg b 0)).wr 2 (blkArg b 1)).wr 3 (blkArg b 2)).wr 4 (blkArg b 3)).wr 5 (BitVec.ofNat 64 r)).wr 6 (BitVec.ofNat 64 (2 ^ blkK b))
  (o.terms.zipIdx.take 16).foldl (fun c (p : GTerm × Nat) => { c with terms := c.terms.set (p.2 % 16) { word := p.1.word } (Nat.mod_lt _ (by decide)) }) c

/-- Take the cores of a group and their banks. -/
def State.takeCores (s : State) (g : Nat) (x : Group) (o : GObj) : State :=
  x.cores.zipIdx.foldl (fun s (p : Nat × Nat) => (s.setCoreAt p.1 (launchCore (s.coreAt p.1) o x.block g p.2)).attachBanks p.1 o.wins) s

/-- Free the windows of a core: its banks return to their pool and are zeroed (R216, R429). -/
def State.freeWins (s : State) (n : Nat) : State :=
  let c := s.coreAt n
  let bs := c.wins.toList.flatMap fun w => w.bank.toList ++ w.shadow.toList
  bs.foldl (fun s b => s.freeBank (dieOf n) b) (s.setCoreAt n { c with wins := Vector.replicate 16 {} })
/-- A core returns to the launch unit. -/
def State.freeCore (s : State) (n : Nat) : State :=
  let s1 := s.freeWins n
  s1.setCoreAt n { issued := (s1.coreAt n).issued }

/-- A launch that fails after taking its cores gives them back. -/
def State.abandon (s : State) (g : Nat) : State :=
  match s.group? g with
  | none => s
  | some x => let s1 := x.cores.foldl State.freeCore s; { s1 with groups := del s1.groups g }

/-- Start a placed group with its layout: windows of rates, its version and record, and its cores (R103, R118, R131). -/
def State.startGroup (s : State) (g : Nat) (insts : List Inst) (links : List Link) (folds : List (Nat × Nat)) (added : Nat) : State :=
  match s.group? g with
  | none => s
  | some x =>
    let o := s.objOf x
    let x1 := { x with status := .running, insts := insts, links := links, folds := folds, added := added, launch := s.cycle,
                       secs := List.replicate o.secs.length {}, winAt := s.cycle, winLen := 4096, winNext := 4096 }
    let s1 := (s.setGroup g x1).publish g true
    x.cores.foldl (fun s n => s.modCore n fun c => { c with status := .running }) s1

/-! ### The layout cache (R115, R116) -/

/-- A layout as it is kept: where everything lies, and nothing that flows. -/
def Inst.bare (i : Inst) : Inst :=
  { node := i.node, copy := i.copy, role := i.role, iport := i.iport, rank := i.rank, cell := i.cell, entry := i.entry, hdr := i.hdr,
    words := i.words, loaded := kindOf i.hdr != kFNC, folded := i.folded, gone := i.gone, st := initSt i.hdr }
def Link.bare (l : Link) : Link := { src := l.src, sp := l.sp, dst := l.dst, dp := l.dp, slots := l.slots, written := l.written }

/-- Key of a group in a layout cache: the first 128 bits of its graph's hash (R56, R115). -/
def GObj.key (o : GObj) : BitVec 128 := o.hash.extractLsb' 256 128
def Layout.is (l : Layout) (tenant : Nat) (hash : BitVec 128) (k : Nat) : Bool := l.tenant == tenant && l.hash == hash && l.k == k

/-- Let a consumer read the new link instead of the drained old one (R119, R127). -/
def switchLink (links : List Link) (old new : Nat) : List Link :=
  match links[old]? with
  | none => links
  | some l => (modAt links new fun m => { m with written := l.written, passed := l.passed, stall := l.stall, starve := l.starve }).zipIdx.map
      fun p => if p.2 = old then l.drop else p.1

/-- Keep the layout of a group, most recently used last; a full cache gives up the oldest entry that no running group uses, or keeps
nothing (R115). -/
def State.remember (s : State) (die : Nat) (l : Layout) : State :=
  let all := findD s.layouts die []
  let rest := all.filter fun e => !e.is l.tenant l.hash l.k
  let kept := if rest.length < Config.layoutCache then some rest
    else match rest.findIdx? fun e => e.users.all fun g => ((s.group? g).map (·.status)) != some .running with
      | some i => some (dropAt rest i)
      | none => none
  match kept with
  | some r => { s with layouts := put s.layouts die (r ++ [{ l with used := s.cycle }]) }
  | none => s

/-- The folds of a group after a layout change (R124, R125). -/
def Change.folded (c : Change) (l : List (Nat × Nat)) : List (Nat × Nat) := match c with
  | .clone _ => l
  | .fold m a => (l.filter fun q => q.1 != m) ++ [(m, a)]
  | .unfold m => l.filter fun q => q.1 != m
/-- Whether a splice is past its cut (R127). -/
def Splice.isCut (p : Splice) : Bool := p.phase == .move || p.phase == .switch

/-- The layout of a group to be kept, a splice past its cut completed (R115). -/
def Group.layout (x : Group) (o : GObj) (users : List Nat) : Layout :=
  let links := ((x.splice.map (·.switch)).getD []).foldl (fun ls (p : Nat × Nat) => switchLink ls p.1 p.2) x.links
  { tenant := x.tenant, hash := o.key, k := x.k, insts := x.insts.map Inst.bare, links := links.map Link.bare
    folds := (match x.splice with
      | some p => if p.isCut then p.change.folded x.folds else x.folds
      | none => x.folds)
    added := (x.insts.filter Inst.extra).length, users := users }

/-- Groups that use a group's cache entry. -/
def State.cacheUsers (s : State) (x : Group) (o : GObj) : List Nat :=
  (((findD s.layouts x.die []).find? fun e => e.is x.tenant o.key x.k).map (·.users)).getD []

/-- Take instances out of a kept layout, highest instance of the highest node first, until it holds no more cells than a budget (R116). -/
def trimLayout (budget : Nat) : Nat → List Inst × List Link → List Inst × List Link
  | 0, l => l
  | f + 1, (insts, links) =>
    if (insts.filter Inst.extra).length ≤ budget then (insts, links)
    else
      match insts.zipIdx.foldl (fun (b : Option (Inst × Nat)) (p : Inst × Nat) =>
          if p.1.gone || p.1.role != .node || p.1.copy = 0 then b
          else match b with
            | none => some p
            | some q => if q.1.node < p.1.node || (q.1.node == p.1.node && q.1.copy < p.1.copy) then some p else b) none with
      | none => (insts, links)
      | some (top, j) =>
        let insts1 := modAt insts j fun i => { i with gone := true }
        let links1 := links.map fun l => if l.src == j || l.dst == j then l.drop else l
        if top.copy > 1 then trimLayout budget f (insts1, links1)
        else
          let base := (insts1.findIdx? fun i => i.node == top.node && i.role == .node && i.copy == 0).getD nowhere
          let is (r : Role) (e : Nat) : Option Nat := ((insts1[e]?).filter fun i => i.node == top.node && i.role == r && !i.gone).map (·.iport)
          let links2 := links1.map fun l =>
            if (is .split l.src).isSome || (is .merge l.dst).isSome then l.drop
            else match is .split l.dst, is .merge l.src with
              | some p, _ => { l with dst := base, dp := p }
              | none, some q => { l with src := base, sp := q }
              | none, none => l
          let insts2 := insts1.map fun i => if i.node == top.node && i.role != .node then { i with gone := true } else i
          trimLayout budget f (insts2, links2)

/-- Start a group from the entry that it hits, if there is one: its use counts, and what the budget no longer allows is removed (R115, R116). -/
def State.startCached (s : State) (g : Nat) : Option State :=
  match s.group? g with
  | none => none
  | some x =>
    let o := s.objOf x
    match (findD s.layouts x.die []).find? fun e => e.is x.tenant o.key x.k with
    | none => none
    | some e =>
      let budget := ((s.tenant? x.tenant).map (·.cfg.budget)).getD 0
      let (insts, links) := trimLayout budget e.insts.length (e.insts, e.links)
      let s1 := s.remember x.die { e with users := e.users ++ [g] }
      some (s1.startGroup g insts links e.folds (insts.filter Inst.extra).length)

/-- Start a group whose graph has just been placed, and keep its layout (R112, R115). -/
def State.startAnew (s : State) (g : Nat) (placed : List (Nat × Place)) : State :=
  match s.group? g with
  | none => s
  | some x =>
    let o := s.objOf x
    let (insts, links, folds) := newLayout o placed
    let s1 := s.startGroup g insts links folds 0
    match s1.group? g with
    | some x1 =>
      let s2 := s1.remember x.die (x1.layout o (s1.cacheUsers x o ++ [g]))
      if (s2.cacheUsers x o).contains g then s2 else s2.modGroup g fun x => { x with once := true }
    | none => s1

/-- PLACE_GRAPH (R112, R113): places for every node start the group; where the next node has none and no placing is found at all, the launch
fails with check 8 and the first node that could not be placed. Places that break R113 or R114 change nothing. -/
def execPlaceGraph (group : Nat) (places : List Place) (s : State) : Out :=
  match s.group? group with
  | none => .next s
  | some x =>
    let o := s.objOf x
    let share := o.shares x.k
    let placed := (List.range places.length).zip places
    let n := places.length
    if x.status != .placing || s.engineLater x.die x.ctx || n > o.nodes.length || !placed.all fun q => placeOk o x.k share (placed.filter (·.1 != q.1)) q.1 q.2 then .next s
    else if n = o.nodes.length then .next (s.startAnew group placed)
    else
      match o.placing x.k with
      | some _ => .next s
      | none =>
        if (entriesOf (List.range (2 ^ x.k)) (o.kind n)).any (placeOk o x.k share placed n) then .next s
        else .next ((s.loadErr x.ctx .loader (unitLoc x.die) (unitSrc x.die) x.graph (BitVec.ofNat 64 n) 8).abandon group)

/-! ### Layout changes (R121 to R126) -/

/-- The written links into and out of a node. -/
def GObj.linksIn (o : GObj) (n : Nat) : List Nat := (List.range o.links.length).filter fun j => ((o.links[j]?).map (·.dst)) == some n
def GObj.linksOut (o : GObj) (n : Nat) : List Nat := (List.range o.links.length).filter fun j => ((o.links[j]?).map (·.src)) == some n
def maxOf (l : List Nat) : Nat := l.foldl max 0
/-- A node's stall count in a window (R126). -/
def stallOf (o : GObj) (rs : List Rate) (n : Nat) : Nat := maxOf ((o.linksIn n).map fun j => (rs.getD j {}).stall.toNat)
/-- Whether a node holds others back in a window of a length (R121). -/
def isBottleneck (o : GObj) (rs : List Rate) (len c n : Nat) : Bool :=
  stallOf o rs n * 256 > c * len && maxOf ((o.linksOut n).map fun j => (rs.getD j {}).starve.toNat) * 256 > c * len
/-- Whether every link of a node passed fewer tokens than the fold threshold in a window (R124). -/
def isQuiet (o : GObj) (rs : List Rate) (len f n : Nat) : Bool :=
  (o.linksIn n ++ o.linksOut n).all fun j => (rs.getD j {}).passed.toNat * 256 < f * len
/-- Whether some link of a node passed at least twice that in each of two windows (R125). -/
def isBusy (o : GObj) (cur prev : List Rate) (len f n : Nat) : Bool :=
  (o.linksIn n ++ o.linksOut n).any fun j => [cur, prev].all fun rs => (rs.getD j {}).passed.toNat * 256 ≥ 2 * f * len

/-- A window-bound node, which reaches a window of its core (R454). -/
def GObj.windowBound (o : GObj) (n : Nat) : Bool := o.kind n == kAGN && !(o.hdr n).getLsbD 35
/-- Whether a node does not leave its core: it is window-bound, or a zero-slot link ties it there (R114). -/
def GObj.fixedCore (o : GObj) (n : Nat) : Bool := o.windowBound n || o.links.any fun l => l.slots == 0 && (l.src == n || l.dst == n)
/-- Nodes that are never cloned whatever their class (R319). -/
def GObj.neverCloned (o : GObj) (n : Nat) : Bool :=
  let m := modeOf (o.hdr n)
  o.kind n == kAGN &&
    (m == 2 || m == 3 || (m == 0 && !(o.links.any fun l => l.dst == n && l.dp == 0)) || (m == 1 && !(o.links.any fun l => l.dst == n && l.dp == 2)))

/-- The cells of a kind that hold no node, on one core only or in the whole placement (R122). -/
def Group.freeCells (x : Group) (own : Bool) (kd rank : Nat) : List (Nat × Nat) :=
  let ranks := if own then [rank] else List.range (2 ^ x.k)
  (ranks.flatMap fun r => (cellsOf kd).map fun c => (r, c)).filter fun p => !x.insts.any fun i => !i.gone && i.rank == p.1 && i.cell == p.2

/-- Linked ports of a node, inputs and outputs. -/
def GObj.portsIn (o : GObj) (n : Nat) : List Nat := (List.range 4).filter fun p => o.links.any fun l => l.dst == n && l.dp == p
def GObj.portsOut (o : GObj) (n : Nat) : List Nat := (List.range 4).filter fun p => o.links.any fun l => l.src == n && l.sp == p

/-- RTE cells that the next clone of a node needs, with the first a split for each input and a merge for each output: for each whether a zero-slot
link holds it to the node's core (R114, R122, R123). -/
def Group.rtesFor (x : Group) (o : GObj) (n : Nat) : List Bool :=
  if (x.copies n).length > 1 then []
  else ((o.portsIn n).map fun p => o.links.any fun l => l.slots == 0 && l.dst == n && l.dp == p)
    ++ (o.portsOut n).map fun p => o.links.any fun l => l.slots == 0 && l.src == n && l.sp == p
/-- Rank of instance 0 of a node. -/
def Group.rankOf (x : Group) (n : Nat) : Nat := ((x.insts.find? fun i => i.node == n && i.role == .node).map (·.rank)).getD 0

/-- Whether a node may be cloned now (R122). -/
def Group.mayClone (x : Group) (o : GObj) (budget n : Nat) : Bool :=
  let r := x.rankOf n
  let rtes := x.rtesFor o n
  !x.holdsNode n && !((o.nodes[n]?).map (·.noclone)).getD true && classOf (o.hdr n) != 3 && !o.neverCloned n
    && (x.copies n).length < 4 && !(x.freeCells (o.windowBound n) (o.kind n) r).isEmpty
    && rtes.length + (if o.kind n == kRTE then 1 else 0) ≤ (x.freeCells false kRTE r).length
    && (rtes.filter id).length ≤ (x.freeCells true kRTE r).length
    && x.added + 1 + rtes.length ≤ budget

/-- Instances on the cell of a rank and number. -/
def Group.onCell (x : Group) (rank cell : Nat) : List Inst := x.insts.filter fun i => !i.gone && i.rank == rank && i.cell == cell
/-- Whether a node may be folded (R124, R262, R319). -/
def Group.mayFold (x : Group) (o : GObj) (n : Nat) : Bool :=
  !x.holdsNode n && (x.copies n).length == 1 && !(o.kind n == kAGN && (modeOf (o.hdr n) == 2 || modeOf (o.hdr n) == 3))
/-- The instance that a node has where it has one. -/
def Group.zero (x : Group) (n : Nat) : Inst := (x.insts.find? fun i => i.node == n && i.role == .node && !i.gone).getD { node := n, hdr := 0 }
/-- Whether node b may move onto the cell of node a (R124). -/
def Group.foldPair (x : Group) (o : GObj) (a b : Nat) : Bool :=
  let i := x.zero a
  let j := x.zero b
  a < b && o.kind a == o.kind b && !o.path a b && !o.path b a && x.mayFold o a && x.mayFold o b
    && !(i.rank == j.rank && i.cell == j.cell) && (x.onCell i.rank i.cell).length < 4 && (!o.fixedCore b || i.rank == j.rank)
/-- The node that leaves a folded cell: the one that came to it most recently (R125). -/
def Group.leaver (x : Group) (rank cell : Nat) : Option Nat :=
  (x.folds.reverse.find? fun p => let i := x.zero p.1; i.rank == rank && i.cell == cell).map (·.1)

/-- The best of some candidates: largest stall count first, then the lowest numbers (R126). -/
def bestOf (l : List (Nat × Nat × Nat)) : Option (Nat × Nat) :=
  (l.foldl (fun (b : Option (Nat × Nat × Nat)) e => match b with
    | none => some e
    | some c => if e.1 > c.1 || (e.1 == c.1 && (e.2.1 < c.2.1 || (e.2.1 == c.2.1 && e.2.2 < c.2.2))) then some e else b) none).map (·.2)

/-- The layout change that a window's end calls for (R121 to R126, R263). `two` tells whether the two windows are consecutive, `fresh`
whether both began after the last change. -/
def Group.decide (x : Group) (o : GObj) (t : TenantCfg) (cur prev : List Rate) (len : Nat) (two fresh : Bool) : Option Change :=
  let nodes := List.range o.nodes.length
  let clones := (nodes.filter fun n =>
    (x.bottle.contains n || (two && fresh && isBottleneck o cur len t.cloneThr n && isBottleneck o prev len t.cloneThr n))
      && x.mayClone o t.budget n).map fun n => (stallOf o cur n, n, 0)
  let unfolds := if !two then [] else (nodes.filter fun n =>
    let i := x.zero n
    (x.onCell i.rank i.cell).length > 1 && isBusy o cur prev len t.foldThr n
      && (match x.leaver i.rank i.cell with
        | some m => !x.holdsNode m && !(x.freeCells (o.fixedCore m) (o.kind m) i.rank).isEmpty
        | none => false)).map fun n => (stallOf o cur n, n, 0)
  let quiet (n : Nat) : Bool := isQuiet o cur len t.foldThr n && isQuiet o prev len t.foldThr n
  let folds := if !two || t.foldThr == 0 then [] else
    let q := nodes.filter quiet
    q.flatMap fun a => (q.filter (x.foldPair o a)).map fun b => (max (stallOf o cur a) (stallOf o cur b), a, b)
  match bestOf clones, bestOf unfolds, bestOf folds with
  | some (n, _), _, _ => some (.clone n)
  | none, some (n, _), _ => let i := x.zero n; (x.leaver i.rank i.cell).map .unfold
  | none, none, some (a, b) => some (.fold b a)
  | none, none, none => none

/-- Choose cells among the free ones, one after another (R114, R122; log 10). -/
def State.pick (s : State) : Nat → List (Nat × Nat) → List (Nat × Nat) × State
  | 0, _ => ([], s)
  | k + 1, free =>
    let (i, s1) := s.choose free.length
    let p := free.getD i (0, 0)
    let (rest, s2) := State.pick s1 k (free.filter (· != p))
    (p :: rest, s2)

/-- Cells of two lists in the order in which they are called for: true calls for one of the first. -/
def inTurn : List Bool → List (Nat × Nat) → List (Nat × Nat) → List (Nat × Nat)
  | true :: bs, p :: ps, qs => p :: inTurn bs ps qs
  | false :: bs, ps, q :: qs => q :: inTurn bs ps qs
  | _, _, _ => []

/-- Begin to prepare a layout change (R127). -/
def State.beginSplice (s : State) (g : Nat) (x : Group) (o : GObj) (c : Change) : State :=
  match c with
  | .clone n =>
    let r := x.rankOf n
    let need := x.rtesFor o n
    let (near, s1) := s.pick (need.filter id).length (x.freeCells true kRTE r)
    let (cell, s2) := s1.pick 1 ((x.freeCells (o.windowBound n) (o.kind n) r).filter (!near.contains ·))
    let p := cell.headD (0, 0)
    let (far, s3) := s2.pick (need.filter (!·)).length ((x.freeCells false kRTE r).filter fun q => q != p && !near.contains q)
    s3.setGroup g { x with splice := some { change := c, phase := .prepare, rank := p.1, cell := p.2, entry := 0,
                                            rtes := (inTurn need near far).map fun q => (q.1, q.2, 0) } }
  | .fold _ a =>
    let i := x.zero a
    let used := (x.onCell i.rank i.cell).map (·.entry)
    let e := ((List.range 4).find? fun e => !used.contains e).getD 3
    s.setGroup g { x with splice := some { change := c, phase := .prepare, rank := i.rank, cell := i.cell, entry := e } }
  | .unfold n =>
    let i := x.zero n
    let (cell, s1) := s.pick 1 (x.freeCells (o.fixedCore n) (o.kind n) i.rank)
    let p := cell.headD (0, 0)
    s1.setGroup g { x with splice := some { change := c, phase := .prepare, rank := p.1, cell := p.2, entry := i.entry } }

/-- WINDOW_END (R117, R118, R121 to R126): the counters of every written link are latched and restart; then a layout change may begin. -/
def execWindowEnd (group : Nat) (s : State) : Out :=
  match s.group? group with
  | none => .next s
  | some x =>
    if !s.windowOver x then .next s
    else
      let o := s.objOf x
      let cur := x.ratesNow o.links.length
      let two := x.winPrev == x.winLen
      let fresh := x.changed < x.winAt - x.winPrev || x.changed == 0
      let x1 := x.latch o.links.length
      let s1 := s.setGroup group x1
      let lver := ((s.graphSt x.ctx x.key).map (·.lver)).getD 0
      match s.tenant? x.tenant with
      | none => .next s1
      | some t =>
        if !t.cfg.relayout || x.suspend || lver == 0xFFFFFFFF#32 || x.splice.isSome || x.preempt.isSome || !s.live x then .next s1
        else
          match x.decide o t.cfg cur x.rates x.winLen two fresh with
          | some c => .next (s1.beginSplice group x1 o c)
          | none => .next s1

/-! ### The splice (R127 to R130) -/

/-- Cancel a splice that is not past its cut (R129). -/
def State.cancelSplice (s : State) (g : Nat) : State :=
  match (s.group? g).bind (·.splice) with
  | some p =>
    if p.phase == .prepare || p.phase == .armed then (s.modGroup g fun x => { x with splice := none }).cancelled g else s
  | none => s

/-- The node of a layout change, and every node that it concerns. -/
def Change.node : Change → Nat
  | .clone n => n | .fold m _ => m | .unfold m => m
def Change.nodes : Change → List Nat
  | .clone n => [n] | .fold m a => [m, a] | .unfold m => [m]

/-- Arm a splice: its node is marked; the boundary after its next firing is the splice point (R127). -/
def State.armSplice (s : State) (g : Nat) (p : Splice) : State :=
  let marks (x : Group) : List (Nat × Option Nat) := (x.insts.zipIdx.filter fun q => p.concerns q.1).map fun q => (q.2, q.1.fired)
  s.modGroup g fun x => { x with splice := some { p with phase := .armed, armed := s.cycle, marks := marks x } }

/-- SPLICE_ARM (R127, R262, R292, R424): what the change needs is loaded, and the node is marked. A clone has its table from the running instance; an FNC
that moves to another cell reads it there. A node that is held by then, or a table that cannot be read, cancels the splice; the node fires no more
where the tenant's own fault keeps its table from being read. -/
def execSpliceArm (group : Nat) (s : State) : Out :=
  match s.group? group with
  | none => .next s
  | some x =>
    match x.splice with
    | none => .next s
    | some p =>
      if p.phase != .prepare || !s.live x || x.preempt.isSome then .next s
      else
        let i := x.zero p.change.node
        let clones : Bool := match p.change with
          | .clone _ => true
          | _ => false
        if p.change.nodes.any x.holdsNode then .next (s.cancelSplice group)
        else if kindOf i.hdr != kFNC || clones then .next (s.armSplice group p)
        else if i.held || s.settingLater x i then .next s
        else
          match s.fncTable x i with
          | (s1, .ok t) => .next (s1.armSplice group { p with table := some t })
          | (s1, .error true) => .next (s1.cancelSplice group)
          | (s1, .error false) => .next (((x.copies i.node).foldl (fun s j => s.modInst { group := group, inst := j } fun i => { i with dead := true }) s1).cancelSplice group)

/-- Whether the instances that a splice concerns stand at the splice point (R42, R127): between two segments, with nothing to
acknowledge or to route; a node already cloned has no token between its splits and its instances. -/
def Group.atPoint (x : Group) (p : Splice) : Bool :=
  x.splicePassed p && x.insts.zipIdx.all fun q => !p.concerns q.1 || q.1.gone || (q.1.atBoundary && q.1.agn.acks.isEmpty && q.1.rte.route.isEmpty
    && (q.1.role != .node || x.links.all fun l => l.dst != q.2 || l.toks.isEmpty
          || !((x.insts[l.src]?).map fun y => y.node == q.1.node && y.role == .split).getD false))

/-- Complete a splice: the version rises and its record is published (R127, R131). -/
def State.endSplice (s : State) (g : Nat) : State :=
  match s.group? g with
  | none => s
  | some x =>
    match x.splice with
    | none => s
    | some p =>
      let c := x.counts
      let x1 : Group := match p.change with
        | .clone _ => { x with counts := { c with clones := satAdd c.clones 1 }, added := x.added + 1 + p.rtes.length }
        | .fold _ _ => { x with counts := { c with folds := satAdd c.folds 1 } }
        | .unfold _ => { x with counts := { c with unfolds := satAdd c.unfolds 1 } }
      (s.setGroup g { x1 with splice := none, changed := s.cycle, folds := p.change.folded x.folds }).publish g false

/-- After a phase of a splice: with nothing left to switch, it completes. -/
def State.settleSplice (s : State) (g : Nat) : State :=
  match (s.group? g).bind (·.splice) with
  | some p => if p.phase == .switch && p.switch.isEmpty then s.endSplice g else s
  | none => s

/-- Give the output links of an instance new ones from another producer; each old link stays until its consumer has drained it (R127). -/
def reLink (links : List Link) (j q src sp : Nat) : List Link × List (Nat × Nat) :=
  (List.range links.length).foldl (fun (acc : List Link × List (Nat × Nat)) k =>
    match links[k]? with
    | some l =>
      if l.src == j && l.sp == q then
        ((setAt acc.1 k { l with src := nowhere }) ++ [{ src := src, sp := sp, dst := l.dst, dp := l.dp, slots := l.slots }], acc.2 ++ [(k, acc.1.length)])
      else acc
    | none => acc) (links, [])

/-- Header of an inserted RTE: mode rr for a split, merge for a merge, the class of the node it serves, II 1, RQ 1 (R123, R321). -/
def rteHdr (merge : Bool) (h : BitVec 64) : BitVec 64 :=
  BitVec.ofNat 64 (9 * 2 ^ 60 + (if merge then 3 else 0) * 2 ^ 52 + classOf h * 2 ^ 50 + 2 ^ 40 + 2 ^ 33)

/-- The sequence counts of one port, as counts of port 0 (R49, R128, R271). -/
def portSeqs (l : Tbl (BitVec 24)) (q : Nat) : Tbl (BitVec 24) := (l.filter fun p => p.1 / 2 ^ 20 == q).map fun p => (p.1 % 2 ^ 20, p.2)

/-- The new instance of a cloned node: its place, and the node's stationary data (R127). -/
def cloneInst (i : Inst) (copy : Nat) (p : Splice) : Inst :=
  { i.bare with copy := copy, rank := p.rank, cell := p.cell, entry := p.entry, folded := false, loaded := i.loaded, dead := i.dead,
                st := match i.st with
                  | .mat m => .mat { active := m.active, shadow := m.shadow, swap := m.swap }
                  | .fnc t => .fnc t
                  | _ => initSt i.hdr }

/-- The cut of a clone (R123, R127). -/
def Group.cutClone (x : Group) (o : GObj) (p : Splice) (n : Nat) : Group × List (Nat × Nat) :=
  let i := x.zero n
  let olds := x.copies n
  let j0 := olds.headD 0
  let new := x.insts.length
  let insts := x.insts ++ [cloneInst i olds.length p]
  if olds.length > 1 then
    let ins := x.insts.zipIdx.flatMap fun q =>
      if q.1.node == n && !q.1.gone then
        match q.1.role with
        | .split => [({ src := q.2, sp := olds.length, dst := new, dp := q.1.iport, slots := 1 } : Link)]
        | .merge => [{ src := new, sp := q.1.iport, dst := q.2, dp := olds.length, slots := 1 }]
        | .node => []
      else []
    ({ x with insts := insts, links := x.links ++ ins }, [])
  else
    let pin := o.portsIn n
    let pout := o.portsOut n
    let rte (k : Nat) (merge : Bool) (port : Nat) : Inst :=
      let c := p.rtes.getD k (0, 0, 0)
      let hd := rteHdr merge i.hdr
      { node := n, copy := 0, role := if merge then .merge else .split, iport := port, rank := c.1, cell := c.2.1, entry := c.2.2, hdr := hd,
        seqs := if merge then portSeqs i.seqs port else [], nexts := if merge then [] else portSeqs i.nexts port
        st := .rte (if merge && !commuteOf i.hdr && isMerge i.hdr then { held := i.rte.held, expect := i.rte.expect } else {}) }
    let splits := pin.zipIdx.map fun q => rte q.2 false q.1
    let merges := pout.zipIdx.map fun q => rte (pin.length + q.2) true q.1
    let s0 := new + 1
    let m0 := s0 + splits.length
    let links1 := x.links.map fun l => if l.dst == j0 then
        { l with dst := s0 + (pin.findIdx? (· == l.dp)).getD 0, dp := 0 } else l
    let (links2, sw) := pout.zipIdx.foldl (fun (acc : List Link × List (Nat × Nat)) q =>
      let (ls, w) := reLink acc.1 j0 q.1 (m0 + q.2) 0
      (ls, acc.2 ++ w)) (links1, [])
    let inner := pin.zipIdx.flatMap (fun q => [j0, new].zipIdx.map fun d => ({ src := s0 + q.2, sp := d.2, dst := d.1, dp := q.1, slots := 1 } : Link))
      ++ pout.zipIdx.flatMap fun q => [j0, new].zipIdx.map fun d => { src := d.1, sp := q.1, dst := m0 + q.2, dp := d.2, slots := 1 }
    let first (y : Inst) : Inst := if isMerge i.hdr && !commuteOf i.hdr then { y with st := .rte { y.rte with held := [], expect := [] } } else y
    ({ x with insts := modAt insts j0 first ++ splits ++ merges, links := links2 ++ inner }, sw)

/-- The cut of a fold or unfold: the node takes its new cell; what it has written is drained from its old links (R127). -/
def Group.cutMove (x : Group) (o : GObj) (p : Splice) (n : Nat) (folded : Bool) : Group × List (Nat × Nat) :=
  let j := (x.copies n).headD 0
  let (links, sw) := (o.portsOut n).foldl (fun (acc : List Link × List (Nat × Nat)) q =>
    let (ls, w) := reLink acc.1 j q j q
    (ls, acc.2 ++ w)) (x.links, [])
  ({ x with insts := modAt x.insts j fun i => { i with
      rank := p.rank, cell := p.cell, entry := p.entry, folded := folded, st := (p.table.map .fnc).getD i.st }, links := links }, sw)

/-- SPLICE_CUT (R123, R127). -/
def execSpliceCut (group : Nat) (s : State) : Out :=
  match s.group? group with
  | none => .next s
  | some x =>
    match x.splice with
    | none => .next s
    | some p =>
      if p.phase != .armed || !s.live x || x.preempt.isSome || !x.atPoint p || s.engineLater x.die x.ctx then .next s
      else
        let o := s.objOf x
        let n := p.change.node
        let (x1, sw) := match p.change with
          | .clone n => x.cutClone o p n
          | .fold m _ => x.cutMove o p m true
          | .unfold m => x.cutMove o p m false
        let phase : SPhase := match p.change with
          | .clone _ => if classOf (o.hdr n) = 1 then .move else .switch
          | _ => .switch
        .next ((s.setGroup group { x1 with splice := some { p with phase := phase, switch := sw } }).settleSplice group)

/-! ### Keyed state (R123, R127, R373) -/

/-- Take a key's state out of an instance, and put it into another. -/
def moveKey (key : Nat) (a b : CellState) : CellState × CellState :=
  match a, b with
  | .acc xs, .acc ys =>
    match xs.findIdx? fun e => e.key.map (·.toNat) == some key with
    | none => (a, b)
    | some k =>
      let e := xs.getD k {}
      (.acc (setAt xs k {}), .acc (match ys.findIdx? fun y => y.key.isNone with
        | some m => setAt ys m e
        | none => ys ++ [e]))
  | .gat x, .gat y =>
    let own (th : BitVec 20) : Bool := th.toNat == key
    let tl := (find x.tiles key).map fun v => put y.tiles key v
    let sl := (find x.steps key).map fun v => put y.steps key v
    (.gat { x with tiles := del x.tiles key, steps := del x.steps key, caps := x.caps.filter (!own ·.thread), outs := x.outs.filter (!own ·.thread) },
     .gat { y with tiles := tl.getD y.tiles, steps := sl.getD y.steps, caps := y.caps ++ x.caps.filter (own ·.thread),
                   outs := y.outs ++ x.outs.filter (own ·.thread) })
  | _, _ => (a, b)

/-- The lowest key whose state is not where the split now sends its tokens, with its place and its owner. -/
def Group.misplaced (x : Group) (n : Nat) : Option (Nat × Nat × Nat) :=
  (x.keysOut n).foldl
    (fun (b : Option (Nat × Nat × Nat)) e => match b with
      | none => some e
      | some c => if e.1 < c.1 then some e else b) none

/-- KEY_STATE_MOVE (R127): one state entry moves, in key order; with none left, the consumers switch. -/
def execKeyStateMove (group : Nat) (s : State) : Out :=
  match s.group? group with
  | none => .next s
  | some x =>
    match x.splice with
    | none => .next s
    | some p =>
      if p.phase != .move || !s.live x || s.engineLater x.die x.ctx then .next s
      else
        match x.misplaced p.change.node with
        | some (key, a, b) =>
          let (u, v) := moveKey key (((x.insts[a]?).map (·.st)).getD .vec) (((x.insts[b]?).map (·.st)).getD .vec)
          .next (s.setGroup group { x with insts := modAt (modAt x.insts a fun i => { i with st := u }) b fun i => { i with st := v } })
        | none => .next ((s.setGroup group { x with splice := some { p with phase := .switch } }).settleSplice group)

/-- CONSUMER_SWITCH (R127): a consumer that has drained its old link reads the new one; with the last, the splice completes. -/
def execConsumerSwitch (group link : Nat) (s : State) : Out :=
  match s.group? group with
  | none => .next s
  | some x =>
    match x.splice with
    | none => .next s
    | some p =>
      match p.switch.find? (fun q => q.1 == link), x.links[link]? with
      | some w, some l =>
        if p.phase != .switch || !s.live x || !l.toks.isEmpty || s.engineLater x.die x.ctx then .next s
        else .next ((s.setGroup group { x with links := switchLink x.links w.1 w.2, splice := some { p with switch := p.switch.filter (· != w) } }).settleSplice group)
      | _, _ => .next s

/-- SPLICE_CANCEL (R129): the splice point has not come within two windows of arming, or a pre-emption finds the splice not cut. -/
def execSpliceCancel (group : Nat) (s : State) : Out :=
  match s.group? group with
  | none => .next s
  | some x =>
    match x.splice with
    | some p => .next (if x.preempt.isSome || (p.phase == .armed && s.cycle - p.armed ≥ 2 * x.winLen) then s.cancelSplice group else s)
    | none => .next s

end Sys2Proof.Machine
end

