-- ==== Sys2Proof/Machine/Launch.lean ====
section
/-! DEFINITION. Launch units: placements, the order of service, aging with its pre-emption, loading a graph, launching a group, and the
operations on dependency counters (R57, R60, R97 to R103). -/

namespace Sys2Proof.Machine

/-! ### Placements (R99, R102, R103, R423) -/

/-- Banks that the window list of a block needs on each core (R103). -/
def winBanks (wins : List (Nat × Nat × Nat)) : Nat := (wins.map fun w => if w.2.1 = 2 then 2 else 1).sum
/-- Banks attached to the windows of a core. -/
def CoreSt.bankCount (c : CoreSt) : Nat := (c.wins.toList.map fun w => w.bank.toList.length + w.shadow.toList.length).sum
/-- Banks that each core of a ready group needs, in rank order. -/
def State.needs (s : State) (r : Ready) : List Nat :=
  match (r.group.bind s.group?).bind (·.saved) with
  | some v => v.cores.map CoreSt.bankCount
  | none => List.replicate (2 ^ blkK r.block) (winBanks (s.winsOf r.ctx r.block))

/-- Whether a placement is free on a die: every core available and idle, and the banks there (R99, R102). -/
def State.fitsAt (s : State) (die first : Nat) (needs : List Nat) : Bool :=
  let n := needs.length
  0 < n && first % n == 0 && first + n ≤ 128
    && (List.range n).all (fun r => let c := die * 128 + first + r
        s.available c && (s.coreAt c).status == .idle && (s.coreAt c).group.isNone)
    && (List.range 32).all fun q =>
        ((needs.zipIdx.filter fun p => (first + p.2) / 4 == q).map (·.1)).sum ≤ (s.freeBanks die q).length
/-- First cores of the free placements of a die. -/
def State.spotsOn (s : State) (die : Nat) (needs : List Nat) : List (Nat × Nat) :=
  ((List.range 128).filter fun f => s.fitsAt die f needs).map fun f => (die, f)
/-- The placements that a ready group of a die may take: for a launch, those its shape allows (R99); for a resume, those of its own die, else
of the lowest die that has one (R423). -/
def State.spots (s : State) (die : Nat) (r : Ready) : List (Nat × Nat) :=
  let needs := s.needs r
  match r.group with
  | none => (s.spotsOn die needs).filter fun p => blkQuad r.block == 0xFF || p.2 == blkQuad r.block * 4
  | some _ =>
    match s.spotsOn die needs with
    | [] => ((List.range Config.dies).findSome? fun d => match s.spotsOn d needs with
        | [] => none
        | l => some l).getD []
    | l => l

/-! ### The order of service (R100 to R102) -/

def agedAfter : Nat := 65536
/-- Head groups of a level, by tenant. -/
def LaunchUnit.heads (u : LaunchUnit) (level : Nat) : List (Nat × Ready) :=
  (List.range 64).filterMap fun t => ((findD u.ready (readyKey level t) []).head?).map fun r => (t, r)

/-- The credits of a launch unit: where every tenant with a ready group in a level would have 0, each tenant's is set to its weight (R101). -/
def State.creditsOf (s : State) (u : LaunchUnit) (level : Nat) (ts : List Nat) : Tbl Nat :=
  if ts.all fun t => findD u.credits (readyKey level t) 0 == 0 then
    s.tenants.foldl (fun (c : Tbl Nat) t => put c (readyKey level t.1) t.2.cfg.weight) u.credits
  else u.credits

/-- Insert by a key, after what is not above it. -/
def insertBy {α : Type} (key : α → Nat) (x : α) : List α → List α
  | [] => [x]
  | y :: ys => if key x < key y then x :: y :: ys else y :: insertBy key x ys
def sortBy {α : Type} (key : α → Nat) (l : List α) : List α := l.foldl (fun a x => insertBy key x a) []

/-- Tenants of a level in the order in which they are tried: those with credit, then the others, each in cyclic order after the last served
(R101, R102). The spec names none before the first service; the model takes 63, so that tenant 0 comes first (DESIGN CHOICE, log 80). -/
def State.turnOrder (s : State) (u : LaunchUnit) (level : Nat) (hs : List (Nat × Ready)) : List (Nat × Ready) :=
  let cr := s.creditsOf u level (hs.map (·.1))
  let last := findD u.last level 63
  let cyc (t : Nat) : Nat := (t + 63 - last) % 64
  let rich (t : Nat) : Bool := findD cr (readyKey level t) 0 != 0
  sortBy (fun p => cyc p.1) (hs.filter fun p => rich p.1) ++ sortBy (fun p => cyc p.1) (hs.filter fun p => !rich p.1)

/-- Whether a head group has aged its tenant (R101). -/
def State.isAged (s : State) (r : Ready) : Bool := s.cycle - r.since ≥ agedAfter

/-- The ready group that a launch unit serves next among some levels, highest first: with its level and tenant (R100 to R102). An aged group
that does not fit holds back its level and every lower one. -/
def State.pickLevels (s : State) (die : Nat) (u : LaunchUnit) : List Nat → Option (Nat × Nat × Ready)
  | [] => none
  | l :: rest =>
    let hs := (u.heads l).filter fun p => !p.2.held
    match sortBy (fun p => p.2.since) (hs.filter fun p => s.isAged p.2) with
    | (t, r) :: _ => if (s.spots die r).isEmpty then none else some (l, t, r)
    | [] =>
      match (s.turnOrder u l hs).find? fun p => !(s.spots die p.2).isEmpty with
      | some (t, r) => some (l, t, r)
      | none => State.pickLevels s die u rest
def State.pickReady (s : State) (die : Nat) : Option (Nat × Nat × Ready) := s.pickLevels die (findD s.units die {}) [3, 2, 1, 0]

/-- Serve a head group: it leaves its queue, and a tenant that is not aged pays a credit (R101). -/
def State.serve (s : State) (die level tenant : Nat) (r : Ready) : State :=
  let u := findD s.units die {}
  let k := readyKey level tenant
  let cr := s.creditsOf u level ((u.heads level).map (·.1))
  let credits := if s.isAged r then u.credits else put cr k (findD cr k 0 - 1)
  { s with units := put s.units die { u with ready := put u.ready k ((findD u.ready k []).drop 1), credits := credits,
                                             last := put u.last level tenant, aged := u.aged.filter (· != k) } }

/-- Mark the head group of a queue as held by a stage-2 fault, or no longer (R57, R352). -/
def State.holdReady (s : State) (die level tenant : Nat) : State :=
  let u := findD s.units die {}
  let k := readyKey level tenant
  { s with units := put s.units die { u with ready := put u.ready k (modAt (findD u.ready k []) 0 fun r => { r with held := true }) } }

/-! ### Aging (R101, R102) -/

/-- Every sublist of a list. -/
def sublists {α : Type} : List α → List (List α)
  | [] => [[]]
  | x :: xs => let r := sublists xs; r ++ r.map (x :: ·)

/-- Running groups of a die that an aged group of a level may displace (R102, R422). -/
def State.victims (s : State) (die level : Nat) : List (Nat × Group) :=
  s.groups.filter fun g => g.2.die == die && g.2.status == .running && g.2.level < level && s.canSave g.2

/-- Whether pre-empting some groups frees the cores and banks of a placement. -/
def State.freedBy (s : State) (die first : Nat) (needs : List Nat) (vs : List (Nat × Group)) : Bool :=
  let gone (g : Option Nat) : Bool := match g with
    | some g => vs.any fun v => v.1 == g
    | none => false
  let n := needs.length
  0 < n && first % n == 0 && first + n ≤ 128
    && (List.range n).all (fun r => let c := die * 128 + first + r
        s.available c && (gone (s.coreAt c).group || ((s.coreAt c).status == .idle && (s.coreAt c).group.isNone)))
    && (List.range 32).all fun q =>
        let back := ((vs.flatMap fun v => v.2.cores.flatMap fun c => (s.coreAt c).wins.toList.flatMap fun w => w.bank.toList ++ w.shadow.toList).filter
          fun b => b.quad.toNat == q).length
        ((needs.zipIdx.filter fun p => (first + p.2) / 4 == q).map (·.1)).sum ≤ (s.freeBanks die q).length + back

/-- Compare two lists of numbers element by element. -/
def listLt : List Nat → List Nat → Bool
  | x :: xs, y :: ys => x < y || (x == y && listLt xs ys)
  | _, _ => false

/-- Whether one set of groups to pre-empt, with the placement it frees, goes before another (R102). -/
def setBefore (a b : Nat × List (Nat × Group)) : Bool :=
  let levels (l : List (Nat × Group)) : List Nat := (sortBy id (l.map fun v => v.2.level)).reverse
  let times (l : List (Nat × Group)) : List Nat := sortBy id (l.map fun v => v.2.launch)
  if a.2.length != b.2.length then a.2.length < b.2.length
  else if levels a.2 != levels b.2 then listLt (levels a.2) (levels b.2)
  else if times a.2 != times b.2 then listLt (times b.2) (times a.2)
  else a.1 < b.1

/-- Whether the save areas have room for the records of all of some groups together (R102, R422). -/
def State.canSaveAll (s : State) (vs : List (Nat × Group)) : Bool :=
  let s1 := vs.foldl (fun (s : State) v => s.askPreempt v.1 false) s
  vs.all fun v => ((s1.group? v.1).map (·.preempt.isSome)).getD false

/-- The groups that are pre-empted for an aged group (R102). -/
def State.displaced (s : State) (die level : Nat) (r : Ready) : List (Nat × Group) :=
  let vs := s.victims die level
  let needs := s.needs r
  let firsts := (List.range 128).filter fun f => r.group.isSome || blkQuad r.block == 0xFF || f == blkQuad r.block * 4
  let sets := ((sublists vs).filter s.canSaveAll).flatMap fun l => (firsts.filter fun f => s.freedBy die f needs l).map fun f => (f, l)
  ((sets.foldl (fun (b : Option (Nat × List (Nat × Group))) e => match b with
    | none => some e
    | some c => if setBefore e c then some e else b) none).map (·.2)).getD []

/-- Whether a die has a group whose pre-emption is under way. -/
def State.preempting (s : State) (die : Nat) : Bool := s.groups.any fun g => g.2.die == die && g.2.preempt.isSome

/-- TENANT_AGED (R101, R102): the head group has been ready for 65,536 cycles; where it does not fit, polite pre-emption of lower groups is
requested. -/
def execTenantAged (die level tenant : Nat) (s : State) : Out :=
  let u := findD s.units die {}
  let k := readyKey level tenant
  match (findD u.ready k []).head? with
  | none => .next s
  | some r =>
    if !s.isAged r then .next s
    else
      let s1 := { s with units := put s.units die { u with aged := if u.aged.contains k then u.aged else u.aged ++ [k] } }
      if !(s.spots die r).isEmpty || s.preempting die then .next s1
      else .next ((s.displaced die level r).foldl (fun s v => s.askPreempt v.1 false) s1)

/-! ### Loading a graph object (R57, R60) -/

/-- What loading comes to: loaded, with the graph's identity; refused, its records written; held by a stage-2 fault. -/
inductive LoadRes where
  | ok (s : State) (key : Nat)
  | failed (s : State)
  | held (s : State)

/-- The answer to a read of a graph object that faults (R57). -/
def State.loadFault (s : State) (ctx die : Nat) (graph : Word) (e : TErr) : LoadRes :=
  let s1 := s.accessRec ctx .loader (unitLoc die) (unitSrc die) false graph e
  if e.host then .held s1 else .failed (s1.loadErr ctx .loader (unitLoc die) (unitSrc die) graph 0xFFFFFFFF 1)

/-- Load a graph object: its bytes are its identity (R56), and it is checked at its first launch in a context (R57); race pairs are reported under
policy flag (R60). -/
def State.loadGraph (s : State) (ctx die : Nat) (graph : Word) : LoadRes :=
  match s.load ctx graph 128 (some 15) with
  | .err e s => s.loadFault ctx die graph e
  | .ok h s1 =>
    let n := fieldN h 8 4
    match s1.loadN ctx graph (some 15) (n / 128 + 2) n with
    | .err e s1 => s1.loadFault ctx die graph e
    | .ok bs s2 =>
      let key := leNat (sha384 bs).reverse
      if (s2.graphSt ctx key).isSome then .ok s2 key
      else
        let flag := ((s2.tenant? (s2.tenantOf ctx)).map (·.cfg.flagRaces)).getD false
        match loadChecks bs flag with
        | some (c, i) => .failed (s2.loadErr ctx .loader (unitLoc die) (unitSrc die) graph (BitVec.ofNat 64 i) c)
        | none =>
          let o := parseObj bs
          let s3 := if flag then (races o).foldl (fun s p => s.record {
              tenant := s.tenantOf ctx, cause := 0x42, kind := .loader, ctx := BitVec.ofNat 12 ctx, loc := unitLoc die,
              a := BitVec.ofNat 64 p.1, b := BitVec.ofNat 64 p.2, c := 0, src := unitSrc die }) s2 else s2
          .ok (s3.modContext ctx fun c => { c with graphs := put c.graphs key { obj := o } }) key

/-- The layout area of a graph object, taken and zeroed at its first launch; a launch without one fails (R132). -/
def State.withArea (s : State) (x : Group) : LoadRes :=
  match s.graphSt x.ctx x.key with
  | none => .failed s
  | some gs =>
    if gs.area.isSome then .ok s x.key
    else
      match s.freeArea x.ctx with
      | none => .failed (s.loadErr x.ctx .loader (unitLoc x.die) (unitSrc x.die) x.graph 0 11)
      | some a => .ok ((s.modGraphSt x.ctx x.key fun y => { y with area := some a }).zeroArea x a) x.key

/-- Launch a loaded graph on a placement: its recall allocation, its cores and banks, and its layout where the cache holds one; else the
layout engine has still to place it (R103, R104, R362). -/
def State.launchAt (s : State) (x : Group) : State :=
  let g := s.nextId
  let o := s.objOf x
  let s1 := if o.nodes.any fun n => kindOf n.hdr == kGAT then s.rcAllocate x.die x.ctx x.key else s
  let s2 := { s1 with nextId := g + 1, groups := put s1.groups g x }
  let s3 := s2.takeCores g x o
  (s3.startCached g).getD s3

/-- The group that a ready block becomes. -/
def State.newGroup (s : State) (die first level : Nat) (r : Ready) (key : Nat) : Group :=
  { ctx := r.ctx, tenant := s.tenantOf r.ctx, graph := blkGraph r.block, key := key, block := r.block, level := level, admits := blkAdmit r.block,
    die := die, first := first, k := blkK r.block, status := .placing }

/-- Whether the package starts groups: it runs, and no power cap holds launches (R448, R450). -/
def State.launches (s : State) : Bool := s.host.ready && !s.host.cap

/-- GROUP_LAUNCH (R103): the launch unit of a die serves the group that R100 to R102 choose, on the placement that begins at core `first`. -/
def execGroupLaunch (die first : Nat) (s : State) : Out :=
  if !s.launches then .next s
  else
    match s.pickReady die with
    | none => .next s
    | some (l, t, r) =>
      if r.group.isSome || !(s.spots die r).contains (die, first) || s.engineLater die r.ctx || ((s.context? r.ctx).map (·.purging)).getD true then .next s
      else
        match s.loadGraph r.ctx die (blkGraph r.block) with
        | .held s1 => .next (s1.holdReady die l t)
        | .failed s1 => .next (s1.serve die l t r)
        | .ok s1 key =>
          let x := s1.newGroup die first l r key
          match s1.withArea x with
          | .ok s2 _ => .next ((s2.serve die l t r).launchAt x)
          | .failed s2 | .held s2 => .next (s2.serve die l t r)

/-! ### Dependency counters (R96, R97) -/

/-- The first admission program that the host names is measured in register 3 (R447): its graph object, which the management controller has submitted. -/
def State.measure (s : State) (ctx : Nat) (graph : Word) : State :=
  if s.host.named then s
  else
    match s.load ctx graph 128 (some 15) with
    | .err _ _ => s
    | .ok h s1 =>
      match s1.loadN ctx graph (some 15) (fieldN h 8 4 / 128 + 2) (fieldN h 8 4) with
      | .err _ _ => s
      | .ok bs s2 => { s2 with host := { s2.host with named := true, meas := extendMeas s2.host.meas (3, bs) } }

/-- COUNTER_SUBMISSION (R95, R97): a submission reaches its counter, behind those that its agent made before; or a block that its submitter has still to read is read: the management
controller's (R94), or a released one that a stage-2 fault held (R96). -/
def execCounterSubmission (k : Nat) (s : State) : Out :=
  match s.subs[k]? with
  | none => .next s
  | some u =>
    let home := homePort (blkCounter u.block)
    let rank := rankOf u.src 0
    let behind := (s.subs.take k).any fun v => v.src == u.src && !v.fresh
    let drop (s : State) : State := { s with subs := dropAt s.subs k }
    if ((s.context? u.ctx).map (·.purging)).getD true then .next (drop s)
    else if u.held || (!u.fresh && (behind || !s.inOrder home rank)) || (u.fresh && !u.mgmt && s.bucketLow u.die u.tenant) then .next s
    else
      let hold (s : State) : State := { s with subs := modAt s.subs k fun v => { v with held := true } }
      if u.fresh && u.mgmt then
        let w : Submitter := { ctx := u.ctx, die := u.die, kind := .loader, loc := unitLoc u.die, src := u.src, a := u.addr, mgmt := true }
        match s.submit w u.addr with
        | .pass b s1 => .next (drop (if (s.subs.take k).any fun v => v.mgmt && v.fresh then s1 else s1.measure u.ctx (blkGraph b)))
        | .refused s1 => .next (drop s1)
        | .held s1 => .next (hold s1)
        | .later => .next s
      else if u.fresh then
        let p := u.src - 2177
        let w : Submitter := { ctx := u.ctx, die := u.die, kind := .memport, loc := portLoc p, src := u.src, a := u.addr }
        match s.readBlock w u.addr with
        | .pass b s1 => .next (drop (s1.enqueue u.addr b u.ctx u.die).1)
        | .refused s1 => .next (drop s1)
        | .held s1 => .next (hold s1)
        | .later => .next s
      else
        let w : Submitter := { ctx := u.ctx, die := u.die, kind := .core, loc := (s.locator u.src).setWidth 32, src := u.src, a := u.a, mgmt := u.mgmt }
        match (s.noteServed home rank).atCounter w u.addr u.block with
        | .pass _ s1 => .next (drop s1)
        | .refused s1 => .next (drop s1)
        | .held s1 => .next (hold s1)
        | .later => .next s

end Sys2Proof.Machine
end

