-- ==== Sys2Proof/Machine/Events.lean ====
section
/-! DEFINITION. Posted requests applied where they arrive, their acknowledgement, spilled elements, dropped translations, fault records, event
crossbars and exchange swaps (R194, R195, R199, R201, R214, R338, R353, R358, R393, R396, R399 to R401, R416, R444). -/

namespace Sys2Proof.Machine

/-! ### Requests at their targets (R98, R194, R338) -/

/-- The window of a core whose bank a request goes to. -/
def Flight.window (f : Flight) : Option (Nat × BitVec 4) :=
  match f.op with
  | .wstore w _ _ => some (f.core, w)
  | .bzero w _ => some (f.core, w)
  | .xstore a _ => (xWin a).map fun w => (xCore a, w)
  | _ => none

/-- Whether two requests touch common bytes of memory, or one window (R195). -/
def State.common (s : State) (f e : Flight) : Bool :=
  (match f.range, e.range with
    | some (a, n), some (b, m) => s.meetBytes f.ctx a n b m
    | _, _ => false)
  || (match f.window with
    | some (n, w) => e.hitsWin n w
    | none => false)

/-- Whether a request has still to reach the router of its place. -/
def Flight.onWay (f : Flight) : Bool := !(f.die == f.toDie && f.router == f.toRouter)

/-- Whether an earlier request of the same source goes first: one of common bytes (R195); one sent the
same way that has not arrived (R402); or, of an engine, a decrement that the same descriptor names before it (R245). -/
def State.waitsFor (s : State) (f e : Flight) : Bool :=
  e.core == f.core && e.kind == f.kind && e.order < f.order && !e.applied && !e.failed
    && (s.common f e
      || (e.onWay && !e.held && e.toDie == f.toDie && e.toRouter == f.toRouter && (!e.release || s.released e.core e.id))
      || (f.kind == .engine && e.pc == f.pc))

/-- Whether a request still takes its data into the network at its own router (R407). -/
def Flight.injects (f : Flight) : Bool := !f.entered && (match f.op with
  | .xstore _ _ => true
  | _ => false)

/-- Data bytes that a request carries. -/
def Flight.dataBytes (f : Flight) : Nat :=
  match f.op with
  | .store _ bs | .wstore _ _ bs | .xstore _ bs => bs.length
  | .amo _ _ _ _ | .signal _ _ => 8
  | _ => 0

/-- Whether the packets of a context are discarded: it is purging, or gone (R406). -/
def State.discards (s : State) (ctx : Nat) : Bool := ((s.context? ctx).map (·.purging)).getD true

/-- Whether a request has arrived and may be applied. -/
def State.arrived (s : State) (f : Flight) : Bool :=
  !f.applied && !f.held && !f.failed && !f.onWay && (!f.release || s.released f.core f.id) && !(f.injects && s.bucketLow f.die f.tenant)
    && !((s.context? f.ctx).map (·.purging)).getD false && !s.flights.any (s.waitsFor f)

/-- The number by which work of a group that is out knows its core of a rank. -/
def outCore (g rank : Nat) : Nat := 2 ^ 20 + g * 128 + rank
/-- The order in which a place takes the requests of one cycle (R98, R338); at a barrier phase TAPs come after all cores, in node order (R393). -/
def State.rankAt (s : State) (f : Flight) : Nat :=
  match f.op with
  | .wstore w _ _ | .bzero w _ => s.bankRank f.core w 0
  | .xstore _ _ => netRank (f.src) 0
  | .tap node _ _ => 2 ^ 20 + node
  | _ => rankOf (f.src) 0

/-- Where a request is applied, as the place of R98's order: a memory port, a bank, a barrier phase; a write by exchange that goes to no bank has
none to itself. -/
def State.placeOf (s : State) (f : Flight) : Nat :=
  match f.op with
  | .store a _ | .amo a _ _ _ | .dec a | .signal a _ | .fetch a _ | .zero a => homePort a
  | .wstore w _ _ | .bzero w _ => s.bankAt f.core w
  | .xstore a _ => match s.xDest f.tenant f.ctx (xCore a) ((xWin a).getD 0) none with
    | .ok b => bankPlace (bankAddr (dieOf (xCore a)) b 0 / 65536)
    | .error _ => winPlace (xCore a) ((xWin a).getD 0)
  | .bar b sc | .tap _ b sc => phasePlace f.group (phaseKey b sc f.core)

def State.modFlight (s : State) (k : Nat) (f : Flight → Flight) : State := { s with flights := s.flights.map fun x => if x.id = k then f x else x }
def State.flight? (s : State) (k : Nat) : Option Flight := s.flights.find? (·.id == k)
/-- Note that a request has been applied; one that enters the network where it leaves it is charged then (R407). -/
def State.applied (s : State) (f : Flight) : State :=
  let s1 := if f.injects then s.charge f.die f.tenant f.dataBytes else s
  (s1.modFlight f.id fun x => { x with applied := true }).noteServed (s.placeOf f) (s.rankAt f)

/-- A request is applied by `f` once it has arrived in its turn. -/
def atTarget (k : Nat) (is : FlightOp → Bool) (s : State) (go : Flight → State) : Out :=
  match s.flight? k with
  | none => .next s
  | some f => if is f.op && s.arrived f && s.inOrder (s.placeOf f) (s.rankAt f) then .next (go f) else .next s

/-- Locator of a request's source: a copy engine by die and number, none for the host link and the management controller, else a core (R414). -/
def State.flightLoc (s : State) (f : Flight) : BitVec 32 :=
  if f.kind == .network || f.kind == .loader then 0
  else if f.kind == .engine then BitVec.ofNat 32 ((f.src - 2048) / 8 * 128 + (f.src - 2048) % 8) else (s.locator f.src).setWidth 32

/-- The record of a posted request that fails (R194, R413). -/
def State.flightRec (s : State) (f : Flight) (cause : BitVec 8) (b : Word) (c : BitVec 32) : State :=
  s.record { tenant := f.tenant, cause := cause, kind := f.kind, posted := f.kind == .core, ctx := BitVec.ofNat 12 f.ctx,
             loc := s.flightLoc f, a := f.pc, b := b, c := c, src := f.src }
/-- The record of a write by exchange that the bank switch of core m discards (R201, R406). -/
def State.discardRec (s : State) (f : Flight) (m : Nat) (cause : BitVec 8) (b : Word) : State :=
  s.record (s.byQueue f.tenant f.ctx m {
    tenant := f.tenant, cause := cause, kind := f.kind, posted := f.kind == .core, ctx := BitVec.ofNat 12 f.ctx, loc := s.flightLoc f, a := f.pc, b := b, c := 0, src := f.src })

/-- A posted request that faults at its port: recorded and done, or held by a stage-2 fault (R194, R352). -/
def State.flightErr (s : State) (f : Flight) (e : TErr) : State :=
  let s1 := s.accessRec f.ctx f.kind (s.flightLoc f) (f.src) (f.kind == .core) f.pc e
  if e.host then s1.modFlight f.id fun x => { x with held := true } else s1.applied f

/-- MEMORY_ACCESS (R351): the home memory port translates, checks, seals and performs a posted store or atomic, a host read that waited (R440), or the
zeroing of a page that waited (R132); an update of a word in a reduction window may merge instead (R206). -/
def execMemoryAccess (k : Nat) (s : State) : Out := atTarget k (fun
    | .store _ _ | .amo _ _ _ _ | .fetch _ _ | .zero _ => true
    | _ => false) s fun f =>
  match f.op with
  | .zero a =>
    match s.storeN f.ctx a (some 15) 513 (List.replicate 65536 0) with
    | (s, some e) => s.flightErr f e
    | (s, none) => s.applied f
  | .fetch a n =>
    let answer (bs : List Byte) (s : State) : State := { s with host := { s.host with answer := bs } }
    match s.loadN f.ctx a (some 15) 3 n with
    | .err e s => if e.host then s.flightErr f e else answer (List.replicate n 0xFF) (s.flightErr f e)
    | .ok bs s1 => (answer bs s1).applied f
  | .store a bs =>
    match s.store f.ctx a bs (some 15) with
    | .err e s => s.flightErr f e
    | .ok _ s1 => s1.applied f
  | .amo a op v _ =>
    match s.combine f.ctx f.tenant a true op v with
    | (s0, true) => s0.applied f
    | (s0, false) =>
      match s0.translate f.ctx a true (some 15) with
      | .err e s0 => s0.flightErr f e
      | .ok (pa, _, _) s1 =>
        if s1.bad pa then s1.flightErr f (.bad a)
        else (s1.memWrite (s1.keyOf f.ctx) pa (wordBytes (amoNew op (bytesWord (s1.memBytes (s1.keyOf f.ctx) pa 8)) v))).applied f
  | _ => s

/-- BANK_ACCESS (R338): a bank switch applies a window store, a BZERO, or a write by exchange, after the tests of R199 or R201. -/
def execBankAccess (k : Nat) (s : State) : Out := atTarget k (fun
    | .wstore _ _ _ | .bzero _ _ | .xstore _ _ => true
    | _ => false) s fun f =>
  let own (w : BitVec 4) (off : Nat) (go : Nat → State × Bool) : State :=
    let x := (s.coreAt f.core).win w
    let a := BitVec.ofNat 64 (w.toNat * 65536 + off)
    if ((s.group? f.group).map (·.status)) != some .running then s else
    match x.state with
    | .opened => s
    | .detached => (s.flightRec f 0x10 a 0).applied f
    | _ =>
      if !x.w then (s.flightRec f 0x11 a 0).applied f
      else
        let (s1, bad) := go (s.liveBank f.core w)
        (if bad then s1.flightRec f 0x50 a 0 else s1).applied f
  match f.op with
  | .wstore w off bs => own w off fun b => s.bankWrite (b + off) bs
  | .bzero w _ => own w 0 fun b => (s.zeroBank b, false)
  | .xstore a bs =>
    match xWin a with
    | none => (s.discardRec f (xCore a) (s.noWindow f.tenant (xCore a)) a).applied f
    | some w =>
      if s.swapFirst (xCore a) w f.id then s
      else
        match s.xWrite f.tenant f.ctx (xCore a) w (xOff a) bs none (s.rankAt f) with
        | (s1, none) => s1.applied f
        | (s1, some c) => (s1.discardRec f (xCore a) c a).applied f
  | _ => s

/-- SIGNAL_APPLY (R106, R214): the home port fills a future and releases its waiters. -/
def execSignalApply (k : Nat) (s : State) : Out := atTarget k (fun
    | .signal _ _ => true
    | _ => false) s fun f =>
  match f.op with
  | .signal a v =>
    match s.fill f.ctx a v with
    | .err e s => s.flightErr f e
    | .ok _ s1 => s1.applied f
  | _ => s

/-- COUNTER_DECREMENT (R96, R97): a DEC, or a copy completion, lowers a counter. -/
def execCounterDecrement (k : Nat) (s : State) : Out := atTarget k (fun
    | .dec _ => true
    | _ => false) s fun f =>
  match f.op with
  | .dec a =>
    match s.decrement f.ctx (f.src) f.kind (s.flightLoc f) f.pc a with
    | (s1, true) => s1.modFlight f.id fun x => { x with held := true }
    | (s1, false) => s1.applied f
  | _ => s

/-- BARRIER_ARRIVAL (R393): an arrival of BAR or of a TAP is applied to its phase, while its group is in. -/
def execBarrierArrival (k : Nat) (s : State) : Out := atTarget k (fun
    | .bar _ _ | .tap _ _ _ => true
    | _ => false) s fun f =>
  if ((s.group? f.group).map (·.status)) == some .preempted then s
  else match f.op with
  | .bar b sc => (s.arrive f.group b sc f.core none f.id).applied f
  | .tap node b sc => (s.arrive f.group b sc f.core (some node) f.id).applied f
  | _ => s

/-- POSTED_REQUEST_ACKNOWLEDGED (R195): the slot is free; the acknowledgement of a SIGNAL pulses source 31 (R399). -/
def execPostedRequestAcknowledged (k : Nat) (s : State) : Out :=
  match s.flight? k with
  | none => .next s
  | some f =>
    if !f.applied then .next s
    else
      let s1 := { s with flights := s.flights.filter (·.id != k) }
      match f.op with
      | .signal _ _ => .next { s1 with pulses := s1.pulses ++ [Pulse.mk f.core 31] }
      | _ => .next s1

/-! ### Event crossbars (R399 to R401) -/

/-- A pulse reaches a term (R400). -/
def Term.pulse (t : Term) (src : Nat) : Term :=
  let w := t.word.toNat
  if tOp w = 0 then (if tSrcA w = src then { t with pend := if t.pend = 255 then 255 else t.pend + 1 } else t)
  else { t with a := t.a || tSrcA w == src, b := t.b || tSrcB w == src }

/-- EVENT_PULSE (R400): pulse k reaches its core's crossbar; while the core's group is out it waits (R421). -/
def execEventPulse (k : Nat) (s : State) : Out :=
  match s.pulses[k]? with
  | none => .next s
  | some p => 
    let s1 := { s with pulses := dropAt s.pulses k }
    if p.core < 2 ^ 20 then .next (s1.modCore p.core fun c => { c with terms := c.terms.map fun t => Term.pulse t p.src })
    else if (s.group? ((p.core - 2 ^ 20) / 128)).isSome then .next s else .next s1

/-- Whether a term's condition holds (R400); a term that is off does nothing. -/
def Term.due (t : Term) : Bool :=
  let w := t.word.toNat
  tAct w != 0 && (match tOp w with
    | 0 => t.pend != 0
    | 1 => t.a || t.b
    | _ => t.a && t.b)
/-- A term that has acted in a cycle. -/
def Term.acted (t : Term) (now : Nat) : Term :=
  if tOp t.word.toNat = 0 then { t with pend := t.pend - 1, last := now + 1 } else { t with a := false, b := false, last := now + 1 }

/-- A crossbar's addition to a counter saturates (R167). -/
def CoreSt.addEvc (c : CoreSt) (n : BitVec 3) (amt : Nat) : CoreSt := c.setEvc n (satAdd (c.evc n) amt)

/-- EVENT_TERM_ACT (R167, R400, R401): a term adds to a counter, arms a section or queues a command, once a cycle and in slot order; additions
to a counter follow an MTS of their cycle and precede a WAITE. None acts under a pre-emption request (R419). -/
def execEventTermAct (core slot : Nat) (s : State) : Out :=
  let c := s.coreAt core
  let t := c.terms.toList.getD slot {}
  match c.group.bind fun g => (s.group? g).map fun x => (g, x) with
  | none => .next s
  | some (g, x) =>
    if !t.due || slot ≥ 16 || !s.cmdLive x || x.preempt.isSome || (c.terms.toList.drop slot).any fun u => u.last = s.cycle + 1 then .next s
    else
      let w := t.word.toNat
      let s1 := s.setCoreAt core (c.setTerm slot (t.acted s.cycle))
      let place := countPlace core (BitVec.ofNat 3 (tCtr w))
      match tAct w with
      | 1 => .next (if s.inOrder place 1 then (s1.noteServed place 1).modCore core fun c => c.addEvc (BitVec.ofNat 3 (tCtr w)) (tAmt w) else s)
      | 2 => .next (s1.armSec g (tSec w) (tAmt w))
      | _ => .next ((s1.queueCmd core (tAmt w) 0 0).getD s)

/-- EXCHANGE_SWAP (R396): once the covered writes are applied, the live and shadow banks change places. -/
def execExchangeSwap (core w : Nat) (s : State) : Out :=
  let c := s.coreAt core
  match c.swaps.find? (·.1 == w) with
  | none => .next s
  | some p =>
    if s.flights.any fun f => p.2.contains f.id && !f.applied && !f.failed then .next s
    else
      let i := BitVec.ofNat 4 w
      let x := c.win i
      let c1 := { c with swaps := c.swaps.erase p }
      .next ((s.setCoreAt core (if x.state == .attached && x.mode == .exchange then c1.setWin i { x with bank := x.shadow, shadow := x.bank } else c1)).drainCharge
        (dieOf core) (s.tenantOf (s.ctxOf core)))

/-! ### Spilled elements and translations (R353, R358, R359) -/

/-- A queued command of a core by its port and number. -/
def State.cmdOf (s : State) (n p id : Nat) : Option QCmd :=
  let x := s.portAt n (BitVec.ofNat 4 p)
  (x.left ++ x.queue).find? fun q => q.id == id

/-- Deliver a retried element to where it goes: an MCAST writes its token. -/
def State.deliverSpill (s : State) (e : Spill) (data : List Byte) (geom : Nat) : State :=
  match e.dest, e.cmd with
  | .mcast first mask w off, some (core, p, _) => s.mcastWrite core p e.ctx e.a first mask w off data
  | _, _ => s.deliver e data geom

/-- Whether a retried MCAST token waits for its targets, as a new one would: for a swap that comes first above all (R220, R396). -/
def State.spillLater (s : State) (k : Nat) (e : Spill) : Bool :=
  match e.dest, e.cmd with
  | .mcast first mask w off, some (core, p, id) => { s with spill := s.spill.take k }.mcastLater core p id e.stream first mask w off
  | _, _ => false

/-- The node and sideband of a load's token, or of its column, where the load is one for a cell (R135). -/
def Group.spillPlace (y : Group) (e : Spill) : Option (Nat × Tag) :=
  match e.dest with
  | .buf inst id => some (((y.insts[inst]?).map (·.node)).getD 0, (((y.insts[inst]?).bind fun i => i.agn.bufs.find? (·.id == id)).map (·.tag)).getD {})
  | .lstat node n => some (node, { ctx := BitVec.ofNat 12 y.ctx, seq := BitVec.ofNat 24 n })
  | _ => none

/-- The record of a spilled element that faults again (R358): none unless its cause or level has changed. One that went into the queue untried writes that of
its first fault. -/
def State.respill (s : State) (k : Nat) (x : Spill) (e : TErr) : State :=
  let s1 := if x.tried ∧ e.cause = x.cause ∧ e.level = x.level then s else s.accessRec x.ctx x.kind x.loc x.src false x.a e x.sub
  { s1 with spill := setAt s1.spill k { x with fault := e.addr, cause := e.cause, level := e.level, stage2 := e.host, retry := false, tried := true } }

/-- SPILL_RETRY (R355, R358): element k, whose fault an invalidation has covered, is tried again, in spill order; the scale bytes of its codes stay in its
place, to be tried next (R79). Load data for a group that is out goes towards the parking queue (R424); an MCAST of such a group waits for it. An
element of a group whose cores are all done is discarded with the group (R428). -/
def execSpillRetry (k : Nat) (s : State) : Out :=
  match s.spill[k]? with
  | none => .next s
  | some x =>
    let before := s.spill.take k
    let g := s.group? x.group
    let away := ((g.map (·.status)) != some .running) && (match x.dest with
      | .mcast _ _ _ _ => true
      | _ => false)
    let at_ := homePort (x.piece.span x.spd).1
    let rank := rankOf x.src x.sub
    if !x.retry || away || s.discards x.ctx || !s.inOrder at_ rank || s.over x.group || s.spillLater k x
      || before.any fun e => (e.retry && e.port == x.port) || (e.stream == x.stream && e.ctx == x.ctx && s.spillMeets e x.piece x.spd)
    then .next s
    else
      match (s.noteServed at_ rank).globalEl x.ctx x.piece x.fmt x.spd x.write with
      | .err e s => .next (s.respill k x e)
      | .ok s1 bs geom rest bad =>
        let s2 := bad.foldl (fun s b => s.record {
          tenant := s.tenantOf x.ctx, cause := 0x50, kind := x.kind, ctx := BitVec.ofNat 12 x.ctx, loc := x.loc, a := x.a, b := b, c := 0, src := x.src, sub := x.sub }) s1
        let s3 := { s2 with spill := s2.spill.take k ++ (rest.map fun p => { x with piece := p, tried := false }) ++ s2.spill.drop (k + 1) }
        match g.bind fun y => if y.status == .running then none else (y.spillPlace x).map fun p => (y, p) with
        | some (y, p) => .next { s3 with strays := s3.strays ++ [{ elem := x, data := bs, geom := geom, graph := y.key, node := p.1, tag := p.2 }] }
        | none => .next (s3.deliverSpill x bs geom)

/-- TLB_ENTRY_DROP (R353): a port may drop any combined entry. -/
def execTlbEntryDrop (k : Nat) (s : State) : Out := .next { s with tlb := dropAt s.tlb k }

/-! ### Fault records (R416, R444, R452) -/

/-- The home ports that an append to a tenant's fault queue uses, those of its header, of the record's place and of the future that it fills, with the
rank there of the port that appends (R98, R105, R346, R416). -/
def State.faultPorts (s : State) (tenant : Nat) : List Nat × Nat :=
  match s.tenant? tenant with
  | none => ([], 0)
  | some t => (homePort t.cfg.faultHdr :: match s.load t.cfg.hostCtx t.cfg.faultHdr 64 (some 15) with
    | .err _ _ => []
    | .ok h _ =>
      if queueFull h then []
      else homePort (slotAddr h (hdr64 h 0)) :: if hdr64 h 0x28 = 0 then [] else [homePort (hdr64 h 0x28)],
    rankOf (portSrc (homePort t.cfg.faultHdr)) 0)

/-- FAULT_RECORD_APPEND (R416, R434): record k reaches the tail's home port; records of one cycle in source order, none of a purging context. -/
def execFaultRecordAppend (k : Nat) (s : State) : Out :=
  match s.recs[k]? with
  | none => .next s
  | some r =>
    let place := queuePlace r.tenant
    if ((s.context? r.ctx.toNat).map (·.purging)).getD false then .next { s with recs := dropAt s.recs k }
    else if !s.inOrder place r.rank then .next s
    else
      let s1 := { s with recs := dropAt s.recs k }.noteServed place r.rank
      let (ports, src) := s.faultPorts r.tenant
      if ports.any fun p => !s.inOrder p src then .next s else .next ((ports.foldl (fun s p => s.noteServed p src) s1).appendTenant r)

/-- HOST_FAULT_RECORD_APPEND (R416, R444): record k is appended; those of one cycle in source order. -/
def execHostFaultRecordAppend (k : Nat) (s : State) : Out :=
  match s.hrecs[k]? with
  | none => .next s
  | some r =>
    .next (if s.inOrder hostPlace r.rank then ({ s with hrecs := dropAt s.hrecs k }.noteServed hostPlace r.rank).appendHost r else s)

end Sys2Proof.Machine
end

