-- ==== Sys2Proof/Machine/Copy.lean ====
section
/-! DEFINITION. Copy engines: descriptors, their accesses, completion, successors, pulses and responses (R244 to R246). -/

namespace Sys2Proof.Machine

/-- Change the job at the head of an engine. -/
def State.modJob (s : State) (e : Nat) (f : CopyJob → CopyJob) : State := { s with engines := put s.engines e (modAt (findD s.engines e []) 0 f) }

/-- Locator and source index of a copy engine (R98, R414). -/
def engineLoc (e : Nat) : BitVec 32 := BitVec.ofNat 32 (e / 8 * 128 + e % 8)
def engineSrc (e : Nat) : Nat := 2048 + e

/-- Whether a descriptor is refused (R245). -/
def copyRefused (d : List Byte) : Bool :=
  let j : CopyJob := { core := 0, port := 0, id := 0, ctx := 0, tenant := 0, group := 0, list := 0, count := 0, desc := d }
  let beyond (a : Word) : Bool := exchangeForm a && a.toNat % 65536 + j.len > 65536
  fieldN d 0x14 4 != 0 || fieldN d 0x38 8 != 0 || j.len == 0 || beyond j.src || beyond j.dst || j.succs.any fun a => a % 16 != 0

/-- A record of a copy engine. -/
def State.engineRec (s : State) (e : Nat) (j : CopyJob) (cause : BitVec 8) (a b : Word) (c : BitVec 32) : State :=
  s.record { tenant := j.tenant, cause := cause, kind := .engine, ctx := BitVec.ofNat 12 j.ctx, loc := engineLoc e, a := a, b := b, c := c, src := engineSrc e }

/-- The record of a copy engine's access to a window that is discarded or cannot be made (R201, R245, R406). -/
def State.engineDiscard (s : State) (e : Nat) (j : CopyJob) (cause : BitVec 8) (a : Word) : State :=
  s.record (s.byQueue j.tenant j.ctx (xCore a) {
    tenant := j.tenant, cause := cause, kind := .engine, ctx := BitVec.ofNat 12 j.ctx, loc := engineLoc e, a := j.at, b := a, c := 0, src := engineSrc e })

/-- End the descriptor in progress with a status. -/
def State.endDesc (s : State) (e st : Nat) : State := s.modJob e fun j => { j with ready := true, status := st }

/-- The answer to a faulting access of a descriptor: held by a stage-2 fault, else recorded, and the descriptor stops (R245, R352). -/
def State.copyFault (s : State) (e : Nat) (j : CopyJob) (t : TErr) : State :=
  let s1 := s.accessRec j.ctx .engine (engineLoc e) (engineSrc e) false j.at t
  if t.host then s1.modJob e fun j => { j with held := true } else s1.endDesc e 2

/-- Bytes of the next part of a copy: it crosses no 128-byte boundary of source or destination. -/
def CopyJob.part (j : CopyJob) : Nat :=
  min (j.len - j.pos) (min (128 - (j.src.toNat + j.pos) % 128) (128 - (j.dst.toNat + j.pos) % 128))

/-- Whether an access of an engine to an address waits for the next cycle: its place has served an agent that comes after (R98, R338). -/
def State.copyLater (s : State) (e : Nat) (j : CopyJob) (a : Word) (write : Bool) : Bool :=
  if s.isExchange a then
    match xWin a with
    | none => false
    | some w =>
      if write then s.xLater j.tenant j.ctx (xCore a) w (some j.num) (netRank (engineSrc e) 0)
      else match s.xSource j.tenant (xCore a) w with
        | .ok b => !s.inOrder (bankPlace (bankAddr (dieOf (xCore a)) b 0 / 65536)) (netRank (engineSrc e) 0)
        | .error _ => false
  else !s.inOrder (homePort a) (rankOf (engineSrc e) 0)

/-- Whether an earlier command of a copy command's stream comes first at a range: a copy at another engine, a spilled element, or, before a write, a load
that has still to read (R236). -/
def State.copyBehind (s : State) (j : CopyJob) (a : Word) (n : Nat) (write : Bool) : Bool :=
  match s.cmdStream j.core j.port j.id with
  | none => false
  | some stream =>
    s.copyOwes j.core j.port j.id stream a n write || (write && s.unread j.core j.port j.id stream a n)
      || (s.spill.any fun e => !s.over e.group && e.stream == stream && e.ctx == j.ctx && ((e.cmd.map fun c => decide (c.2.2 < j.id)).getD false) && (e.write || write)
        && !exchangeForm a && s.meetBytes j.ctx a n (e.piece.span e.spd).1 (e.piece.span e.spd).2)
      || (s.isExchange a && ((xWin a).map fun w => s.mcastOwes stream (xCore a) w (xOff a) n).getD false)

/-- Read bytes of a source: a window by exchange address, or memory (R245); a failed unit reads as zero and is recorded (R339). -/
def State.copyRead (s : State) (e : Nat) (j : CopyJob) (a : Word) (n : Nat) : Except State (List Byte × State) :=
  if s.isExchange a then
    match xWin a with
    | none => .error ((s.engineDiscard e j (s.noWindow j.tenant (xCore a)) a).endDesc e 2)
    | some w =>
      match s.xSource j.tenant (xCore a) w with
      | .error c => .error ((s.engineDiscard e j c a).endDesc e 2)
      | .ok b =>
        let p := bankAddr (dieOf (xCore a)) b (xOff a)
        let (bs, bad) := s.bankRead p n
        let s1 := ((s.noteServed (bankPlace (p / 65536)) (netRank (engineSrc e) 0)).charge (e / 8) j.tenant n).scrubBanks p n
        .ok (bs, if bad then s1.engineRec e j 0x50 j.at a 0 else s1)
  else
    match s.translate j.ctx a false (some 15) with
    | .err t s => .error (s.copyFault e j t)
    | .ok (pa, _, _) s1 =>
      let (bs, s2) := ((s1.noteServed (homePort a) (rankOf (engineSrc e) 0)).charge (e / 8) j.tenant n).readUnit j.ctx pa n
      .ok (bs, if s1.bad pa then s2.engineRec e j 0x50 j.at a 0 else s2)

/-- Write bytes of a destination; a write that R201 discards is the faulting access (R245). -/
def State.copyWrite (s : State) (e : Nat) (j : CopyJob) (a : Word) (bs : List Byte) : State :=
  let next (s : State) : State :=
    let s1 := s.modJob e fun j => { j with pos := j.pos + bs.length }
    if j.pos + bs.length ≥ j.len then s1.endDesc e 0 else s1
  if s.isExchange a then
    match xWin a with
    | none => (s.engineDiscard e j (s.noWindow j.tenant (xCore a)) a).endDesc e 2
    | some w =>
      match (s.charge (e / 8) j.tenant bs.length).xWrite j.tenant j.ctx (xCore a) w (xOff a) bs (some j.num) (netRank (engineSrc e) 0) with
      | (s1, none) => next s1
      | (s1, some c) => if c = 0x50 then next (s1.engineRec e j c j.at a 0) else (s1.engineDiscard e j c a).endDesc e 2
  else
    match s.translate j.ctx a true (some 15) with
    | .err t s => s.copyFault e j t
    | .ok (pa, _, _) s1 =>
      let (s2, ok) := ((s1.noteServed (homePort a) (rankOf (engineSrc e) 0)).charge (e / 8) j.tenant bs.length).writeUnit j.ctx pa bs
      next (if ok then s2 else s2.engineRec e j 0x50 j.at a 0)

/-- Bytes as they stand at an address of a copy, where they can be read. -/
def State.copyPeek (s : State) (j : CopyJob) (a : Word) (n : Nat) : Option (List Byte) :=
  if s.isExchange a then
    match (xWin a).map fun w => s.xSource j.tenant (xCore a) w with
    | some (.ok b) => some (s.bankRead (bankAddr (dieOf (xCore a)) b (xOff a)) n).1
    | _ => none
  else match s.translate j.ctx a false (some 15) with
    | .ok (pa, _, _) s1 => some (s1.readUnit j.ctx pa n).1
    | .err _ _ => none

/-- Offset in a job's source of the byte at offset k of its destination, where the ranges overlap (R378). -/
def CopyJob.meets (j : CopyJob) (k : Nat) : Option Nat :=
  let x := j.src.toNat % 2 ^ 50
  let y := j.dst.toNat % 2 ^ 50 + k
  if exchangeForm j.src == exchangeForm j.dst && x ≤ y && y < x + j.len then some (y - x) else none

/-- Keep source bytes that the next part, of n bytes, is going to overwrite (R378). -/
def State.keepOld (s : State) (e : Nat) (j : CopyJob) (n : Nat) : State :=
  if (List.range n).any fun i => (j.meets (j.pos + i)).isSome then
    match s.copyPeek j (j.dst + BitVec.ofNat 64 j.pos) n with
    | none => s
    | some bs =>
      let old := bs.zipIdx.foldl (fun (o : Tbl Byte) b => match j.meets (j.pos + b.2) with
        | some k => if (find o k).isSome then o else put o k b.1
        | none => o) j.old
      s.modJob e fun j => { j with old := old }
  else s

/-- What a copy writes: for a byte of its source that it has written to itself, a free bit takes the value from before, or the one that stands there (R378). -/
def State.copyChoose (s : State) (old : Tbl Byte) : Nat → List Byte → List Byte × State
  | _, [] => ([], s)
  | k, b :: bs =>
    let (v, s1) := match find old k with
      | none => (b, s)
      | some o => let (c, s1) := s.freeBit; (if c then o else b, s1)
    let (vs, s2) := State.copyChoose s1 old (k + 1) bs
    (v :: vs, s2)

/-- Whether a give that a group's capture waits for drains a window to which a copy command has still to write (R218, R420, R424). -/
def State.giveOwes (s : State) (j : CopyJob) : Bool :=
  let asked (n : Nat) : Bool := ((s.groupOf n).map fun x => x.preempt.isSome).getD false
  s.cores.any fun c => (match c.2.wait with
    | .access (.give _ w t _ below) _ _ => (asked c.1 || asked t) && j.num < below && s.copiesTo j c.1 w
    | _ => false)

/-- Whether the first copy command of an engine goes on: not under a purge, and not under a freeze, unless a give that is to attach before the capture
waits for it or for one behind it (R420, R424, R433). -/
def State.copyLive (s : State) (e : Nat) (j : CopyJob) : Bool :=
  match s.group? j.group with
  | none => false
  | some x => s.cmdLive x || (x.status == .running && !s.discards x.ctx && (findD s.engines e []).any s.giveOwes)

/-- COPY_DESCRIPTOR (R236, R245): the engine's first command reads its next descriptor and refuses it, or copies its next part; it waits at the limiter (R407)
and for its turn at the places that it uses (R98, R338). After every core of the group has exited, no further descriptor starts (R428). -/
def execCopyDescriptor (engine : Nat) (s : State) : Out :=
  match (findD s.engines engine []).head? with
  | none => .next s
  | some j =>
    if j.held || j.ready || !s.copyLive engine j || s.bucketLow (engine / 8) j.tenant then .next s
    else if j.desc.isEmpty then
      if ((s.group? j.group).map s.coresDone).getD true || s.copyLater engine j j.at false || s.copyBehind j j.at 64 false then .next s
      else
        match (s.noteServed (homePort j.at) (rankOf (engineSrc engine) 0)).loadZ j.ctx j.at 2 64 with
        | .err t s => .next (s.copyFault engine j t)
        | .ok (d, bad) s0 =>
          let s1 := bad.foldl (fun s a => s.engineRec engine j 0x50 j.at a 0) (s0.charge (engine / 8) j.tenant 64)
          let j1 := { j with desc := d }
          let s2 := s1.modJob engine fun j => { j with desc := d, pos := 0, old := [] }
          if copyRefused d then
            let w := ((s.cmdOf j.core j.port j.id).map (·.word)).getD 0
            .next ((s2.engineRec engine j1 0x40 j.at (zext (w.extractLsb' 96 32)) (BitVec.ofNat 32 j.port)).endDesc engine 1)
          else .next s2
    else
      let n := j.part
      let src := j.src + BitVec.ofNat 64 j.pos
      let dst := j.dst + BitVec.ofNat 64 j.pos
      if s.isExchange dst && ((xWin dst).map fun w => s.swapFirst (xCore dst) w j.num).getD false then .next s
      else if s.copyLater engine j src false || s.copyLater engine j dst true || s.copyBehind j src n false || s.copyBehind j dst n true then .next s
      else
        match s.copyRead engine j src n with
        | .error s1 => .next s1
        | .ok (bs, s1) =>
          let (vs, s2) := s1.copyChoose j.old j.pos bs
          .next ((s2.keepOld engine j n).copyWrite engine j dst vs)

/-- The decrement of a successor counter on its way (R245). -/
def State.sendDec (s : State) (e : Nat) (j : CopyJob) (a : Word) : State :=
  let f : Flight := {
    id := s.nextId, core := engineSrc e, src := engineSrc e, ctx := j.ctx, tenant := j.tenant, group := j.group, pc := j.at, kind := .engine, op := .dec a, order := s.nextId,
    die := e / 8, router := 0, toDie := homeDie a, toRouter := 32 + bits a.toNat 10 7, since := s.cycle }
  { s with flights := s.flights ++ [f], nextId := s.nextId + 1 }

/-- The responses of a port's AGN that may go on: those of the first unfinished CPY with responses, and of those before it, in request order (R246). -/
def State.flushResps (s : State) (g core port : Nat) : State :=
  match (s.group? g).bind fun x => (x.boundAgn (BitVec.ofNat 4 port)).bind fun a => (x.insts[a]?).map fun i => (a, i) with
  | none => s
  | some (a, i) =>
    let r : CellRef := { group := g, inst := a }
    let open1 (id : Nat) : Bool := s.engines.any fun e => e.2.any fun k => k.resp && k.core == core && k.port == port && k.id < id
    let num (b : TokBuf) : Nat := (b.owner.map (·.2)).getD 0
    let ready := sortBy num (i.agn.resps.filter fun b => !open1 (num b))
    ready.foldl (fun s b => s.addBuf r (srcThread i) b) (s.modAgn r fun x => { x with resps := x.resps.filter fun b => open1 (num b) })

/-- The response of a finished descriptor reaches its port's AGN (R246). -/
def State.respond (s : State) (j : CopyJob) : State :=
  if !j.resp || ((s.group? j.group).map s.coresDone).getD true then s
  else
    match (s.group? j.group).bind fun x => x.boundAgn (BitVec.ofNat 4 j.port) with
    | none => s
    | some a => s.modAgn { group := j.group, inst := a } fun x => { x with resps := x.resps ++ [{
        id := 0, owner := some (j.core, j.id), data := BitVec.ofNat 1024 (j.status + j.next * 2 ^ 32 + j.pos * 2 ^ 64)
        tag := { first := j.next == 0, last := j.next + 1 == j.count, sot := true, eot := true } }] }

/-- COPY_DESCRIPTOR_DONE (R238, R245, R246): a done descriptor decrements its successors in order and pulses; any finished one responds where asked,
and the command goes on. -/
def execCopyDescriptorDone (engine : Nat) (s : State) : Out :=
  match (findD s.engines engine []).head? with
  | none => .next s
  | some j =>
    if !j.ready || !s.copyLive engine j then .next s
    else
      let s1 := if j.status = 0 then (j.succs.filter (· != 0)).foldl (fun s a => s.sendDec engine j (BitVec.ofNat 64 a)) s else s
      let s2 := if j.status = 0 && j.pulse then { s1 with pulses := s1.pulses ++ [Pulse.mk j.core (23 + engine % 8)] } else s1
      let s3 := s2.respond j
      let s4 := if j.next + 1 ≥ j.count then { s3 with engines := put s3.engines engine ((findD s3.engines engine []).drop 1) }
        else s3.modJob engine fun k => { k with desc := [], pos := 0, ready := false, status := 0, next := k.next + 1, old := [] }
      .next ((s4.flushResps j.group j.core j.port).settlePort j.core (BitVec.ofNat 4 j.port))

end Sys2Proof.Machine
end

