-- ==== Sys2Proof/Machine/Network.lean ====
section
/-! DEFINITION. The network of a die and between dies, its clock regions, rate limiter, combining buffers and failing links, and load data whose
group is out (R135, R339, R402 to R407, R409). -/

namespace Sys2Proof.Machine

/-! ### The way of a packet (R402) -/

/-- Address that a request names. -/
def Flight.address (f : Flight) : Word :=
  match f.op with
  | .store a _ | .amo a _ _ _ | .signal a _ | .dec a | .xstore a _ | .fetch a _ => a
  | .wstore w off _ => BitVec.ofNat 64 (w.toNat * 65536 + off)
  | .bzero w _ => BitVec.ofNat 64 (w.toNat * 65536)
  | _ => 0

/-- The next position on a ring of n towards b, the shortest way, and whether it goes upward. -/
def ringStep (n a b : Nat) : Nat × Bool := if 2 * ((b + n - a) % n) ≤ n then ((a + 1) % n, true) else ((a + n - 1) % n, false)

/-- One hop: where the packet comes to, the ring and direction whose buffer it enters there, and the link it takes. -/
structure Hop where
  die    : Nat
  router : Nat
  ring   : Nat
  link   : Nat
deriving DecidableEq, Repr, Inhabited

/-- The next hop of a packet: between the dies first, then on the die, each by dimension order (R402). -/
def Flight.nextHop (f : Flight) : Option Hop :=
  let dieLink (up : Bool) (d : Nat) : Nat := 2 ^ 16 + f.die * 4 + d * 2 + (if up then 0 else 1)
  let link (up : Bool) (d : Nat) : Nat := (f.die * 48 + f.router) * 4 + d * 2 + (if up then 0 else 1)
  if f.die != f.toDie then
    if f.die % 4 != f.toDie % 4 then
      let (c, up) := ringStep 4 (f.die % 4) (f.toDie % 4)
      some { die := f.die / 4 * 4 + c, router := f.router, ring := if up then 5 else 6, link := dieLink up 0 }
    else
      let (r, up) := ringStep 4 (f.die / 4) (f.toDie / 4)
      some { die := r * 4 + f.die % 4, router := f.router, ring := if up then 7 else 8, link := dieLink up 1 }
  else if f.router % 8 != f.toRouter % 8 then
    let (c, up) := ringStep 8 (f.router % 8) (f.toRouter % 8)
    some { die := f.die, router := f.router / 8 * 8 + c, ring := if up then 1 else 2, link := link up 0 }
  else if f.router / 8 != f.toRouter / 8 then
    let (r, up) := ringStep 6 (f.router / 8) (f.toRouter / 8)
    some { die := f.die, router := r * 8 + f.router % 8, ring := if up then 3 else 4, link := link up 1 }
  else none

/-- Whether a packet takes up a place in a buffer. -/
def Flight.waiting (f : Flight) : Bool := !f.applied && !f.held && !f.failed

/-- Packets in the input buffer of a ring, in one direction, at a router. -/
def State.inBuffer (s : State) (die router ring : Nat) : Nat :=
  (s.flights.filter fun f => f.waiting && f.entered && f.die == die && f.router == router && f.ring == ring).length

/-- Whether a request leaves its agent: the release that it first performs is done (R194). -/
def State.leaves (s : State) (f : Flight) : Bool := !f.release || s.released f.core f.id

/-- Whether a packet is the next of its buffer, or of its source's requests that have not entered and may leave, to go on. -/
def State.isHead (s : State) (f : Flight) : Bool :=
  !s.flights.any fun e => e.id != f.id && e.waiting && e.die == f.die && e.router == f.router
    && (if f.entered then e.entered && e.ring == f.ring && (e.since < f.since || (e.since == f.since && e.order < f.order))
        else !e.entered && s.leaves e && e.nextHop.isSome && e.core == f.core && e.kind == f.kind && e.order < f.order)

/-- Whether a packet is at an arbiter: the next of its buffer, or, before it enters, the next of its source, past the limiter and its release (R194, R407). -/
def State.atArbiter (s : State) (f : Flight) : Bool := s.isHead f && (f.entered || (!s.bucketLow f.die f.tenant && s.leaves f))

/-- Whether a hop can be made: the link is in service, and the next buffer has room for two packets where the packet enters a ring, else for one (R403). -/
def State.hopFree (s : State) (f : Flight) (h : Hop) : Bool :=
  !s.retrain.contains h.link && s.inBuffer h.die h.router h.ring + (if f.ring == h.ring then 1 else 2) ≤ Config.fifoPackets

/-- Whether an aged packet that has waited longer takes the same link (R404). -/
def State.agedFirst (s : State) (f : Flight) (h : Hop) : Bool :=
  s.flights.any fun e => e.id != f.id && e.waiting && e.aged && s.atArbiter e && ((e.nextHop.map fun k => k.link == h.link && s.hopFree e k).getD false)
    && (!f.aged || e.since < f.since)

/-- NETWORK_PACKET_HOP (R194, R403, R404, R406, R407): packet k moves one hop; where it enters a ring the next buffer must have room for two packets,
else for one; entering the network it waits for its tenant's bucket, behind which it has not come to an arbiter, and is charged; a packet of a purging context
is discarded. -/
def execNetworkPacketHop (k : Nat) (s : State) : Out :=
  match s.flight? k with
  | none => .next s
  | some f =>
    if !f.waiting then .next s
    else if s.discards f.ctx then .next { s with flights := s.flights.filter (·.id != k) }
    else
      match f.nextHop with
      | none => .next s
      | some h =>
        if !s.atArbiter f then .next (if f.entered then s else s.modFlight k fun f => { f with since := s.cycle })
        else if !s.hopFree f h || s.agedFirst f h then .next s
        else
          let s1 := if f.entered then s else s.charge f.die f.tenant f.dataBytes
          .next (s1.modFlight k fun f => { f with die := h.die, router := h.router, ring := h.ring, entered := true, since := s.cycle, aged := false })

/-- PACKET_AGED (R404): a packet that has waited 512 cycles at one arbiter is aged. -/
def execPacketAged (k : Nat) (s : State) : Out :=
  .next (s.modFlight k fun f => if f.waiting && f.nextHop.isSome && (f.entered || s.atArbiter f) && s.cycle - f.since ≥ 512 then { f with aged := true } else f)

/-- TOKEN_BUCKET_REFILL (R407): the bucket has gained its rate for every cycle since it was last counted, up to its depth. -/
def execTokenBucketRefill (die tenant : Nat) (s : State) : Out :=
  .next (if (s.tenant? tenant).isSome then { s with buckets := put s.buckets (die * 64 + tenant) { level := s.bucketNow die tenant, since := s.cycle } } else s)

/-! ### Clock regions (R405) -/

def State.region (s : State) (r : Nat) : Region := findD s.regions r {}

/-- CLOCK_GOVERNOR_STEP (R405): after 1,024 cycles of the region its clock goes up where its input buffers, of eight packets each, were more than half full
in the mean, down where they were less than an eighth full, within its bounds. -/
def execClockGovernorStep (region : Nat) (s : State) : Out :=
  let x := s.region region
  let t := s.cycle - x.since
  if t * x.clock < 1024 * 17 ∨ 768 ≤ region then .next s
  else
    let full := t * Config.inputBuffers * Config.fifoPackets
    let c := if x.occ * 2 > full then min (x.clock + 1) x.hi else if x.occ * 8 < full then max (x.clock - 1) x.lo else x.clock
    .next { s with regions := put s.regions region { x with clock := c, occ := 0, since := s.cycle } }

/-! ### Combining buffers (R409) -/

/-- REDUCTION_ENTRY_FORWARD (R409): entry k of the buffers, of sending and of ingress ports, is forwarded 1,024 cycles after its first update. -/
def execReductionEntryForward (k : Nat) (s : State) : Out :=
  match (s.merges.flatMap fun p => p.2.map fun m => (p.1, m))[k]? with
  | none => .next s
  | some (port, m) => .next (if s.cycle - m.since ≥ 1024 && !m.held && !s.discards m.ctx then s.forwardMerge port m else s)

/-! ### Failing links (R339) -/

/-- LINK_RETRY_FAIL (R339): the retries of packet k on its next link have failed. A packet with data is delivered as failed, so that its write is
dropped with a record; the link retrains. -/
def execLinkRetryFail (k : Nat) (s : State) : Out :=
  match s.flight? k with
  | none => .next s
  | some f =>
    match f.nextHop with
    | none => .next s
    | some h =>
      if !f.waiting || !f.entered || s.retrain.contains h.link then .next s
      else
        let s1 := { s with retrain := s.retrain ++ [h.link] }
        if f.dataBytes = 0 then .next s1
        else .next ((s1.flightRec f 0x50 f.address 0).applied f)

/-- LINK_RETRAINED (R339): the link is back in service. -/
def execLinkRetrained (link : Nat) (s : State) : Out := .next { s with retrain := s.retrain.filter (· != link) }

/-! ### Load data whose group is out (R135, R424) -/

/-- The sideband of a token as a word (R35); its valid bit is 1. -/
def Tag.word (t : Tag) : Nat :=
  let b (x : Bool) (k : Nat) : Nat := if x then 2 ^ k else 0
  t.ctx.toNat * 2 ^ 52 + t.thread.toNat * 2 ^ 32 + t.seq.toNat * 2 ^ 8 + b t.replayed 7 + b t.late 6 + b t.barrier 5 + b t.eot 4 + b t.sot 3
    + b t.last 2 + b t.first 1 + 1

/-- Output port of a parked token: scale bytes go out on port 1, other data on port 0 (R317, R422). -/
def Stray.port (t : Stray) : Nat := if t.elem.piece.geom.isSome then 1 else 0
/-- An entry of the parking queue: 128 data bytes, the sideband, the node index, the port (R422). -/
def Stray.bytes (t : Stray) : List Byte :=
  (t.data ++ List.replicate 128 0).take 128 ++ leBytes 8 t.tag.word ++ leBytes 2 t.node ++ leBytes 1 t.port ++ leBytes 21 0

/-- Put load data into the parking queue of its context, in the lowest free place; while the queue is full, or a port of that place has served a later
agent, it waits (R98, R135, R422). A write that faults is recorded and lost. -/
def State.park (s : State) (ctx : Nat) (t : Stray) : Option State :=
  match s.context? ctx with
  | none => none
  | some c =>
    match (List.range Config.parkingQueue).find? fun k => !(c.parked.map (·.slot)).contains k with
    | none => none
    | some k =>
      let a := c.cfg.saveArea + BitVec.ofNat 64 (160 * k)
      let rank := rankOf (portSrc (homePort a)) 0
      if s.portsLater a 160 rank then none
      else
        let s1 := (s.portsServed a 160 rank).modContext ctx fun c => { c with parked := c.parked ++ [{ t with slot := k }] }
        some (match s1.storeN ctx a (some 15) 3 t.bytes with
          | (s2, none) => s2
          | (s2, some e) => s2.accessRec ctx .memport (portLoc (homePort a)) (portSrc (homePort a)) false 0 e)

/-- Add 1 to the orphan count of the current record of a graph object whose group has ended (R135). -/
def State.orphanInRecord (s : State) (ctx group key : Nat) : State :=
  match s.graphSt ctx key with
  | none => s
  | some gs =>
    if gs.record != group || gs.lver == 0 then s
    else
      let x : Group := { ctx := ctx, tenant := s.tenantOf ctx, graph := 0, key := key }
      let a := s.recordAt x gs.lver + 0x14
      match s.load ctx a 4 (some 15) with
      | .err e s => s.accessRec ctx .loader (unitLoc 0) (unitSrc 0) false 0 e
      | .ok bs s1 => s1.layoutWrite x a (leBytes 4 (satAdd (BitVec.ofNat 32 (leNat bs)) 1).toNat)

/-- PARKED_TOKEN (R135): load data waits while its group is being placed, goes to the parking queue while the group is out, is delivered once it
runs, and is an orphan once it has ended. -/
def execParkedToken (k : Nat) (s : State) : Out :=
  match s.strays[k]? with
  | none => .next s
  | some t =>
    let ctx := t.elem.ctx
    let taken := { s with strays := dropAt s.strays k }
    if s.discards ctx then .next taken
    else
      match s.group? t.elem.group with
      | none => .next (if s.engineLater 0 ctx then s else (taken.record {
          tenant := s.tenantOf ctx, cause := 0x31, kind := t.elem.kind, ctx := BitVec.ofNat 12 ctx, loc := t.elem.loc, a := BitVec.ofNat 64 t.node,
          b := t.tag.seq.setWidth 64, c := BitVec.ofNat 32 t.port, src := t.elem.src, sub := t.elem.sub }).orphanInRecord ctx t.elem.group t.graph)
      | some x =>
        match x.status with
        | .running => .next (taken.deliverSpill t.elem t.data t.geom)
        | .preempted => .next ((taken.park ctx t).getD s)
        | _ => .next s

end Sys2Proof.Machine
end

