-- ==== Sys2Proof/Machine/Queues.lean ====
section
/-! DEFINITION. Queues in a tenant's memory that the package serves: retire queues, intake queues with their monitors, launch packets and
residency reports (R88 to R91, R109, R110, R333, R430, R431, R453). -/

namespace Sys2Proof.Machine

/-! ### Retire queues (R430, R431) -/

/-- Whether a retire-queue header is well formed: reserved bytes zero, slots from 4 to 20 (R430, R431). -/
def retireHdrOk (h : List Byte) : Bool :=
  fieldN h 0x11 7 == 0 && fieldN h 0x20 8 == 0 && fieldN h 0x30 16 == 0 && 4 ≤ fieldN h 0x10 1 && fieldN h 0x10 1 ≤ 20

/-- Change a pending retire record. -/
def State.modRetire (s : State) (k : Nat) (f : Retire → Retire) : State := { s with retires := modAt s.retires k f }
def State.dropRetire (s : State) (k : Nat) : State := { s with retires := dropAt s.retires k }

/-- Fill the future of a retire queue with its tail, in its turn at the future's home port (R105): a fault is recorded and the TAP goes on; a stage-2
fault is retried (R431). A fill that comes late takes the tail as it then is. -/
def State.retireFill (s : State) (k : Nat) (x : Group) (i : Inst) (header fut n : Word) : State :=
  let rank := rankOf (portSrc (homePort header)) 0
  if fut = 0 then s.dropRetire k
  else if !s.inOrder (homePort fut) rank then s.modRetire k fun q => { q with due := true }
  else
    match (s.noteServed (homePort fut) rank).fill x.ctx fut (n.setWidth 63) with
    | .ok _ s1 => s1.dropRetire k
    | .err e s => if e.host then (s.cellErr x i e).modRetire k fun q => { q with held := true, due := true } else (s.cellErr x i e).dropRetire k

/-- RETIRE_RECORD_APPEND (R333, R431, R434): record k waits while its queue is full or the TAP may not pass its token, a clone while one of an earlier token has still to leave its merges; the token passes in the step in which
the record is appended. One of a purging context is discarded. -/
def execRetireRecordAppend (k : Nat) (s : State) : Out :=
  match s.retires[k]? with
  | none => .next s
  | some q =>
    let r : CellRef := { group := q.group, inst := q.inst }
    match s.inst? r with
    | none => .next (s.dropRetire k)
    | some (x, i) =>
      let place := retirePlace (homePort q.header)
      let rank := rankOf (x.coreOf i) (cellSub i.cell)
      let passes (t : Token) : Bool := !t.tag.barrier && laneMask t != 0 && s.mayFire x r.inst i && x.room s.cycle r.inst 0
        && ((x.copies i.node).length ≤ 1 || (x.routed i.node).all fun j => ((x.insts[j]?).map fun y => y.rte.route.head? == some i.copy).getD true)
      let t? := (x.headAny s.cycle r.inst 0).filter passes
      if s.discards x.ctx then .next (s.dropRetire k)
      else if q.held || (!q.due && t?.isNone) || !s.inOrder place i.node then .next s
      else
        let stop (s : State) : State := (s.dropRetire k).modInst r fun i => { i with dead := true }
        let fail (s : State) (e : TErr) : State :=
          if e.host then (s.cellErr x i e).modRetire k fun q => { q with held := true } else stop (s.cellErr x i e)
        match s.loadZ x.ctx q.header 2 64 with
        | .err e s => .next (fail s e)
        | .ok (h, bad) s0 =>
          let s1 := bad.foldl (fun s a => s.cellErr x i (.bad a)) s0
          let tail := hdr64 h 0
          match q.due, t? with
          | false, some t =>
            if !retireHdrOk h then .next (stop (s1.cellRec x i 0x11 q.header 0))
            else if queueFull h then .next s
            else
              let ports := [homePort (slotAddr h tail), homePort q.header]
              if ports.any fun p => !s.inOrder p rank then .next s
              else match (ports.foldl (fun s p => s.noteServed p rank) s1).store x.ctx (slotAddr h tail) (s1.retireBytes x i t) (some 15) with
              | .err e s1 => .next (fail s1 e)
              | .ok _ s2 =>
                match s2.store64 x.ctx q.header (tail + 1) with
                | .err e s2 => .next (fail s2 e)
                | .ok _ s3 => .next (((s3.noteServed place i.node).tapPass r x i t id).retireFill k x i q.header (hdr64 h 0x28) (tail + 1))
          | _, _ => .next (s1.retireFill k x i q.header (hdr64 h 0x28) tail)

/-! ### Intake queues (R88 to R91, R453) -/

def State.monitor? (s : State) (tenant queue : Nat) : Option Monitor := (s.tenant? tenant).bind fun t => find t.queues queue
def State.modMonitor (s : State) (tenant queue : Nat) (f : Monitor → Monitor) : State :=
  s.modTenant tenant fun t => match find t.queues queue with
    | some m => { t with queues := put t.queues queue (f m) }
    | none => t

/-- Fields of an intake-queue header (R88). -/
def qTail (h : List Byte) : Nat := fieldN h 0 8
def qBase (h : List Byte) : Word := BitVec.ofNat 64 (fieldN h 8 8)
def qSlots (h : List Byte) : Nat := fieldN h 0x10 1
def qSize (h : List Byte) : Nat := fieldN h 0x11 1
def qErr (h : List Byte) : Bool := bit (fieldN h 0x12 2) 0
def qOn (h : List Byte) : Bool := bit (fieldN h 0x12 2) 1
def qStale (h : List Byte) : Nat := fieldN h 0x14 4
def qChecked (h : List Byte) : Nat := fieldN h 0x18 8
def qHead (h : List Byte) : Nat := fieldN h 0x20 8
def qFuture (h : List Byte) : Word := BitVec.ofNat 64 (fieldN h 0x28 8)
/-- Slot of record n (R89). -/
def qSlot (h : List Byte) (n : Nat) : Word := qBase h + BitVec.ofNat 64 (n % 2 ^ qSlots h * (qSize h * 64))

/-- Whether the stamp of a record names its number and its payload (R89). -/
def stampOk (rec : List Byte) (n : Nat) : Bool :=
  let p := rec.length - 8
  fieldN rec (p + 4) 4 == n % 2 ^ 32 && fieldN rec p 4 == (crc32c (rec.take p)).toNat

/-- A record of a queue monitor (R453). -/
def State.monRec (s : State) (m : Monitor) (e : TErr) : State :=
  s.accessRec m.ctx .memport (portLoc (homePort m.header)) (portSrc (homePort m.header)) false m.header e

/-- A fault on a monitor's access of the header: recorded, and the check stops; or held by a stage-2 fault (R453). -/
def State.monFault (s : State) (tenant queue : Nat) (m : Monitor) (e : TErr) : State :=
  (s.monRec m e).modMonitor tenant queue fun m => if e.host then { m with held := true } else { m with active := false }

/-- Fill the queue's future with the count checked, in its turn at the future's home port (R90, R105, R453). -/
def State.monFill (s : State) (tenant queue : Nat) (m : Monitor) (h : List Byte) (n : Nat) : State :=
  let done (s : State) : State := s.modMonitor tenant queue fun m => { m with due := false }
  let rank := rankOf (portSrc (homePort m.header)) 0
  if qFuture h = 0 then done s
  else if !s.inOrder (homePort (qFuture h)) rank then s.modMonitor tenant queue fun m => { m with due := true }
  else
    match (s.noteServed (homePort (qFuture h)) rank).fill m.ctx (qFuture h) (BitVec.ofNat 63 n) with
    | .ok _ s1 => done s1
    | .err e s => if e.host then (s.monRec m e).modMonitor tenant queue fun m => { m with held := true, due := true } else done (s.monRec m e)

/-- A failed stamp check: stale rises, and the record is read again in 128 cycles (R90). -/
def State.monStale (s : State) (tenant queue : Nat) (m : Monitor) (h : List Byte) (seen : Option (Nat × Nat)) : State :=
  match s.store m.ctx (m.header + 0x14) (leBytes 4 (min (qStale h + 1) 0xFFFFFFFF)) (some 15) with
  | .err e s => s.monFault tenant queue m e
  | .ok _ s1 => s1.modMonitor tenant queue fun m => { m with retry := some s.cycle, seen := seen }

/-- Check the next record of a queue (R90, R453). -/
def State.monRecord (s : State) (tenant queue : Nat) (m : Monitor) (h : List Byte) : State :=
  let n := qChecked h
  let size := qSize h * 64
  match s.loadN m.ctx (qSlot h n) (some 15) (qSize h + 2) size with
  | .err e s =>
    if e.host then (s.monRec m e).modMonitor tenant queue fun m => { m with held := true }
    else
      let now := some (e.cause.toNat, e.fieldC.toNat)
      (if m.seen = now then s else s.monRec m e).monStale tenant queue m h now
  | .ok rec s1 =>
    if stampOk rec n then
      match s1.store64 m.ctx (m.header + 0x18) (BitVec.ofNat 64 (n + 1)) with
      | .err e s1 => s1.monFault tenant queue m e
      | .ok _ s2 => (s2.modMonitor tenant queue fun m => { m with seen := none }).monFill tenant queue m h (n + 1)
    else s1.monStale tenant queue m h m.seen

/-- One round of a queue's check (R90): at its start whether the queue is enabled, and the bounds, until that is done; then the next record. The port takes the monitor's accesses in
their turn (R98, R346). -/
def State.monRound (s : State) (tenant queue : Nat) (m : Monitor) : State :=
  let stop (s : State) : State := s.modMonitor tenant queue fun m => { m with active := false, fresh := false }
  let rank := rankOf (portSrc (homePort m.header)) 0
  if s.discards m.ctx || !s.inOrder (homePort m.header) rank then s
  else
    match (s.noteServed (homePort m.header) rank).translate m.ctx m.header false (some 15) with
    | .err e s => s.monFault tenant queue m e
    | .ok (pa, _, _) s0 =>
      let s1 := s0.modMonitor tenant queue fun m => { m with place := pa }
      match s1.load m.ctx m.header 64 (some 15) with
      | .err e s1 => s1.monFault tenant queue m e
      | .ok h s2 =>
        if m.due then s2.monFill tenant queue m h (qChecked h)
        else if (m.fresh && !qOn h) || qErr h then stop s2
        else if m.fresh && (qTail h < qChecked h || (qTail h + 2 ^ 64 - qHead h) % 2 ^ 64 > 2 ^ qSlots h) then
          match s2.store m.ctx (m.header + 0x12) (leBytes 1 (fieldN h 0x12 1 / 2 * 2 + 1)) (some 15) with
          | .err e s2 => s2.monFault tenant queue m e
          | .ok _ s3 => stop s3
        else if qChecked h ≥ qTail h then stop s2
        else (s2.modMonitor tenant queue fun m => { m with fresh := false }).monRecord tenant queue m h

/-- QUEUE_MONITOR_CHECK (R90): a write to the tail word has started the check, which goes on until the count checked reaches the tail. -/
def execQueueMonitorCheck (tenant queue : Nat) (s : State) : Out :=
  match s.monitor? tenant queue with
  | none => .next s
  | some m => .next (if m.active && !m.held && m.retry.isNone then s.monRound tenant queue m else s)

/-- QUEUE_MONITOR_RETRY (R90): 128 cycles after a failed check the record is read again. -/
def execQueueMonitorRetry (tenant queue : Nat) (s : State) : Out :=
  match s.monitor? tenant queue with
  | none => .next s
  | some m =>
    match m.retry with
    | some c =>
      .next (if s.cycle - c ≥ 128 && !m.held then
        (s.modMonitor tenant queue fun m => { m with retry := none, active := true }).monRound tenant queue { m with retry := none }
      else s)
    | none => .next s

/-- What a queue may be (R88). -/
def intakeOk (c : IntakeCfg) : Bool :=
  c.queue < 8 && c.header.toNat % 64 == 0 && c.base.toNat % 64 == 0 && 4 ≤ c.slots && c.slots ≤ 16 && 1 ≤ c.size && c.size ≤ 64

/-- The record of a management controller's access in a context that faults (R352; DESIGN CHOICE, log 91). -/
def State.mgmtRec (s : State) (ctx : Nat) (e : TErr) : State := s.accessRec ctx .loader 0 (unitSrc 0) false 0 e

/-- INTAKE_QUEUE_CREATE (R88): the management controller writes the header and enters its address in the tenant's queue table; a stage-2 fault holds the
write, and the entry with it (R352). -/
def execIntakeQueueCreate (c : IntakeCfg) (s : State) : Out :=
  let owned := ((s.context? c.ctx).map fun y => y.cfg.tenant == c.tenant).getD false
  let hdr := leBytes 8 0 ++ wordBytes c.base ++ leBytes 1 c.slots ++ leBytes 1 c.size ++ leBytes 2 2 ++ leBytes 20 0 ++ wordBytes c.future ++ leBytes 16 0
  if !intakeOk c || !owned then .next s
  else
    match s.store c.ctx c.header ((hdr ++ leBytes 64 0).take 64) (some 15) with
    | .err e s =>
      let s1 := s.mgmtRec c.ctx e
      .next (if e.host then { s1 with host := { s1.host with creates := s1.host.creates ++ [c] } } else s1)
    | .ok _ s1 =>
      match s1.translate c.ctx c.header false (some 15) with
      | .err _ s1 => .next s1
      | .ok (pa, _, _) s2 => .next (s2.modTenant c.tenant fun t => { t with queues := put t.queues c.queue { header := c.header, ctx := c.ctx, place := pa } })

/-! ### Launch packets (R109, R110) -/

/-- Contexts of a tenant in which no group is (R110). -/
def State.freeContexts (s : State) (tenant : Nat) : Nat :=
  (s.contexts.filter fun c => c.2.cfg.tenant == tenant && !s.groups.any fun g => g.2.ctx == c.1).length
/-- Idle available cores of a die. -/
def State.idleCores (s : State) (die : Nat) : Nat :=
  ((List.range 128).filter fun c => let n := die * 128 + c
    s.available n && (s.coreAt n).status == .idle && (s.coreAt n).group.isNone).length
/-- Hashes of the tenant's graphs with a cached layout, most recently used first (R110). -/
def State.cachedHashes (s : State) (tenant : Nat) : List (BitVec 128) :=
  (((sortBy (·.used) (s.layouts.flatMap fun d => d.2.filter fun l => l.tenant == tenant)).reverse).map (·.hash)).eraseDups.take 32

/-- The residency report (R110). -/
def State.report (s : State) (p : LaunchPkt) (st : Nat) : List Byte :=
  let hs := s.cachedHashes p.tenant
  wordBytes p.tag ++ leBytes 2 s.host.pkg.toNat ++ leBytes 1 st ++ leBytes 1 hs.length ++ leBytes 2 (s.freeContexts p.tenant) ++ leBytes 2 0
    ++ ((List.range 16).flatMap fun d => leBytes 1 (s.idleCores d)) ++ leBytes 32 0 ++ hs.flatMap fun h => (leBytes 16 h.toNat).reverse

/-- The packet intake's record of a faulting access. -/
def State.intakeRec (s : State) (ctx : Nat) (e : TErr) : State := s.accessRec ctx .network 0 2176 false 0 e

/-- LAUNCH_PACKET (R109, R110): the record goes into its slot and the tail rises, unless the tenant is absent or the queue not enabled (2),
the length differs (3), or the queue is full (1); a report answers every packet. One that meets a stage-2 fault is held, to be tried again, and
answered then (R352). The ports take the intake's accesses in their turn (R98). -/
def execLaunchPacket (p : LaunchPkt) (s0 : State) : Out :=
  let s := { s0 with host := { s0.host with packets := s0.host.packets.erase (p, false) } }
  let answer (s : State) (st : Nat) : Out := .next { s with host := { s.host with net := s.host.net ++ [(p.reply, s.report p st)] } }
  let wait (s : State) (held : Bool) : Out := .next { s with host := { s.host with packets := s.host.packets ++ [(p, held)] } }
  let rank := rankOf 2176 0
  if !s.host.ready then .next s0
  else
    match (s.tenant? p.tenant).bind fun t => if t.down then none else find t.queues p.queue with
    | none => answer s 2
    | some m =>
      match s.load m.ctx m.header 64 (some 15) with
      | .err e s => if e.host then wait (s.intakeRec m.ctx e) true else answer (s.intakeRec m.ctx e) 2
      | .ok h s1 =>
        let ports := [homePort m.header, homePort (qSlot h (qTail h))]
        if !qOn h then answer s1 2
        else if p.length ≠ qSize h * 64 ∨ p.record.length ≠ p.length then answer s1 3
        else if (qTail h + 2 ^ 64 - qHead h) % 2 ^ 64 ≥ 2 ^ qSlots h then answer s1 1
        else if ports.any fun port => !s.inOrder port rank then wait s false
        else
          let fail (s : State) (e : TErr) : Out := if e.host then wait (s.intakeRec m.ctx e) true else answer (s.intakeRec m.ctx e) 1
          match (ports.foldl (fun s port => s.noteServed port rank) s1).storeN m.ctx (qSlot h (qTail h)) (some 15) (qSize h + 2) p.record with
          | (s2, some e) => fail s2 e
          | (s2, none) =>
            match s2.store64 m.ctx m.header (BitVec.ofNat 64 (qTail h + 1)) with
            | .err e s2 => fail s2 e
            | .ok _ s3 => answer s3 0

end Sys2Proof.Machine
end

