-- ==== Sys2Proof/Machine/Retire.lean ====
section
/-! DEFINITION. How a group ends and what that frees, the purge of a context, the teardown of a tenant, the reset of a partition (R428, R429,
R433 to R435). -/

namespace Sys2Proof.Machine

/-! ### The end of a group (R428, R429) -/

/-- Whether an address of a core lies in a window that is open: an access there waits for a bank that the group can no longer attach. -/
def State.openAt (s : State) (n : Nat) (a : Word) : Bool := ((windowOf a).map fun w => ((s.coreAt n).win w.1).state == .opened).getD false

/-- Whether the head command of a port, started, goes on after every core has exited: it moves its own data, makes the accesses that it has in hand, or closes a
reduction window; it waits for no token, slot, cell or bank of the group, and has no spilled element (R428). -/
def State.headGoesOn (s : State) (x : Group) (n : Nat) (p : BitVec 4) : Bool :=
  match (s.portAt n p).queue with
  | [] => false
  | q :: _ =>
    let c := cmdFields q.word
    let op := (q.word.extractLsb' 120 8).toNat
    let window := c.cls == 0 || c.cls == 1
    let next := match q.prog.pieces with
      | piece :: _ => piece.addr
      | [] => (cmdAddr .stream q c).getD 0 + BitVec.ofNat 64 (128 * q.prog.n)
    let planes := op == 0x0B && x.insts.any fun i => i.node == (q.word.extractLsb' 0 16).toNat && i.role == .node && !i.gone && i.swapWaits
    let moves := [0x0A, 0x0B, 0x1D].contains op || ([0x02, 0x04, 0x06, 0x09, 0x1B].contains op && !q.prog.pieces.isEmpty)
    q.prog.started && !q.prog.dropped && !planes && !(s.spill.any fun e => e.cmd == some (n, p.toNat, q.id))
      && (op == 0x13 || (op == 0x1C && !c.flags.getLsbD 0) || (moves && !(window && s.openAt n next)))

/-- Whether a window store waits at a window that is open: it ends or is saved with its group. -/
def State.waitsOpen (s : State) (f : Flight) : Bool :=
  match f.op with
  | .wstore w _ _ | .bzero w _ => ((s.coreAt f.core).win w).state == .opened
  | _ => false

/-- Whether a group ends (R428). -/
def State.mayEnd (s : State) (g : Nat) (x : Group) : Bool :=
  x.status == .running && s.coresDone x && !s.discards x.ctx
    && !(s.flights.any fun f => f.group == g && !s.waitsOpen f)
    && !(s.engines.any fun e => (e.2.head?.map fun j => j.group == g && !j.desc.isEmpty).getD false)
    && !(x.cores.any fun n => (List.range 16).any fun p => s.headGoesOn x n (BitVec.ofNat 4 p))
    && !(s.retires.any fun q => q.group == g && q.due && !q.held)

/-- The lowest of some sequence numbers. -/
def lowestSeq : List Nat → Nat
  | [] => 0
  | n :: ns => ns.foldl min n

/-- Sequence numbers of the tokens that a link holds, with the whole ones that wait for it in its producer's arrival buffer (R359, R429). -/
def Group.heldSeqs (x : Group) (l : Link) : List Nat :=
  l.toks.map (·.tok.tag.seq.toNat) ++ match x.insts[l.src]? with
    | some i => (i.agn.bufs.filter fun b => b.ready && (l.sp == 0 || b.block)).map (·.tag.seq.toNat)
    | none => []

/-- Discard what a group's links and arrival buffers hold: the orphan count rises, and one record for each link names the consumer, its port and the lowest
sequence (R429). -/
def State.orphanLinks (s : State) (g : Nat) (x : Group) : State :=
  x.links.foldl (fun s l =>
    match x.heldSeqs l, x.insts[l.dst]? with
    | n :: ns, some i => (s.orphans g (n :: ns).length).cellRec x i 0x31 (BitVec.ofNat 64 (lowestSeq (n :: ns))) (BitVec.ofNat 32 l.dp)
    | _, _ => s) s

/-- Forget a group and what it still has under way. -/
def State.dropGroup (s : State) (g : Nat) : State :=
  match s.group? g with
  | none => s
  | some x =>
    let mine (n : Nat) : Bool := if x.saved.isSome then n / 128 == outCore g 0 / 128 else x.cores.contains n
    { s with
      groups := del s.groups g
      spill := s.spill.filter fun e => e.group != g
      engines := s.engines.map fun e => (e.1, e.2.filter fun j => j.group != g)
      pulses := s.pulses.filter fun p => !mine p.core
      retires := s.retires.filter fun q => q.group != g
      waits := s.waits.filter fun w => !mine w.2.2
      layouts := s.layouts.map fun d => (d.1, d.2.map fun l => { l with users := l.users.filter (· != g) }) }

/-- Keep the layout of a group that ends, unless its launch found no place for it in the cache (R115). -/
def State.keepLayout (s : State) (g : Nat) (x : Group) : State :=
  let o := s.objOf x
  if x.once then s else s.remember x.die (x.layout o ((s.cacheUsers x o).filter (· != g)))

/-- GROUP_END (R428, R429): the group's resources return; its unstarted and waiting commands go with it. -/
def execGroupEnd (group : Nat) (s : State) : Out :=
  match s.group? group with
  | none => .next s
  | some x =>
    if !s.mayEnd group x then .next s
    else
      let s1 := ((s.orphanLinks group x).keepLayout group x).dropGroup group
      .next (x.cores.foldl State.freeCore { s1 with flights := s1.flights.filter fun f => f.group != group })

/-! ### The purge of a context (R433) -/

/-- Mark a context as purging, with the addresses at which its purge is reported (R433 step 1). -/
def State.startPurge (s : State) (ctx : Nat) (completion : List Word) : State :=
  s.modContext ctx fun c => { c with purging := true, completion := c.completion ++ completion }

/-- Free the cores of a group that is purged, and forget it (R433 step 4). -/
def State.purgeGroup (s : State) (g : Nat) : State :=
  match s.group? g with
  | none => s
  | some x => (if x.saved.isSome then id else fun s => x.cores.foldl State.freeCore s) (s.dropGroup g)

/-- Ready groups of a context leave the queues (R433 step 2). -/
def LaunchUnit.without (u : LaunchUnit) (ctx : Nat) : LaunchUnit := { u with ready := u.ready.map fun q => (q.1, q.2.filter fun r => r.ctx != ctx) }

/-- Forget a tenant whose last context is gone: its layouts and queues, and last its key (R434). -/
def State.finishTenant (s : State) (t : Nat) : State :=
  if ((s.tenant? t).map (·.down)).getD false && !(s.contexts.any fun c => c.2.cfg.tenant == t) then
    { s with
      tenants := del s.tenants t
      layouts := s.layouts.map fun d => (d.1, d.2.filter fun l => l.tenant != t)
      buckets := s.buckets.filter fun b => b.1 % 64 != t
      recs := s.recs.filter fun r => r.tenant != t
      units := s.units.map fun u => (u.1, { u.2 with credits := u.2.credits.filter fun c => c.1 % 64 != t, aged := u.2.aged.filter fun k => k % 64 != t }) }
  else s

/-- Write 1 to a completion address in host memory (R355, R433). -/
def State.complete (s : State) (a : Word) : State := { s with host := { s.host with mem := Memory.writeN s.host.mem a.toNat (leBytes 8 1) } }

/-- The steps of a purge after the context is marked (R433). -/
def State.finishPurge (s : State) (ctx : Nat) (c : Context) : State :=
  let s1 := ((s.groups.filter fun g => g.2.ctx == ctx).map (·.1)).foldl State.purgeGroup s
  let s2 : State := { s1 with
    units := s1.units.map fun u => (u.1, u.2.without ctx)
    flights := s1.flights.filter fun f => f.ctx != ctx
    spill := s1.spill.filter fun e => e.ctx != ctx
    strays := s1.strays.filter fun t => t.elem.ctx != ctx
    subs := s1.subs.filter fun u => u.ctx != ctx
    heldAdds := s1.heldAdds.filter fun a => a.ctx != ctx
    lates := s1.lates.filter fun w => w.ctx != ctx
    merges := s1.merges.map fun p => (p.1, p.2.filter fun m => m.ctx != ctx)
    rcWrites := s1.rcWrites.filter fun w => w.entry.ctx != ctx
    recalls := s1.recalls.map fun d => (d.1, d.2.filter fun a => a.ctx != ctx)
    recs := s1.recs.filter fun r => r.ctx.toNat != ctx
    tlb := s1.tlb.filter fun e => e.ctx != ctx
    host := { s1.host with creates := s1.host.creates.filter fun c => c.ctx != ctx }
    contexts := del s1.contexts ctx }
  (c.completion.foldl State.complete s2).finishTenant c.cfg.tenant

/-- Completion addresses of a request: 0 names none (log 81). -/
def purgeReport (completion : Word) : List Word := if completion = 0 then [] else [completion]

/-- CONTEXT_PURGE (R433): the first time it marks the context at every queue; then it frees what the context has, and reports, to a request that found the context
marked as well. -/
def execContextPurge (ctx : Nat) (completion : Word) (s : State) : Out :=
  match s.context? ctx with
  | none => .next ((purgeReport completion).foldl State.complete s)
  | some c => .next (if c.purging then s.finishPurge ctx { c with completion := c.completion ++ purgeReport completion }
      else s.startPurge ctx (purgeReport completion))

/-- Mark every context of a tenant. -/
def State.purgeAll (s : State) (t : Nat) : State :=
  ((s.contexts.filter fun c => c.2.cfg.tenant == t).map (·.1)).foldl (fun s c => s.startPurge c []) s

/-- TENANT_TEARDOWN (R434): every context is purged; after the last purge the key slot is zeroised. -/
def execTenantTeardown (tenant : Nat) (s : State) : Out :=
  .next (((s.modTenant tenant fun t => { t with down := true, queues := [] }).purgeAll tenant).finishTenant tenant)

/-- PARTITION_RESET (R435): every context of the tenant is purged; the tenant, its key slot and its queues stay. -/
def execPartitionReset (tenant : Nat) (s : State) : Out := .next (s.purgeAll tenant)

end Sys2Proof.Machine
end

