-- ==== Sys2Proof/Machine/Preempt.lean ====
section
/-! DEFINITION. Pre-emption: requests, the freeze limit, the freeze, the capture with its save record, and the resume (R129, R196, R374, R418 to
R424). -/

namespace Sys2Proof.Machine

/-! ### Requests (R418) -/

/-- PREEMPT_REQUEST (R418, R422): a request to a group already asked, or not pre-emptible, adds nothing. -/
def execPreemptRequest (group : Nat) (freeze : Bool) (s : State) : Out := .next (s.askPreempt group freeze)

/-- FREEZE_LIMIT_EXPIRE (R418): a polite request that is not done within the tenant's limit becomes a freeze. -/
def execFreezeLimitExpire (group : Nat) (s : State) : Out :=
  match (s.group? group).bind fun x => x.preempt.map fun p => (x, p) with
  | none => .next s
  | some (x, p) =>
    let lim := ((s.tenant? x.tenant).map (·.cfg.freezeLimit)).getD 0
    .next (if !p.freeze && s.cycle - p.since ≥ lim then s.setGroup group { x with preempt := some { p with freeze := true } } else s)

/-- FREEZE (R420, R424): every control core and every firing of the group stops; a splice that is not past its cut is cancelled. -/
def execFreeze (group : Nat) (s : State) : Out :=
  match (s.group? group).bind fun x => x.preempt.map fun p => (x, p) with
  | none => .next s
  | some (x, p) =>
    .next (if p.freeze && !p.frozen then (s.setGroup group { x with preempt := some { p with frozen := true } }).cancelSplice group else s)

/-! ### The capture (R419 to R421) -/

/-- Whether a core of a group under a request has nothing left that the capture waits for: no reserved give of its own or to it, no swap, no EXIT (R163). -/
def CoreSt.settled (c : CoreSt) : Bool :=
  c.swaps.isEmpty && (c.wins.toList.all fun w => !w.resv) && (match c.wait with
    | .access (.give _ _ _ _ _) _ _ => false
    | .access (.exit _ _ _) _ _ => false
    | _ => true)

/-- Whether a started command stands between two segments (R419, R424): with no access in hand, no part of a tile or row, and, for MLD and SLD, a whole
number of segments read (R240). -/
def QCmd.between (q : QCmd) : Bool :=
  let c := cmdFields q.word
  let op := (q.word.extractLsb' 120 8).toNat
  let seg := c.flags.toNat / 16 % 8
  let len := if seg = 7 then max ((cmdCount true q c).getD 0) 1 else 2 ^ seg
  q.prog.pieces.isEmpty && q.prog.j == 0 && !((op == 0x01 || op == 0x03) && q.prog.n % len != 0)

/-- Whether a polite request has come to its end: every cell at a boundary, no splice, no command inside a segment (R419, R424). -/
def State.politeDone (s : State) (x : Group) : Bool :=
  x.splice.isNone && (x.insts.zipIdx.all fun i => i.1.gone || x.atBound i.2 i.1)
    && x.cores.all fun n => (s.coreAt n).ports.toList.all fun p => (p.queue.head?.map QCmd.between).getD true

/-- Requests of a group that a capture does not wait for: held ones, those at an open window, and those that wait for such a one (R420). -/
def State.stuck (s : State) (g : Nat) : List Nat :=
  s.flights.foldl (fun acc f => if f.group == g && (f.held || s.waitsOpen f || s.flights.any fun e => acc.contains e.id
      && (s.waitsFor f e || (f.release && e.core == f.core && e.kind == .core && e.id < f.id))) then f.id :: acc else acc) []

/-- Whether a group may be captured (R419, R420). -/
def State.canCapture (s : State) (g : Nat) (x : Group) (p : Preempt) : Bool :=
  (if p.freeze then p.frozen else s.politeDone x)
    && (s.flights.all fun f => f.group != g || (s.stuck g).contains f.id)
    && (x.links.all fun l => l.toks.all fun t => t.ready ≤ s.cycle)
    && (x.cores.all fun n => (s.coreAt n).settled)
    && !(s.pulses.any fun p => x.cores.contains p.core)

/-- A control core as the capture saves it: a blocking instruction is abandoned, to be executed again, unless its effect is made (R163, R196,
R424); a WAIT that found its table full returns 2 (R107). -/
def CoreSt.captured (c : CoreSt) : CoreSt :=
  match c.wait with
  | .access (.command _ _) _ _ => c
  | .access (.exit _ _ _) _ _ => c
  | .access _ _ _ | .event _ _ | .parked _ _ _ | .barrier _ _ false => { c with wait := .none }
  | .barrier _ _ true => { c.adv with wait := .none }
  | .full t => { (c.wr t 2).adv with wait := .none }
  | .woken d t v => { ((c.wr d v).wr t 0).adv with wait := .none }
  | .none => c

/-- The image of a bank: its bytes, those of a failed unit zero (R339, R421). -/
def State.bankImage (s : State) (die : Nat) (b : Option BankId) : Memory :=
  match b with
  | none => []
  | some b =>
    let a := bankAddr die b 0
    (s.banks.filter fun c => a ≤ c.1 && c.1 < a + 65536 && !s.badBankUnit c.1).map fun c => (c.1 - a, c.2)
/-- The images of the banks of a core's windows. -/
def State.bankImages (s : State) (n : Nat) : List (Nat × Memory × Memory) :=
  (s.coreAt n).wins.toList.zipIdx.filterMap fun w =>
    if w.1.bank.isSome then some (w.2, s.bankImage (dieOf n) w.1.bank, s.bankImage (dieOf n) w.1.shadow) else none

/-- Where a group's save record lies, at the place that its request took (R421). -/
def State.saveAddr (s : State) (x : Group) (p : Preempt) : Word := ((s.context? x.ctx).map (·.cfg.saveArea)).getD 0 + BitVec.ofNat 64 p.place

/-- The first 64 bytes of a save record: its length, what it was captured with, and the CRC of the rest (R421). -/
def State.saveHeader (s : State) (x : Group) (p : Preempt) (len : Nat) (crc : BitVec 32) : List Byte :=
  leBytes 8 len ++ leBytes 4 (((s.graphSt x.ctx x.key).map fun y => y.lver.toNat).getD 0) ++ leBytes 1 (if p.freeze then 1 else 0)
    ++ leBytes 1 x.k ++ leBytes 1 x.die ++ leBytes 1 0 ++ wordBytes (s.cycleOf x.die) ++ leBytes 4 crc.toNat ++ leBytes 36 0

/-- A save record (R421, R422): its header with the launch block, and the parts behind it, whose length, within the bound, and bytes are free (log 11). -/
def State.saveRecord (s : State) (x : Group) (p : Preempt) : List Byte :=
  let n := Config.saveLength s.free % (saveBound x.k - 127)
  let rest := (x.block ++ leBytes 64 0).take 64 ++ (List.range n).map (Config.saveBody s.free)
  s.saveHeader x p (128 + n) (crc32c rest) ++ rest

/-- Whether a record that has been read passes its check: its length is that which it tells, and the CRC is that of bytes 0x40 to the end (R421). -/
def recordOk (bs : List Byte) : Bool := fieldN bs 0 8 == bs.length && fieldN bs 0x18 4 == (crc32c (bs.drop 0x40)).toNat

/-- The held segments of a GAT go back to the head of i0, to be decided anew; its open captures are discarded (R424). -/
def Group.gatBack (x : Group) (now j : Nat) : Group :=
  match ((x.insts[j]?).map fun i => i.st).getD CellState.vec with
  | .gat g =>
    let back : List Slot := g.held.map fun t => { tok := t, ready := now }
    let ths := g.held.map fun t => t.tag.thread.toNat
    { x with
      links := match x.inLink j 0 with
        | some l => modAt x.links l fun l => { l with toks := back ++ l.toks }
        | none => x.links
      insts := modAt x.insts j fun i => { i with
        opens := i.opens.filter fun o => !(o.1 == 0 && ths.contains o.2)
        st := .gat { g with held := [], sampled := [], whole := none, caps := g.caps.map fun c => { c with input := [], bad := true } } } }
  | _ => x

/-- Work that goes on while its group is out, or comes back with it, names its cores by other numbers. -/
def State.renumber (s : State) (g : Nat) (f : Nat → Nat) : State :=
  { s with
    flights := s.flights.map fun x => if x.group = g && x.kind != .engine then { x with core := f x.core } else x
    spill := s.spill.map fun x => if x.group = g then { x with
        cmd := x.cmd.map fun c => (f c.1, c.2)
        stream := if x.stream.1 = 0 then x.stream else (x.stream.1, f x.stream.2.1, x.stream.2.2) } else x
    pulses := s.pulses.map fun p => { p with core := f p.core } }

/-- The copy commands of a group, with the numbers of their engines on the die, in the order in which they were handed over (R421). -/
def State.jobsOf (s : State) (g : Nat) : List (Nat × CopyJob) := s.engines.flatMap fun e => (e.2.filter fun j => j.group == g).map fun j => (e.1 % 8, j)

/-- CAPTURE (R420, R421): the group's state is saved, its cells, banks and cores are free, and it is ready at the tail of its tenant's queue. -/
def execCapture (group : Nat) (s : State) : Out :=
  match (s.group? group).bind fun x => x.preempt.map fun p => (x, p) with
  | none => .next s
  | some (x, p) =>
    if x.status != .running || !s.canCapture group x p || s.portsLater (s.saveAddr x p) (saveBound x.k) (rankOf (unitSrc x.die) 0)
        || s.lates.any (·.die == x.die) then .next s
    else
      let s1 := x.cores.foldl (fun s n => s.modCore n CoreSt.captured) { s with waits := s.waits.filter fun w => !x.cores.contains w.2.2 }
      let saved : Saved := { cores := x.cores.map s1.coreAt, banks := x.cores.map s1.bankImages, jobs := s1.jobsOf group, addr := s.saveAddr x p, place := p.place }
      let s2 := { s1 with free := s1.free + 1, engines := s1.engines.map fun e => (e.1, e.2.filter fun j => j.group != group) }
      let s3 := (x.cores.foldl State.freeCore s2).renumber group fun n => if x.cores.contains n then outCore group (n - (x.die * 128 + x.first)) else n
      let x1 := (List.range x.insts.length).foldl (fun x j => Group.gatBack x s.cycle j) x
      .next (((s3.setGroup group { x1 with status := .preempted, preempt := none, saved := some saved }).addReady x.die x.level x.tenant
        { addr := 0, block := x.block, ctx := x.ctx, since := s.cycle, group := some group }).layoutWrite x saved.addr (s1.saveRecord x p))

/-! ### The resume (R423) -/

/-- Windows in the order in which a resume attaches their banks: those of the graph's window list, then the others (R337, R423). -/
def resumeOrder (wins : List (Nat × Nat × Nat)) : List Nat :=
  let first := wins.map (·.1)
  first ++ (List.range 16).filter fun w => !first.contains w

/-- Write a bank's image. -/
def State.putImage (s : State) (die : Nat) (b : Option BankId) (m : Memory) : State :=
  match b with
  | none => s
  | some b =>
    let s1 := s.zeroBank (bankAddr die b 0)
    { s1 with banks := m.foldl (fun (k : Memory) c => Memory.write k (bankAddr die b 0 + c.1) c.2) s1.banks }

/-- Give a window of a core new banks with their images. -/
def State.reattach (s : State) (n w : Nat) (images : List (Nat × Memory × Memory)) (x : Win) : State :=
  match images.find? (·.1 == w) with
  | none => s
  | some (_, live, shadow) =>
    let free := s.freeBanks (dieOf n) (quadOf n)
    let b := if x.bank.isSome then free.head? else none
    let sh := if x.shadow.isSome then (free.drop 1).head? else none
    let s1 := s.modCore n fun c => c.setWin (BitVec.ofNat 4 w) { x with bank := b, shadow := sh }
    (s1.putImage (dieOf n) b live).putImage (dieOf n) sh shadow

/-- Restore the control core of a rank (R423). -/
def State.restoreCore (s : State) (g : Nat) (wins : List (Nat × Nat × Nat)) (n rank : Nat) (c : CoreSt) (images : List (Nat × Memory × Memory)) : State :=
  let bare : CoreSt := { c with
    wins := c.wins.map fun w => { w with bank := none, shadow := none }
    issued := max c.issued (s.coreAt n).issued, group := some g, rank := rank }
  (resumeOrder wins).foldl (fun s w => s.reattach n w images (c.win (BitVec.ofNat 4 w))) (s.setCoreAt n bare)

/-- The phases of a group on its new cores. -/
def Group.movePhases (x : Group) (move : Nat → Nat) : Tbl Phase :=
  x.phases.foldl (fun (t : Tbl Phase) p =>
    let b := p.1 / 4096 / 3
    let sc : Scope := match p.1 / 4096 % 3 with
      | 0 => .core | 1 => .quad | _ => .die
    match x.cores.find? fun n => scopeInst sc n == p.1 % 4096 with
    | some n => put t (phaseKey (BitVec.ofNat 2 b) sc (move n)) { p.2 with arrived := p.2.arrived.map fun a => (move a.1, a.2) }
    | none => t) []

/-- The packets of a group that wait at its own windows are now at the banks of its new cores. -/
def State.movePackets (s : State) (g : Nat) : State :=
  { s with flights := s.flights.map fun f => if f.group = g then (match f.op with
      | .wstore _ _ _ | .bzero _ _ => { f with die := dieOf f.core, router := quadOf f.core, toDie := dieOf f.core, toRouter := quadOf f.core }
      | _ => f) else f }

/-- Replays in progress leave the recall store of a die that their group does not come back to (R374). -/
def State.leaveReplays (s : State) (x : Group) (die : Nat) : State :=
  if x.die = die then s
  else
    (x.insts.flatMap fun i => match i.st with
      | .gat g => g.outs.filterMap fun o => match o with
        | .replay _ id _ => some id
        | .miss _ => none
      | _ => []).foldl (fun s id => s.modEntry x.die id fun e => { e with busy := e.busy - 1 }) s

/-- Restore a group on a placement (R423). Its rate window starts again with the length that it had; a WAGWIN that is pending takes effect with the window
after (R335; DESIGN CHOICE, log 101). -/
def State.restore (s : State) (g die first : Nat) (x : Group) (v : Saved) : State :=
  let o := s.objOf x
  let move (n : Nat) : Nat := if x.cores.contains n then n - (x.die * 128 + x.first) + die * 128 + first else n
  let x1 := { x with
    status := .running, die := die, first := first, saved := none, phases := x.movePhases move, winAt := s.cycle, winPrev := 0
    insts := x.insts.map fun i => match i.st with
      | .agn a => { i with st := .agn { a with bufs := a.bufs.map fun b => { b with owner := b.owner.map fun c => (move c.1, c.2) } } }
      | _ => i }
  let s1 := (s.leaveReplays x die).setGroup g x1
  let s2 := (v.cores.zipIdx.zip v.banks).foldl (fun s q => s.restoreCore g o.wins (die * 128 + first + q.1.2) q.1.2 q.1.1 q.2) s1
  let s3 := if o.nodes.any fun n => kindOf n.hdr == kGAT then s2.rcAllocate die x.ctx x.key else s2
  let s4 := (s3.renumber g fun n => if n / 128 = (2 ^ 20 + g * 128) / 128 then n % 128 + die * 128 + first else n).movePackets g
  let mine := ((s4.context? x.ctx).map fun c => c.parked.filter (·.elem.group == g)).getD []
  let s5 := s4.modContext x.ctx fun c => { c with parked := c.parked.filter (·.elem.group != g) }
  let s6 := v.jobs.foldl (fun (s : State) j => { s with
    engines := put s.engines (die * 8 + j.1) (findD s.engines (die * 8 + j.1) [] ++ [{ j.2 with core := move j.2.core }]) }) s5
  mine.foldl (fun s t => s.deliverSpill t.elem t.data t.geom) s6

/-- A resume that is refused: cause 0x41 with check 10, and the group ends without successors (R421). -/
def State.refuseResume (s : State) (g : Nat) (x : Group) : State :=
  (s.loadErr x.ctx .loader (unitLoc x.die) (unitSrc x.die) x.graph 0 10).dropGroup g

/-- The save record of a group, as far as it states its length (R421); none where that cannot be. -/
def State.savedRecord (s : State) (x : Group) (v : Saved) : Res (List Byte) :=
  match s.loadN x.ctx v.addr (some 15) 3 128 with
  | .err e s => .err e s
  | .ok hd s1 =>
    let len := fieldN hd 0 8
    if len < 128 || saveBound x.k < len then .ok [] s1 else s1.loadN x.ctx v.addr (some 15) (len / 128 + 2) len

/-- The launch unit's record of a read of a save record that faults (R352, R413). -/
def State.resumeRec (s : State) (x : Group) (e : TErr) : State := s.accessRec x.ctx .loader (unitLoc x.die) (unitSrc x.die) false x.graph e

/-- RESUME_GROUP (R421, R423): the record is read whole and checked; the launch unit of the die that the group ran on serves it, on the placement of a die that begins at core `first`. -/
def execResumeGroup (group die first : Nat) (s : State) : Out :=
  match (s.group? group).bind fun x => x.saved.map fun v => (x, v) with
  | none => .next s
  | some (x, v) =>
    match s.pickReady x.die with
    | none => .next s
    | some (l, t, r) =>
      if !s.host.ready || r.group != some group || !(s.spots x.die r).contains (die, first) then .next s
      else
        match s.savedRecord x v with
        | .err e s =>
          let s1 := s.resumeRec x e
          .next (if e.host then s1.holdReady x.die l t else (s1.serve x.die l t r).refuseResume group x)
        | .ok bs s2 =>
          let s3 := s2.serve x.die l t r
          if recordOk bs then .next (s3.restore group die first x v) else .next (s3.refuseResume group x)

/-- Try the read again that holds the head group of a launch unit's queue (R352, R355): the group is launched, or resumed, later, in its turn. -/
def State.retryHead (s : State) (die key : Nat) (r : Ready) : State :=
  let l := key / 64
  let t := key % 64
  match r.group with
  | none =>
    match s.loadGraph r.ctx die (blkGraph r.block) with
    | .ok s1 _ => s1
    | .failed s1 => s1.serve die l t r
    | .held s1 => s1.holdReady die l t
  | some g =>
    match (s.group? g).bind fun x => x.saved.map fun v => (x, v) with
    | none => s
    | some (x, v) =>
      match s.savedRecord x v with
      | .ok _ s1 => s1
      | .err e s =>
        if e.host then (s.resumeRec x e).holdReady die l t else ((s.resumeRec x e).serve die l t r).refuseResume g x

end Sys2Proof.Machine
end

