-- ==== Sys2Proof/Machine/Host.lean ====
section
/-! DEFINITION. The host link, the hypervisor's registers and requests, the management controller's settings, start-up and power (R88, R132, R345,
R348, R355, R415, R439 to R451). -/

namespace Sys2Proof.Machine

/-! ### Registers of the physical function (R441, R442, R448, R449) -/

/-- IDENT (R442). -/
def State.ident (s : State) : Word :=
  BitVec.ofNat 64 (0xB3E1 * 2 ^ 48 + Config.stepping.toNat * 2 ^ 40 + s.host.pkg.toNat * 2 ^ 16 + Config.dies)
/-- STATUS (R442). -/
def State.statusReg (s : State) : Word :=
  BitVec.ofNat 64 (s.host.s2drop.toNat * 2 ^ 16 + s.host.phase.toNat * 2 ^ 4 + (if s.host.fail then 2 else 0) + (if s.host.ready then 1 else 0))
/-- AVAIL0 and AVAIL1: available cores of eight dies, one byte each (R441). -/
def State.avail (s : State) (first : Nat) : Word :=
  bytesWord ((List.range 8).map fun d => BitVec.ofNat 8 (s.availCount (first + d)))
/-- What a read of 8 bytes at an offset of BAR0 returns (R441, R448). -/
def State.bar0 (s : State) (off : BitVec 16) : Word :=
  let o := off.toNat
  if o = 0 then s.ident
  else if o = 8 then s.statusReg
  else if 0x1000 ≤ o ∧ o < 0x2000 then bytesWord ((List.range 8).map fun i => Config.cert (o - 0x1000 + i))
  else if !s.host.ready then 0xFFFFFFFFFFFFFFF0#64
  else if o = 0x10 then s.avail 0
  else if o = 0x18 then s.avail 8
  else if o = 0x200 then s.host.hfq
  else 0

/-- A request discarded at S2INV is counted, with saturation (R443). -/
def State.s2Drop (s : State) : State :=
  { s with host := { s.host with s2drop := if s.host.s2drop = 0xFFFF#16 then s.host.s2drop else s.host.s2drop + 1 } }

/-- S2INV (R443): a write of all 32 bytes is taken while fewer than 16 requests are pending. -/
def execS2inv (bytes : List Byte) (s : State) : Out :=
  if !s.host.ready then .next s
  else if bytes.length ≠ 32 ∨ 16 ≤ s.host.s2.length then .next s.s2Drop
  else .next { s with host := { s.host with s2 := s.host.s2 ++ [S2Req.mk bytes] } }

/-- Bytes 0x000 to 0x0FF of a report (R447). -/
def State.reportHead (s : State) : List Byte :=
  leBytes 4 1 ++ leBytes 4 (s.statusReg.toNat % 2 ^ 32) ++ wordBytes s.ident ++ leBytes 32 s.host.nonce.toNat
    ++ s.host.meas.toList.flatMap digestBytes ++ wordBytes (s.avail 0) ++ wordBytes (s.avail 8)

/-- A report is written to host memory and MSI-X vector 1 is raised (R447). -/
def State.writeReport (s : State) (a : Word) : State :=
  let h := s.reportHead
  let sig := (List.range 96).map fun i => Config.sign (digestOf h) i
  { s with host := { s.host with mem := Memory.writeN s.host.mem a.toNat (h ++ sig), msix := s.host.msix ++ [1] } }

/-- A report is asked for, unless one that was asked for before has still to be written (R447). -/
def State.askReport (s : State) (a : Word) : State := if s.host.asked.isSome then s else { s with host := { s.host with asked := some a } }
/-- The management controller writes the report that it was asked for (R447). -/
def State.reportTurn (s : State) : State :=
  match s.host.asked with
  | none => s
  | some a => { s with host := { s.host with asked := none } }.writeReport a

/-- REPADDR (R447, R448). -/
def execRepaddr (addr : Word) (s : State) : Out := .next (if s.host.ready then s.askReport addr else s)

/-- REGISTER_WRITE (R441, R443, R447, R448): HFQ and NONCE store the value; a write that covers all of the request area is a request, and any other that
meets it is counted; the rest is discarded. -/
def execRegisterWrite (off : BitVec 16) (bytes : List Byte) (s : State) : Out :=
  let o := off.toNat
  let v := BitVec.ofNat 64 (leNat bytes)
  if !s.host.ready then .next s
  else if o ≤ 0x100 ∧ 0x120 ≤ o + bytes.length then execS2inv ((bytes.drop (0x100 - o)).take 32) s
  else if o < 0x120 ∧ 0x100 < o + bytes.length then .next s.s2Drop
  else if o = 0x200 ∧ bytes.length = 8 then .next { s with host := { s.host with hfq := v } }
  else if o = 0x320 ∧ bytes.length = 8 then .next (s.askReport v)
  else if 0x300 ≤ o ∧ o + bytes.length ≤ 0x320 ∧ (bytes.length = 32 ∨ (bytes.length = 8 ∧ o % 8 = 0)) then
    let old := leBytes 32 s.host.nonce.toNat
    .next { s with host := { s.host with nonce := BitVec.ofNat 256 (leNat (old.take (o - 0x300) ++ bytes ++ old.drop (o - 0x300 + bytes.length))) } }
  else .next s

/-! ### Stage-2 invalidations (R354, R355) -/

/-- Fields of a request (R355). -/
def S2Req.ctx (r : S2Req) : Nat := fieldN r.bytes 0 2
def S2Req.tenant (r : S2Req) : Nat := fieldN r.bytes 2 1
def S2Req.count (r : S2Req) : Nat := fieldN r.bytes 4 4
def S2Req.first (r : S2Req) : Nat := fieldN r.bytes 8 8
def S2Req.completion (r : S2Req) : Word := BitVec.ofNat 64 (fieldN r.bytes 16 8)
/-- Whether a request names a context, and a guest frame. -/
def State.s2Names (s : State) (r : S2Req) (ctx : Nat) : Bool := s.tenantOf ctx == r.tenant && (r.ctx == 0xFFFF || r.ctx == ctx)
def S2Req.frame (r : S2Req) (f : Nat) : Bool := r.count == 0 || (r.first ≤ f && f < r.first + r.count)

/-- Whether a stage-2 fault holds the read of a CNT's count (R307, R352). -/
def Inst.countHeld (i : Inst) : Bool := match i.st with
  | .cnt c => c.held
  | _ => false

/-- A cell's read that a stage-2 fault held may be tried again (R352). -/
def Inst.unhold (i : Inst) : Inst :=
  { i with held := false, st := match i.st with
      | .cnt c => .cnt { c with held := false }
      | x => x }

/-- Whether a launch packet is for a queue of some contexts, or for none any more. -/
def State.packetOf (s : State) (is : Nat → Bool) (p : LaunchPkt) : Bool := ((s.monitor? p.tenant p.queue).map fun m => is m.ctx).getD true

/-- What stage-2 faults held for some contexts may be tried again (R352, R355). -/
def State.unhold (s : State) (is : Nat → Bool) : State :=
  { s with
    cores := s.cores.map fun c => (c.1, match c.2.wait with
      | .access op true w => if is (s.ctxOf c.1) then { c.2 with wait := .access op false w } else c.2
      | _ => c.2)
    flights := s.flights.map fun f => if is f.ctx then { f with held := false } else f
    spill := s.spill.map fun e => if is e.ctx && e.stage2 then { e with retry := true } else e
    engines := s.engines.map fun e => (e.1, e.2.map fun j => if is j.ctx then { j with held := false } else j)
    retires := s.retires.map fun q => if is (((s.group? q.group).map (·.ctx)).getD 4096) then { q with held := false } else q
    subs := s.subs.map fun u => if is u.ctx then { u with held := false } else u
    units := s.units.map fun u => (u.1, { u.2 with ready := u.2.ready.map fun q => (q.1, q.2.map fun r => if is r.ctx then { r with held := false } else r) })
    merges := s.merges.map fun p => (p.1, p.2.map fun m => if is m.ctx then { m with held := false } else m)
    tenants := s.tenants.map fun t => (t.1, { t.2 with queues := t.2.queues.map fun q => (q.1, if is q.2.ctx then { q.2 with held := false } else q.2) })
    groups := s.groups.map fun g => (g.1, if is g.2.ctx then { g.2 with insts := g.2.insts.map Inst.unhold } else g.2)
    heldAdds := s.heldAdds.filter fun h => !(h.held && is h.ctx)
    host := { s.host with
      packets := s.host.packets.map fun (p : LaunchPkt × Bool) => (p.1, p.2 && !s.packetOf is p.1)
      creates := s.host.creates.filter fun c => !is c.ctx } }

/-- The state after an operation that always goes on. -/
def stateOf (s : State) : Out → State
  | .next t => t
  | _ => s

/-- Retry a posted request at its place. -/
def retryFlight (s : State) (f : Flight) : State :=
  stateOf s (match f.op with
    | .dec _ => execCounterDecrement f.id s
    | .signal _ _ => execSignalApply f.id s
    | _ => execMemoryAccess f.id s)

/-- Retry the spilled elements that may be, in spill order (R355, R358): an element that has changed is looked at again, for the access that follows it. -/
def State.retrySpills : Nat → Nat → State → State
  | 0, _, s => s
  | f + 1, k, s =>
    let s1 := stateOf s (execSpillRetry k s)
    State.retrySpills f (if s1.spill[k]? != s.spill[k]? then k else k + 1) s1

/-- Work that held accesses do again: they reached their ports in earlier cycles, so neither what a port has served in this one (R98) nor the limiter at
injection (R407) puts them off; their data are charged all the same (R408). -/
def State.again (s : State) (f : State → State) : State :=
  let t := f { s with buckets := [], served := [] }
  (t.buckets.foldl (fun (u : State) b => u.charge (b.1 / 64) (b.1 % 64) (-b.2.level).toNat) { t with buckets := s.buckets, served := s.served })

/-- Retry what stage-2 faults held for some contexts, as `s0` held it (R352, R355): posted requests, blocking accesses, spilled elements, counter additions,
settings, counts of runs, copies, retire records, submissions, monitors, merged updates, packets, heads of launch units and intake queues to be made. -/
def State.retryHeld (s0 : State) (is : Nat → Bool) (s : State) : State :=
  let each {α : Type} (l : List α) (f : State → α → State) (s : State) : State := l.foldl f s
  let s1 := each (s0.flights.filter fun f => f.held && is f.ctx) retryFlight s
  let s2 := each (s0.cores.filter fun c => is (s0.ctxOf c.1) && (match c.2.wait with
    | .access _ true _ => true
    | _ => false)) (fun s c => stateOf s (execAccessResponse c.1 s)) s1
  let s3 := s2.retrySpills (3 * s2.spill.length) 0
  let s4 := each (s0.heldAdds.filter fun h => h.held && is h.ctx) State.rcSend s3
  let s5 := each (s0.groups.filter fun g => is g.2.ctx) (fun s g =>
    each (g.2.insts.zipIdx.filter fun i => i.1.held || i.1.countHeld) (fun s i =>
      let r : CellRef := { group := g.1, inst := i.2 }
      stateOf s (if i.1.held then execSettingLoad r s else execCntRunStart r s)) s) s4
  let s6 := each (s0.engines.filter fun e => (e.2.head?.map fun j => j.held && is j.ctx).getD false) (fun s e => stateOf s (execCopyDescriptor e.1 s)) s5
  let s7 := each (s0.retires.zipIdx.filter fun q => q.1.held && is (((s0.group? q.1.group).map (·.ctx)).getD 4096)).reverse
    (fun s q => stateOf s (execRetireRecordAppend q.2 s)) s6
  let s8 := each (s0.subs.zipIdx.filter fun u => u.1.held && is u.1.ctx).reverse (fun s u => stateOf s (execCounterSubmission u.2 s)) s7
  let s9 := each s0.tenants (fun s t => each (t.2.queues.filter fun q => q.2.held && is q.2.ctx) (fun s q => match s.monitor? t.1 q.1 with
    | some m => s.monRound t.1 q.1 m
    | none => s) s) s8
  let s10 := each (s0.merges.flatMap fun p => (p.2.filter fun m => m.held && is m.ctx).map fun m => (p.1, { m with held := false })) (fun s p => s.forwardMerge p.1 p.2) s9
  let s11 := each (s0.host.packets.filter fun p => p.2 && s0.packetOf is p.1) (fun s p => stateOf s (execLaunchPacket p.1 s)) s10
  let s12 := each (s0.units.flatMap fun u => u.2.ready.filterMap fun q => (q.2.head?.filter fun r => r.held && is r.ctx).map fun r => (u.1, q.1, r))
    (fun s h => s.retryHead h.1 h.2.1 h.2.2) s11
  each (s0.host.creates.filter fun c => is c.ctx) (fun s c => stateOf s (execIntakeQueueCreate c s)) s12

/-- A request is applied: the memory ports drop the translations that it names (R355). -/
def State.s2Apply (s : State) (r : S2Req) : State := { s with tlb := s.tlb.filter fun e => !(s.s2Names r e.ctx && r.frame e.gframe) }

/-- STAGE2_INV_COMPLETE (R355, R443): pending request k, and those that came before it, are applied in the order in which they came; then what was held for
the contexts of request k is tried again, and then 1 is written to its completion address. -/
def execStage2InvComplete (k : Nat) (s : State) : Out :=
  match s.host.s2[k]? with
  | none => .next s
  | some r =>
    let is := s.s2Names r
    let s1 := (s.host.s2.take (k + 1)).foldl State.s2Apply { s with host := { s.host with s2 := dropAt s.host.s2 k } }
    .next (((s1.unhold is).again (s.retryHeld is)).complete r.completion)

/-! ### Virtual functions (R440) -/

/-- The tenant's address that an offset of BAR2 reaches (R440). -/
def barAddr (off : BitVec 40) : Word := BitVec.ofNat 64 (0x3FF * 2 ^ 50 + bits off.toNat 39 36 * 2 ^ 46 + bits off.toNat 35 0)

/-- The host context of a tenant whose function is enabled. -/
def State.hostCtx? (s : State) (tenant : Nat) : Option Nat :=
  if !s.host.ready then none else (s.tenant? tenant).bind fun t => if t.down then none else some t.cfg.hostCtx

/-- The record of a host access that faults (R440, R352). -/
def State.hostRec (s : State) (ctx : Nat) (e : TErr) : State := s.accessRec ctx .network 0 2176 false 0 e

/-- The record of an access to a tenant's function while the tenant has no host context: no table maps it (R158, R440). -/
def State.noHostRec (s : State) (tenant ctx : Nat) (a : Word) : State :=
  s.record { tenant := tenant, cause := 0x20, kind := .network, ctx := BitVec.ofNat 12 ctx, loc := 0, a := 0, b := a, c := Config.noWalkLevel, src := 2176 }

/-- A host access that a stage-2 fault holds at its home port (R352). -/
def State.hostHeld (s : State) (ctx : Nat) (a : Word) (op : FlightOp) : State :=
  let f : Flight := {
    id := s.nextId, core := 2176, src := 2176, ctx := ctx, tenant := s.tenantOf ctx, group := 0, pc := 0, kind := .network, op := op, order := s.nextId, held := true
    entered := true, die := homeDie a, router := 32 + bits a.toNat 10 7, toDie := homeDie a, toRouter := 32 + bits a.toNat 10 7, since := s.cycle }
  { s with flights := s.flights ++ [f], nextId := s.nextId + 1 }

/-- A host access on its way to its home port: the port takes it in its turn (R98, R346). -/
def State.hostSend (s : State) (ctx : Nat) (a : Word) (op : FlightOp) : State :=
  let f : Flight := {
    id := s.nextId, core := 2176, src := 2176, ctx := ctx, tenant := s.tenantOf ctx, group := 0, pc := 0, kind := .network, op := op, order := s.nextId
    entered := true, die := homeDie a, router := 32 + bits a.toNat 10 7, toDie := homeDie a, toRouter := 32 + bits a.toNat 10 7, since := s.cycle }
  { s with flights := s.flights ++ [f], nextId := s.nextId + 1 }

/-- HOST_BAR_READ (R440): 1 to 128 bytes; a read that faults returns all ones; one that a stage-2 fault holds is answered once it is retried. -/
def execHostBarRead (tenant : Nat) (off : BitVec 40) (len : Nat) (s : State) : Out :=
  match s.hostCtx? tenant with
  | none => .next s
  | some ctx =>
    if len = 0 ∨ 128 < len then .next s
    else if s.tenantOf ctx == tenant && s.discards ctx then .next { s with host := { s.host with answer := List.replicate len 0xFF } }
    else if s.tenantOf ctx != tenant then
      let s1 := s.noHostRec tenant ctx (barAddr off)
      .next { s1 with host := { s1.host with answer := List.replicate len 0xFF } }
    else if !s.inOrder (homePort (barAddr off)) (rankOf 2176 0) then .next (s.hostSend ctx (barAddr off) (.fetch (barAddr off) len))
    else
      match (s.noteServed (homePort (barAddr off)) (rankOf 2176 0)).loadN ctx (barAddr off) (some 15) 3 len with
      | .ok bs s1 => .next { s1 with host := { s1.host with answer := bs } }
      | .err e s =>
        let s1 := s.hostRec ctx e
        .next (if e.host then s1.hostHeld ctx (barAddr off) (.fetch (barAddr off) len)
          else { s1 with host := { s1.host with answer := List.replicate len 0xFF } })

/-- A part of a host write that lies in one 128-byte unit; where it faults it is dropped, or held by a stage-2 fault (R352, R440). -/
def State.barPart (s : State) (ctx : Nat) (a : Word) (bs : List Byte) : State :=
  if !s.inOrder (homePort a) (rankOf 2176 0) then s.hostSend ctx a (.store a bs)
  else
    let s0 := s.noteServed (homePort a) (rankOf 2176 0)
    match s0.store ctx a bs (some 15) with
    | .ok _ s1 => s1
    | .err e s0 => if e.host then (s0.hostRec ctx e).hostHeld ctx a (.store a bs) else s0.hostRec ctx e

/-- The parts of a host write behind its first, on their way: each is written in a step of its own (R379). -/
def State.barParts (s : State) (ctx : Nat) : Nat → Word → List Byte → State
  | _, _, [] => s
  | 0, _, _ => s
  | n + 1, a, bs =>
    let k := min bs.length (128 - a.toNat % 128)
    State.barParts (s.hostSend ctx a (.store a (bs.take k))) ctx n (a + BitVec.ofNat 64 k) (bs.drop k)

/-- HOST_BAR_WRITE (R379, R440): 1 to 512 bytes, split at 128-byte boundaries; the first part is written at once. -/
def execHostBarWrite (tenant : Nat) (off : BitVec 40) (bytes : List Byte) (s : State) : Out :=
  match s.hostCtx? tenant with
  | none => .next s
  | some ctx =>
    let a := barAddr off
    let k := 128 - a.toNat % 128
    .next (if 512 < bytes.length || bytes.isEmpty || (s.tenantOf ctx == tenant && s.discards ctx) then s
      else if s.tenantOf ctx != tenant then s.noHostRec tenant ctx a
      else (s.barPart ctx a (bytes.take k)).barParts ctx 5 (a + BitVec.ofNat 64 (min bytes.length k)) (bytes.drop k))

/-! ### The management controller (R88, R101, R120, R132, R345, R348, R362, R407, R415, R418, R421) -/

/-- Whether a tenant's settings lie in their ranges. -/
def tenantOk (c : TenantCfg) : Bool :=
  c.tenant < 64 && 1 ≤ c.weight && c.weight ≤ 255 && 1 ≤ c.cloneThr && c.cloneThr ≤ 255 && c.foldThr ≤ 255 && c.budget ≤ 4096
    && c.recallAlloc ≤ 16384 && 1 ≤ c.graphLimit && c.graphLimit ≤ 64 && c.freezeLimit ≤ 2 ^ 24 && 8 ≤ c.bucketRate && c.bucketRate ≤ 4096
    && 1024 ≤ c.bucketDepth && c.bucketDepth ≤ 2 ^ 20 && c.hostCtx < 4096 && c.faultHdr.toNat % 64 == 0 && c.faultBase.toNat % 4096 == 0
    && 6 ≤ c.faultSlots && c.faultSlots ≤ 20

/-- TENANT_CREATE (R345): a key is drawn, the settings hold from now on, the buckets are full. -/
def execTenantCreate (c : TenantCfg) (s : State) : Out :=
  if !s.host.ready || !tenantOk c || (s.tenant? c.tenant).isSome then .next s
  else
    let t : Tenant := { cfg := c, key := Config.drawKey s.keys }
    .next { s with
      tenants := put s.tenants c.tenant t, keys := s.keys + 1
      buckets := (List.range Config.dies).foldl (fun (b : Tbl Bucket) d => put b (d * 64 + c.tenant) (Bucket.mk c.bucketDepth s.cycle)) s.buckets }

/-- Whether a context's settings are what a context may have. -/
def State.contextOk (s : State) (c : ContextCfg) : Bool :=
  c.ctx < 4096 && c.descs.length == Config.dies && (s.context? c.ctx).isNone && ((s.tenant? c.tenant).map fun t => !t.down).getD false

/-- A write that the management controller made in a context and that a stage-2 fault holds at its home port (R352). -/
def State.mgmtHeld (s : State) (ctx : Nat) (a : Word) (op : FlightOp) : State :=
  let f : Flight := {
    id := s.nextId, core := unitSrc 0, src := unitSrc 0, ctx := ctx, tenant := s.tenantOf ctx, group := 0, pc := 0, kind := .loader, op := op, order := s.nextId
    held := true, entered := true, die := homeDie a, router := 32 + bits a.toNat 10 7, toDie := homeDie a, toRouter := 32 + bits a.toNat 10 7, since := s.cycle }
  { s with flights := s.flights ++ [f], nextId := s.nextId + 1 }

/-- Zero the layout region of a context, a page at a time (R132); a page that faults is recorded, and held by a stage-2 fault (R352). -/
def State.zeroRegion (s : State) (ctx : Nat) (base : Word) (areas : Nat) : State :=
  (List.range (areas * 32)).foldl (fun (s : State) k =>
    let a := base + BitVec.ofNat 64 (k * 65536)
    match s.storeN ctx a (some 15) 513 (List.replicate 65536 0) with
    | (s1, none) => s1
    | (s1, some e) => if e.host then (s1.mgmtRec ctx e).mgmtHeld ctx a (.zero a) else s1.mgmtRec ctx e) s

/-- The header of a tenant's fault queue (R415). -/
def faultHeader (c : TenantCfg) : List Byte :=
  leBytes 8 0 ++ wordBytes c.faultBase ++ leBytes 1 c.faultSlots ++ leBytes 7 0 ++ leBytes 8 0 ++ leBytes 8 0 ++ wordBytes c.faultFuture ++ leBytes 16 0

/-- CONTEXT_CREATE (R132, R348, R421); with a tenant's host context its fault queue is made and its admission program submitted (R94, R415). -/
def execContextCreate (c : ContextCfg) (s : State) : Out :=
  match if s.host.ready && s.contextOk c then s.tenant? c.tenant else none with
  | none => .next s
  | some t =>
    let s1 := { s with contexts := put s.contexts c.ctx { cfg := c }, tlb := s.tlb.filter fun e => e.ctx != c.ctx }
    let s2 := s1.zeroRegion c.ctx c.region t.cfg.graphLimit
    if c.ctx ≠ t.cfg.hostCtx then .next s2
    else
      let s3 := match s2.store c.ctx t.cfg.faultHdr (faultHeader t.cfg) (some 15) with
        | .ok _ s3 => s3
        | .err e s2 => if e.host then (s2.mgmtRec c.ctx e).mgmtHeld c.ctx t.cfg.faultHdr (.store t.cfg.faultHdr (faultHeader t.cfg)) else s2.mgmtRec c.ctx e
      match t.cfg.admission with
      | none => .next s3
      | some a => .next { s3 with subs := s3.subs ++ [{
          addr := a, block := [], ctx := c.ctx, tenant := c.tenant, die := 0, src := unitSrc 0, a := a, mgmt := true, fresh := true }] }

/-- TRANSLATION_DESCRIPTOR_CHANGE (R348): while no group of the context is resident; the combined entries of the context at that die go. -/
def execTranslationDescriptorChange (ctx die : Nat) (d : TrDesc) (s : State) : Out :=
  if die < Config.dies && !(s.groups.any fun g => g.2.ctx == ctx && (g.2.status == .running || g.2.status == .placing)) then
    .next { s.modContext ctx fun c => { c with cfg := { c.cfg with descs := setAt c.cfg.descs die d } } with
      tlb := s.tlb.filter fun e => !(e.ctx == ctx && e.port / 16 == die) }
  else .next s

/-! ### Start and power (R342, R405, R442, R447 to R451) -/

/-- Recall-store sizes that a die may have (R342). -/
def recallOk (l : List Nat) : Bool := l.length == Config.dies && l.all fun m => m % 64 == 0 && m ≤ 256

/-- The measurements with those stages that are measured into some registers. -/
def measured (m : Vector (BitVec 384) 4) (st : List (Nat × List Byte)) (into : List Nat) : Vector (BitVec 384) 4 :=
  (st.filter fun x => into.contains x.1).foldl extendMeas m

/-- DEVICE_START (R442, R447 to R451): the start goes on by one phase. The boot ROM clears the measurements and measures the management firmware, which then
runs and measures the die firmware and the security configuration; then the cores are tested and memory is zeroed without the seal; then the package
answers, or the start has failed for good. -/
def execDeviceStart (c : StartCfg) (s : State) : Out :=
  if s.host.ready || s.host.fail || !recallOk c.recallMiB then .next s
  else if s.host.phase = 0 then .next { s with host := { s.host with meas := measured (Vector.replicate 4 0) c.stages [0], phase := 1 } }
  else if s.host.phase = 1 then .next { s with host := { s.host with meas := measured s.host.meas c.stages [1, 2], phase := 2 } }
  else if !c.passed then .next { s with host := { s.host with phase := 0xF, fail := true } }
  else .next { s with
    mem := [], sealed := [], badMem := [], softMem := []
    host := { s.host with phase := 3, ready := true, pkg := c.pkg, withheld := c.withheld, recallMiB := c.recallMiB } }

/-- POWER_CAP (R405, R450): the bounds of every clock region are set, and new launches are held while the cap stands. -/
def execPowerCap (on : Bool) (lo hi : Nat) (s : State) : Out :=
  if lo < 8 ∨ hi < lo ∨ 28 < hi then .next s
  else .next { s with
    host := { s.host with cap := on }
    regions := (List.range 768).foldl (fun (t : Tbl Region) r =>
      let x := findD s.regions r {}
      put t r { x with lo := lo, hi := hi, clock := max lo (min hi x.clock) }) s.regions }

/-- THERMAL_TRIP (R434, R450): every tenant is torn down, and the package is off. -/
def execThermalTrip (die : Nat) (s : State) : Out :=
  if Config.dies ≤ die then .next s
  else
    let s1 : State := { s with tenants := s.tenants.map fun t => (t.1, { t.2 with down := true, queues := [] }) }
    let s2 : State := s1.contexts.foldl (fun (s : State) c => s.finishPurge c.1 c.2) s1
    .next { (s2.tenants.map (·.1)).foldl State.finishTenant s2 with off := true }

end Sys2Proof.Machine
end

