-- ==== Sys2Proof/Machine/Integer.lean ====
section
/-! DEFINITION. Integer instructions: 64-bit arithmetic with no flags and no traps of their own (R169 to R175). -/

namespace Sys2Proof.Machine

/-- R169: sum mod 2^64. -/
def execAdd (g : Guard) (d a b : Reg) (s : State) : Out := writes g d s fun c => c.rd a + c.rd b

/-- R169: difference mod 2^64. -/
def execSub (g : Guard) (d a b : Reg) (s : State) : Out := writes g d s fun c => c.rd a - c.rd b

/-- R169: product mod 2^64. -/
def execMul (g : Guard) (d a b : Reg) (s : State) : Out := writes g d s fun c => c.rd a * c.rd b

/-- R169: high half of the signed product. -/
def execMulh (g : Guard) (d a b : Reg) (s : State) : Out := writes g d s fun c => mulHi (c.rd a) (c.rd b)

/-- R169: high half of the unsigned product. -/
def execMulhu (g : Guard) (d a b : Reg) (s : State) : Out := writes g d s fun c => mulHiU (c.rd a) (c.rd b)

/-- R170: signed quotient. -/
def execDiv (g : Guard) (d a b : Reg) (s : State) : Out := writes g d s fun c => divS (c.rd a) (c.rd b)

/-- R170: unsigned quotient. -/
def execDivu (g : Guard) (d a b : Reg) (s : State) : Out := writes g d s fun c => divU (c.rd a) (c.rd b)

/-- R170: signed remainder. -/
def execRem (g : Guard) (d a b : Reg) (s : State) : Out := writes g d s fun c => remS (c.rd a) (c.rd b)

/-- R170: unsigned remainder. -/
def execRemu (g : Guard) (d a b : Reg) (s : State) : Out := writes g d s fun c => remU (c.rd a) (c.rd b)

/-- R169. -/
def execAnd (g : Guard) (d a b : Reg) (s : State) : Out := writes g d s fun c => c.rd a &&& c.rd b

/-- R169. -/
def execOr (g : Guard) (d a b : Reg) (s : State) : Out := writes g d s fun c => c.rd a ||| c.rd b

/-- R169. -/
def execXor (g : Guard) (d a b : Reg) (s : State) : Out := writes g d s fun c => c.rd a ^^^ c.rd b

/-- R172. -/
def execShl (g : Guard) (d a b : Reg) (s : State) : Out := writes g d s fun c => c.rd a <<< shAmt (c.rd b)

/-- R172. -/
def execShr (g : Guard) (d a b : Reg) (s : State) : Out := writes g d s fun c => c.rd a >>> shAmt (c.rd b)

/-- R172. -/
def execSra (g : Guard) (d a b : Reg) (s : State) : Out := writes g d s fun c => (c.rd a).sshiftRight (shAmt (c.rd b))

/-- R169: smaller, signed. -/
def execMin (g : Guard) (d a b : Reg) (s : State) : Out := writes g d s fun c => if (c.rd a).sle (c.rd b) then c.rd a else c.rd b

/-- R169: larger, signed. -/
def execMax (g : Guard) (d a b : Reg) (s : State) : Out := writes g d s fun c => if (c.rd b).sle (c.rd a) then c.rd a else c.rd b

/-- R169: smaller, unsigned. -/
def execMinu (g : Guard) (d a b : Reg) (s : State) : Out := writes g d s fun c => if (c.rd a).ule (c.rd b) then c.rd a else c.rd b

/-- R169: larger, unsigned. -/
def execMaxu (g : Guard) (d a b : Reg) (s : State) : Out := writes g d s fun c => if (c.rd b).ule (c.rd a) then c.rd a else c.rd b

/-- R174: extract a field. -/
def execBfx (g : Guard) (d a b : Reg) (s : State) : Out := writes g d s fun c => bfxVal (c.rd a) (c.rd b)

/-- R174: insert a field; gd is read too. -/
def execBfi (g : Guard) (d a b : Reg) (s : State) : Out := writes g d s fun c => bfiVal (c.rd d) (c.rd a) (c.rd b)

/-- R171. -/
def execAddi (g : Guard) (d a : Reg) (imm : BitVec 11) (s : State) : Out := writes g d s fun c => c.rd a + sext imm

/-- R171. -/
def execAndi (g : Guard) (d a : Reg) (imm : BitVec 11) (s : State) : Out := writes g d s fun c => c.rd a &&& sext imm

/-- R171. -/
def execOri (g : Guard) (d a : Reg) (imm : BitVec 11) (s : State) : Out := writes g d s fun c => c.rd a ||| sext imm

/-- R171. -/
def execXori (g : Guard) (d a : Reg) (imm : BitVec 11) (s : State) : Out := writes g d s fun c => c.rd a ^^^ sext imm

/-- R172. -/
def execShli (g : Guard) (d a : Reg) (n : BitVec 6) (s : State) : Out := writes g d s fun c => c.rd a <<< n.toNat

/-- R172. -/
def execShri (g : Guard) (d a : Reg) (n : BitVec 6) (s : State) : Out := writes g d s fun c => c.rd a >>> n.toNat

/-- R172. -/
def execSrai (g : Guard) (d a : Reg) (n : BitVec 6) (s : State) : Out := writes g d s fun c => (c.rd a).sshiftRight n.toNat

/-- R173. -/
def execClz (g : Guard) (d a : Reg) (s : State) : Out := writes g d s fun c => BitVec.ofNat 64 (clz64 (c.rd a))

/-- R173. -/
def execPopc (g : Guard) (d a : Reg) (s : State) : Out := writes g d s fun c => BitVec.ofNat 64 (popN 64 (c.rd a).toNat)

/-- R173: the field holds the width minus 1. -/
def execSext (g : Guard) (d a : Reg) (w : BitVec 6) (s : State) : Out := writes g d s fun c => sextFrom (w.toNat + 1) (c.rd a)

/-- R173: the field holds the width minus 1. -/
def execZext (g : Guard) (d a : Reg) (w : BitVec 6) (s : State) : Out := writes g d s fun c => zextFrom (w.toNat + 1) (c.rd a)

/-- R175. -/
def execLi (g : Guard) (d : Reg) (imm : BitVec 16) (s : State) : Out := writes g d s fun _ => sext imm

/-- R175: gd is read too. -/
def execLih (g : Guard) (d : Reg) (imm : BitVec 16) (s : State) : Out := writes g d s fun c => (c.rd d <<< 16) ||| zext imm

end Sys2Proof.Machine
end

