-- ==== Sys2Proof/Machine/Flags.lean ====
section
/-! DEFINITION. Conditions and predicates: the machine sets no flags, and only predicates hold the outcome of a comparison (R139, R160,
R176, R177). -/

namespace Sys2Proof.Machine

/-- Whether a condition holds between two words (R176). -/
def condHolds (c : Cond) (x y : Word) : Bool :=
  match c with
  | .eq => x == y
  | .ne => x != y
  | .lt => x.slt y
  | .le => x.sle y
  | .gt => y.slt x
  | .ge => y.sle x
  | .ltu => x.ult y
  | .leu => x.ule y
  | .gtu => y.ult x
  | .geu => y.ule x

/-- A predicate operand with its negation bit (R177). -/
def CoreSt.predOp (c : CoreSt) (p : PReg) (neg : Bool) : Bool := c.rdp p != neg

/-- All predicates as PMOV.get shows them: p0 to p6, p7 as 1 (R179). -/
def CoreSt.preds (c : CoreSt) : Word := zext c.p ||| 0x80#64

end Sys2Proof.Machine
end

