-- ==== Sys2Proof/Machine/Predicate.lean ====
section
/-! DEFINITION. Compare, predicate and select instructions (R176 to R179). -/

namespace Sys2Proof.Machine

/-- R176. -/
def execCmp (g : Guard) (cc : Cond) (p : PReg) (a b : Reg) (s : State) : Out := pure g s fun c => c.wrp p (condHolds cc (c.rd a) (c.rd b))

/-- R176: the second operand is the sign-extended imm9. -/
def execCmpi (g : Guard) (cc : Cond) (p : PReg) (a : Reg) (imm : BitVec 9) (s : State) : Out :=
  pure g s fun c => c.wrp p (condHolds cc (c.rd a) (sext imm))

/-- R177. -/
def execPand (g : Guard) (p a b : PReg) (na nb : Bool) (s : State) : Out :=
  pure g s fun c => c.wrp p (c.predOp a na && c.predOp b nb)

/-- R177. -/
def execPor (g : Guard) (p a b : PReg) (na nb : Bool) (s : State) : Out :=
  pure g s fun c => c.wrp p (c.predOp a na || c.predOp b nb)

/-- R177. -/
def execPxor (g : Guard) (p a b : PReg) (na nb : Bool) (s : State) : Out :=
  pure g s fun c => c.wrp p (c.predOp a na != c.predOp b nb)

/-- R177. -/
def execPnot (g : Guard) (p a : PReg) (s : State) : Out := pure g s fun c => c.wrp p (!c.rdp a)

/-- R178. -/
def execSel (g : Guard) (d a b : Reg) (ps : PReg) (s : State) : Out := writes g d s fun c => if c.rdp ps then c.rd a else c.rd b

/-- R179. -/
def execPmovGet (g : Guard) (d : Reg) (s : State) : Out := writes g d s fun c => c.preds

/-- R179. -/
def execPmovSet (g : Guard) (a : Reg) (s : State) : Out := pure g s fun c => { c with p := (c.rd a).setWidth 7 }

end Sys2Proof.Machine
end

