-- ==== Sys2Proof/Machine/Sync.lean ====
section
/-! DEFINITION. Bindings, acquire, release, fences, barriers, futures and decrements of a control core (R207 to R214, R227). -/

namespace Sys2Proof.Machine

/-- ACQ (R209). -/
def execAcq (g : Guard) (d a : Reg) (sc : Scope) (s : State) : Out := guarded g s fun c =>
  if alignedTo (c.rd a) 64 then s.block (wordOf (.acq g d a sc)) (.acq d (c.rd a)) else s.misaligned (c.rd a)

/-- REL (R210). -/
def execRel (g : Guard) (d a : Reg) (sc : Scope) (s : State) : Out := guarded g s fun c =>
  if alignedTo (c.rd a) 64 then s.block (wordOf (.rel g d a sc)) (.rel d (c.rd a)) else s.misaligned (c.rd a)

/-- BIND (R208). -/
def execBind (g : Guard) (d a b : Reg) (s : State) : Out := guarded g s fun c =>
  if alignedTo (c.rd a) 64 then s.block (wordOf (.bind g d a b)) (.bind d (c.rd a) (c.rd b) (c.rd d)) else s.misaligned (c.rd a)

/-- UNBIND (R208). -/
def execUnbind (g : Guard) (d a b : Reg) (s : State) : Out := guarded g s fun c =>
  if alignedTo (c.rd a) 64 then s.block (wordOf (.unbind g d a b)) (.unbind d (c.rd a) (c.rd b)) else s.misaligned (c.rd a)

/-- FENCE (R211): complete when the core's earlier posted requests are acknowledged. -/
def execFence (g : Guard) (o : Ord) (sc : Scope) (s : State) : Out := guarded g s fun _ => s.block (wordOf (.fence g o sc)) .fence

/-- BAR (R212): posts one arrival, which leaves once the release is done. -/
def execBar (g : Guard) (a : Reg) (sc : Scope) (s : State) : Out := guarded g s fun c =>
  s.post (.bar ((c.rd a).setWidth 2) sc) true

/-- BARW (R212): arrives unless it has, then waits for the phase. -/
def execBarw (g : Guard) (a : Reg) (sc : Scope) (s : State) : Out := guarded g s fun c =>
  s.block (wordOf (.barw g a sc)) (.barw ((c.rd a).setWidth 2) sc)

/-- WAIT (R213); one register for both results is an illegal instruction. -/
def execWait (g : Guard) (d a t : Reg) (s : State) : Out := guarded g s fun c =>
  if d = t then s.illegal (wordOf (.wait g d a t))
  else if alignedTo (c.rd a) 8 then s.block (wordOf (.wait g d a t)) (.wait d t (c.rd a)) else s.misaligned (c.rd a)

/-- SIGNAL (R214). -/
def execSignal (g : Guard) (a b : Reg) (s : State) : Out := guarded g s fun c =>
  let x := c.rd a
  if alignedTo x 8 then s.postGlobal x (.signal x ((c.rd b).setWidth 63)) true else s.misaligned x

/-- DEC (R227): an address that is not global, or no multiple of 16, traps. -/
def execDec (g : Guard) (a : Reg) (s : State) : Out := guarded g s fun c =>
  let x := c.rd a
  if bits x.toNat 63 60 == 0 && alignedTo x 16 then s.postGlobal x (.dec x) true else s.misaligned x

end Sys2Proof.Machine
end

