-- ==== Sys2Proof/Machine/Tasks.lean ====
section
/-! DEFINITION. Deques and launches of a control core (R225, R226). -/

namespace Sys2Proof.Machine

/-- DPUSH (R225). -/
def execDpush (g : Guard) (d a : Reg) (s : State) : Out := guarded g s fun c =>
  s.block (wordOf (.dpush g d a)) (.dpush d (c.rd a))

/-- DPOP (R225); one register for both results is an illegal instruction. -/
def execDpop (g : Guard) (d t : Reg) (s : State) : Out := guarded g s fun _ =>
  if d = t then s.illegal (wordOf (.dpop g d t)) else s.block (wordOf (.dpop g d t)) (.dpop d t)

/-- DSTEAL (R225); one register for both results is an illegal instruction. -/
def execDsteal (g : Guard) (d a t : Reg) (s : State) : Out := guarded g s fun c =>
  if d = t then s.illegal (wordOf (.dsteal g d a t)) else s.block (wordOf (.dsteal g d a t)) (.dsteal d t (c.rd a))

/-- LAUNCH (R94, R226): only in a group whose launch block had the admission bit. -/
def execLaunch (g : Guard) (d a : Reg) (s : State) : Out := guarded g s fun c =>
  if ((s.groupOf s.cur).map (·.admits)).getD false then s.block (wordOf (.launch g d a)) (.launch d (c.rd a))
  else s.illegal (wordOf (.launch g d a))

end Sys2Proof.Machine
end

