-- ==== Sys2Proof/Machine/Dispatch.lean ====
section
/-! DEFINITION. One arm for each constructor of Instr: a direct call of its meaning. -/

namespace Sys2Proof.Machine

/-- What an instruction, command or event does. -/
def exec (i : Instr) (s : State) : Host.Outcome State Fault Refusal :=
  match i with
  | .add g d a b => Sys2Proof.Machine.execAdd g d a b s
  | .sub g d a b => Sys2Proof.Machine.execSub g d a b s
  | .addi g d a imm => Sys2Proof.Machine.execAddi g d a imm s
  | .mul g d a b => Sys2Proof.Machine.execMul g d a b s
  | .mulh g d a b => Sys2Proof.Machine.execMulh g d a b s
  | .mulhu g d a b => Sys2Proof.Machine.execMulhu g d a b s
  | .div g d a b => Sys2Proof.Machine.execDiv g d a b s
  | .divu g d a b => Sys2Proof.Machine.execDivu g d a b s
  | .rem g d a b => Sys2Proof.Machine.execRem g d a b s
  | .remu g d a b => Sys2Proof.Machine.execRemu g d a b s
  | .and g d a b => Sys2Proof.Machine.execAnd g d a b s
  | .or g d a b => Sys2Proof.Machine.execOr g d a b s
  | .xor g d a b => Sys2Proof.Machine.execXor g d a b s
  | .andi g d a imm => Sys2Proof.Machine.execAndi g d a imm s
  | .ori g d a imm => Sys2Proof.Machine.execOri g d a imm s
  | .xori g d a imm => Sys2Proof.Machine.execXori g d a imm s
  | .shl g d a b => Sys2Proof.Machine.execShl g d a b s
  | .shr g d a b => Sys2Proof.Machine.execShr g d a b s
  | .sra g d a b => Sys2Proof.Machine.execSra g d a b s
  | .shli g d a n => Sys2Proof.Machine.execShli g d a n s
  | .shri g d a n => Sys2Proof.Machine.execShri g d a n s
  | .srai g d a n => Sys2Proof.Machine.execSrai g d a n s
  | .min g d a b => Sys2Proof.Machine.execMin g d a b s
  | .max g d a b => Sys2Proof.Machine.execMax g d a b s
  | .minu g d a b => Sys2Proof.Machine.execMinu g d a b s
  | .maxu g d a b => Sys2Proof.Machine.execMaxu g d a b s
  | .clz g d a => Sys2Proof.Machine.execClz g d a s
  | .popc g d a => Sys2Proof.Machine.execPopc g d a s
  | .bfx g d a b => Sys2Proof.Machine.execBfx g d a b s
  | .bfi g d a b => Sys2Proof.Machine.execBfi g d a b s
  | .sext g d a w => Sys2Proof.Machine.execSext g d a w s
  | .zext g d a w => Sys2Proof.Machine.execZext g d a w s
  | .li g d imm => Sys2Proof.Machine.execLi g d imm s
  | .lih g d imm => Sys2Proof.Machine.execLih g d imm s
  | .cmp g c p a b => Sys2Proof.Machine.execCmp g c p a b s
  | .cmpi g c p a imm => Sys2Proof.Machine.execCmpi g c p a imm s
  | .pand g p a b na nb => Sys2Proof.Machine.execPand g p a b na nb s
  | .por g p a b na nb => Sys2Proof.Machine.execPor g p a b na nb s
  | .pxor g p a b na nb => Sys2Proof.Machine.execPxor g p a b na nb s
  | .pnot g p a => Sys2Proof.Machine.execPnot g p a s
  | .sel g d a b ps => Sys2Proof.Machine.execSel g d a b ps s
  | .pmovGet g d => Sys2Proof.Machine.execPmovGet g d s
  | .pmovSet g a => Sys2Proof.Machine.execPmovSet g a s
  | .lea g d imm => Sys2Proof.Machine.execLea g d imm s
  | .waddr g d a w => Sys2Proof.Machine.execWaddr g d a w s
  | .xaddr g d a b => Sys2Proof.Machine.execXaddr g d a b s
  | .gaddr g d a b => Sys2Proof.Machine.execGaddr g d a b s
  | .br g off => Sys2Proof.Machine.execBr g off s
  | .brl g a off => Sys2Proof.Machine.execBrl g a off s
  | .jmp g d a => Sys2Proof.Machine.execJmp g d a s
  | .call g off => Sys2Proof.Machine.execCall g off s
  | .ret g => Sys2Proof.Machine.execRet g s
  | .loop g a off => Sys2Proof.Machine.execLoop g a off s
  | .waite g n amt => Sys2Proof.Machine.execWaite g n amt s
  | .nop g => Sys2Proof.Machine.execNop g s
  | .exit g => Sys2Proof.Machine.execExit g s
  | .exitSuccessors g a n => Sys2Proof.Machine.execExitSuccessors g a n s
  | .trap g code => Sys2Proof.Machine.execTrap g code s
  | .ldg g d a imm => Sys2Proof.Machine.execLdg g d a imm s
  | .stg g d a imm => Sys2Proof.Machine.execStg g d a imm s
  | .ldgx g d a b scaled sign z => Sys2Proof.Machine.execLdgx g d a b scaled sign z s
  | .stgx g d a b scaled z => Sys2Proof.Machine.execStgx g d a b scaled z s
  | .lds g d a imm => Sys2Proof.Machine.execLds g d a imm s
  | .sts g d a imm => Sys2Proof.Machine.execSts g d a imm s
  | .stx g d a => Sys2Proof.Machine.execStx g d a s
  | .pref g a imm => Sys2Proof.Machine.execPref g a imm s
  | .amo g d a op o sc => Sys2Proof.Machine.execAmo g d a op o sc s
  | .amof g d a op o sc => Sys2Proof.Machine.execAmof g d a op o sc s
  | .cas g d a b o sc => Sys2Proof.Machine.execCas g d a b o sc s
  | .acq g d a sc => Sys2Proof.Machine.execAcq g d a sc s
  | .rel g d a sc => Sys2Proof.Machine.execRel g d a sc s
  | .bind g d a b => Sys2Proof.Machine.execBind g d a b s
  | .unbind g d a b => Sys2Proof.Machine.execUnbind g d a b s
  | .fence g o sc => Sys2Proof.Machine.execFence g o sc s
  | .bar g a sc => Sys2Proof.Machine.execBar g a sc s
  | .barw g a sc => Sys2Proof.Machine.execBarw g a sc s
  | .wait g d a t => Sys2Proof.Machine.execWait g d a t s
  | .signal g a b => Sys2Proof.Machine.execSignal g a b s
  | .give g d a b w => Sys2Proof.Machine.execGive g d a b w s
  | .openw g d rw tagged w => Sys2Proof.Machine.execOpen g d rw tagged w s
  | .close g d w => Sys2Proof.Machine.execClose g d w s
  | .swapb g d a w => Sys2Proof.Machine.execSwapb g d a w s
  | .bstat g d w => Sys2Proof.Machine.execBstat g d w s
  | .bzero g w => Sys2Proof.Machine.execBzero g w s
  | .tlook g d a w => Sys2Proof.Machine.execTlook g d a w s
  | .tset g a b w => Sys2Proof.Machine.execTset g a b w s
  | .tinv g a w => Sys2Proof.Machine.execTinv g a w s
  | .tclr g w => Sys2Proof.Machine.execTclr g w s
  | .dpush g d a => Sys2Proof.Machine.execDpush g d a s
  | .dpop g d t => Sys2Proof.Machine.execDpop g d t s
  | .dsteal g d a t => Sys2Proof.Machine.execDsteal g d a t s
  | .launch g d a => Sys2Proof.Machine.execLaunch g d a s
  | .dec g a => Sys2Proof.Machine.execDec g a s
  | .issue g cmd a b wt => Sys2Proof.Machine.execIssue g cmd a b wt s
  | .issuex g cmd a b wt => Sys2Proof.Machine.execIssuex g cmd a b wt s
  | .cdrain g a => Sys2Proof.Machine.execCdrain g a s
  | .glv g d => Sys2Proof.Machine.execGlv g d s
  | .glvCur g d => Sys2Proof.Machine.execGlvCur g d s
  | .glvReg g d => Sys2Proof.Machine.execGlvReg g d s
  | .rate g d a => Sys2Proof.Machine.execRate g d a s
  | .rateWin g d => Sys2Proof.Machine.execRateWin g d s
  | .mfs g d n => Sys2Proof.Machine.execMfs g d n s
  | .mts g d n => Sys2Proof.Machine.execMts g d n s
  | .eret g => Sys2Proof.Machine.execEret g s
  | .tlbiPage g a => Sys2Proof.Machine.execTlbiPage g a s
  | .tlbiCtx g => Sys2Proof.Machine.execTlbiCtx g s
  | .illegalInstructionTrap addr => Sys2Proof.Machine.execIllegalInstructionTrap addr s
  | .accessResponse core => Sys2Proof.Machine.execAccessResponse core s
  | .nopc c => Sys2Proof.Machine.execNopc c s
  | .mld c => Sys2Proof.Machine.execMld c s
  | .mst c => Sys2Proof.Machine.execMst c s
  | .sld c => Sys2Proof.Machine.execSld c s
  | .sst c => Sys2Proof.Machine.execSst c s
  | .tld c => Sys2Proof.Machine.execTld c s
  | .tst c => Sys2Proof.Machine.execTst c s
  | .cpy c => Sys2Proof.Machine.execCpy c s
  | .gather c => Sys2Proof.Machine.execGather c s
  | .scatter c => Sys2Proof.Machine.execScatter c s
  | .mcast c => Sys2Proof.Machine.execMcast c s
  | .lstat c => Sys2Proof.Machine.execLstat c s
  | .lswap c => Sys2Proof.Machine.execLswap c s
  | .arm c => Sys2Proof.Machine.execArm c s
  | .disarm c => Sys2Proof.Machine.execDisarm c s
  | .kgraph c => Sys2Proof.Machine.execKgraph c s
  | .barrier c => Sys2Proof.Machine.execBarrier c s
  | .tapset c => Sys2Proof.Machine.execTapset c s
  | .evcfg c => Sys2Proof.Machine.execEvcfg c s
  | .evpulse c => Sys2Proof.Machine.execEvpulse c s
  | .step c => Sys2Proof.Machine.execStep c s
  | .rcflush c => Sys2Proof.Machine.execRcflush c s
  | .wagwin c => Sys2Proof.Machine.execWagwin c s
  | .laypin c => Sys2Proof.Machine.execLaypin c s
  | .layreqBottleneck c => Sys2Proof.Machine.execLayreqBottleneck c s
  | .layreqSuspend c => Sys2Proof.Machine.execLayreqSuspend c s
  | .layreqResume c => Sys2Proof.Machine.execLayreqResume c s
  | .segmark c => Sys2Proof.Machine.execSegmark c s
  | .btoken c => Sys2Proof.Machine.execBtoken c s
  | .amostrm c => Sys2Proof.Machine.execAmostrm c s
  | .redwinOpen c => Sys2Proof.Machine.execRedwinOpen c s
  | .redwinClose c => Sys2Proof.Machine.execRedwinClose c s
  | .fill c => Sys2Proof.Machine.execFill c s
  | .cfgld c => Sys2Proof.Machine.execCfgld c s
  | .pflush c => Sys2Proof.Machine.execPflush c s
  | .kgraphWalkEntry core => Sys2Proof.Machine.execKgraphWalkEntry core s
  | .planeSwap r => Sys2Proof.Machine.execPlaneSwap r s
  | .matFire r => Sys2Proof.Machine.execMatFire r s
  | .accFire r => Sys2Proof.Machine.execAccFire r s
  | .accRelease r => Sys2Proof.Machine.execAccRelease r s
  | .vecFire r => Sys2Proof.Machine.execVecFire r s
  | .redFire r => Sys2Proof.Machine.execRedFire r s
  | .rsumFire r => Sys2Proof.Machine.execRsumFire r s
  | .fncFire r => Sys2Proof.Machine.execFncFire r s
  | .cvtFire r => Sys2Proof.Machine.execCvtFire r s
  | .bfyFire r => Sys2Proof.Machine.execBfyFire r s
  | .cntRunStart r => Sys2Proof.Machine.execCntRunStart r s
  | .cntFire r => Sys2Proof.Machine.execCntFire r s
  | .cntCreditReturn r => Sys2Proof.Machine.execCntCreditReturn r s
  | .agnTileWalk r => Sys2Proof.Machine.execAgnTileWalk r s
  | .agnAccess r => Sys2Proof.Machine.execAgnAccess r s
  | .agnAcknowledge r => Sys2Proof.Machine.execAgnAcknowledge r s
  | .iloadFire r => Sys2Proof.Machine.execIloadFire r s
  | .rteSplit r => Sys2Proof.Machine.execRteSplit r s
  | .rteMerge r => Sys2Proof.Machine.execRteMerge r s
  | .rteSteer r => Sys2Proof.Machine.execRteSteer r s
  | .gatSegment r => Sys2Proof.Machine.execGatSegment r s
  | .gatReturn r => Sys2Proof.Machine.execGatReturn r s
  | .recallEntryWrite k => Sys2Proof.Machine.execRecallEntryWrite k s
  | .tapFire r => Sys2Proof.Machine.execTapFire r s
  | .retireRecordAppend k => Sys2Proof.Machine.execRetireRecordAppend k s
  | .barrierTokenPass r => Sys2Proof.Machine.execBarrierTokenPass r s
  | .settingLoad r => Sys2Proof.Machine.execSettingLoad r s
  | .countPointFinish group sec => Sys2Proof.Machine.execCountPointFinish group sec s
  | .eventPulse k => Sys2Proof.Machine.execEventPulse k s
  | .eventTermAct core slot => Sys2Proof.Machine.execEventTermAct core slot s
  | .waitePass core => Sys2Proof.Machine.execWaitePass core s
  | .barrierArrival k => Sys2Proof.Machine.execBarrierArrival k s
  | .barwResume core => Sys2Proof.Machine.execBarwResume core s
  | .exchangeSwap core w => Sys2Proof.Machine.execExchangeSwap core w s
  | .giveDrainDone core => Sys2Proof.Machine.execGiveDrainDone core s
  | .signalApply k => Sys2Proof.Machine.execSignalApply k s
  | .waiterWake core => Sys2Proof.Machine.execWaiterWake core s
  | .counterSubmission k => Sys2Proof.Machine.execCounterSubmission k s
  | .counterDecrement k => Sys2Proof.Machine.execCounterDecrement k s
  | .copyDescriptor engine => Sys2Proof.Machine.execCopyDescriptor engine s
  | .copyDescriptorDone engine => Sys2Proof.Machine.execCopyDescriptorDone engine s
  | .memoryAccess k => Sys2Proof.Machine.execMemoryAccess k s
  | .spillRetry k => Sys2Proof.Machine.execSpillRetry k s
  | .tlbEntryDrop k => Sys2Proof.Machine.execTlbEntryDrop k s
  | .faultRecordAppend k => Sys2Proof.Machine.execFaultRecordAppend k s
  | .hostFaultRecordAppend k => Sys2Proof.Machine.execHostFaultRecordAppend k s
  | .queueMonitorCheck tenant queue => Sys2Proof.Machine.execQueueMonitorCheck tenant queue s
  | .queueMonitorRetry tenant queue => Sys2Proof.Machine.execQueueMonitorRetry tenant queue s
  | .launchPacket p => Sys2Proof.Machine.execLaunchPacket p s
  | .groupLaunch die first => Sys2Proof.Machine.execGroupLaunch die first s
  | .placeGraph group places => Sys2Proof.Machine.execPlaceGraph group places s
  | .tenantAged die level tenant => Sys2Proof.Machine.execTenantAged die level tenant s
  | .windowEnd group => Sys2Proof.Machine.execWindowEnd group s
  | .spliceArm group => Sys2Proof.Machine.execSpliceArm group s
  | .spliceCut group => Sys2Proof.Machine.execSpliceCut group s
  | .keyStateMove group => Sys2Proof.Machine.execKeyStateMove group s
  | .consumerSwitch group link => Sys2Proof.Machine.execConsumerSwitch group link s
  | .spliceCancel group => Sys2Proof.Machine.execSpliceCancel group s
  | .networkPacketHop k => Sys2Proof.Machine.execNetworkPacketHop k s
  | .packetAged k => Sys2Proof.Machine.execPacketAged k s
  | .clockGovernorStep region => Sys2Proof.Machine.execClockGovernorStep region s
  | .reductionEntryForward k => Sys2Proof.Machine.execReductionEntryForward k s
  | .parkedToken k => Sys2Proof.Machine.execParkedToken k s
  | .preemptRequest group freeze => Sys2Proof.Machine.execPreemptRequest group freeze s
  | .freezeLimitExpire group => Sys2Proof.Machine.execFreezeLimitExpire group s
  | .freeze group => Sys2Proof.Machine.execFreeze group s
  | .capture group => Sys2Proof.Machine.execCapture group s
  | .resumeGroup group die first => Sys2Proof.Machine.execResumeGroup group die first s
  | .groupEnd group => Sys2Proof.Machine.execGroupEnd group s
  | .contextPurge ctx completion => Sys2Proof.Machine.execContextPurge ctx completion s
  | .tenantTeardown tenant => Sys2Proof.Machine.execTenantTeardown tenant s
  | .partitionReset tenant => Sys2Proof.Machine.execPartitionReset tenant s
  | .tenantCreate c => Sys2Proof.Machine.execTenantCreate c s
  | .contextCreate c => Sys2Proof.Machine.execContextCreate c s
  | .hostBarRead tenant off len => Sys2Proof.Machine.execHostBarRead tenant off len s
  | .hostBarWrite tenant off bytes => Sys2Proof.Machine.execHostBarWrite tenant off bytes s
  | .s2inv bytes => Sys2Proof.Machine.execS2inv bytes s
  | .stage2InvComplete k => Sys2Proof.Machine.execStage2InvComplete k s
  | .repaddr addr => Sys2Proof.Machine.execRepaddr addr s
  | .registerWrite off bytes => Sys2Proof.Machine.execRegisterWrite off bytes s
  | .deviceStart c => Sys2Proof.Machine.execDeviceStart c s
  | .linkRetryFail k => Sys2Proof.Machine.execLinkRetryFail k s
  | .powerCap on lo hi => Sys2Proof.Machine.execPowerCap on lo hi s
  | .thermalTrip die => Sys2Proof.Machine.execThermalTrip die s
  | .postedRequestAcknowledged k => Sys2Proof.Machine.execPostedRequestAcknowledged k s
  | .bankAccess k => Sys2Proof.Machine.execBankAccess k s
  | .tokenBucketRefill die tenant => Sys2Proof.Machine.execTokenBucketRefill die tenant s
  | .linkRetrained link => Sys2Proof.Machine.execLinkRetrained link s
  | .translationDescriptorChange ctx die d => Sys2Proof.Machine.execTranslationDescriptorChange ctx die d s
  | .intakeQueueCreate c => Sys2Proof.Machine.execIntakeQueueCreate c s

end Sys2Proof.Machine
end

