-- ==== Sys2Proof/Machine/Sched.lean ====
section
/-! DEFINITION. Whose turn it is: what is pending in a cycle, in the order of one pass over the package; fetching a control core's word; the head
command of a port; the clock (R4, R100, R117, R142, R161, R233, R405). The order of turns is the model's (log 1): a state's agenda may
name any turns in any order. -/

namespace Sys2Proof.Machine

/-! ### Fetching (R142, R161) -/

/-- The word that a control core fetches next, if its pc lies in the code part of its graph. -/
def State.fetch (s : State) (n : Nat) : Option Word32 :=
  (s.groupOf n).bind fun x => (s.objOf x).code[(s.coreAt n).pc.toNat / 4]?

/-- Whether a control core takes turns: its group runs, nothing asks it to stop, and nothing holds it (R163, R406, R419, R420). -/
def State.mayRun (s : State) (n : Nat) : Bool :=
  (s.coreAt n).ready && ((s.groupOf n).map fun x => s.cmdLive x && x.preempt.isNone).getD false

/-- A turn of a control core: fetch, decode, execute (R141, R142, R161). -/
def State.coreTurn (s : State) (n : Nat) : Out :=
  let s1 := { s with cur := n }
  if !s1.mayRun n then .next s1
  else if s1.core.pc.toNat % 4 ≠ 0 then .next (s1.misaligned s1.core.pc)
  else
    match s1.fetch n with
    | none => exec (.illegalInstructionTrap 0) s1
    | some w =>
      match decode (leBytes 4 w.toNat) with
      | .ok (i, _) => exec i s1
      | .error _ => exec (.illegalInstructionTrap (w.setWidth 64)) s1

/-- A turn of a port: completions are reported, then the head command takes a step; an entry that holds no command, or a word that fails
decoding, faults at the head (R149, R229, R233). -/
def State.portTurn (s : State) (n p : Nat) : Out :=
  let b := BitVec.ofNat 4 p
  let s1 := { s with cur := n }.settlePort n b
  match (s1.portAt n b).queue, s1.groupOf n with
  | q :: _, some x =>
    if !s1.cmdLive x || !s1.cmdStarts x && !q.prog.started then .next s1
    else if q.empty then .next (s1.cmdFault n b)
    else
      match decodeCmd q.word with
      | .ok i => exec i s1
      | .error _ => .next (s1.cmdFault n b)
  | _, _ => .next s1

/-! ### The clock (R4, R117, R405) -/

/-- The inputs that must hold a token for a firing, beside one: an RTE merge and a GAT take tokens of any input (R323, R326). -/
def State.othersNeeded (s : State) (x : Group) (c : Inst) (p : Nat) : List Nat :=
  if (kindOf c.hdr == kRTE && (c.role == .merge || modeOf c.hdr == 3)) || kindOf c.hdr == kGAT then []
  else (inPorts (s.objOf x) c.hdr).1.filter (· != p)

/-- Whether the conditions of an instance for firing hold, one input aside, for the starve counter (R40, R117). -/
def State.starved (s : State) (x : Group) (k p : Nat) : Bool :=
  match x.insts[k]? with
  | none => false
  | some c => s.mayFire x k c && ((s.othersNeeded x c p).all fun q => (x.headAny s.cycle k q).isSome)
      && (x.outs k).all (x.room s.cycle k)

/-- Whether a firing that an instance could make now but for its outputs would write a port (R40, R117). -/
def State.firesTo (s : State) (x : Group) (k : Nat) (c : Inst) (p : Nat) : Bool :=
  let has (q : Nat) : Bool := (x.headAny s.cycle k q).isSome
  let need := (inPorts (s.objOf x) c.hdr).1.all has
  match c.st with
  | .cnt n => n.running && creditOk c.hdr n && (modeOf c.hdr != 1 || has 0)
  | .agn a =>
    if modeOf c.hdr = 1 then p == 0 && !a.acks.isEmpty
    else ((nextBuf (x.allCommute k) a.bufs).map fun b => p == 0 || b.block).getD false
  | .rte q =>
    if c.role == .merge || modeOf c.hdr == 3 then p == 0 && (!q.held.isEmpty || (x.ins k).any has)
    else need && (match x.headAny s.cycle k 0 with
      | some t => if t.tag.barrier then true else c.role != .split && (x.rtePorts s.cycle k c t).contains p
      | none => false)
  | .gat g => if p == 0 then !g.fwd.isEmpty else (gatFronts c.hdr g.outs []).any fun o => match o with
      | .replay _ _ _ => true
      | .miss th => ((x.head s.cycle k 1).map fun t => t.tag.thread == th).getD false
  | .acc sets => sets.any fun e => e.rel.isSome
  | _ => need

/-- Whether an instance holds a token for an output (R117). -/
def State.holdsToken (s : State) (x : Group) (k p : Nat) : Bool :=
  match x.insts[k]? with
  | none => false
  | some c => (c.outq.any fun e => e.toks.any fun t => t.1 == p) || (s.mayFire x k c && s.firesTo x k c p)

/-- The waggle counters of a group's written links for one cycle (R117). -/
def State.waggle (s : State) (x : Group) : Group :=
  { x with links := x.links.map fun l =>
      let stalls := l.written.isSome && !l.room s.cycle && s.holdsToken x l.src l.sp
      let starves := l.written.isSome && (l.toks.all fun t => s.cycle < t.ready) && s.starved x l.dst l.dp
      { l with stall := if stalls then l.stall + 1 else l.stall, starve := if starves then l.starve + 1 else l.starve } }

/-- Packets in the input buffers of each router, by region (R405). -/
def State.occupancy (s : State) : Tbl Region :=
  s.flights.foldl (fun (t : Tbl Region) f =>
    if f.waiting && f.entered then
      let k := f.die * 48 + f.router
      let x := findD t k {}
      put t k { x with occ := x.occ + 1 }
    else t) s.regions

/-- The writes of layout engines and recall store controllers that had to wait for this cycle are made (R98). -/
def State.latesDone (s : State) : State :=
  let s1 := s.lates.foldl (fun s w => s.enginePut w.die w.ctx w.addr w.bytes) { s with lates := [] }
  (s1.heldAdds.filter fun h => !h.held).foldl State.rcPut { s1 with heldAdds := s1.heldAdds.filter (·.held) }

/-- The next cycle. -/
def State.tick (s : State) : State :=
  State.latesDone { s with
    groups := s.groups.map fun (g : Nat × Group) => if g.2.status == .running then (g.1, s.waggle g.2) else g
    regions := s.occupancy
    cycle := s.cycle + 1 }

/-! ### What is pending -/

/-- The events of a request on its way: its acknowledgement, its effect, or its next hop. -/
def Flight.pending (f : Flight) (now : Nat) : List Turn :=
  if f.applied then [.event (.postedRequestAcknowledged f.id)]
  else if f.held then []
  else if f.nextHop.isSome then (if !f.aged && now - f.since ≥ 512 then [.event (.packetAged f.id)] else []) ++ [.event (.networkPacketHop f.id)]
  else match f.op with
    | .store _ _ | .amo _ _ _ _ | .fetch _ _ | .zero _ => [.event (.memoryAccess f.id)]
    | .wstore _ _ _ | .bzero _ _ | .xstore _ _ => [.event (.bankAccess f.id)]
    | .dec _ => [.event (.counterDecrement f.id)]
    | .signal _ _ => [.event (.signalApply f.id)]
    | .bar _ _ | .tap _ _ _ => [.event (.barrierArrival f.id)]

/-- What a control core waits for. -/
def CoreSt.pending (c : CoreSt) (n : Nat) : List Turn :=
  (match c.wait with
    | .access (.give _ _ _ _ _) false _ => [.event (.giveDrainDone n)]
    | .access _ false _ => [.event (.accessResponse n)]
    | .barrier _ _ true => [.event (.barwResume n)]
    | .woken _ _ _ => [.event (.waiterWake n)]
    | _ => [])
  ++ (if c.walk.isSome then [.event (.kgraphWalkEntry n)] else [])
  ++ c.swaps.map fun w => .event (.exchangeSwap n w.1)

/-- What the event counters of a core do at the end of a cycle: additions, and then the passes of WAITE (R167, R400). A term that is not due yet
has its turn where pulses reach the core in this cycle. -/
def CoreSt.counting (c : CoreSt) (n : Nat) (pulsed : Bool) : List Turn :=
  ((c.terms.toList.zipIdx.filter fun t => t.1.due || (pulsed && tAct t.1.word.toNat != 0)).map fun t => .event (.eventTermAct n t.2))
  ++ (match c.wait with
    | .event _ _ => [.event (.waitePass n)]
    | _ => [])

/-- The ports of a core that have commands, each with its rank (R98). -/
def CoreSt.portTurns (c : CoreSt) (n : Nat) : List (Nat × Turn) :=
  (c.ports.toList.zipIdx.filter fun p => !p.1.queue.isEmpty || !p.1.left.isEmpty).map fun p => (rankOf n (portSub p.2), .port n p.2)

/-- The events of an instance's kind. -/
def Inst.pending (i : Inst) (r : CellRef) : List Turn :=
  if i.gone then []
  else
    (if i.loaded then [] else [.event (.settingLoad r)])
    ++ (match kindOf i.hdr with
      | 0 => [.event (.planeSwap r), .event (.matFire r)]
      | 1 => [.event (.accRelease r), .event (.accFire r)]
      | 2 => [.event (.vecFire r)]
      | 3 => [if modeOf i.hdr = 0x20 then .event (.rsumFire r) else .event (.redFire r)]
      | 4 => [.event (.fncFire r)]
      | 5 => [.event (.cvtFire r)]
      | 6 => [.event (.bfyFire r)]
      | 7 => [.event (.cntCreditReturn r), .event (.cntRunStart r), .event (.cntFire r)]
      | 8 => [.event (.agnAcknowledge r), .event (.agnAccess r), .event (.iloadFire r), .event (.agnTileWalk r)]
      | 9 => [match modeOf i.hdr with
        | 3 => .event (.rteMerge r)
        | 4 => .event (.rteSteer r)
        | _ => .event (.rteSplit r)]
      | 10 => [.event (.gatReturn r), .event (.gatSegment r)]
      | _ => [.event (.tapFire r)])
    ++ [.event (.barrierTokenPass r)]

/-- The events of a group. -/
def State.groupTurns (s : State) (g : Nat) (x : Group) : List Turn :=
  match x.status with
  | .placing => [.event (.placeGraph g ((s.objOf x).somePlaces x.k))]
  | .running =>
    ((x.secs.zipIdx.filter fun e => e.1.fin != 0).map fun e => .event (.countPointFinish g e.2))
    ++ (match x.splice with
      | none => []
      | some p => (match p.phase with
          | .prepare => [.event (.spliceArm g)]
          | .armed => [.event (.spliceCut g)]
          | .move => [.event (.keyStateMove g)]
          | .switch => p.switch.map fun w => .event (.consumerSwitch g w.1)) ++ [.event (.spliceCancel g)])
    ++ (if x.preempt.isSome then [.event (.freezeLimitExpire g), .event (.freeze g), .event (.capture g)] else [])
    ++ (if s.coresDone x then [.event (.groupEnd g)] else [])
  | _ => []

/-- The events of the cells of a group, each with the rank of its cell (R98). -/
def Group.cellTurns (x : Group) (g : Nat) : List (Nat × Turn) :=
  if x.status == .running then
    x.insts.zipIdx.flatMap fun i => (i.1.pending { group := g, inst := i.2 }).map fun t => (Machine.rankOf (x.coreOf i.1) (cellSub i.1.cell), t)
  else []

/-- The turns of agents that reach places of the package, in the order of their ranks (R98); writes by exchange go behind those at the banks of
their own quads (R338). -/
def State.agentTurns (s : State) : List Turn :=
  let far (f : Flight) : Bool := match f.op with
    | .xstore _ _ => true
    | _ => false
  let flights (l : List Flight) : List (Nat × Turn) := l.flatMap fun f => (f.pending s.cycle).map fun t => (s.rankAt f, t)
  let turns : List (Nat × Turn) := flights (s.flights.filter fun f => !far f)
    ++ (s.cores.flatMap fun c => (c.2.pending c.1 ++ if s.mayRun c.1 then [.core c.1] else []).map fun t => (rankOf c.1 0, t))
    ++ (s.groups.flatMap fun g => g.2.cellTurns g.1)
    ++ (s.cores.flatMap fun c => c.2.portTurns c.1)
    ++ (s.engines.flatMap fun e => if e.2.isEmpty then [] else [(rankOf e.1 0, .event (.copyDescriptor e.1)), (rankOf e.1 0, .event (.copyDescriptorDone e.1))])
  (sortBy (·.1) turns ++ sortBy (·.1) (flights (s.flights.filter far))).map (·.2)

/-- The events of a launch unit: heads that have aged, and the group that it serves next, on its first free placement. -/
def State.unitTurns (s : State) (die : Nat) (u : LaunchUnit) : List Turn :=
  ([3, 2, 1, 0].flatMap fun l => (u.heads l).filterMap fun t =>
      if s.isAged t.2 then some (.event (.tenantAged die l t.1)) else none)
  ++ (match s.pickReady die with
    | none => []
    | some (_, _, r) => match r.group, s.spots die r with
      | none, (_, first) :: _ => [.event (.groupLaunch die first)]
      | some g, (d, first) :: _ => [.event (.resumeGroup g d first)]
      | _, [] => [])

/-- Numbers below n, highest first, so that work taken from a list leaves the places of the rest. -/
def down (n : Nat) : List Nat := (List.range n).reverse

/-- Everything pending, in the order of one pass, and the clock last. -/
def State.roster (s : State) : List Turn :=
  ((s.groups.filter fun g => s.windowOver g.2).map fun g => .event (.windowEnd g.1))
  ++ ((down s.pulses.length).map fun k => .event (.eventPulse k))
  ++ s.agentTurns
  ++ (s.cores.flatMap fun c => c.2.counting c.1 (s.pulses.any fun p => p.core == c.1))
  ++ (if s.recs.isEmpty then [] else [.event (.faultRecordAppend 0)])
  ++ (if s.hrecs.isEmpty then [] else [.event (.hostFaultRecordAppend 0)])
  ++ (s.groups.flatMap fun g => s.groupTurns g.1 g.2)
  ++ ((down s.spill.length).map fun k => .event (.spillRetry k))
  ++ ((down s.retires.length).map fun k => .event (.retireRecordAppend k))
  ++ (s.rcWrites.map fun _ => .event (.recallEntryWrite 0))
  ++ (if s.strays.isEmpty then [] else [.event (.parkedToken 0)])
  ++ ((down (s.merges.map fun m => m.2.length).sum).map fun k => .event (.reductionEntryForward k))
  ++ (s.retrain.map fun l => .event (.linkRetrained l))
  ++ (((down s.subs.length).filter fun k => (s.subs[k]?.map fun u => !u.held).getD false).map fun k => .event (.counterSubmission k))
  ++ (s.tenants.flatMap fun t => t.2.queues.flatMap fun q =>
      (if q.2.retry.isSome then [.event (.queueMonitorRetry t.1 q.1)] else if q.2.active then [.event (.queueMonitorCheck t.1 q.1)] else []))
  ++ ((s.contexts.filter fun c => c.2.purging).map fun c => .event (.contextPurge c.1 0))
  ++ ((s.host.packets.filter fun p => !p.2).map fun p => .event (.launchPacket p.1))
  ++ (if s.host.s2.isEmpty then [] else [.event (.stage2InvComplete 0)])
  ++ (if s.host.asked.isSome then [.report] else [])
  ++ (s.units.flatMap fun u => s.unitTurns u.1 u.2)
  ++ ((s.buckets.filter fun b => b.2.level < ((s.tenant? (b.1 % 64)).map fun t => (t.cfg.bucketDepth : Int)).getD 0).map fun b =>
      .event (.tokenBucketRefill (b.1 / 64) (b.1 % 64)))
  ++ (((List.range 768).filter fun r => (s.cycle - (s.region r).since) * (s.region r).clock ≥ 1024 * 17).map fun r => .event (.clockGovernorStep r))
  ++ [.tick]

/-! ### Turns -/

/-- An event as a turn: instructions and commands take theirs at their core and port alone, and a trap comes from a fetch alone. -/
def State.eventTurn (s : State) (i : Instr) : Out :=
  match i with
  | .illegalInstructionTrap _ => .next s
  | i => if (encodeWord i).isNone && (encodeCmd i).isNone then exec i s else .next s

/-- What a turn does. -/
def State.turn (s : State) : Turn → Out
  | .core n => s.coreTurn n
  | .port n p => s.portTurn n p
  | .event i => s.eventTurn i
  | .report => .next s.reportTurn
  | .tick => .next s.tick

/-- The turns to come: those of the agenda, or, where it is empty, of a new pass. -/
def State.turns (s : State) : List Turn := match s.agenda with
  | [] => s.roster
  | l => l

/-- The next turn; a package that is off has none (R450). -/
def State.advance (s : State) : Out :=
  if s.off then .fault .poweredOff
  else
    match s.turns with
    | [] => .next s
    | t :: rest => { s with agenda := rest }.turn t

/-! ### An instruction placed where a step fetches it -/

/-- The state with a group that runs on the core whose turn it was, in a context of its own if it has none. -/
def State.withGroup (s : State) : State × Nat × Group :=
  let n := s.cur
  let fresh : Group := { ctx := 0, tenant := 0, graph := 0, key := 0, die := dieOf n, first := coreIn n }
  let (g, x) := match (s.coreAt n).group.bind fun g => (s.group? g).map fun x => (g, x) with
    | some p => p
    | none => (0, fresh)
  let x1 := { x with status := .running, preempt := none }
  let c := (s.context? x.ctx).getD { cfg := { ctx := x.ctx, tenant := x.tenant, descs := [], region := 0, saveArea := 0, saveLen := 0 } }
  let o := (find c.graphs x.key).getD { obj := {} }
  let c1 := { c with purging := false, graphs := put c.graphs x.key o }
  let s1 := { s with off := false, contexts := put s.contexts x.ctx c1 }.setGroup g x1
  (s1.modCore n fun c => { c with status := .running, wait := .none, group := some g }, g, x1)

/-- The code with a word at an index. -/
def codeWith : List Word32 → Nat → Word32 → List Word32
  | [], 0, w => [w]
  | _ :: ws, 0, w => w :: ws
  | [], k + 1, w => 0 :: codeWith [] k w
  | x :: ws, k + 1, w => x :: codeWith ws k w

/-- A scalar word at the pc of the core whose turn it was, which is the next to run. -/
def State.placeWord (s : State) (w : Word32) : State :=
  let (s1, _, x) := s.withGroup
  let pc := s1.core.pc
  let ok := pc.toNat % 4 = 0 ∧ pc.toNat < 2 ^ 16
  let k := if ok then pc.toNat / 4 else 0
  let s2 := if ok then s1 else s1.setCore { s1.core with pc := 0 }
  { s2.modGraphSt x.ctx x.key fun y => { y with obj := { y.obj with code := codeWith y.obj.code k w } } with agenda := [.core s.cur] }

/-- A command at the head of the port that it names, at the core whose turn it was. -/
def State.placeCmd (s : State) (w : CmdWord) : State :=
  let (s1, _, _) := s.withGroup
  let p := w.extractLsb' 116 4
  let q : QCmd := { word := w, spd := s1.spdOf (s1.ctxOf s.cur), id := s1.core.issued, num := s1.nextId }
  let s2 := s1.modCore s.cur fun c => { c.setPort p { (c.port p) with queue := [q] } with issued := c.issued + 1 }
  { s2 with agenda := [.port s.cur p.toNat] }

end Sys2Proof.Machine
end

