-- ==== Sys2Proof/Machine/Step.lean ====
section
/-! DEFINITION. One step of the machine: the next turn of its agenda. -/

namespace Sys2Proof.Machine

/-- One step. -/
def step (s : State) : Host.Outcome State Fault Refusal := s.advance

/-- The state with an instruction of nbits bits where its next step fetches: a scalar word at the pc of the core whose turn it was, a command of 128
bits at the head of its port. -/
def State.withFetchWord (s : State) (nbits w : Nat) : State :=
  if nbits ≤ 32 then s.placeWord (BitVec.ofNat 32 (w % 2 ^ nbits)) else s.placeCmd (BitVec.ofNat 128 (w % 2 ^ nbits))

end Sys2Proof.Machine
end

