-- ==== Sys2Proof/Safety.lean ====
section
/-! DEFINITION. What statements about the machine speak of: the guard and the destinations of an instruction, which instructions only compute on their
core, the form of memory that every step keeps, and when two states hold the same bytes. -/

namespace Sys2Proof

/-- The guard of a scalar instruction; commands and events have none (R23, R137). -/
def Instr.guard? : Instr → Option Guard
  | .add g _ _ _ => some g
  | .sub g _ _ _ => some g
  | .addi g _ _ _ => some g
  | .mul g _ _ _ => some g
  | .mulh g _ _ _ => some g
  | .mulhu g _ _ _ => some g
  | .div g _ _ _ => some g
  | .divu g _ _ _ => some g
  | .rem g _ _ _ => some g
  | .remu g _ _ _ => some g
  | .and g _ _ _ => some g
  | .or g _ _ _ => some g
  | .xor g _ _ _ => some g
  | .andi g _ _ _ => some g
  | .ori g _ _ _ => some g
  | .xori g _ _ _ => some g
  | .shl g _ _ _ => some g
  | .shr g _ _ _ => some g
  | .sra g _ _ _ => some g
  | .shli g _ _ _ => some g
  | .shri g _ _ _ => some g
  | .srai g _ _ _ => some g
  | .min g _ _ _ => some g
  | .max g _ _ _ => some g
  | .minu g _ _ _ => some g
  | .maxu g _ _ _ => some g
  | .clz g _ _ => some g
  | .popc g _ _ => some g
  | .bfx g _ _ _ => some g
  | .bfi g _ _ _ => some g
  | .sext g _ _ _ => some g
  | .zext g _ _ _ => some g
  | .li g _ _ => some g
  | .lih g _ _ => some g
  | .cmp g _ _ _ _ => some g
  | .cmpi g _ _ _ _ => some g
  | .pand g _ _ _ _ _ => some g
  | .por g _ _ _ _ _ => some g
  | .pxor g _ _ _ _ _ => some g
  | .pnot g _ _ => some g
  | .sel g _ _ _ _ => some g
  | .pmovGet g _ => some g
  | .pmovSet g _ => some g
  | .lea g _ _ => some g
  | .waddr g _ _ _ => some g
  | .xaddr g _ _ _ => some g
  | .gaddr g _ _ _ => some g
  | .br g _ => some g
  | .brl g _ _ => some g
  | .jmp g _ _ => some g
  | .call g _ => some g
  | .ret g => some g
  | .loop g _ _ => some g
  | .waite g _ _ => some g
  | .nop g => some g
  | .exit g => some g
  | .exitSuccessors g _ _ => some g
  | .trap g _ => some g
  | .ldg g _ _ _ => some g
  | .stg g _ _ _ => some g
  | .ldgx g _ _ _ _ _ _ => some g
  | .stgx g _ _ _ _ _ => some g
  | .lds g _ _ _ => some g
  | .sts g _ _ _ => some g
  | .stx g _ _ => some g
  | .pref g _ _ => some g
  | .amo g _ _ _ _ _ => some g
  | .amof g _ _ _ _ _ => some g
  | .cas g _ _ _ _ _ => some g
  | .acq g _ _ _ => some g
  | .rel g _ _ _ => some g
  | .bind g _ _ _ => some g
  | .unbind g _ _ _ => some g
  | .fence g _ _ => some g
  | .bar g _ _ => some g
  | .barw g _ _ => some g
  | .wait g _ _ _ => some g
  | .signal g _ _ => some g
  | .give g _ _ _ _ => some g
  | .openw g _ _ _ _ => some g
  | .close g _ _ => some g
  | .swapb g _ _ _ => some g
  | .bstat g _ _ => some g
  | .bzero g _ => some g
  | .tlook g _ _ _ => some g
  | .tset g _ _ _ => some g
  | .tinv g _ _ => some g
  | .tclr g _ => some g
  | .dpush g _ _ => some g
  | .dpop g _ _ => some g
  | .dsteal g _ _ _ => some g
  | .launch g _ _ => some g
  | .dec g _ => some g
  | .issue g _ _ _ _ => some g
  | .issuex g _ _ _ _ => some g
  | .cdrain g _ => some g
  | .glv g _ => some g
  | .glvCur g _ => some g
  | .glvReg g _ => some g
  | .rate g _ _ => some g
  | .rateWin g _ => some g
  | .mfs g _ _ => some g
  | .mts g _ _ => some g
  | .eret g => some g
  | .tlbiPage g _ => some g
  | .tlbiCtx g => some g
  | _ => none

/-- The g registers that a scalar instruction may write (R159). -/
def Instr.dests : Instr → List Reg
  | .add _ d _ _ => [d]
  | .sub _ d _ _ => [d]
  | .addi _ d _ _ => [d]
  | .mul _ d _ _ => [d]
  | .mulh _ d _ _ => [d]
  | .mulhu _ d _ _ => [d]
  | .div _ d _ _ => [d]
  | .divu _ d _ _ => [d]
  | .rem _ d _ _ => [d]
  | .remu _ d _ _ => [d]
  | .and _ d _ _ => [d]
  | .or _ d _ _ => [d]
  | .xor _ d _ _ => [d]
  | .andi _ d _ _ => [d]
  | .ori _ d _ _ => [d]
  | .xori _ d _ _ => [d]
  | .shl _ d _ _ => [d]
  | .shr _ d _ _ => [d]
  | .sra _ d _ _ => [d]
  | .shli _ d _ _ => [d]
  | .shri _ d _ _ => [d]
  | .srai _ d _ _ => [d]
  | .min _ d _ _ => [d]
  | .max _ d _ _ => [d]
  | .minu _ d _ _ => [d]
  | .maxu _ d _ _ => [d]
  | .clz _ d _ => [d]
  | .popc _ d _ => [d]
  | .bfx _ d _ _ => [d]
  | .bfi _ d _ _ => [d]
  | .sext _ d _ _ => [d]
  | .zext _ d _ _ => [d]
  | .li _ d _ => [d]
  | .lih _ d _ => [d]
  | .sel _ d _ _ _ => [d]
  | .pmovGet _ d => [d]
  | .lea _ d _ => [d]
  | .waddr _ d _ _ => [d]
  | .xaddr _ d _ _ => [d]
  | .gaddr _ d _ _ => [d]
  | .brl _ a _ => [a]
  | .jmp _ d _ => [d]
  | .call _ _ => [31]
  | .loop _ a _ => [a]
  | .ldg _ d _ _ => [d]
  | .ldgx _ d _ _ _ _ _ => [d]
  | .lds _ d _ _ => [d]
  | .amof _ d _ _ _ _ => [d]
  | .cas _ d _ _ _ _ => [d]
  | .acq _ d _ _ => [d]
  | .rel _ d _ _ => [d]
  | .bind _ d _ _ => [d]
  | .unbind _ d _ _ => [d]
  | .wait _ d _ t => [d, t]
  | .give _ d _ _ _ => [d]
  | .openw _ d _ _ _ => [d]
  | .close _ d _ => [d]
  | .swapb _ d _ _ => [d]
  | .bstat _ d _ => [d]
  | .tlook _ d _ _ => [d]
  | .dpush _ d _ => [d]
  | .dpop _ d t => [d, t]
  | .dsteal _ d _ t => [d, t]
  | .launch _ d _ => [d]
  | .glv _ d => [d]
  | .glvCur _ d => [d]
  | .glvReg _ d => [d]
  | .rate _ d _ => [d]
  | .rateWin _ d => [d]
  | .mfs _ d _ => [d]
  | _ => []

/-- The predicates that a scalar instruction may write: PMOV.set writes them all (R160, R179). -/
def Instr.pdests : Instr → List PReg
  | .cmp _ _ p _ _ => [p]
  | .cmpi _ _ p _ _ => [p]
  | .pand _ p _ _ _ _ => [p]
  | .por _ p _ _ _ _ => [p]
  | .pxor _ p _ _ _ _ => [p]
  | .pnot _ p _ => [p]
  | .pmovSet _ _ => [0, 1, 2, 3, 4, 5, 6]
  | _ => []

/-- Instructions that change only registers, predicates and pc of their own core: integer, predicate, address, branch, NOP, PREF, BSTAT, GLV and RATE
forms. -/
def Instr.coreOnly : Instr → Bool
  | .add _ _ _ _ => true
  | .sub _ _ _ _ => true
  | .addi _ _ _ _ => true
  | .mul _ _ _ _ => true
  | .mulh _ _ _ _ => true
  | .mulhu _ _ _ _ => true
  | .div _ _ _ _ => true
  | .divu _ _ _ _ => true
  | .rem _ _ _ _ => true
  | .remu _ _ _ _ => true
  | .and _ _ _ _ => true
  | .or _ _ _ _ => true
  | .xor _ _ _ _ => true
  | .andi _ _ _ _ => true
  | .ori _ _ _ _ => true
  | .xori _ _ _ _ => true
  | .shl _ _ _ _ => true
  | .shr _ _ _ _ => true
  | .sra _ _ _ _ => true
  | .shli _ _ _ _ => true
  | .shri _ _ _ _ => true
  | .srai _ _ _ _ => true
  | .min _ _ _ _ => true
  | .max _ _ _ _ => true
  | .minu _ _ _ _ => true
  | .maxu _ _ _ _ => true
  | .clz _ _ _ => true
  | .popc _ _ _ => true
  | .bfx _ _ _ _ => true
  | .bfi _ _ _ _ => true
  | .sext _ _ _ _ => true
  | .zext _ _ _ _ => true
  | .li _ _ _ => true
  | .lih _ _ _ => true
  | .cmp _ _ _ _ _ => true
  | .cmpi _ _ _ _ _ => true
  | .pand _ _ _ _ _ _ => true
  | .por _ _ _ _ _ _ => true
  | .pxor _ _ _ _ _ _ => true
  | .pnot _ _ _ => true
  | .sel _ _ _ _ _ => true
  | .pmovGet _ _ => true
  | .pmovSet _ _ => true
  | .lea _ _ _ => true
  | .waddr _ _ _ _ => true
  | .xaddr _ _ _ _ => true
  | .gaddr _ _ _ _ => true
  | .br _ _ => true
  | .brl _ _ _ => true
  | .jmp _ _ _ => true
  | .call _ _ => true
  | .ret _ => true
  | .loop _ _ _ => true
  | .nop _ => true
  | .pref _ _ _ => true
  | .bstat _ _ _ => true
  | .glv _ _ => true
  | .glvCur _ _ => true
  | .glvReg _ _ => true
  | .rate _ _ _ => true
  | .rateWin _ _ => true
  | _ => false

/-- Scalar instructions that may write a byte of memory or of a bank in the step that runs them: atomics with a result, object handovers, deque
operations, a CLOSE that frees a bank, a LAUNCH that arms a counter. Plain stores are posted and write nothing at issue (R194). -/
def Instr.writesBytes : Instr → Bool
  | .amof _ _ _ _ _ _ => true
  | .cas _ _ _ _ _ _ => true
  | .acq _ _ _ _ => true
  | .rel _ _ _ _ => true
  | .dpush _ _ _ => true
  | .dpop _ _ _ => true
  | .dsteal _ _ _ _ => true
  | .close _ _ _ => true
  | .launch _ _ _ => true
  | _ => false

/-- Scalar instructions that may change a bank window of their own core (R199, R215 to R224). -/
def Instr.writesWindows : Instr → Bool
  | .give _ _ _ _ _ => true
  | .openw _ _ _ _ _ => true
  | .close _ _ _ => true
  | .swapb _ _ _ _ => true
  | .bzero _ _ => true
  | .tset _ _ _ _ => true
  | .tinv _ _ _ => true
  | .tclr _ _ => true
  | _ => false

/-- Whether an instruction is MTS, the only one that writes a special register by its number (R164). -/
def Instr.isMts : Instr → Bool
  | .mts _ _ _ => true
  | _ => false

end Sys2Proof

namespace Sys2Proof.Machine

/-! ### Memory -/

/-- Every memory of the machine has the canonical form: addresses strictly rising, no byte listed that an unlisted address reads as. -/
def State.memoryForm (s : State) : Prop := s.mem.wf = true ∧ s.banks.wf = true ∧ s.host.mem.wf = true

/-- Two states hold the same bytes: every reader sees the same memory, and banks and host memory read alike. -/
def State.sameBytes (s t : State) : Prop :=
  (∀ key a, t.memByte key a = s.memByte key a) ∧ (∀ a, Memory.read t.banks a = Memory.read s.banks a)
    ∧ ∀ a, Memory.read t.host.mem a = Memory.read s.host.mem a

/-- Two states hold the same bytes but for n bytes of memory from pa, written under a key: a sealed unit is written whole, so that readers under other
keys may see all of it changed (R344, R346). -/
def State.sameBytesBut (s t : State) (key pa n : Nat) : Prop :=
  (∀ a, ¬ (pa ≤ a ∧ a < pa + n) → t.memByte key a = s.memByte key a)
    ∧ (∀ k a, ¬ (pa ≤ a ∧ a < pa + n) → (Machine.region pa ≠ 1 ∨ a / 128 ≠ pa / 128) → t.memByte k a = s.memByte k a)
    ∧ (∀ a, Memory.read t.banks a = Memory.read s.banks a) ∧ ∀ a, Memory.read t.host.mem a = Memory.read s.host.mem a

/-- Two states hold the same bytes but for n bytes of the banks from place pa. -/
def State.sameBytesButBank (s t : State) (pa n : Nat) : Prop :=
  (∀ key a, t.memByte key a = s.memByte key a) ∧ (∀ a, ¬ (pa ≤ a ∧ a < pa + n) → Memory.read t.banks a = Memory.read s.banks a)
    ∧ ∀ a, Memory.read t.host.mem a = Memory.read s.host.mem a

/-! ### Results of scalar instructions -/

/-- The state after an instruction whose only effect is a value in a g register (R159, R161). -/
def State.result (s : State) (d : Reg) (v : Word) : State := s.setCore (s.core.wr d v).adv

/-- The state after an instruction whose only effect is a predicate (R160, R161). -/
def State.presult (s : State) (p : PReg) (b : Bool) : State := s.setCore (s.core.wrp p b).adv

/-- The state after a blocking instruction that has its response: the bookkeeping state with the result in a g register, and the core free to go on
(R194). -/
def State.response (s : State) (d : Reg) (v : Word) : State := s.setCore { (s.core.wr d v).adv with wait := .none }

/-- The request that a core posts, as it leaves: what it does, whether it releases, its core with the address of its instruction and the context (R194,
R195, R413). -/
def State.posts (s t : State) (op : FlightOp) (release : Bool) : Prop :=
  ∃ f : Flight, t = ({ s with flights := s.flights ++ [f], nextId := s.nextId + 1 } : State).setCore s.core.adv ∧ f.op = op ∧ f.release = release
    ∧ f.id = s.nextId ∧ f.core = s.cur ∧ f.kind = .core ∧ f.pc = s.core.pc ∧ f.ctx = s.ctxOf s.cur ∧ f.applied = false ∧ f.held = false

/-- What an atomic operation makes of the old value and its operand, in numbers (R203). -/
def amoIs (op : AmoOp) (old v new : Word) : Prop :=
  match op with
  | .add => new.toNat = (old.toNat + v.toNat) % 2 ^ 64
  | .and => new = old &&& v
  | .or => new = old ||| v
  | .xor => new = old ^^^ v
  | .min => new.toInt = min old.toInt v.toInt
  | .max => new.toInt = max old.toInt v.toInt
  | .minu => new.toNat = min old.toNat v.toNat
  | .maxu => new.toNat = max old.toNat v.toNat
  | .swap => new = v

/-- The trap registers of two cores agree (R189). -/
def CoreSt.sameTrapRegs (a b : CoreSt) : Prop :=
  b.intrap = a.intrap ∧ b.epc = a.epc ∧ b.cause = a.cause ∧ b.code = a.code ∧ b.trapaddr = a.trapaddr

/-- A core has taken a trap into its handler from another state of it (R189). -/
def CoreSt.tookTrap (a b : CoreSt) : Prop :=
  a.intrap = false ∧ a.tvEn = true ∧ b.intrap = true ∧ b.epc = a.pc ∧ b.pc = (a.tvAddr.setWidth 64) <<< 2

/-! ### Commands at the head of a port -/

/-- A command of the current core at the head of the port it names, not empty, its group alive; with the fields of the command as its meaning sees it
(R145, R147, R148, R233). -/
def State.atHead (s : State) (i : Instr) (c : StreamCmd) (u : AddrUse) (counts : Bool) (d : Cmd) : Prop :=
  encodeCmd i = some d.q.word ∧ d.n = s.cur ∧ d.p = c.port ∧ d.c = c ∧ s.core.group = some d.g ∧ s.group? d.g = some d.x ∧ d.o = s.objOf d.x
    ∧ s.cmdLive d.x = true ∧ (s.portAt s.cur c.port).queue.head? = some d.q ∧ d.q.empty = false
    ∧ cmdAddr u d.q c = some d.addr ∧ cmdCount counts d.q c = some d.count

/-- The command at the head has left it, the same core is current, no byte has changed, and no other group (R233). -/
def State.leftHead (s t : State) (d : Cmd) : Prop :=
  (t.portAt s.cur d.p).queue = (s.portAt s.cur d.p).queue.drop 1 ∧ t.cur = s.cur ∧ s.sameBytes t ∧ ∀ k, k ≠ d.g → t.group? k = s.group? k

/-- How far the command at the head of a port has got. -/
def State.headProg (t : State) (n : Nat) (p : BitVec 4) : Option Prog := (t.portAt n p).queue.head?.map (·.prog)

/-- A command as its body sees it once it has started. -/
def Cmd.begun (d : Cmd) : Cmd := { d with q := { d.q with prog := { d.q.prog with started := true } } }

/-- The state in which a starting command's body runs: the command is marked as started. -/
def State.begun (s : State) (d : Cmd) : State := s.modHead s.cur d.p fun g => { g with started := true }

/-- A command at the head runs: it has started before, or it starts now, where its form, its rule and the form of its address allow it; with the state
and the command as its body sees them (R149, R158, R233). -/
def State.runsAs (s : State) (i : Instr) (rule : State → Cmd → Bool) (d : Cmd) (s1 : State) (e : Cmd) : Prop :=
  d.q.prog.started = true ∧ s1 = s ∧ e = d
    ∨ d.q.prog.started = false ∧ s.cmdStarts d.x = true ∧ i.wf = true ∧ rule s d = true ∧ (takesGlobal i = true → s.isGlobal d.addr = true)
      ∧ s1 = s.begun d ∧ e = d.begun

/-! ### Cells -/

/-- An instance of a group that may fire now, with nothing left to write of an earlier firing (R34, R40, R42, R113). -/
def State.cellAt (s : State) (r : CellRef) (x : Group) (i : Inst) : Prop :=
  s.inst? r = some (x, i) ∧ i.outq = [] ∧ s.mayFire x r.inst i = true

/-- What a step of an instance at a cycle does to the links of its group: the token that the instance takes next from each of some inputs leaves (R39,
R49), the tokens written join every link of their port, behind those that are there, and nothing else moves (R38, R39, R40). -/
def Group.moved (x y : Group) (now j : Nat) (ins : List Nat) (out : List (Nat × Token)) (ready : Nat) : Prop :=
  y.links.length = x.links.length ∧ ∀ (k : Nat) (l : Link), x.links[k]? = some l → ∃ l' : Link, y.links[k]? = some l'
    ∧ l'.src = l.src ∧ l'.sp = l.sp ∧ l'.dst = l.dst ∧ l'.dp = l.dp ∧ l'.slots = l.slots
    ∧ l'.toks = (if ins.any (fun p => x.inLink j p == some k) then l.toks.eraseIdx ((l.pick now (x.ordered j l.dp)).getD 0) else l.toks)
        ++ (out.filter fun (p : Nat × Token) => l.src == j && l.sp == p.1).map fun p => { tok := p.2, ready := ready : Slot }

/-- An event of an instance runs: it takes the head tokens of some inputs and writes some tokens, no core and no other group changes, and what else is
said of the state and of the instance afterwards holds. -/
def State.acts (s : State) (r : CellRef) (x : Group) (a : Instr) (ins : List Nat) (out : List (Nat × Token)) (lat : Nat)
    (after : State → Inst → Prop) : Prop :=
  ∃ (t : State) (y : Group) (i' : Inst), exec a s = .next t ∧ t.group? r.group = some y ∧ y.insts[r.inst]? = some i'
    ∧ x.moved y s.cycle r.inst ins out (s.cycle + lat) ∧ t.cores = s.cores ∧ (∀ g, g ≠ r.group → t.group? g = s.group? g) ∧ after t i'

/-- The state of a fired instance. -/
def firedTo (s : State) (st : CellState) (_ : State) (i : Inst) : Prop := i.fired = some s.cycle ∧ i.st = st

/-- A firing that writes emissions in turn (R271): with none, the inputs are taken at once; the last one takes them; of several the first is written and
the rest stands in the instance. Each token carries its context and the sequence of its port and thread (R36). -/
def State.firesInTurn (s : State) (r : CellRef) (x : Group) (i : Inst) (a : Instr) (ins : List Nat) (es : List (List (Nat × Nat × Tag)))
    (after : State → Inst → Prop) : Prop :=
  let own (k : Nat) (l : List (Nat × Nat × Tag)) : List (Nat × Token) := l.map fun q =>
    (q.1, mkTok q.2.1 { q.2.2 with ctx := BitVec.ofNat 12 x.ctx, seq := (i.nextSeq q.1 q.2.2.thread).1 + BitVec.ofNat 24 k })
  (es = [] → s.acts r x a ins [] 0 after) ∧
  (∀ e, es = [e] → (∀ q ∈ e, x.room s.cycle r.inst q.1 = true) → s.acts r x a ins (own 0 e) 2 after) ∧
  (∀ e rest, es = e :: rest → rest ≠ [] → (∀ q ∈ e, x.room s.cycle r.inst q.1 = true) → s.acts r x a [] (own 0 e) 2 fun t i' =>
    after t i' ∧ i'.outq.map (·.toks) = rest.zipIdx.map (fun p => own (p.2 + 1) p.1) ∧ i'.due = ins)

/-- Every end-of-tile token among the heads of some inputs belongs to an open segment or is its whole segment, or the instance is not where its node's
segments are followed, so that taking it counts no error (R44). -/
def State.inSegment (s : State) (r : CellRef) (x : Group) (i : Inst) (ins : List Nat) : Prop :=
  x.counts44 i = true → ∀ p ∈ ins, ∀ t, x.headAny s.cycle r.inst p = some t → t.tag.eot = true → t.tag.sot = true ∨ i.isOpen p t = true

end Sys2Proof.Machine
end

