-- ==== Sys2Proof/Certificates/Slice0/Obligations.lean ====
section
/-! DEFINITION. What the provers are asked to prove of the model. -/

open Sys2Proof Sys2Proof.Machine

/-- O1. Worked words of the manual and of the encoding tables decode to their instructions. Words written out from the formats: LEA, MTS, CALL, LOOP,
TRAP, DIV, NOP, RET, ERET and EXIT, and one command word (ARM of section 3 with 5 tiles at port 2), decode to the instructions they stand for;
the word of all zeros decodes to none. -/
def Obligations.WordsDecodeToTheirInstruction : Prop :=
  decodeWord 0x56200107#32 = .ok (.lea .always 2 0x010) ∧
  decodeWord 0xF2200307#32 = .ok (.mts .always 2 0x30) ∧
  decodeWord 0x66000057#32 = .ok (.call .always 5) ∧
  decodeWord 0x6ACFFFD7#32 = .ok (.loop .always 12 0xFFFD) ∧
  decodeWord 0x72000557#32 = .ok (.trap .always 0x55) ∧
  decodeWord 0x0ED72C07#32 = .ok (.div .always 13 14 11) ∧
  decodeWord 0x6E000007#32 = .ok (.nop .always) ∧
  decodeWord 0x68000007#32 = .ok (.ret .always) ∧
  decodeWord 0xF4000007#32 = .ok (.eret .always) ∧
  decodeWord 0x70000007#32 = .ok (.exit .always) ∧
  decodeCmd (0x0D#8 ++ 2#4 ++ 0#4 ++ 0#8 ++ 0#8 ++ 0#56 ++ 5#24 ++ 3#16)
    = .ok (.arm { port := 2, cls := 0, flags := 0, tag := 0, addr := 0, count := 5, index := 3 }) ∧
  decodeWord 0#32 = .error .unassignedOpcode

/-- O2. Scalar instruction words: encoding and decoding agree in both directions, and each word has one meaning. For every well-formed scalar
instruction, with every operand at every value that its encoding admits: its four bytes, before any other bytes, decode to exactly that
instruction and leave the other bytes. Whatever word the scalar decoder accepts, the instruction it answers is well formed and encodes to that
very word: no reserved field is ignored, no bit is dropped, and no two words stand for one instruction. -/
def Obligations.ScalarEncodingRoundTrip : Prop :=
  (
    ∀ (i : Instr) (w : Word32) (rest : List Byte), i.wf = true → encodeWord i = some w →
      decode (leBytes 4 w.toNat ++ rest) = .ok (i, rest)) ∧
  (
    ∀ (w : Word32) (i : Instr), decodeWord w = .ok i → i.wf = true ∧ encodeWord i = some w)

/-- O3. Well-formed stream commands and their 128-bit words determine each other. Every well-formed stream command is what the sixteen bytes of its word
decode to, before any other bytes; and whatever command word the decoder accepts, the command it answers is well formed and encodes to that very
word. -/
def Obligations.CommandEncodingRoundTrip : Prop :=
  (∀ (i : Instr) (w : CmdWord) (rest : List Byte), i.wf = true → encodeCmd i = some w →
    decodeCmdBytes (leBytes 16 w.toNat ++ rest) = .ok (i, rest)) ∧
  (∀ (w : CmdWord) (i : Instr), decodeCmd w = .ok i → i.wf = true ∧ encodeCmd i = some w)

/-- O4. A step runs what the next turn of the agenda names: the decoded instruction, the head command, the event or the clock. With a turn at the head of
the agenda and the package not off: the turn of a control core that may run, at an aligned pc whose word decodes, is exec of the decoded
instruction with that core current; the turn of a port whose head command decodes, may start or has started, is exec of that command after
completions are reported; the turn of an event is exec of that event, for every step of the opcode table that has no word; a clock turn advances
the clock; the turn of the management controller writes the report that it was asked for; an empty agenda is first filled with everything that is
pending. The order of turns is the model's own choice (log entry 1). -/
def Obligations.StepRunsTheDecodedTurn : Prop :=
  (∀ (s : State) (n : Nat) (rest : List Turn) (w : Word32) (i : Instr) (more : List Byte),
    s.off = false → s.agenda = .core n :: rest → ({ s with agenda := rest, cur := n } : State).mayRun n = true →
    (s.coreAt n).pc.toNat % 4 = 0 → s.fetch n = some w → decode (leBytes 4 w.toNat) = .ok (i, more) →
    step s = exec i { s with agenda := rest, cur := n }) ∧
  (∀ (s s1 : State) (n : Nat) (p : BitVec 4) (rest : List Turn) (q : QCmd) (qs : List QCmd) (x : Group) (i : Instr),
    s.off = false → s.agenda = .port n p.toNat :: rest → s1 = ({ s with agenda := rest, cur := n } : State).settlePort n p →
    (s1.portAt n p).queue = q :: qs → s1.groupOf n = some x → s1.cmdLive x = true → (s1.cmdStarts x || q.prog.started) = true →
    q.empty = false → decodeCmd q.word = .ok i → step s = exec i s1) ∧
  (∀ (s : State) (i : Instr) (rest : List Turn), s.off = false → s.agenda = .event i :: rest → encodeWord i = none → encodeCmd i = none →
    (∀ a, i ≠ .illegalInstructionTrap a) → step s = exec i { s with agenda := rest }) ∧
  (∀ (s : State) (rest : List Turn), s.off = false → s.agenda = .tick :: rest → step s = .next ({ s with agenda := rest } : State).tick) ∧
  (∀ (s : State) (rest : List Turn), s.off = false → s.agenda = .report :: rest → step s = .next ({ s with agenda := rest } : State).reportTurn) ∧
  (∀ s : State, s.agenda = [] → step s = step { s with agenda := s.roster })

/-- O5. A fetch at a misaligned pc, beyond the code, or of a word that fails decoding traps before any guard is tested. In the turn of a control core
that may run: a pc that is no multiple of 4 raises the misalignment trap with the pc as its address; a pc at or beyond the end of the code part
raises the illegal-instruction trap with address 0; a word that fails decoding raises the illegal-instruction trap with the word, zero-extended,
as its address, and ILLEGAL_INSTRUCTION_TRAP is that trap: cause 0x01 and code 0. -/
def Obligations.FetchFaultsTrap : Prop :=
  (∀ (s : State) (n : Nat) (rest : List Turn), s.off = false → s.agenda = .core n :: rest →
    ({ s with agenda := rest, cur := n } : State).mayRun n = true →
    let s1 : State := { s with agenda := rest, cur := n }
    ((s.coreAt n).pc.toNat % 4 ≠ 0 → step s = .next (s1.trap 0x02 0 (s.coreAt n).pc 0)) ∧
    ((s.coreAt n).pc.toNat % 4 = 0 → s.fetch n = none → step s = exec (.illegalInstructionTrap 0) s1) ∧
    (∀ w e, (s.coreAt n).pc.toNat % 4 = 0 → s.fetch n = some w → decode (leBytes 4 w.toNat) = .error e →
      step s = exec (.illegalInstructionTrap (w.setWidth 64)) s1)) ∧
  (∀ (s : State) (n : Nat) (x : Group), s.groupOf n = some x → (s.objOf x).code.length ≤ (s.coreAt n).pc.toNat / 4 → s.fetch n = none) ∧
  (∀ (s : State) (a : Word), exec (.illegalInstructionTrap a) s = .next (s.trap 0x01 0 a 0))

/-- O6. Register and predicate accessors: g0 reads zero and discards writes, p7 reads true and discards writes, the others hold what was written. Reading
g0 gives 0 and writing it changes nothing; reading p7 gives true and writing it changes nothing; every other register and predicate reads what
was last written to it, and a write changes no other register or predicate and nothing else of the core. -/
def Obligations.RegistersReadBackAsWritten : Prop :=
  ∀ (c : CoreSt) (v : Word) (b : Bool),
    c.rd 0 = 0 ∧ c.wr 0 v = c ∧ c.rdp 7 = true ∧ c.wrp 7 b = c ∧
    (∀ r : Reg, r ≠ 0 → (c.wr r v).rd r = v) ∧ (∀ r q : Reg, q ≠ r → (c.wr r v).rd q = c.rd q) ∧
    (∀ r : Reg, c.wr r v = { c with g := (c.wr r v).g }) ∧
    (∀ p : PReg, p ≠ 7 → (c.wrp p b).rdp p = b) ∧ (∀ p q : PReg, q ≠ p → (c.wrp p b).rdp q = c.rdp q) ∧
    (∀ p : PReg, c.wrp p b = { c with p := (c.wrp p b).p })

/-- O7. A scalar instruction whose guard does not hold only moves the pc to the next word. For every one of the scalar instructions of the opcode table:
where its guard does not hold, exec answers the same state with the pc of its core advanced by 4; no register, memory, counter, queue or record
changes, and no trap of its own is raised. That the guard is tested before the checks of equal result registers and of the register number of MFS
and MTS is the model's choice, log entry 21. -/
def Obligations.FalseGuardOnlyAdvances : Prop :=
  ∀ (i : Instr) (g : Guard) (s : State), i.guard? = some g → s.core.holds g = false →
    exec i s = .next (s.setCore { s.core with pc := s.core.pc + 4 })

/-- O8. The integer, immediate, shift and bit instructions write the results their rules give. Where the guard holds: ADD, SUB, MUL write the sum,
difference, product mod 2^64; MULH and MULHU bits [127:64] of the signed and unsigned 128-bit product; AND, OR, XOR bit by bit; MIN, MAX, MINU,
MAXU the smaller or larger operand, signed or unsigned; DIV, DIVU, REM, REMU quotient toward zero and remainder with the sign of the dividend,
all ones and the dividend for a divisor of 0. Nothing else changes but the pc, which moves to the next word. Where the guard holds: ADDI, ANDI,
ORI, XORI act with the sign-extended imm11; shifts move by gb[5:0] or by the six-bit field, SHL mod 2^64, SHR the floor of the unsigned value,
SRA the floor of the signed value; LI writes the sign-extended imm16 and LIH shifts gd left by 16 and puts imm16 below. Nothing else changes but
the pc, which moves to the next word. Where the guard holds: CLZ writes the number of bits above the highest one bit, 64 for 0; POPC the number
of one bits; SEXT and ZEXT keep the low w bits and fill the rest with bit w-1 or with 0 (the field holds w-1); BFX moves the field of width
min(gb[14:8], 64-lo) at lo = gb[5:0] down to bit 0 and clears the rest; BFI puts the low bits of ga at the field and keeps the other bits of gd.
Nothing else changes but the pc, which moves to the next word. -/
def Obligations.IntegerAndBitResults : Prop :=
  (
    ∀ (g : Guard) (d a b : Reg) (s : State), s.core.holds g = true →
      let x := s.core.rd a
      let y := s.core.rd b
      exec (.add g d a b) s = .next (s.result d (BitVec.ofNat 64 (x.toNat + y.toNat))) ∧
      exec (.sub g d a b) s = .next (s.result d (BitVec.ofInt 64 ((x.toNat : Int) - y.toNat))) ∧
      exec (.mul g d a b) s = .next (s.result d (BitVec.ofNat 64 (x.toNat * y.toNat))) ∧
      exec (.mulh g d a b) s = .next (s.result d ((x.signExtend 128 * y.signExtend 128).extractLsb' 64 64)) ∧
      exec (.mulhu g d a b) s = .next (s.result d ((x.setWidth 128 * y.setWidth 128).extractLsb' 64 64)) ∧
      exec (.and g d a b) s = .next (s.result d (x &&& y)) ∧
      exec (.or g d a b) s = .next (s.result d (x ||| y)) ∧
      exec (.xor g d a b) s = .next (s.result d (x ^^^ y)) ∧
      exec (.min g d a b) s = .next (s.result d (if x.toInt ≤ y.toInt then x else y)) ∧
      exec (.max g d a b) s = .next (s.result d (if x.toInt ≥ y.toInt then x else y)) ∧
      exec (.minu g d a b) s = .next (s.result d (if x.toNat ≤ y.toNat then x else y)) ∧
      exec (.maxu g d a b) s = .next (s.result d (if x.toNat ≥ y.toNat then x else y)) ∧
      exec (.div g d a b) s = .next (s.result d (if y = 0 then BitVec.allOnes 64 else BitVec.ofInt 64 (x.toInt.tdiv y.toInt))) ∧
      exec (.divu g d a b) s = .next (s.result d (if y = 0 then BitVec.allOnes 64 else BitVec.ofNat 64 (x.toNat / y.toNat))) ∧
      exec (.rem g d a b) s = .next (s.result d (if y = 0 then x else BitVec.ofInt 64 (x.toInt - x.toInt.tdiv y.toInt * y.toInt))) ∧
      exec (.remu g d a b) s = .next (s.result d (if y = 0 then x else BitVec.ofInt 64 ((x.toNat : Int) - (x.toNat / y.toNat : Nat) * y.toNat)))) ∧
  (
    ∀ (g : Guard) (d a b : Reg) (imm : BitVec 11) (k : BitVec 6) (imm16 : BitVec 16) (s : State), s.core.holds g = true →
      let x := s.core.rd a
      let n := (s.core.rd b).toNat % 64
      exec (.addi g d a imm) s = .next (s.result d (BitVec.ofInt 64 ((x.toNat : Int) + imm.toInt))) ∧
      exec (.andi g d a imm) s = .next (s.result d (x &&& BitVec.ofInt 64 imm.toInt)) ∧
      exec (.ori g d a imm) s = .next (s.result d (x ||| BitVec.ofInt 64 imm.toInt)) ∧
      exec (.xori g d a imm) s = .next (s.result d (x ^^^ BitVec.ofInt 64 imm.toInt)) ∧
      exec (.shl g d a b) s = .next (s.result d (BitVec.ofNat 64 (x.toNat * 2 ^ n))) ∧
      exec (.shr g d a b) s = .next (s.result d (BitVec.ofNat 64 (x.toNat / 2 ^ n))) ∧
      exec (.sra g d a b) s = .next (s.result d (BitVec.ofInt 64 (x.toInt / 2 ^ n))) ∧
      exec (.shli g d a k) s = .next (s.result d (BitVec.ofNat 64 (x.toNat * 2 ^ k.toNat))) ∧
      exec (.shri g d a k) s = .next (s.result d (BitVec.ofNat 64 (x.toNat / 2 ^ k.toNat))) ∧
      exec (.srai g d a k) s = .next (s.result d (BitVec.ofInt 64 (x.toInt / 2 ^ k.toNat))) ∧
      exec (.li g d imm16) s = .next (s.result d (BitVec.ofInt 64 imm16.toInt)) ∧
      exec (.lih g d imm16) s = .next (s.result d (BitVec.ofNat 64 ((s.core.rd d).toNat * 2 ^ 16 % 2 ^ 64 + imm16.toNat)))) ∧
  (
    ∀ (g : Guard) (d a b : Reg) (w : BitVec 6) (s : State), s.core.holds g = true →
      let x := s.core.rd a
      let lo := (s.core.rd b).toNat % 64
      let wd := min ((s.core.rd b).toNat / 256 % 128) (64 - lo)
      (∃ n : Nat, exec (.clz g d a) s = .next (s.result d (BitVec.ofNat 64 n)) ∧ n ≤ 64 ∧
        (∀ i, 64 - n ≤ i → i < 64 → x.getLsbD i = false) ∧ (n < 64 → x.getLsbD (63 - n) = true)) ∧
      exec (.popc g d a) s = .next (s.result d (BitVec.ofNat 64 ((List.range 64).filter fun i => x.getLsbD i).length)) ∧
      (∃ v : Word, exec (.sext g d a w) s = .next (s.result d v) ∧ ∀ i < 64, v.getLsbD i = x.getLsbD (min i w.toNat)) ∧
      (∃ v : Word, exec (.zext g d a w) s = .next (s.result d v) ∧ ∀ i < 64, v.getLsbD i = (decide (i ≤ w.toNat) && x.getLsbD i)) ∧
      (∃ v : Word, exec (.bfx g d a b) s = .next (s.result d v) ∧ ∀ i < 64, v.getLsbD i = (decide (i < wd) && x.getLsbD (i + lo))) ∧
      (∃ v : Word, exec (.bfi g d a b) s = .next (s.result d v) ∧
        ∀ i < 64, v.getLsbD i = if lo ≤ i ∧ i < lo + wd then x.getLsbD (i - lo) else (s.core.rd d).getLsbD i))

/-- O9. Compares, predicate logic, SEL and PMOV write what their rules give. Where the guard holds: CMP and CMPI set pd to the condition between ga and
gb or the sign-extended imm9, signed or unsigned as the condition says; PAND, POR, PXOR combine their operands, negated where asked, and PNOT
negates; SEL writes ga if ps holds and gb otherwise; PMOV.get writes p0 to p6 with p7 as 1, PMOV.set writes p0 to p6. A result for p7 or g0 is
discarded. Nothing else changes but the pc, which moves to the next word. -/
def Obligations.PredicateResults : Prop :=
  ∀ (g : Guard) (cc : Cond) (p pa pb : PReg) (na nb : Bool) (d a b : Reg) (imm : BitVec 9) (s : State), s.core.holds g = true →
    let x := s.core.rd a
    let is (y : Word) : Prop := match cc with
      | .eq => x = y | .ne => x ≠ y
      | .lt => x.toInt < y.toInt | .le => x.toInt ≤ y.toInt | .gt => y.toInt < x.toInt | .ge => y.toInt ≤ x.toInt
      | .ltu => x.toNat < y.toNat | .leu => x.toNat ≤ y.toNat | .gtu => y.toNat < x.toNat | .geu => y.toNat ≤ x.toNat
    let u := if na then !s.core.rdp pa else s.core.rdp pa
    let v := if nb then !s.core.rdp pb else s.core.rdp pb
    (∃ r : Bool, exec (.cmp g cc p a b) s = .next (s.presult p r) ∧ (r = true ↔ is (s.core.rd b))) ∧
    (∃ r : Bool, exec (.cmpi g cc p a imm) s = .next (s.presult p r) ∧ (r = true ↔ is (BitVec.ofInt 64 imm.toInt))) ∧
    exec (.pand g p pa pb na nb) s = .next (s.presult p (u && v)) ∧
    exec (.por g p pa pb na nb) s = .next (s.presult p (u || v)) ∧
    exec (.pxor g p pa pb na nb) s = .next (s.presult p (u ^^ v)) ∧
    exec (.pnot g p pa) s = .next (s.presult p (!s.core.rdp pa)) ∧
    exec (.sel g d a b p) s = .next (s.result d (if s.core.rdp p then x else s.core.rd b)) ∧
    (∃ r : Word, exec (.pmovGet g d) s = .next (s.result d r) ∧
      ∀ i < 64, r.getLsbD i = if i < 7 then s.core.p.getLsbD i else decide (i = 7)) ∧
    (∃ r : BitVec 7, exec (.pmovSet g a) s = .next (s.setCore { s.core with p := r, pc := s.core.pc + 4 }) ∧
      ∀ i < 7, r.getLsbD i = x.getLsbD i)

/-- O10. XADDR and GADDR lay their fields out as the address forms do. (R182) XADDR, where the guard holds, writes 0x8 in bits [63:60], the package, die
and core of the locator in ga, the window and offset of the window address in gb, and zeros in bits [34:16]; GADDR writes the package and die of
ga and the low 46 bits of gb. Both write gd alone and move on, check nothing and raise no trap; only the words of format R with opcodes 0x2D and
0x2E and fn 0 stand for them. -/
def Obligations.AddressResults : Prop :=
  (∀ (g : Guard) (d a b : Reg) (s : State), s.core.holds g = true →
    let x := s.core.rd a
    let y := s.core.rd b
    exec (.xaddr g d a b) s = .next (s.result d
      (0x8#4 ++ x.extractLsb' 16 10 ++ x.extractLsb' 7 4 ++ x.extractLsb' 0 7 ++ y.extractLsb' 16 4 ++ 0#19 ++ y.extractLsb' 0 16)) ∧
    exec (.gaddr g d a b) s = .next (s.result d (0#4 ++ x.extractLsb' 16 10 ++ x.extractLsb' 7 4 ++ y.extractLsb' 0 46))) ∧
  (∀ (w : Word32) (g : Guard) (d a b : Reg),
    (decodeWord w = .ok (.xaddr g d a b) ↔ g.ok = true ∧ w = fmtR 0x2D d a b 0 g) ∧
    (decodeWord w = .ok (.gaddr g d a b) ↔ g.ok = true ∧ w = fmtR 0x2E d a b 0 g))

/-- O11. LEA, WADDR, BR, BRL, CALL, JMP, RET and LOOP compute addresses and set pc and link as their rules give. Where the guard holds: LEA writes the pc
plus 4 times the sign-extended imm11; WADDR writes w times 0x1_0000 plus the low 16 bits of ga. Nothing else changes but the pc, which moves to
the next word. Where the guard holds: BR, BRL and CALL go to the branch's address plus 4 times the signed offset, BRL and CALL writing that
address plus 4 to ga and to g31; JMP reads its target before it writes its link, so that one register may serve for both; RET goes to g31; LOOP
lowers ga by 1 mod 2^64 and branches unless it has reached 0. Nothing else changes. -/
def Obligations.CodeAddressResults : Prop :=
  (
    ∀ (g : Guard) (d a : Reg) (imm : BitVec 11) (w : BitVec 4) (s : State), s.core.holds g = true →
      exec (.lea g d imm) s = .next (s.result d (BitVec.ofInt 64 ((s.core.pc.toNat : Int) + 4 * imm.toInt))) ∧
      exec (.waddr g d a w) s = .next (s.result d (BitVec.ofNat 64 (w.toNat * 0x10000 + (s.core.rd a).toNat % 0x10000)))) ∧
  (
    ∀ (g : Guard) (d a : Reg) (off : BitVec 16) (s : State), s.core.holds g = true →
      let c := s.core
      let target : Word := BitVec.ofInt 64 ((c.pc.toNat : Int) + 4 * off.toInt)
      let link : Word := BitVec.ofNat 64 (c.pc.toNat + 4)
      let down : Word := BitVec.ofInt 64 ((c.rd a).toNat - 1)
      exec (.br g off) s = .next (s.setCore { c with pc := target }) ∧
      exec (.brl g a off) s = .next (s.setCore { c.wr a link with pc := target }) ∧
      exec (.call g off) s = .next (s.setCore { c.wr 31 link with pc := target }) ∧
      exec (.jmp g d a) s = .next (s.setCore { c.wr d link with pc := c.rd a }) ∧
      exec (.ret g) s = .next (s.setCore { c with pc := c.rd 31 }) ∧
      exec (.loop g a off) s = .next (s.setCore { c.wr a down with pc := if down = 0 then link else target }))

/-- O12. NOP only moves to the next word, and one word alone stands for it with the guard that always holds. (R186) NOP, under any guard, answers the same
state with the pc advanced by 4. A word decodes to a NOP exactly where opcode is 0x37, the fields gd, ga, gb and fn are 0 and the guard is legal;
with guard 0b0111 that word is 0x6E00_0007. -/
def Obligations.NopHasNoEffect : Prop :=
  (∀ (g : Guard) (s : State), exec (.nop g) s = .next (s.setCore { s.core with pc := s.core.pc + 4 })) ∧
  (∀ (w : Word32) (g : Guard), decodeWord w = .ok (.nop g) ↔ g.ok = true ∧ w = fmtR 0x37 0 0 0 0 g) ∧
  (∀ w : Word32, decodeWord w = .ok (.nop .always) ↔ w = 0x6E000007#32)

/-- O13. WAITE passes once its counter has reached the amount, and subtracts it. Where the guard holds: with the counter at the amount or above, WAITE
lowers the counter by the amount and moves on; below it, the core waits with nothing else changed, and WAITE_PASS does the same test: it lowers
the counter and lets the core go on with the next word once the amount is reached, and does nothing before, or while the group is asked to stop.
Passing is noted, so that an MTS of the counter in this cycle comes first or waits. That WAITE_PASS does nothing while the group is asked to stop
is the model's choice, log entry 67. That an MTS comes before the passes of a cycle is the model's choice, log entry 60. -/
def Obligations.WaitOnEventCounter : Prop :=
  (∀ (g : Guard) (n : BitVec 3) (amt : BitVec 16) (s : State), s.core.holds g = true →
    (amt.toNat ≤ (s.core.evc n).toNat →
      exec (.waite g n amt) s = .next ((s.noteServed (countPlace s.cur n) 2).setCore { s.core.setEvc n (BitVec.ofNat 32 ((s.core.evc n).toNat - amt.toNat)) with
        pc := s.core.pc + 4, wait := .none })) ∧
    ((s.core.evc n).toNat < amt.toNat → exec (.waite g n amt) s = .next (s.setCore { s.core with wait := .event n amt }))) ∧
  (∀ (m : Nat) (n : BitVec 3) (amt : BitVec 16) (s : State), (s.coreAt m).wait = .event n amt →
    ((s.groupOf m).bind (·.preempt) = none → amt.toNat ≤ ((s.coreAt m).evc n).toNat →
      exec (.waitePass m) s = .next ((s.noteServed (countPlace m n) 2).setCoreAt m { (s.coreAt m).setEvc n (BitVec.ofNat 32 (((s.coreAt m).evc n).toNat - amt.toNat)) with
        pc := (s.coreAt m).pc + 4, wait := .none })) ∧
    (((s.groupOf m).bind (·.preempt)).isSome ∨ ((s.coreAt m).evc n).toNat < amt.toNat → exec (.waitePass m) s = .next s))

/-- O14. Taking a trap saves pc, cause, code and address, marks the handler and goes to TRAPVEC; everything else stands. (R189) With INTRAP 0 and TRAPVEC
enabled, a synchronous trap leaves the state as it was but for the trapping core: EPC takes the address of the trapping word, TRAPCAUSE the code
and the cause, TRAPADDR the address, INTRAP becomes 1, the pc goes to TRAPVEC.ADDR times 4, and whatever the core waited for is over; every g
register, predicate and event counter, and every byte of memory, stays. TRAP raises it with cause 0x03 and address 0, an illegal instruction with
cause 0x01, a misalignment with cause 0x02. -/
def Obligations.TrapEntry : Prop :=
  (∀ (s : State) (cause : BitVec 8) (code : BitVec 16) (addr : Word) (c : BitVec 32), s.core.intrap = false → s.core.tvEn = true →
    s.trap cause code addr c = s.setCore { s.core with
      epc := s.core.pc, code := code, cause := cause, trapaddr := addr, intrap := true,
      pc := BitVec.ofNat 64 (4 * s.core.tvAddr.toNat), wait := .none } ∧
    s.sameBytes (s.trap cause code addr c)) ∧
  (∀ (g : Guard) (code : BitVec 16) (s : State), s.core.holds g = true →
    exec (.trap g code) s = .next (s.trap 0x03 code 0 (code.setWidth 32))) ∧
  (∀ (s : State) (a : Word), s.illegal a = s.trap 0x01 0 a 0 ∧ s.misaligned a = s.trap 0x02 0 a 0)

/-- O15. A trap inside a handler, or with TRAPVEC off, writes one record and halts the core. A synchronous trap raised while INTRAP is 1, or while TRAPVEC
is off, is not taken: one fault record is put on its way to the tenant's queue, a core record with the trap's cause, the pc as field A and the
trap's address as field B, marked halted, and marked nested exactly where INTRAP was 1; the core's status becomes halted, its registers stay, and
nothing of memory changes. -/
def Obligations.TrapHaltsOutsideAHandler : Prop :=
  ∀ (s : State) (cause : BitVec 8) (code : BitVec 16) (addr : Word) (c : BitVec 32), (s.core.intrap = true ∨ s.core.tvEn = false) →
    let t := s.trap cause code addr c
    (∃ r : FRec, t.recs = s.recs ++ [r] ∧ r.cause = cause ∧ r.kind = .core ∧ r.a = s.core.pc ∧ r.b = addr ∧ r.c = c ∧ r.halted = true ∧
      r.nested = s.core.intrap ∧ r.posted = false ∧ r.tenant = s.tenantOf (s.ctxOf s.cur) ∧ r.src = s.cur) ∧
    t.cur = s.cur ∧ t.core.status = .halted ∧ t.core.g = s.core.g ∧ t.core.p = s.core.p ∧ t.core.ec = s.core.ec ∧ t.core.pc = s.core.pc ∧
    t.core.epc = s.core.epc ∧ t.core.intrap = s.core.intrap ∧ t.mem = s.mem ∧ t.banks = s.banks ∧ t.sealed = s.sealed ∧ t.subs = s.subs

/-- O16. ERET returns to EPC and leaves the handler in one step; outside a handler it is an illegal instruction. (R191) Where the guard holds: with INTRAP
1, ERET sets the pc to EPC and INTRAP to 0 and changes nothing else; with INTRAP 0 it raises an illegal-instruction trap. A word decodes to ERET
exactly where opcode is 0x7A, the fields gd, ga, gb and fn are 0 and the guard is legal. -/
def Obligations.ReturnFromTrap : Prop :=
  (∀ (g : Guard) (s : State), s.core.holds g = true →
    (s.core.intrap = true → exec (.eret g) s = .next (s.setCore { s.core with pc := s.core.epc, intrap := false })) ∧
    (s.core.intrap = false → exec (.eret g) s = .next (s.trap 0x01 0 ((fmtR 0x7A 0 0 0 0 g).setWidth 64) 0))) ∧
  (∀ (w : Word32) (g : Guard), decodeWord w = .ok (.eret g) ↔ g.ok = true ∧ w = fmtR 0x7A 0 0 0 0 g)

/-- O17. Computing instructions change only their destination, predicates and pc of their own core. Every integer, predicate, address and branch
instruction, NOP, PREF, BSTAT, and the GLV and RATE forms: when exec answers a next state, that state differs from the one before in the current
core alone, and there in the pc, in the g registers among the instruction's destinations and in the predicates among them; every other register,
every event counter, window, port, special, trap and status register of the core, and every byte of memory and banks, is unchanged. These
instructions always answer a next state. -/
def Obligations.CoreOnlyFrame : Prop :=
  ∀ (i : Instr) (s : State), i.coreOnly = true →
    ∃ t, exec i s = .next t ∧ t = s.setCore t.core ∧ t.core = { s.core with g := t.core.g, p := t.core.p, pc := t.core.pc } ∧
      (∀ r, r ∉ i.dests → t.core.rd r = s.core.rd r) ∧ (∀ p, p ∉ i.pdests → t.core.rdp p = s.core.rdp p) ∧ s.sameBytes t

/-- O18. Misaligned accesses trap; addresses that name no memory of this package trap or, where the request is posted, are recorded. Where the guard holds
and the address is no multiple of the size, each of these raises the misalignment trap with the address and posts, reads and writes nothing: LDG,
STG, LDS, STS (8), LDGX and STGX (their size), AMO, AMOF, CAS, WAIT with different result registers, SIGNAL (8), DEC (16), ACQ, REL, BIND, UNBIND
(64), and STX on an exchange address (8). An aligned address that is no global address of this package: STG, STGX, AMO, SIGNAL, and DEC where the
form is global, put one posted record of cause 0x20 with the address on its way, change no byte and move on, and wait while 32 requests of the
core are unacknowledged; DEC on an address of another form raises the misalignment trap; LDG, AMOF, CAS, ACQ, REL, BIND and UNBIND raise the trap
of cause 0x20 with the address; STX on anything but an exchange address raises it at issue, and so does TLBI.page on what is no global address.
Where the manual leaves a point open, the model follows its own reading: log entries 22 and 23. -/
def Obligations.AddressChecks : Prop :=
  (
    ∀ (g : Guard) (d a b : Reg) (imm : BitVec 11) (sc sg : Bool) (z : Size) (op : AmoOp) (o : Ord) (p : Scope) (s : State), s.core.holds g = true →
      let x := s.core.rd a
      let xi := x + imm.signExtend 64
      let n := sizeBytes z
      let xx := x + s.core.rd b * (if sc then BitVec.ofNat 64 n else 1)
      (xi.toNat % 8 ≠ 0 → exec (.ldg g d a imm) s = .next (s.misaligned xi) ∧ exec (.stg g d a imm) s = .next (s.misaligned xi) ∧
        exec (.lds g d a imm) s = .next (s.misaligned xi) ∧ exec (.sts g d a imm) s = .next (s.misaligned xi)) ∧
      (xx.toNat % n ≠ 0 → exec (.ldgx g d a b sc sg z) s = .next (s.misaligned xx) ∧ exec (.stgx g d a b sc z) s = .next (s.misaligned xx)) ∧
      (x.toNat % 8 ≠ 0 → exec (.amo g d a op o p) s = .next (s.misaligned x) ∧ exec (.amof g d a op o p) s = .next (s.misaligned x) ∧
        exec (.cas g d a b o p) s = .next (s.misaligned x) ∧ exec (.signal g a b) s = .next (s.misaligned x) ∧
        (d ≠ b → exec (.wait g d a b) s = .next (s.misaligned x)) ∧
        (x.extractLsb' 60 4 = 8#4 → exec (.stx g d a) s = .next (s.misaligned x))) ∧
      (x.toNat % 16 ≠ 0 → exec (.dec g a) s = .next (s.misaligned x)) ∧
      (x.toNat % 64 ≠ 0 → exec (.acq g d a p) s = .next (s.misaligned x) ∧ exec (.rel g d a p) s = .next (s.misaligned x) ∧
        exec (.bind g d a b) s = .next (s.misaligned x) ∧ exec (.unbind g d a b) s = .next (s.misaligned x))) ∧
  (
    ∀ (g : Guard) (d a b : Reg) (imm : BitVec 11) (sc : Bool) (z : Size) (op : AmoOp) (o : Ord) (p : Scope) (s : State), s.core.holds g = true →
      let x := s.core.rd a
      let xi := x + imm.signExtend 64
      let xx := x + s.core.rd b * (if sc then BitVec.ofNat 64 (sizeBytes z) else 1)
      let posted (i : Instr) (v : Word) : Prop := ∃ r : FRec, exec i s = .next ((s.record r).setCore s.core.adv) ∧
        r.cause = 0x20 ∧ r.kind = .core ∧ r.posted = true ∧ r.halted = false ∧ r.a = s.core.pc ∧ r.b = v ∧ r.src = s.cur ∧
        r.tenant = s.tenantOf (s.ctxOf s.cur)
      let traps (i : Instr) (v : Word) : Prop := exec i s = .next (s.trap 0x20 0 v Config.noWalkLevel)
      let posts (i : Instr) (v : Word) : Prop := ((s.posted s.cur).length < 32 → posted i v) ∧ (32 ≤ (s.posted s.cur).length → exec i s = .next s)
      (xi.toNat % 8 = 0 → s.isGlobal xi = false → posts (.stg g d a imm) xi ∧ traps (.ldg g d a imm) xi) ∧
      (xx.toNat % sizeBytes z = 0 → s.isGlobal xx = false → posts (.stgx g d a b sc z) xx) ∧
      (x.toNat % 8 = 0 → s.isGlobal x = false → posts (.amo g d a op o p) x ∧ posts (.signal g a b) x ∧ traps (.amof g d a op o p) x ∧
        traps (.cas g d a b o p) x) ∧
      (x.toNat < 2 ^ 60 → x.toNat % 16 = 0 → s.isGlobal x = false → posts (.dec g a) x) ∧
      (2 ^ 60 ≤ x.toNat → exec (.dec g a) s = .next (s.misaligned x)) ∧
      (x.toNat % 64 = 0 → s.isGlobal x = false → traps (.acq g d a p) x ∧ traps (.rel g d a p) x ∧ traps (.bind g d a b) x ∧ traps (.unbind g d a b) x) ∧
      (x.extractLsb' 60 4 ≠ 8#4 → traps (.stx g d a) x) ∧
      (s.isGlobal x = false → traps (.tlbiPage g a) x))

/-- O19. LDG, LDGX and LDS, and the response of a load that waited, return the bytes that stand at their address. An aligned load of a global address,
with no store of its own core to these bytes still on its way, the rate limiter open and its port in turn for it, that translates for reading to
an address whose unit has no uncorrectable error: gd takes the bytes there as the tenant's key shows them, least significant first, LDGX sign- or
zero-extended from its size; the core is free and at the next word; no byte of memory changes. Otherwise the core waits for the response, and
ACCESS_RESPONSE completes it in the same way; it does nothing for a group that is asked to stop (EXIT apart) or a context that is purging. An
aligned LDS: with the window of its address attached, no store of its own core to the window on its way, the bank in turn for the core and no
failed unit among the eight bytes, gd takes the eight bytes of the live bank at the offset, and no byte changes; with the window detached it
raises the trap of cause 0x10 with the address; with the window open or draining it waits; an address that names no window raises the trap of
cause 0x10. Where the manual leaves a point open, the model follows its own reading: log entry 27. That a response waits while its group is asked
to stop is the model's choice, log entry 67. -/
def Obligations.LoadResults : Prop :=
  (
    (∀ (s s1 : State) (d : Reg) (x : Word) (z : Size) (sign : Bool) (pa f gm : Nat),
      s.isGlobal x = true → s.ownPending x (sizeBytes z) = false → s.limited x = false →
      s.translate (s.ctxOf s.cur) x false (some 15) = .ok (pa, f, gm) s1 → s1.bad pa = false →
      let raw := leNat (s1.memBytes (s1.keyOf (s.ctxOf s.cur)) pa (sizeBytes z))
      let v : Word := if sign then BitVec.ofInt 64 (toSigned (8 * sizeBytes z) raw) else BitVec.ofNat 64 raw
      let t := ((s1.scrub pa).pay x (sizeBytes z)).response d v
      s.sameBytes t ∧
      (∀ g a imm, s.core.holds g = true → x = s.core.rd a + imm.signExtend 64 → z = .b8 → sign = false → x.toNat % 8 = 0 →
        exec (.ldg g d a imm) s = .next t) ∧
      (∀ g a b sc, s.core.holds g = true → x = s.core.rd a + s.core.rd b * (if sc then BitVec.ofNat 64 (sizeBytes z) else 1) →
        x.toNat % sizeBytes z = 0 → exec (.ldgx g d a b sc sign z) s = .next t) ∧
      (∀ (s0 : State) (m : Nat) (word : Word), s = { s0 with cur := m } → (s0.coreAt m).wait = .access (.ldg d x z sign) false word →
        s0.abandons m (.ldg d x z sign) = false → exec (.accessResponse m) s0 = .next t) ∧
      (∀ (s0 : State) (m : Nat) (op : BlockOp) (word : Word), (s0.coreAt m).wait = .access op false word → s0.abandons m op = true →
        exec (.accessResponse m) s0 = .next s0)) ∧
    (∀ (s : State) (g : Guard) (d a : Reg) (imm : BitVec 11), s.core.holds g = true →
      let x := s.core.rd a + imm.signExtend 64
      x.toNat % 8 = 0 → s.isGlobal x = true → (s.ownPending x 8 || s.limited x) = true →
      exec (.ldg g d a imm) s = .next (s.setCore { s.core with wait := .access (.ldg d x .b8 false) false (wordOf (.ldg g d a imm)) }))) ∧
  (
    ∀ (s : State) (g : Guard) (d a : Reg) (imm : BitVec 11), s.core.holds g = true →
      let x := s.core.rd a + imm.signExtend 64
      let word := wordOf (.lds g d a imm)
      x.toNat % 8 = 0 →
      (2 ^ 20 ≤ x.toNat → exec (.lds g d a imm) s = .next (s.trap 0x10 0 x 0)) ∧
      (∀ (w : BitVec 4) (off : Nat), x.toNat = w.toNat * 2 ^ 16 + off → off < 2 ^ 16 →
        let at_ := s.liveBank s.cur w + off
        ((s.core.win w).state = .attached → s.ownWinPending s.cur w = false → (∀ i < 8, s.badBankUnit (at_ + i) = false) →
          let me := s.tenantOf (s.ctxOf s.cur)
          let rank := s.bankRank s.cur w 0
          s.bankLater s.cur s.cur me w rank = false →
          let t := ((s.scrubBank at_).bankServe s.cur s.cur me w rank 8).response d (bytesWord (Memory.readN s.banks at_ 8))
          exec (.lds g d a imm) s = .next t ∧ s.sameBytes t) ∧
        ((s.core.win w).state = .detached → exec (.lds g d a imm) s = .next (s.trap 0x10 0 x 0)) ∧
        ((s.core.win w).state = .opened ∨ (s.core.win w).state = .draining →
          exec (.lds g d a imm) s = .next (s.setCore { s.core with wait := .access (.lds d x) false word }))))

/-- O20. Stores, AMO, SIGNAL, DEC, BAR, BZERO and STX post one request and go on; with 32 unacknowledged they wait. With fewer than 32 requests of the
core unacknowledged, the guard true and the address aligned: STG, STGX, AMO, SIGNAL and DEC on a global address, STS on a window address, STX on
an exchange address of this package, BAR and BZERO put exactly one request on its way that carries their address and value, and move on: the
memory, the registers and everything else is as it was (BZERO also clears the tags of a tagged window). SIGNAL, DEC, BAR and the releasing
orderings of AMO mark it as a release. With 32 unacknowledged the instruction waits and the state is unchanged, BZERO of a tagged window too. -/
def Obligations.PostedInstructionsPostTheirRequest : Prop :=
  ∀ (g : Guard) (d a b : Reg) (imm : BitVec 11) (sc : Bool) (z : Size) (op : AmoOp) (o : Ord) (p : Scope) (w : BitVec 4) (s : State),
    s.core.holds g = true →
    let x := s.core.rd a
    let xi := x + imm.signExtend 64
    let xx := x + s.core.rd b * (if sc then BitVec.ofNat 64 (sizeBytes z) else 1)
    let r := decide (o = .rel ∨ o = .acqrel ∨ o = .sc)
    let goes (i : Instr) (f : FlightOp) (release : Bool) : Prop :=
      ((s.posted s.cur).length < 32 → ∃ t, exec i s = .next t ∧ s.posts t f release) ∧ (32 ≤ (s.posted s.cur).length → exec i s = .next s)
    (xi.toNat % 8 = 0 → s.isGlobal xi = true → goes (.stg g d a imm) (.store xi (wordBytes (s.core.rd d))) false) ∧
    (xx.toNat % sizeBytes z = 0 → s.isGlobal xx = true →
      goes (.stgx g d a b sc z) (.store xx ((wordBytes (s.core.rd d)).take (sizeBytes z))) false) ∧
    (x.toNat % 8 = 0 → s.isGlobal x = true → goes (.amo g d a op o p) (.amo x op (s.core.rd d) r) r ∧
      goes (.signal g a b) (.signal x ((s.core.rd b).setWidth 63)) true) ∧
    (x.toNat % 16 = 0 → s.isGlobal x = true → goes (.dec g a) (.dec x) true) ∧
    (xi.toNat % 8 = 0 → xi.toNat < 2 ^ 20 →
      goes (.sts g d a imm) (.wstore (xi.extractLsb' 16 4) (xi.toNat % 2 ^ 16) (wordBytes (s.core.rd d))) false) ∧
    (x.toNat % 8 = 0 → s.isExchange x = true → goes (.stx g d a) (.xstore x (wordBytes (s.core.rd d))) false) ∧
    goes (.bar g a p) (.bar (x.setWidth 2) p) true ∧
    ((s.core.win w).mode ≠ .tagged → goes (.bzero g w) (.bzero w 0) false) ∧
    ((s.core.win w).mode = .tagged → (s.posted s.cur).length < 32 →
      ∃ t, s.posts t (.bzero w 0) false ∧ exec (.bzero g w) s = .next (t.setCore (t.core.setWin w { (s.core.win w) with tags := [] }))) ∧
    ((s.core.win w).mode = .tagged → 32 ≤ (s.posted s.cur).length → exec (.bzero g w) s = .next s)

/-- O21. MEMORY_ACCESS writes exactly the bytes of a posted store or atomic at the translated address. A posted store or atomic that has arrived in its
turn, whose address translates for writing to pa in a unit without uncorrectable error: MEMORY_ACCESS answers a state in which the request is
applied, the bytes at pa are the stored bytes, or the old 64-bit word combined with the operand, as the tenant's key shows them, and every other
byte of memory, of the banks and of the host is unchanged (readers under other keys may see a sealed unit change). No register changes. An update
other than swap of a word that a reduction window of its tenant covers does this, or leaves every byte and joins, or makes, a combining-buffer
entry of its context, word, width and operation. That a covered update joins or makes the entry of its context, word, width and operation, or
goes to memory by itself, is the model's choice, log entry 14. -/
def Obligations.PostedMemoryRequestsApply : Prop :=
  ∀ (s s1 : State) (k pa fm gm : Nat) (f : Flight), s.memoryForm → s.flight? k = some f → s.arrived f = true → s.inOrder (s.placeOf f) (s.rankAt f) = true →
    (∀ a bs, f.op = .store a bs → s.translate f.ctx a true (some 15) = .ok (pa, fm, gm) s1 → s1.bad pa = false → pa % 128 + bs.length ≤ 128 →
      ∃ t, exec (.memoryAccess k) s = .next t ∧ t.memBytes (s1.keyOf f.ctx) pa bs.length = bs ∧ s.sameBytesBut t (s1.keyOf f.ctx) pa bs.length ∧
        t.cores = s.cores ∧ ∀ e ∈ t.flights, e.id = f.id → e.applied = true) ∧
    (∀ a op v r, f.op = .amo a op v r → s.translate f.ctx a true (some 15) = .ok (pa, fm, gm) s1 → s1.bad pa = false → pa % 128 + 8 ≤ 128 →
      let acts (t : State) : Prop := amoIs op (bytesWord (s.memBytes (s1.keyOf f.ctx) pa 8)) v (bytesWord (t.memBytes (s1.keyOf f.ctx) pa 8)) ∧
        s.sameBytesBut t (s1.keyOf f.ctx) pa 8 ∧ t.merges = s.merges
      ∃ t, exec (.memoryAccess k) s = .next t ∧ t.cores = s.cores ∧ (∀ e ∈ t.flights, e.id = f.id → e.applied = true) ∧
        ((op = .swap ∨ ∀ te, s.tenant? f.tenant = some te → ∀ w ∈ te.redwin, w.2.holds a = false) → acts t) ∧
        (acts t ∨ (s.sameBytes t ∧ ∃ p m, m ∈ findD t.merges p [] ∧ m.ctx = f.ctx ∧ m.addr.toNat % 2 ^ 50 = a.toNat % 2 ^ 50 ∧ m.wide = true ∧ m.op = op ∧
          (m.v = v ∨ ∃ m0 ∈ findD s.merges p [], m0.ctx = f.ctx ∧ m0.addr.toNat % 2 ^ 50 = a.toNat % 2 ^ 50 ∧ m0.wide = true ∧ m0.op = op ∧ amoIs op m0.v v m.v))))

/-- O22. BANK_ACCESS writes exactly the bytes of a window store, a BZERO or an exchange write in their bank. A posted request for a bank that has arrived
in its turn: a window store of a running group to an attached writable window, with no failed unit under its bytes, leaves them at the offset of
the live bank; BZERO leaves the 65,536 bytes of the live bank zero; an exchange write to a window of a core that holds a group of its tenant
leaves its bytes at the offset of the shadow bank of an exchange window, attached or draining, and of the live bank of an attached plain one,
where the window is writable; on a detached, open or draining plain window it is discarded with a record of cause 0x10, on a tagged or read-only
one with cause 0x11; one for a core that holds no group of its tenant is discarded with a record of the network queue; every other byte of the
banks, of memory and of the host is unchanged, and the request is applied. On a detached window, and on one without write permission, a window
store writes a record of cause 0x10 or 0x11 and no byte; on an open window it waits. Where the manual leaves a point open, the model follows its
own reading: log entry 61. -/
def Obligations.BankRequestsApply : Prop :=
  ∀ (s : State) (k : Nat) (f : Flight), s.memoryForm → s.flight? k = some f → s.arrived f = true → s.inOrder (s.placeOf f) (s.rankAt f) = true →
    let done (t : State) : Prop := ∀ e ∈ t.flights, e.id = f.id → e.applied = true
    let win (w : BitVec 4) : Win := (s.coreAt f.core).win w
    (∀ w off bs, f.op = .wstore w off bs → (s.group? f.group).map (·.status) = some .running →
      ((win w).state = .attached → (win w).w = true → (∀ i < bs.length, s.badBankUnit (s.liveBank f.core w + off + i) = false) →
        ∃ t, exec (.bankAccess k) s = .next t ∧ Memory.readN t.banks (s.liveBank f.core w + off) bs.length = bs ∧
          s.sameBytesButBank t (s.liveBank f.core w + off) bs.length ∧ done t) ∧
      ((win w).state = .detached ∨ (win w).state = .attached ∧ (win w).w = false →
        ∃ t r, exec (.bankAccess k) s = .next t ∧ t.recs = s.recs ++ [r] ∧ r.cause = (if (win w).state = .detached then 0x10#8 else 0x11#8) ∧
          r.b = BitVec.ofNat 64 (w.toNat * 65536 + off) ∧ r.posted = (f.kind == .core) ∧ s.sameBytes t ∧ done t) ∧
      ((win w).state = .opened → exec (.bankAccess k) s = .next s)) ∧
    (∀ w j, f.op = .bzero w j → (s.group? f.group).map (·.status) = some .running → (win w).state = .attached → (win w).w = true →
      ∃ t, exec (.bankAccess k) s = .next t ∧ (∀ i < 65536, Memory.read t.banks (s.liveBank f.core w + i) = 0) ∧
        s.sameBytesButBank t (s.liveBank f.core w) 65536 ∧ done t) ∧
    (∀ a bs w, f.op = .xstore a bs → xWin a = some w → s.swapFirst (xCore a) w f.id = false → s.holdsTenant (xCore a) f.tenant = false →
      ∃ t r, exec (.bankAccess k) s = .next t ∧ t.recs = s.recs ++ [r] ∧ r.cause = 0x11 ∧ r.kind = .network ∧ r.b = a ∧ r.tenant = f.tenant ∧ s.sameBytes t ∧ done t) ∧
    (∀ a bs, f.op = .xstore a bs → xWin a = none →
      ∃ t r, exec (.bankAccess k) s = .next t ∧ t.recs = s.recs ++ [r] ∧ r.cause = (if s.holdsTenant (xCore a) f.tenant = true then 0x10#8 else 0x11#8) ∧ r.b = a ∧
        r.tenant = f.tenant ∧ s.sameBytes t ∧ done t) ∧
    (∀ a bs w, f.op = .xstore a bs → xWin a = some w → s.swapFirst (xCore a) w f.id = false → s.holdsTenant (xCore a) f.tenant = true →
      let y := (s.coreAt (xCore a)).win w
      let goesTo (b : BankId) : Prop := (∀ i < bs.length, s.badBankUnit (bankAddr (dieOf (xCore a)) b (xOff a) + i) = false) →
        ∃ t, exec (.bankAccess k) s = .next t ∧ Memory.readN t.banks (bankAddr (dieOf (xCore a)) b (xOff a)) bs.length = bs ∧
          s.sameBytesButBank t (bankAddr (dieOf (xCore a)) b (xOff a)) bs.length ∧ done t
      let refused (c : BitVec 8) : Prop := ∃ t r, exec (.bankAccess k) s = .next t ∧ t.recs = s.recs ++ [r] ∧ r.cause = c ∧ r.b = a ∧ r.tenant = f.tenant ∧ s.sameBytes t ∧ done t
      (∀ b, (y.state = .attached ∨ y.state = .draining) → y.mode = .exchange → y.w = true → y.shadow = some b → goesTo b) ∧
      (∀ b, y.state = .attached → y.mode = .plain → y.w = true → y.bank = some b → goesTo b) ∧
      ((y.state = .detached ∨ y.state = .opened ∨ y.state = .draining ∧ y.mode = .plain) → refused 0x10) ∧
      ((y.state = .attached ∨ y.state = .draining ∧ y.mode ≠ .plain) → (y.mode = .tagged ∨ y.w = false) → refused 0x11)) ∧
    (∀ a bs w b, f.op = .xstore a bs → xWin a = some w → s.swapFirst (xCore a) w f.id = false →
      s.xDest f.tenant f.ctx (xCore a) w none = .ok b → (∀ i < bs.length, s.badBankUnit (bankAddr (dieOf (xCore a)) b (xOff a) + i) = false) →
      ∃ t, exec (.bankAccess k) s = .next t ∧ Memory.readN t.banks (bankAddr (dieOf (xCore a)) b (xOff a)) bs.length = bs ∧
        s.sameBytesButBank t (bankAddr (dieOf (xCore a)) b (xOff a)) bs.length ∧ done t)

/-- O23. AMOF and CAS return the old word and write the new one; ACQ and REL take and give back an object. On a global address, aligned, that translates
for writing to pa in a unit without error, with no store of the core to the bytes on its way, the limiter open and its port in turn for the core,
and, where AMOF or CAS releases, no request of the core unacknowledged, for REL no write of it to a region bound to the object: AMOF writes the
operation's value, CAS writes gb where the word equals gd and nothing otherwise, and both put the old word in gd; ACQ on a word whose bit 0 is 0
sets it and puts the core's locator in bits [41:16], other bits kept, and gd takes 0, on a held one nothing changes and gd takes 1; REL on a word
held by the core clears both fields and adds 1 to bits [63:48] mod 2^16, gd takes 0, otherwise nothing changes and gd takes 1. Nothing but these
eight bytes changes in memory, and of the core only gd, the pc and its wait. Where the manual leaves a point open, the model follows its own
reading: log entry 27. -/
def Obligations.AtomicsWithAResult : Prop :=
  ∀ (s s1 : State) (g : Guard) (d a b : Reg) (op : AmoOp) (o : Ord) (p : Scope) (pa fm gm : Nat), s.memoryForm → s.core.holds g = true →
    let x := s.core.rd a
    let key := s1.keyOf (s.ctxOf s.cur)
    let old := bytesWord (s.memBytes key pa 8)
    let new (t : State) : Word := bytesWord (t.memBytes key pa 8)
    let completes (i : Instr) (v : Word) (is : Word → Prop) : Prop := ∃ t, exec i s = .next t ∧ t.cur = s.cur ∧
      t.core = { (s.core.wr d v).adv with wait := .none } ∧ is (new t) ∧ s.sameBytesBut t key pa 8
    s.isGlobal x = true → s.limited x = false → s.translate (s.ctxOf s.cur) x true (some 15) = .ok (pa, fm, gm) s1 → s1.bad pa = false →
    pa % 128 + 8 ≤ 128 →
    (x.toNat % 8 = 0 → s.ownPending x 8 = false → ((o = .rel ∨ o = .acqrel ∨ o = .sc) → s.quiet = true) →
      completes (.amof g d a op o p) old (amoIs op old (s.core.rd d)) ∧
      completes (.cas g d a b o p) old (fun n => n = if old = s.core.rd d then s.core.rd b else old)) ∧
    (x.toNat % 64 = 0 → s.ownPending x 8 = false →
      (old.getLsbD 0 = false → completes (.acq g d a p) 0 (fun n => n.extractLsb' 0 1 = 1#1 ∧ n.extractLsb' 16 26 = (s.locator s.cur).extractLsb' 0 26 ∧
        n.extractLsb' 1 15 = old.extractLsb' 1 15 ∧ n.extractLsb' 42 22 = old.extractLsb' 42 22)) ∧
      (old.getLsbD 0 = true → completes (.acq g d a p) 1 (· = old))) ∧
    (x.toNat % 64 = 0 → s.boundPending x = false → s.ownPending x 8 = false →
      (old.getLsbD 0 = true ∧ (old.extractLsb' 16 26).toNat = (s.locator s.cur).toNat →
        completes (.rel g d a p) 0 (fun n => n.extractLsb' 0 1 = 0#1 ∧ n.extractLsb' 16 26 = 0#26 ∧ n.extractLsb' 1 15 = old.extractLsb' 1 15 ∧
          n.extractLsb' 42 6 = old.extractLsb' 42 6 ∧ n.extractLsb' 48 16 = old.extractLsb' 48 16 + 1)) ∧
      (¬ (old.getLsbD 0 = true ∧ (old.extractLsb' 16 26).toNat = (s.locator s.cur).toNat) → completes (.rel g d a p) 1 (· = old)))

/-- O24. Scalar instructions change no byte when they issue, but for atomics with a result and the few that write on the spot. For every scalar
instruction but AMOF, CAS, ACQ, REL, DPUSH, DPOP, DSTEAL, CLOSE and LAUNCH: when exec answers a next state, every byte of memory as every reader
sees it, every byte of the banks and every byte of host memory reads as before. Stores and the other posted forms change memory only when their
request is applied. -/
def Obligations.ScalarStoresWriteNothingAtIssue : Prop :=
  ∀ (i : Instr) (g : Guard) (s t : State), i.guard? = some g → i.writesBytes = false → exec i s = .next t → s.sameBytes t

/-- O25. A scalar instruction changes no register but its destinations, and no other special or trap register but by trapping. For every scalar
instruction and every state: when exec answers a next state, the current core is the same one, every g register and predicate that is not among
the instruction's destinations reads as before; event counters change by WAITE and MTS alone, the deque limits and the trap vector by MTS alone,
windows by the window instructions alone; and unless the instruction is ERET or MTS, the trap registers are unchanged or the core has taken a
trap, with EPC at the instruction and the pc at the handler. -/
def Obligations.ScalarRegisterFrame : Prop :=
  ∀ (i : Instr) (g : Guard) (s t : State), i.guard? = some g → exec i s = .next t →
    t.cur = s.cur ∧ (∀ r, r ∉ i.dests → t.core.rd r = s.core.rd r) ∧ (∀ p, p ∉ i.pdests → t.core.rdp p = s.core.rdp p) ∧
    (i.isMts = false → (∀ n amt, i ≠ .waite g n amt) → t.core.ec = s.core.ec) ∧
    (i.isMts = false → t.core.dqbase = s.core.dqbase ∧ t.core.dqlim = s.core.dqlim ∧ t.core.tvEn = s.core.tvEn ∧ t.core.tvAddr = s.core.tvAddr) ∧
    (i.writesWindows = false → t.core.wins = s.core.wins) ∧
    (i.isMts = false → i ≠ .eret g → s.core.sameTrapRegs t.core ∨ s.core.tookTrap t.core)

/-- O26. BIND, UNBIND, WAIT and the waking of a parked WAIT give the results of their rules. BIND on a global 64-byte-aligned address adds its binding and
gives 0, gives 1 where the home die's table holds 256 bindings of the context, 2 where the length is 0 or above 2^40 or the region wraps, and
where both hold the one or the other, which the rule leaves open (a free value, log entry 2); UNBIND removes the binding of that object and base
and gives 0, or gives 1 and changes nothing. A base that is no global address traps BIND (cause 0x20). WAIT with different registers on a full
future returns bits [62:0] and 1; on an empty one with room in the home die's wait table the core parks with an entry; with the table full and no
room to save its group it returns status 2 alone. WAITER_WAKE lets a woken core go on with the value and status 0. WAIT with one register for
both results is an illegal instruction. Where the manual leaves a point open, the model follows its own reading: log entry 24. That a second BIND
of a word and base adds a second entry, that UNBIND removes the first match, and that addresses are compared mod 2^50, is the model's choice, log
entry 83. -/
def Obligations.BindingsAndFutures : Prop :=
  (∀ (g : Guard) (d a b : Reg) (s : State), s.core.holds g = true →
    let x := s.core.rd a
    let tab := ((s.context? (s.ctxOf s.cur)).map fun c => findD c.binds (homeDie x) []).getD []
    let badLen := s.core.rd d = 0 ∨ (s.core.rd d).toNat > 2 ^ 40 ∨ (s.core.rd b).toNat + (s.core.rd d).toNat > 2 ^ 64
    let with_ (t : List (Word × Word × Word)) : State := s.modContext (s.ctxOf s.cur) fun c => { c with binds := put c.binds (homeDie x) t }
    let names (e : Word × Word × Word) : Prop := e.1.toNat % 2 ^ 50 = x.toNat % 2 ^ 50 ∧ e.2.1.toNat % 2 ^ 50 = (s.core.rd b).toNat % 2 ^ 50
    x.toNat % 64 = 0 → s.isGlobal x = true → s.isGlobal (s.core.rd b) = true → s.limited x = false →
    (tab.length < 256 → ¬ badLen → exec (.bind g d a b) s = .next ((with_ (tab ++ [(x, s.core.rd b, s.core.rd d)])).response d 0)) ∧
    (256 ≤ tab.length → ¬ badLen → exec (.bind g d a b) s = .next (s.response d 1)) ∧
    (tab.length < 256 → badLen → exec (.bind g d a b) s = .next (s.response d 2)) ∧
    (256 ≤ tab.length → badLen → exec (.bind g d a b) s
      = .next (({ s with free := s.free + 1 } : State).response d (if Config.freeBit s.free then 1 else 2))) ∧
    ((∀ e ∈ tab, ¬ names e) → exec (.unbind g d a b) s = .next (s.response d 1)) ∧
    (∀ i, i < tab.length → (∀ j, j < i → ∀ e, tab[j]? = some e → ¬ names e) → (∃ e, tab[i]? = some e ∧ names e) → exec (.unbind g d a b) s = .next ((with_ (dropAt tab i)).response d 0))) ∧
  (∀ (g : Guard) (d a b : Reg) (s : State), s.core.holds g = true → (s.core.rd a).toNat % 64 = 0 → s.isGlobal (s.core.rd a) = true →
    s.isGlobal (s.core.rd b) = false → exec (.bind g d a b) s = .next (s.trap 0x20 0 (s.core.rd b) Config.noWalkLevel)) ∧
  (∀ (g : Guard) (d a u : Reg) (s s1 : State) (pa fm gm : Nat), s.core.holds g = true → d ≠ u →
    let x := s.core.rd a
    let w := bytesWord (s1.memBytes (s1.keyOf (s.ctxOf s.cur)) pa 8)
    let s2 := (s1.scrub pa).pay x 8
    x.toNat % 8 = 0 → s.isGlobal x = true → s.ownPending x 8 = false → s.limited x = false →
    s.translate (s.ctxOf s.cur) x false (some 15) = .ok (pa, fm, gm) s1 → s1.bad pa = false →
    (w.getLsbD 63 = true → exec (.wait g d a u) s
      = .next (s2.setCore { ((s.core.wr d (BitVec.ofNat 64 (w.toNat % 2 ^ 63))).wr u 1).adv with wait := .none })) ∧
    (w.getLsbD 63 = false → (s2.waits.filter fun e => e.1 / 2 ^ 46 == homeDie x).length < 256 → exec (.wait g d a u) s
      = .next { s2.setCore { s.core with wait := .parked d u x } with waits := s2.waits ++ [(pa, x, s.cur)] }) ∧
    (w.getLsbD 63 = false → 256 ≤ (s2.waits.filter fun e => e.1 / 2 ^ 46 == homeDie x).length →
      (∀ y, s2.groupOf s.cur = some y → s2.canSave y = false) → exec (.wait g d a u) s = .next (s2.response u 2))) ∧
  (∀ (s : State) (m : Nat) (d u : Reg) (v : Word), (s.coreAt m).wait = .woken d u v → (s.groupOf m).bind (·.preempt) = none →
    exec (.waiterWake m) s = .next (s.setCoreAt m { (((s.coreAt m).wr d v).wr u 0).adv with wait := .none })) ∧
  (∀ (g : Guard) (d a : Reg) (s : State), s.core.holds g = true →
    exec (.wait g d a d) s = .next (s.trap 0x01 0 ((fmtR 0x52 d a d 0 g).setWidth 64) 0))

/-- O27. SIGNAL_APPLY fills the future at its home port and wakes every waiter parked on it. A SIGNAL that has arrived in its turn, whose address
translates for writing to pa in a unit without error: the word at pa becomes the value with bit 63 set, no other byte changes, the wait table
keeps no entry of that word, and every core parked with such an entry is woken with the value. The acknowledgement of a request that has been
applied takes it out of flight, and that of a SIGNAL pulses source 31 of its core. -/
def Obligations.FutureFillWakesWaiters : Prop :=
  (∀ (s s1 : State) (k pa fm gm : Nat) (f : Flight) (a : Word) (v : BitVec 63), s.memoryForm → s.flight? k = some f → f.op = .signal a v →
    s.arrived f = true → s.inOrder (s.placeOf f) (s.rankAt f) = true → s.translate f.ctx a true (some 15) = .ok (pa, fm, gm) s1 → s1.bad pa = false →
    pa % 128 + 8 ≤ 128 →
    ∃ t, exec (.signalApply k) s = .next t ∧ (bytesWord (t.memBytes (s1.keyOf f.ctx) pa 8)).toNat = 2 ^ 63 + v.toNat ∧
      s.sameBytesBut t (s1.keyOf f.ctx) pa 8 ∧ (∀ e ∈ t.waits, e.1 ≠ pa) ∧
      (∀ e ∈ s.waits, e.1 = pa → ∀ d u x, (s.coreAt e.2.2).wait = .parked d u x → (t.coreAt e.2.2).wait = .woken d u (v.setWidth 64)) ∧
      (∀ m, (∀ e ∈ s.waits, e.1 = pa → e.2.2 ≠ m) → t.coreAt m = s.coreAt m)) ∧
  (∀ (s : State) (k : Nat) (f : Flight), s.flight? k = some f → f.applied = true →
    exec (.postedRequestAcknowledged k) s = .next { s with
      flights := s.flights.filter fun e => e.id != k
      pulses := match f.op with
        | .signal _ _ => s.pulses ++ [⟨f.core, 31⟩]
        | _ => s.pulses })

/-- O28. FENCE, PREF, BARW, BARW_RESUME and the TLBI forms complete as their rules say. With no request of the core unacknowledged: FENCE moves on;
TLBI.page on a global address and TLBI.ctx drop the combined translations that they name, let the spilled elements they cover be tried again, and
move on; BARW waits on its phase with its arrival applied, or already counted, or, where the phase has taken an arrival of a higher source in
this cycle, tries again. With a request unacknowledged, FENCE, TLBI.ctx and BARW wait. PREF always moves on and changes nothing. BARW_RESUME lets
a core go on whose phase is complete, once, at barrier 0, no core of its group in its scope has a swap waiting, and its group is not asked to
stop. Where the manual leaves a point open, the model follows its own reading: log entry 27. That BARW_RESUME waits while the group is asked to
stop is the model's choice, log entry 67. That TLBI.page drops the 64 MiB page that the tables hold there is the model's choice, log entry 26. -/
def Obligations.FencesAndBarrierWaits : Prop :=
  (∀ (g : Guard) (a : Reg) (imm : BitVec 11) (o : Ord) (p : Scope) (s : State), s.core.holds g = true →
    let ctx := s.ctxOf s.cur
    let free (t : State) : State := t.setCore { t.core.adv with wait := .none }
    let waits (op : BlockOp) (i : Instr) : State := s.setCore { s.core with wait := .access op false (wordOf i) }
    exec (.pref g a imm) s = .next (s.setCore s.core.adv) ∧
    (s.quiet = true → exec (.fence g o p) s = .next (free s) ∧
      exec (.tlbiCtx g) s = .next (free { s with
        tlb := s.tlb.filter fun e => e.ctx != ctx
        spill := s.spill.map fun x => if x.ctx == ctx && !x.stage2 then { x with retry := true } else x }) ∧
      (s.isGlobal (s.core.rd a) = true → exec (.tlbiPage g a) s = .next (free (s.tlbiPage ctx (s.core.rd a)))) ∧
      (∀ k x, s.core.group = some k → s.group? k = some x →
        let b : BitVec 2 := (s.core.rd a).setWidth 2
        let s1 := s.setCore { s.core with wait := .barrier b p false }
        let place := phasePlace k (phaseKey b p s.cur)
        let here := s.cur ∈ (x.phase b p s.cur).arrived.map (·.1)
        (here → exec (.barw g a p) s = .next s1) ∧
        (¬ here → s.inOrder place (rankOf s.cur 0) = true →
          exec (.barw g a p) s = .next ((s1.noteServed place (rankOf s.cur 0)).arrive k b p s.cur none s1.nextId)) ∧
        (¬ here → s.inOrder place (rankOf s.cur 0) = false → exec (.barw g a p) s = .next (waits (.barw b p) (.barw g a p))))) ∧
    (s.quiet = false → exec (.fence g o p) s = .next (waits .fence (.fence g o p)) ∧
      exec (.tlbiCtx g) s = .next (waits .tlbiCtx (.tlbiCtx g)) ∧
      exec (.barw g a p) s = .next (waits (.barw ((s.core.rd a).setWidth 2) p) (.barw g a p)))) ∧
  (∀ (s : State) (m : Nat) (b : BitVec 2) (p : Scope), (s.coreAt m).wait = .barrier b p true →
    let swapping (n : Nat) : Prop := b = 0 ∧ ∃ x, s.groupOf m = some x ∧ n ∈ x.cores ∧ scopeInst p n = scopeInst p m ∧ (s.coreAt n).swaps ≠ []
    ((∀ n, ¬ swapping n) → (s.groupOf m).bind (·.preempt) = none →
      exec (.barwResume m) s = .next (s.setCoreAt m { (s.coreAt m).adv with wait := .none })) ∧
    ((∃ n, swapping n) ∨ ((s.groupOf m).bind (·.preempt)).isSome → exec (.barwResume m) s = .next s))

/-- O29. BARRIER_ARRIVAL counts an arrival; the last one completes the phase and releases the cores that wait on it. An arrival of BAR that has come in
its turn, of a core that has not arrived in the phase: while arrivals and the cores of the scope that are gone do not reach the expected count,
the phase holds one arrival more and the core among its arrived; where they reach it, the phase is reset and every core of the group in that
scope instance that waits on the phase may resume. A second arrival of one core in a phase writes a record of cause 0x38 and is not counted. -/
def Obligations.BarrierArrivals : Prop :=
  ∀ (s : State) (k : Nat) (f : Flight) (b : BitVec 2) (p : Scope) (x : Group), s.flight? k = some f → f.op = .bar b p → s.arrived f = true →
    s.inOrder (s.placeOf f) (s.rankAt f) = true → s.group? f.group = some x → x.status ≠ .preempted →
    let ph := if (x.phase b p f.core).busy then x.phase b p f.core else
      { x.phase b p f.core with busy := true, expected := x.expected b p f.core, sets := x.tapset, since := s.cycle }
    let ph1 : Phase := { ph with count := ph.count + 1, arrived := ph.arrived ++ [(f.core, f.id)] }
    (f.core ∉ ph.arrived.map (·.1) →
      (ph1.count + s.goneArrivals x ph1 p f.core < ph1.expected →
        ∃ t y, exec (.barrierArrival k) s = .next t ∧ t.group? f.group = some y ∧ y.phase b p f.core = ph1 ∧ t.cores = s.cores) ∧
      (ph1.expected ≤ ph1.count + s.goneArrivals x ph1 p f.core →
        ∃ t y, exec (.barrierArrival k) s = .next t ∧ t.group? f.group = some y ∧ y.phase b p f.core = {} ∧
          ∀ m ∈ x.cores, scopeInst p m = scopeInst p f.core → (s.coreAt m).wait = .barrier b p false → (t.coreAt m).wait = .barrier b p true)) ∧
    (f.core ∈ ph.arrived.map (·.1) → ∃ t r, exec (.barrierArrival k) s = .next t ∧ t.recs = s.recs ++ [r] ∧ r.cause = 0x38 ∧ r.a = b.setWidth 64 ∧
      r.tenant = x.tenant ∧ t.groups = s.groups)

/-- O30. COUNTER_DECREMENT lowers a counter by 1, releases its held block at zero, and records an underflow. A decrement that has arrived in its turn,
whose counter can be read: with the count above 1, or at 1 and not armed, the count goes down by 1 and the other twelve bytes are written as they
were; at 1 and armed, the count becomes 0, the armed bit is cleared, and the held block is read, validated and enqueued at the counter's die, or,
while the bucket of the tenant there is below zero, its read waits; at 0, nothing is written and one record of cause 0x30 names the counter and
the source. -/
def Obligations.CounterDecrements : Prop :=
  ∀ (s s1 : State) (k : Nat) (f : Flight) (a : Word) (c : List Byte), s.flight? k = some f → f.op = .dec a → s.arrived f = true →
    s.inOrder (s.placeOf f) (s.rankAt f) = true → s.load f.ctx a 16 (some 15) = .ok c s1 →
    let n := leNat (c.take 4)
    let armed := (leNat ((c.drop 4).take 1)) % 2 = 1
    (n = 0 → ∃ r : FRec, exec (.counterDecrement k) s = .next ((s1.record r).applied f) ∧ r.cause = 0x30 ∧ r.kind = .memport ∧ r.a = a ∧
      r.c = BitVec.ofNat 32 f.src) ∧
    (∀ s2, 0 < n → ¬ (n = 1 ∧ armed) → s1.store f.ctx a (leBytes 4 (n - 1) ++ c.drop 4) (some 15) = .ok () s2 →
      exec (.counterDecrement k) s = .next (s2.applied f)) ∧
    (∀ s2 s3 blk, n = 1 → armed → s2.bucketLow (homeDie a) (s2.tenantOf f.ctx) = false →
      s1.store f.ctx a (leBytes 4 0 ++ [BitVec.ofNat 8 (leNat ((c.drop 4).take 1) / 2 * 2)] ++ c.drop 5) (some 15) = .ok () s2 →
      let addr := BitVec.ofNat 64 (leNat ((c.drop 8).take 8))
      s2.readBlock { ctx := f.ctx, die := homeDie a, kind := .memport, loc := portLoc (homePort a), src := portSrc (homePort a), a := addr } addr
        = .pass blk s3 →
      exec (.counterDecrement k) s = .next ((s3.enqueue addr blk f.ctx (homeDie a)).1.applied f)) ∧
    (∀ s2, n = 1 → armed → s2.bucketLow (homeDie a) (s2.tenantOf f.ctx) = true →
      s1.store f.ctx a (leBytes 4 0 ++ [BitVec.ofNat 8 (leNat ((c.drop 4).take 1) / 2 * 2)] ++ c.drop 5) (some 15) = .ok () s2 →
      ∃ (t : State) (u : Submission), exec (.counterDecrement k) s = .next t ∧ t.subs = s2.subs ++ [u] ∧ s2.sameBytes t ∧ u.fresh = true ∧ u.held = false ∧
        u.addr = BitVec.ofNat 64 (leNat ((c.drop 8).take 8)) ∧ u.ctx = f.ctx ∧ u.die = homeDie a)

/-- O31. BSTAT, OPEN, CLOSE and SWAPB act on window states as their rules give, and GIVE hands a bank over. Where the guard holds: OPEN makes a detached
window open, with the mode and write permission given and an empty tag table, and gives 0; otherwise it gives 1 and changes nothing else; in a
cycle in which a give has reached the window it waits. CLOSE gives 1 on a detached window, makes an open unreserved one detached, and, with no
access to its bank under way, an attached one, whose live and shadow banks are zeroed for the pool; a reserved or draining window makes it wait.
SWAPB exchanges the banks of two attached windows of one mode other than exchange and clears both tag tables, or live and shadow bank of an
exchange window, waits while an earlier access to either is under way, and gives 1 or 2 otherwise. BSTAT shows state, mode, permission and bank
of the window, its shadow bank and the accesses under way. Where the guard holds: the status of GIVE is the first that applies of 2 (the locator
names no available core of this die), 3 (the local window is not attached), 4 (it is an exchange window), 6 (the core belonged to a group of the
context that is pre-empted), 5 (it runs no group of the context), 1 (the target window is not open, or reserved), and then gd takes it and
nothing else changes; a give that reaches its target behind one of a higher source in one cycle waits for the next. Otherwise the target window
is reserved, the local window drains and the core waits. GIVE_DRAIN_DONE, once every earlier access to the bank is done, detaches the local
window, attaches the bank to the target window, and gd takes 0. That a drain waits for no command that may not start, and what a drain or a swap
is charged, is the model's choice, log entries 90 and 92. -/
def Obligations.WindowStatesAndGives : Prop :=
  (
    ∀ (g : Guard) (d a : Reg) (rw tagged : Bool) (w : BitVec 4) (s : State), s.core.holds g = true →
      let c := s.core
      let x := c.win w
      let busy (v : BitVec 4) : Bool := s.draining s.cur v s.nextId
      let waits (op : BlockOp) (i : Instr) : State := s.setCore { c with wait := .access op false (wordOf i) }
      let ends (c1 : CoreSt) (v : Word) : State := s.setCore { (c1.wr d v).adv with wait := .none }
      let swapped (c1 : CoreSt) : State := (s.drainCharge (dieOf s.cur) (s.tenantOf (s.ctxOf s.cur))).setCore { (c1.wr d 0).adv with wait := .none }
      let w2 : BitVec 4 := (c.rd a).setWidth 4
      let y := c.win w2
      (x.state = .detached → s.inOrder (winPlace s.cur w) 0 = true → exec (.openw g d rw tagged w) s = .next (s.setCore
        ((c.setWin w { state := .opened, mode := if tagged then .tagged else .plain, w := rw }).wr d 0).adv)) ∧
      (x.state ≠ .detached → s.inOrder (winPlace s.cur w) 0 = true → exec (.openw g d rw tagged w) s = .next (s.result d 1)) ∧
      (s.inOrder (winPlace s.cur w) 0 = false → exec (.openw g d rw tagged w) s = .next s) ∧
      (x.state = .detached → exec (.close g d w) s = .next (ends c 1)) ∧
      (x.state = .opened → x.resv = false → exec (.close g d w) s = .next (ends (c.setWin w {}) 0)) ∧
      (x.state = .opened ∧ x.resv = true ∨ x.state = .draining ∨ x.state = .attached ∧ busy w = true →
        exec (.close g d w) s = .next (waits (.close d w s.nextId) (.close g d w))) ∧
      (x.state = .attached → busy w = false → ∃ t, exec (.close g d w) s = .next t ∧ t.cores = (ends (c.setWin w {}) 0).cores ∧ (s.memoryForm →
        ∀ i, Memory.read t.banks i = if ∃ b ∈ x.bank.toList ++ x.shadow.toList, bankAddr (dieOf s.cur) b 0 ≤ i ∧ i < bankAddr (dieOf s.cur) b 0 + 65536
          then 0 else Memory.read s.banks i)) ∧
      (x.state ≠ .attached ∨ y.state ≠ .attached → exec (.swapb g d a w) s = .next (ends c 1)) ∧
      (x.state = .attached → y.state = .attached → (w = w2 ∧ x.mode ≠ .exchange ∨ w ≠ w2 ∧ (x.mode ≠ y.mode ∨ x.mode = .exchange)) →
        exec (.swapb g d a w) s = .next (ends c 2)) ∧
      (w = w2 → x.state = .attached → x.mode = .exchange → busy w = false →
        exec (.swapb g d a w) s = .next (swapped (c.setWin w { x with bank := x.shadow, shadow := x.bank }))) ∧
      (w ≠ w2 → x.state = .attached → y.state = .attached → x.mode = y.mode → x.mode ≠ .exchange → busy w = false → busy w2 = false →
        exec (.swapb g d a w) s = .next (swapped ((c.setWin w { x with bank := y.bank, tags := [] }).setWin w2 { y with bank := x.bank, tags := [] }))) ∧
      (x.state = .attached → y.state = .attached → (w = w2 ∧ x.mode = .exchange ∨ w ≠ w2 ∧ x.mode = y.mode ∧ x.mode ≠ .exchange) → busy w = true ∨ busy w2 = true →
        exec (.swapb g d a w) s = .next (waits (.swapb d w w2 s.nextId) (.swapb g d a w))) ∧
      (∃ v : Word, exec (.bstat g d w) s = .next (s.result d v) ∧ (v.extractLsb' 11 2).toNat = x.state.code ∧
        (v.extractLsb' 16 16).toNat = min (s.pending s.cur w) 0xFFFF ∧ v.extractLsb' 43 21 = 0#21 ∧
        v.extractLsb' 32 11 = (x.shadow.map fun b => 1#1 ++ b.quad ++ b.bank).getD 0 ∧
        (x.state = .attached ∨ x.state = .draining → v.getLsbD 15 = x.w ∧ (v.extractLsb' 13 2).toNat = x.mode.code ∧ v.getLsbD 10 = true ∧
          v.extractLsb' 0 10 = (x.bank.map fun b => b.quad ++ b.bank).getD 0) ∧
        (x.state = .detached ∨ x.state = .opened → v.extractLsb' 13 3 = 0#3 ∧ v.extractLsb' 0 11 = 0#11))) ∧
  (
    (∀ (g : Guard) (d a b : Reg) (w : BitVec 4) (s : State), s.core.holds g = true →
      let x := s.core.win w
      let w2 : BitVec 4 := (s.core.rd b).setWidth 4
      let ctx := s.ctxOf s.cur
      (s.named (s.core.rd a) = none → exec (.give g d a b w) s = .next (s.result d 2)) ∧
      (∀ t, s.named (s.core.rd a) = some t →
        let y := (s.coreAt t).win w2
        let st : Nat := if dieOf t ≠ dieOf s.cur ∨ s.available t = false then 2
          else if x.state ≠ .attached then 3
          else if x.mode = .exchange then 4
          else if ∃ e ∈ s.groups, e.2.ctx = ctx ∧ e.2.status = .preempted ∧ t ∈ e.2.cores then 6
          else if ¬ ∃ z, s.groupOf t = some z ∧ z.ctx = ctx ∧ z.status = .running then 5
          else if y.state ≠ .opened ∨ y.resv = true then 1 else 0
        let turn := s.inOrder (winPlace t w2) (1 + s.cur)
        (2 ≤ st → exec (.give g d a b w) s = .next (s.result d (BitVec.ofNat 64 st))) ∧
        (st = 1 → turn = true → exec (.give g d a b w) s = .next ((s.noteServed (winPlace t w2) (1 + s.cur)).result d 1)) ∧
        (st ≤ 1 → turn = false → exec (.give g d a b w) s = .next s) ∧
        (st = 0 → turn = true → ∃ t1, exec (.give g d a b w) s = .next t1 ∧ ((t1.coreAt t).win w2).resv = true ∧ (t1.core.win w).state = .draining ∧
          (t1.core.win w).bank = x.bank ∧ t1.core.wait = .access (.give d w t w2 s.nextId) false (wordOf (.give g d a b w)) ∧ t1.core.pc = s.core.pc ∧
          t1.core.g = s.core.g ∧ (∀ m, m ≠ t → m ≠ s.cur → t1.coreAt m = s.coreAt m) ∧ s.sameBytes t1))) ∧
    (∀ (s : State) (m n : Nat) (d : Reg) (w w2 : BitVec 4) (below : Nat) (word : Word), (s.coreAt m).wait = .access (.give d w n w2 below) false word → (n ≠ m ∨ w2 ≠ w) →
      (s.draining m w below = false → ∃ t, exec (.giveDrainDone m) s = .next t ∧ (t.coreAt m).win w = {} ∧
        ((t.coreAt n).win w2) = { (s.coreAt n).win w2 with state := .attached, bank := ((s.coreAt m).win w).bank, resv := false } ∧
        (n ≠ m → t.coreAt m = { (((s.coreAt m).setWin w {}).wr d 0).adv with wait := .none }) ∧
        (n = m → t.coreAt m = { ((((s.coreAt m).setWin w {}).wr d 0).adv.setWin w2 ((t.coreAt n).win w2)) with wait := .none }) ∧ s.sameBytes t) ∧
      (s.draining m w below = true → ∃ t, exec (.giveDrainDone m) s = .next t ∧ t.coreAt m = s.coreAt m ∧ t.coreAt n = s.coreAt n ∧ s.sameBytes t)))

/-- O32. TLOOK, TSET, TINV and TCLR act on the tag table of an attached tagged window. Where the guard holds and the window is attached and tagged: TLOOK
gives the window address of the lowest slot whose valid entry holds tag ga[63:10], with ga[9:0] below, and all ones where none does; TSET makes
entry ga[5:0] valid with tag gb[63:10]; TINV makes entry ga[5:0] invalid, TCLR all of them; no other entry and no byte of the bank changes. On a
detached window each raises the trap of cause 0x10, on an attached one that is not tagged the illegal-instruction trap, and on an open or
draining one it waits. That the trap address is that of the first byte of the window is the model's choice, log entry 82. -/
def Obligations.TagInstructionResults : Prop :=
  ∀ (g : Guard) (d a b : Reg) (w : BitVec 4) (s : State), s.core.holds g = true →
    let c := s.core
    let x := c.win w
    let tag (v : Word) : Nat := v.toNat / 2 ^ 10
    let slot := (c.rd a).toNat % 64
    let base : Word := (w.setWidth 64) <<< 16
    let tags (t : Tbl (BitVec 54)) : CoreSt := c.setWin w { x with tags := t }
    let ends (c1 : CoreSt) : State := s.setCore { c1.adv with wait := .none }
    let forms : List (Instr × BlockOp) := [(.tlook g d a w, .tlook d w (c.rd a)), (.tset g a b w, .tset w (c.rd a) (c.rd b)),
      (.tinv g a w, .tinv w (c.rd a)), (.tclr g w, .tclr w)]
    (x.state = .attached → x.mode = .tagged →
      (∀ i t, (i, t) ∈ x.tags → t.toNat = tag (c.rd a) → (∀ j u, (j, u) ∈ x.tags → u.toNat = tag (c.rd a) → i ≤ j) → x.tags.wf = true →
        exec (.tlook g d a w) s = .next (ends (c.wr d (BitVec.ofNat 64 (w.toNat * 0x10000 + i * 0x400 + (c.rd a).toNat % 0x400))))) ∧
      ((∀ i t, (i, t) ∈ x.tags → t.toNat ≠ tag (c.rd a)) → exec (.tlook g d a w) s = .next (ends (c.wr d (BitVec.allOnes 64)))) ∧
      (∃ t, exec (.tset g a b w) s = .next (ends (tags t)) ∧ find t slot = some (BitVec.ofNat 54 (tag (c.rd b))) ∧
        ∀ i, i ≠ slot → find t i = find x.tags i) ∧
      (∃ t, exec (.tinv g a w) s = .next (ends (tags t)) ∧ (x.tags.wf = true → find t slot = none) ∧ ∀ i, i ≠ slot → x.tags.wf = true → find t i = find x.tags i) ∧
      exec (.tclr g w) s = .next (ends (tags []))) ∧
    (∀ f ∈ forms,
      (x.state = .detached → exec f.1 s = .next (s.trap 0x10 0 base 0)) ∧
      (x.state = .attached → x.mode ≠ .tagged → exec f.1 s = .next (s.trap 0x01 0 (wordOf f.1) 0)) ∧
      (x.state = .opened ∨ x.state = .draining → exec f.1 s = .next (s.setCore { c with wait := .access f.2 false (wordOf f.1) })))

/-- O33. DPUSH, DPOP and DSTEAL act on the deque as one step at its bank. With a valid deque of m entries at B whose words, each through its own window,
the core may reach now (attached, writable where it writes, with no store of the core under way there, the bank in turn, no failed unit), t and b
its two words: DPUSH of a full deque gives 1, of another it writes ga at entry b mod m and b + 1, and gives 0; DPOP of an empty one gives 0 and
1, of another it lowers b, returns entry b mod m of the lowered b, and gives 0; DSTEAL does so at the other end of the deque of a core of this
die that runs the context, adding 1 to t, and gives status 2 for any other victim, and where a word of the victim's deque that it needs lies in a
window that is not attached, or beyond the windows. No byte of the banks changes but the two words named. In DPUSH and DPOP the first word of the
own deque that lies at or past byte 2^20, beyond the windows, with the words before it reachable, traps with cause 0x10 and its address; an
invalid own deque, or one register for both results, is an illegal instruction. Where the manual leaves a point open, the model follows its own
reading: log entry 25. -/
def Obligations.DequeResults : Prop :=
  ∀ (s : State) (g : Guard) (d u a : Reg), s.memoryForm → s.core.holds g = true → s.badBank = [] →
    let c := s.core
    let me := s.tenantOf (s.ctxOf s.cur)
    let wof (p : Nat) : BitVec 4 := BitVec.ofNat 4 (p / 65536)
    let place (n p : Nat) : Nat := s.liveBank n (wof p) + p % 65536
    let word (n p : Nat) : Word := bytesWord (Memory.readN s.banks (place n p) 8)
    let ends (t : State) (f : CoreSt → CoreSt) : Prop := t.core = { (f c).adv with wait := .none }
    let rank (w : BitVec 4) : Nat := s.bankRank s.cur w 0
    let free (n p : Nat) (r : Nat) : Prop := p < 2 ^ 20 ∧ ((s.coreAt n).win (wof p)).state = .attached ∧ s.ownWinPending n (wof p) = false ∧
      s.bankLater s.cur n me (wof p) r = false
    let up (p : Nat) : Prop := free s.cur p (rank (wof p)) ∧ (c.win (wof p)).w = true
    (∀ bb m, c.deque = some (bb, m) → up bb → up (bb + 8) →
      let t := word s.cur bb
      let b := word s.cur (bb + 8)
      let e (i : Word) : Nat := bb + 16 + 8 * (i.toNat % m)
      ((b - t).toNat = m → exec (.dpush g d a) s = .next ((s.wordsServed s.cur rank [bb, bb + 8]).response d 1)) ∧
      ((b - t).toNat ≠ m → up (e b) → place s.cur (e b) + 8 ≤ place s.cur (bb + 8) ∨ place s.cur (bb + 8) + 8 ≤ place s.cur (e b) →
        ∃ s1, exec (.dpush g d a) s = .next s1 ∧ ends s1 (·.wr d 0) ∧
          bytesWord (Memory.readN s1.banks (place s.cur (e b)) 8) = c.rd a ∧ bytesWord (Memory.readN s1.banks (place s.cur (bb + 8)) 8) = b + 1 ∧
          ∀ i, ¬ (place s.cur (e b) ≤ i ∧ i < place s.cur (e b) + 8) → ¬ (place s.cur (bb + 8) ≤ i ∧ i < place s.cur (bb + 8) + 8) →
            Memory.read s1.banks i = Memory.read s.banks i) ∧
      (d ≠ u → b = t → exec (.dpop g d u) s
        = .next ((s.wordsServed s.cur rank [bb, bb + 8]).setCore { ((c.wr d 0).wr u 1).adv with wait := .none })) ∧
      (d ≠ u → b ≠ t → free s.cur (e (b - 1)) (rank (wof (e (b - 1)))) →
        ∃ s1, exec (.dpop g d u) s = .next s1 ∧ ends s1 (fun c => (c.wr d (word s.cur (e (b - 1)))).wr u 0) ∧
        bytesWord (Memory.readN s1.banks (place s.cur (bb + 8)) 8) = b - 1 ∧ s.sameBytesButBank s1 (place s.cur (bb + 8)) 8)) ∧
    (∀ bb m, c.deque = some (bb, m) → up bb →
      let t := word s.cur bb
      let b := word s.cur (bb + 8)
      let e (i : Word) : Nat := bb + 16 + 8 * (i.toNat % m)
      let beyond (i : Instr) (p : Nat) : Prop := 2 ^ 20 ≤ p → exec i s = .next (s.trap 0x10 0 (BitVec.ofNat 64 p) 0)
      beyond (.dpush g d a) (bb + 8) ∧ (d ≠ u → beyond (.dpop g d u) (bb + 8)) ∧
      (up (bb + 8) → (b - t).toNat ≠ m → beyond (.dpush g d a) (e b)) ∧ (up (bb + 8) → d ≠ u → b ≠ t → beyond (.dpop g d u) (e (b - 1)))) ∧
    (c.deque = none → exec (.dpush g d a) s = .next (s.trap 0x01 0 (wordOf (.dpush g d a)) 0) ∧
      (d ≠ u → exec (.dpop g d u) s = .next (s.trap 0x01 0 (wordOf (.dpop g d u)) 0))) ∧
    exec (.dpop g d d) s = .next (s.trap 0x01 0 (wordOf (.dpop g d d)) 0) ∧ exec (.dsteal g d a d) s = .next (s.trap 0x01 0 (wordOf (.dsteal g d a d)) 0) ∧
    (d ≠ u → s.named (c.rd a) = none → exec (.dsteal g d a u) s = .next (s.setCore { ((c.wr d 0).wr u 2).adv with wait := .none })) ∧
    (∀ v, d ≠ u → s.named (c.rd a) = some v →
      ((dieOf v ≠ dieOf s.cur ∨ (¬ ∃ z, s.groupOf v = some z ∧ z.ctx = s.ctxOf s.cur ∧ z.status = .running) ∨ (s.coreAt v).deque = none) →
        exec (.dsteal g d a u) s = .next (s.setCore { ((c.wr d 0).wr u 2).adv with wait := .none })) ∧
      (∀ z bb m, dieOf v = dieOf s.cur → s.groupOf v = some z → z.ctx = s.ctxOf s.cur → z.status = .running → (s.coreAt v).deque = some (bb, m) →
        let t := word v bb
        let e := bb + 16 + 8 * (t.toNat % m)
        let far (w : BitVec 4) : Nat := if v = s.cur then rank w else netRank s.cur 0
        let away (p : Nat) : Prop := 2 ^ 20 ≤ p ∨ ((s.coreAt v).win (wof p)).state ≠ .attached
        (away bb ∨ away (bb + 8) ∨ word v (bb + 8) ≠ t ∧ away e → exec (.dsteal g d a u) s = .next (s.setCore { ((c.wr d 0).wr u 2).adv with wait := .none })) ∧
        (free v bb (far (wof bb)) → free v (bb + 8) (far (wof (bb + 8))) →
        (word v (bb + 8) = t → exec (.dsteal g d a u) s
          = .next ((s.wordsServed v far [bb, bb + 8]).setCore { ((c.wr d 0).wr u 1).adv with wait := .none })) ∧
        (word v (bb + 8) ≠ t → free v e (far (wof e)) → ∃ s1, exec (.dsteal g d a u) s = .next s1 ∧ ends s1 (fun c => (c.wr d (word v e)).wr u 0) ∧
          bytesWord (Memory.readN s1.banks (place v bb) 8) = t + 1 ∧ s.sameBytesButBank s1 (place v bb) 8))))

/-- O34. ISSUE and ISSUEX queue a command-store entry at its port in issue order; CDRAIN waits for the commands issued before it. Where the guard holds:
ISSUE takes entry cmd with the overrides ga and gb, ISSUEX entry (cmd + ga[7:0]) mod 256 with gb as its address override. With fewer than 8
commands in the queue of the port that the entry's word names (port 0 for an entry that holds no command), the command goes to the tail of that
queue with its index, overrides, the context's SPD and the next number of the order in which requests and commands are issued, a load with the
marks that a SEGMARK left for it, and the core moves on, or, with .wt, waits for the command's completion; with 8 queued the instruction waits
and nothing changes. CDRAIN moves on once no port of its mask, or, for a mask of 0, no port at all, has an earlier command that has not
completed, and waits before. -/
def Obligations.CommandIssue : Prop :=
  ∀ (g : Guard) (cmd : BitVec 8) (a b : Reg) (wt : Bool) (s : State), s.core.holds g = true →
    let c := s.core
    let queues (i : Instr) (idx : Nat) (ao co : Word) : Prop := ∃ (q : QCmd) (p : BitVec 4),
      (∀ w, (s.cmdsOf s.cur)[idx]? = some w → p = w.extractLsb' 116 4 ∧ q = { word := w, index := idx, addrOv := ao, cntOv := co, spd := s.spdOf (s.ctxOf s.cur), id := c.issued, num := s.nextId }) ∧
      ((s.cmdsOf s.cur)[idx]? = none → p = 0 ∧ q = { word := 0, index := idx, empty := true, id := c.issued, num := s.nextId }) ∧
      ((c.port p).queue.length < 8 → exec i s = .next (State.setCore { s with nextId := s.nextId + 1 } { c.setPort p { (c.port p).marked q |>.1 with queue := (c.port p).queue ++ [((c.port p).marked q).2] } with
        issued := c.issued + 1, pc := c.pc + 4, wait := if wt then .access (.command p.toNat c.issued) false 0 else .none })) ∧
      (8 ≤ (c.port p).queue.length → exec i s = .next s)
    let open_ : Prop := ∃ p : BitVec 4, ((c.rd a).toNat % 2 ^ 16 = 0 ∨ (c.rd a).getLsbD p.toNat = true) ∧
      ∃ q ∈ (c.port p).left ++ (c.port p).queue, q.id < c.issued
    queues (.issue g cmd a b wt) cmd.toNat (c.rd a) (c.rd b) ∧
    queues (.issuex g cmd a b wt) ((cmd.toNat + (c.rd a).toNat % 256) % 256) (c.rd b) 0 ∧
    (¬ open_ → exec (.cdrain g a) s = .next (s.setCore { c.adv with wait := .none })) ∧
    (open_ → exec (.cdrain g a) s = .next (s.setCore { c with wait := .access (.cdrain ((c.rd a).setWidth 16) c.issued) false (wordOf (.cdrain g a)) }))

/-- O35. MFS reads and MTS writes each system register; a number that names none, or a read-only one in MTS, is an illegal instruction. Where the guard
holds, MFS of each number writes to gd: context, tenant, locator, layout version, step number, cycle count of the die (which differs from the
package's by a free value, log entry 8), SPD, the fault queue's header, CSTAT, graph version, the sixteen bank maps, the eight event counters,
DQBASE, DQLIM, TRAPVEC, TRAPCAUSE, TRAPADDR and EPC; of any other number it raises the illegal-instruction trap with its word. Where the guard
holds, MTS writes SPD of the context, an event counter, DQBASE, DQLIM, TRAPVEC, TRAPCAUSE, TRAPADDR or EPC from the defined bits of gd, ignores
the reserved ones, changes nothing else and moves on (of an event counter, in the next cycle where a crossbar or a WAITE has changed it in this
one); every other number, read-only or unassigned, raises the illegal-instruction trap with its word. Where the manual leaves a point open, the
model follows its own reading: log entry 21. That an MTS of an event counter takes effect against the next cycle in that case is the model's
choice, log entry 60. -/
def Obligations.SystemRegisterAccess : Prop :=
  (
    ∀ (g : Guard) (d : Reg) (s : State), s.core.holds g = true →
      let c := s.core
      let gives (n : BitVec 16) (v : Word) : Prop := exec (.mfs g d n) s = .next (s.result d v)
      let ten := s.tenantOf (s.ctxOf s.cur)
      gives 0x00 (BitVec.ofNat 64 (s.ctxOf s.cur % 4096)) ∧ gives 0x01 (BitVec.ofNat 64 (ten % 64)) ∧
      gives 0x02 (BitVec.ofNat 64 (s.host.pkg.toNat * 2 ^ 16 + s.cur)) ∧
      gives 0x03 (((s.graphOf s.cur).map fun y => y.lver.setWidth 64).getD 0) ∧ gives 0x04 (((s.graphOf s.cur).map fun y => y.stepno.setWidth 64).getD 0) ∧
      gives 0x05 (BitVec.ofNat 64 (s.cycle + (Config.dieSkew (dieOf s.cur)).val)) ∧
      gives 0x06 (((s.context? (s.ctxOf s.cur)).map fun y => BitVec.ofNat 64 (y.spd.toNat * 2 ^ 16)).getD 0) ∧
      gives 0x07 (((s.tenant? ten).map fun y => y.cfg.faultHdr).getD 0) ∧ gives 0x08 (if c.intrap then 1 else 0) ∧
      gives 0x09 (((s.groupOf s.cur).map fun y => y.gver.setWidth 64).getD 0) ∧
      (∀ w : BitVec 4, gives (BitVec.ofNat 16 (0x10 + w.toNat)) (BitVec.ofNat 64 (c.win w).bmap)) ∧
      (∀ k : BitVec 3, gives (BitVec.ofNat 16 (0x20 + k.toNat)) ((c.evc k).setWidth 64)) ∧
      gives 0x28 (BitVec.ofNat 64 (c.dqbase.toNat * 8)) ∧ gives 0x29 (BitVec.ofNat 64 (c.dqlim.toNat * 8)) ∧
      gives 0x30 (BitVec.ofNat 64 ((if c.tvEn then 2 ^ 63 else 0) + c.tvAddr.toNat * 4)) ∧
      gives 0x31 (BitVec.ofNat 64 (c.code.toNat * 2 ^ 48 + c.cause.toNat)) ∧ gives 0x32 c.trapaddr ∧ gives 0x33 c.epc ∧
      (∀ n : BitVec 16, (0x0A ≤ n.toNat ∧ n.toNat < 0x10 ∨ 0x2A ≤ n.toNat ∧ n.toNat < 0x30 ∨ 0x34 ≤ n.toNat) →
        exec (.mfs g d n) s = .next (s.trap 0x01 0 ((fmtL 0x78 d n g).setWidth 64) 0))) ∧
  (
    ∀ (g : Guard) (d : Reg) (s : State), s.core.holds g = true →
      let c := s.core
      let v := c.rd d
      let sets (n : BitVec 16) (c1 : CoreSt) : Prop := exec (.mts g d n) s = .next (s.setCore c1.adv)
      (∀ x, s.context? (s.ctxOf s.cur) = some x → ∃ t, exec (.mts g d 0x06) s = .next t ∧ t.core = c.adv ∧
        t.context? (s.ctxOf s.cur) = some { x with spd := v.extractLsb' 16 30 }) ∧
      (∀ k : BitVec 3, s.inOrder (countPlace s.cur k) 0 = true → sets (BitVec.ofNat 16 (0x20 + k.toNat)) (c.setEvc k (v.extractLsb' 0 32))) ∧
      (∀ k : BitVec 3, s.inOrder (countPlace s.cur k) 0 = false → exec (.mts g d (BitVec.ofNat 16 (0x20 + k.toNat))) s = .next s) ∧
      sets 0x28 { c with dqbase := v.extractLsb' 3 17 } ∧ sets 0x29 { c with dqlim := v.extractLsb' 3 18 } ∧
      sets 0x30 { c with tvEn := v.getLsbD 63, tvAddr := v.extractLsb' 2 30 } ∧
      sets 0x31 { c with code := v.extractLsb' 48 16, cause := v.extractLsb' 0 8 } ∧ sets 0x32 { c with trapaddr := v } ∧ sets 0x33 { c with epc := v } ∧
      (∀ n : BitVec 16, n.toNat ≠ 0x06 → ¬ (0x20 ≤ n.toNat ∧ n.toNat ≤ 0x29) → ¬ (0x30 ≤ n.toNat ∧ n.toNat ≤ 0x33) →
        exec (.mts g d n) s = .next (s.trap 0x01 0 ((fmtL 0x79 d n g).setWidth 64) 0)))

/-- O36. GLV, GLV.cur, GLV.reg, RATE and RATE.win read the layout area and the latched rates. Where the guard holds: GLV.reg gives the layout region of
the context, GLV the area of the graph object in it (2 MiB each), GLV.cur the half of that area which holds the current layout; RATE gives the
latched passed, stall and starve counts of the written link that ga[15:0] names, and 0 where no rates are latched or no such link exists;
RATE.win gives the window length and the number of windows latched, saturating at 32 bits; in the cycle in which a window ends they read what it
latches. -/
def Obligations.LayoutAndRateReads : Prop :=
  ∀ (g : Guard) (d a : Reg) (s : State) (x0 x : Group) (c : Context) (y : GraphSt) (k : Nat), s.core.holds g = true →
    s.groupOf s.cur = some x0 → x = (if s.windowOver x0 then x0.latch (s.objOf x0).links.length else x0) →
    s.context? x0.ctx = some c → s.graphSt x0.ctx x0.key = some y → y.area = some k →
    exec (.glvReg g d) s = .next (s.result d c.cfg.region) ∧
    exec (.glv g d) s = .next (s.result d (c.cfg.region + BitVec.ofNat 64 (k * 2 ^ 21))) ∧
    exec (.glvCur g d) s = .next (s.result d (c.cfg.region + BitVec.ofNat 64 (k * 2 ^ 21) + BitVec.ofNat 64 (y.lver.toNat % 2 * 2 ^ 20))) ∧
    (∀ r, x.rates[(s.core.rd a).toNat % 2 ^ 16]? = some r →
      ∃ v : Word, exec (.rate g d a) s = .next (s.result d v) ∧ v.extractLsb' 0 17 = r.passed ∧ v.extractLsb' 17 17 = r.stall ∧ v.extractLsb' 34 17 = r.starve ∧
        v.extractLsb' 51 13 = 0#13) ∧
    (x.rates[(s.core.rd a).toNat % 2 ^ 16]? = none → exec (.rate g d a) s = .next (s.result d 0)) ∧
    (x.winLen < 2 ^ 32 → ∃ v : Word, exec (.rateWin g d) s = .next (s.result d v) ∧ (v.extractLsb' 0 32).toNat = x.winLen ∧
      (v.extractLsb' 32 32).toNat = min x.wins (2 ^ 32 - 1))

/-- O37. EXIT releases, submits its successors in order and stops the core; LAUNCH submits a block from an admitted group. With no request of the core
unacknowledged and the guard true: EXIT makes the core exited, and phases that waited for it alone complete; EXIT with n blocks first submits
block i at ga + 64 i for i below n, in order, each one passing or refused; LAUNCH in a group with the admission bit submits the block at ga and
gives 0 where it passed and 1 where it was refused. With a request unacknowledged they wait, EXIT with successors and LAUNCH also behind the
limiter, LAUNCH also behind earlier requests of the core on their way to the counter's port and behind what the counter's port has served in this
cycle for a higher source. LAUNCH in any other group is an illegal instruction. Where the manual leaves a point open, the model follows its own
reading: log entry 32. -/
def Obligations.ExitAndLaunch : Prop :=
  ∀ (g : Guard) (d a : Reg) (n : BitVec 3) (s : State), s.core.holds g = true →
    let gone (t : State) : State := (t.modCore s.cur fun c => { c with status := .exited, wait := .none }).afterExit s.cur
    let waits (op : BlockOp) (i : Instr) : State := s.setCore { s.core with wait := .access op false (wordOf i) }
    let may := ((s.groupOf s.cur).map (·.admits)).getD false
    (s.quiet = true → exec (.exit g) s = .next (gone s)) ∧
    (may = true → s.submit (s.coreSubmitter s.cur) (s.core.rd a) = .later ∨ s.limited (s.core.rd a) = true →
      exec (.launch g d a) s = .next (waits (.launch d (s.core.rd a)) (.launch g d a))) ∧
    (s.quiet = false → exec (.exit g) s = .next (waits (.exit 0 0 0) (.exit g)) ∧
      exec (.exitSuccessors g a n) s = .next (waits (.exit (s.core.rd a) 0 n.toNat) (.exitSuccessors g a n)) ∧
      (may = true → exec (.launch g d a) s = .next (waits (.launch d (s.core.rd a)) (.launch g d a)))) ∧
    (n ≠ 0 → s.bucketLow (dieOf s.cur) (s.tenantOf (s.ctxOf s.cur)) = true →
      exec (.exitSuccessors g a n) s = .next (waits (.exit (s.core.rd a) 0 n.toNat) (.exitSuccessors g a n))) ∧
    (∀ st : Nat → State, s.quiet = true → (n ≠ 0 → s.bucketLow (dieOf s.cur) (s.tenantOf (s.ctxOf s.cur)) = false) → st 0 = s → (∀ i < n.toNat,
        (∃ b, (st i).submitPosted ((st i).coreSubmitter s.cur) (s.core.rd a + BitVec.ofNat 64 (64 * i)) = .pass b (st (i + 1))) ∨
        (st i).submitPosted ((st i).coreSubmitter s.cur) (s.core.rd a + BitVec.ofNat 64 (64 * i)) = .refused (st (i + 1))) →
      exec (.exitSuccessors g a n) s = .next (gone (st n.toNat))) ∧
    (∀ s1 b, may = true → s.quiet = true → s.limited (s.core.rd a) = false → s.submit (s.coreSubmitter s.cur) (s.core.rd a) = .pass b s1 →
      exec (.launch g d a) s = .next (s1.setCore { (s1.core.wr d 0).adv with wait := .none })) ∧
    (∀ s1, may = true → s.quiet = true → s.limited (s.core.rd a) = false → s.submit (s.coreSubmitter s.cur) (s.core.rd a) = .refused s1 →
      exec (.launch g d a) s = .next (s1.setCore { (s1.core.wr d 1).adv with wait := .none })) ∧
    (may = false → exec (.launch g d a) s = .next (s.trap 0x01 0 (wordOf (.launch g d a)) 0))

/-- O38. A command acts only at the head of its port while its group lives; an ill-formed one has no effect but its record. For every stream command at
the head of the port that it names: while its group does not run, is frozen or has its context purged, nothing changes; while no command may
start, one that has not started changes nothing; one that fails decoding when it would start leaves the head without effect, and exactly one
record of cause 0x40 is put on its way, of the port, with the command-store index as field A, bits [127:96] of the word as field B and the port
as field C. A CPY, AMOSTRM or REDWIN whose address is no global address of this package leaves the head in the same way with a record of cause
0x20 that names the address. -/
def Obligations.CommandHeads : Prop :=
  (∀ (i : Instr) (w : CmdWord) (s : State) (q : QCmd) (g : Nat) (x : Group), encodeCmd i = some w → s.core.group = some g → s.group? g = some x →
    (s.portAt s.cur (w.extractLsb' 116 4)).queue.head? = some q → q.word = w → q.empty = false →
    (s.cmdLive x = false → exec i s = .next s) ∧
    (s.cmdStarts x = false → q.prog.started = false → exec i s = .next s) ∧
    (s.cmdLive x = true → s.cmdStarts x = true → q.prog.started = false → i.wf = false → exec i s = .next (s.cmdFault s.cur (w.extractLsb' 116 4)))) ∧
  (∀ (s : State) (n : Nat) (p : BitVec 4) (q : QCmd) (rest : List QCmd), (s.portAt n p).queue = q :: rest →
    ∃ r : FRec, (s.cmdFault n p).recs = s.recs ++ [r] ∧ r.cause = 0x40 ∧ r.kind = .port ∧ r.a = BitVec.ofNat 64 q.index ∧
      r.b = (q.word.extractLsb' 96 32).setWidth 64 ∧ r.c.toNat = p.toNat ∧ r.src = n ∧ ((s.cmdFault n p).portAt n p).queue = rest ∧
      (s.cmdFault n p).groups = s.groups ∧ s.sameBytes (s.cmdFault n p)) ∧
  (∀ (s : State) (c : StreamCmd) (d : Cmd), s.cmdStarts d.x = true → d.q.prog.started = false → s.isGlobal d.addr = false →
    let faults (i : Instr) : Prop := i.wf = true → exec i s = .next (s.cmdStage1 s.cur c.port d.addr)
    (s.atHead (.cpy c) c .stream true d → 1 ≤ d.count → d.addr.toNat % 64 = 0 → (c.flags.getLsbD 0 = true → d.bound 2 = true) → faults (.cpy c)) ∧
    (s.atHead (.amostrm c) c .stream true d → d.addr.toNat % 4 = 0 → d.bound 3 = true → faults (.amostrm c)) ∧
    (s.atHead (.redwinOpen c) c .global true d → (∀ te, s.tenant? d.x.tenant = some te → te.redwin = []) → d.addr.toNat % 8 = 0 → faults (.redwinOpen c))) ∧
  (∀ (s : State) (n : Nat) (p : BitVec 4) (a : Word) (q : QCmd) (rest : List QCmd), (s.portAt n p).queue = q :: rest →
    ∃ r : FRec, (s.cmdStage1 n p a).recs = s.recs ++ [r] ∧ r.cause = 0x20 ∧ r.kind = .port ∧ r.a = BitVec.ofNat 64 q.index ∧ r.b = a ∧ r.src = n ∧
      ((s.cmdStage1 n p a).portAt n p).queue = rest ∧ s.sameBytes (s.cmdStage1 n p a))

/-- O39. NOPC, ARM, DISARM, TAPSET, EVCFG, EVPULSE, STEP, KGRAPH and its walk, BARRIER, SEGMARK, BTOKEN and PFLUSH have their effects. Each of these
commands, at the head of its port, well formed and within its rule, completes with its effect and leaves the head: NOPC has none; ARM raises the
tile count, at most to 2^24 - 1, and funds the sources of the section; DISARM clears it and, where asked and armed, pulses every core; TAPSET
sets the arrivals of a tap (in the next cycle where an arrival at a phase of the tap has been taken in this one and none is in progress any
more), EVCFG a term slot, STEP the step number, SEGMARK the mark of the next load behind it, or, where none is queued yet, of the port; EVPULSE
sends its first pulse; KGRAPH hands its walk to the free sequencer, whose next entry is queued at its port, while a walked KGRAPH ends the walk
with a record; BARRIER leaves once no earlier data command that it covers is uncompleted; BTOKEN on a store AGN leaves at once, on a load AGN it
adds a barrier token; PFLUSH discards the unstarted commands of its ports that were issued before it. Where the manual leaves a point open, the
model follows its own reading: log entry 51. That ARM gives each source a budget of tiles is the model's choice, log entry 49. -/
def Obligations.SectionAndQueueCommands : Prop :=
  (∀ (s : State) (c : StreamCmd) (d : Cmd), s.cmdStarts d.x = true → d.q.prog.started = false →
    (s.atHead (.nopc c) c .none false d → (Instr.nopc c).wf = true → ∃ t, exec (.nopc c) s = .next t ∧ s.leftHead t d ∧ t.group? d.g = some d.x) ∧
    (∀ e : Sec, s.atHead (.arm c) c .none true d → (Instr.arm c).wf = true → 1 ≤ d.count → d.index < d.o.secs.length → d.x.secs[d.index]? = some e → e.fin = 0 →
      ∃ (t : State) (y : Group), exec (.arm c) s = .next t ∧ s.leftHead t d ∧ t.group? d.g = some y ∧ y.links = d.x.links ∧
        y.secs = setAt d.x.secs d.index { e with count := BitVec.ofNat 24 (min (e.count.toNat + d.count) (2 ^ 24 - 1)) } ∧
        ∀ (j : Nat) (i : Inst), d.x.insts[j]? = some i → ∃ i' : Inst, y.insts[j]? = some i' ∧
          (i.role = .node ∧ d.o.secOf i.node = some d.index →
            (∀ u, i.st = .cnt u → i'.st = .cnt { u with budget := u.budget + d.count }) ∧ (∀ u, i.st = .agn u → i'.st = .agn { u with budget := u.budget + d.count })) ∧
          (¬ (i.role = .node ∧ d.o.secOf i.node = some d.index) → i' = i)) ∧
    (∀ e : Sec, s.atHead (.disarm c) c .none false d → (Instr.disarm c).wf = true → d.index < d.o.secs.length → d.x.secs[d.index]? = some e → e.fin = 0 →
      ∃ t, exec (.disarm c) s = .next t ∧ s.leftHead t d ∧ t.group? d.g = some { d.x with secs := setAt d.x.secs d.index {} } ∧
        t.pulses = s.pulses ++ if 0 < e.count.toNat ∧ c.flags.getLsbD 0 = true ∧ d.index < 16 then d.x.cores.map (⟨·, d.index⟩) else []) ∧
    (∀ sc, s.atHead (.tapset c) c .none true d → (Instr.tapset c).wf = true → d.count ≤ 255 → c.flags.toNat / 4 % 8 = (scopeCode sc).toNat → barScope sc = true →
      d.index < d.o.nodes.length → kindOf d.node = 11 → (modeOf d.node = 0 ∨ modeOf d.node = 2) →
      let b := BitVec.ofNat 2 (c.flags.toNat % 4)
      let tab := put d.x.tapset (tapKey d.index b sc) d.count
      let tap := d.x.insts.find? fun i => i.node == d.index && i.role == .node && i.copy == 0 && !i.gone
      let taken : Prop := ∃ i, tap = some i ∧ (∃ k, find s.served (phasePlace d.g (phaseKey b sc (d.x.coreOf i))) = some (s.cycle, k)) ∧
        (d.x.phase b sc (d.x.coreOf i)).busy = false
      (taken → exec (.tapset c) s = .next (s.begun d)) ∧
      (¬ taken → ∃ t y, exec (.tapset c) s = .next t ∧ s.leftHead t d ∧ t.group? d.g = some y ∧ y.tapset = tab ∧
        ((∀ i ∈ d.x.insts, i.node = d.index → (d.x.phase b sc (d.x.coreOf i)).busy = true → (d.x.phase b sc (d.x.coreOf i)).since ≠ s.cycle) →
          y = { d.x with tapset := tab }))) ∧
    (s.atHead (.evcfg c) c (.value 40) false d → (Instr.evcfg c).wf = true → termWordOk d.addr.toNat d.o.secs.length = true →
      ∃ t, exec (.evcfg c) s = .next t ∧ s.leftHead t d ∧ t.core.terms = (s.core.setTerm d.index { word := d.addr.setWidth 40 }).terms) ∧
    (s.atHead (.evpulse c) c .none true d → (Instr.evpulse c).wf = true → 1 ≤ d.count → d.count ≤ 255 → d.q.prog.n = 0 →
      ∃ t, exec (.evpulse c) s = .next t ∧ t.pulses = s.pulses ++ [⟨s.cur, d.index⟩] ∧ t.groups = s.groups ∧
        (d.count = 1 → s.leftHead t d) ∧ (d.count ≠ 1 → (t.headProg s.cur d.p).map (·.n) = some 1)) ∧
    (∀ gs, s.atHead (.step c) c (.value 32) false d → (Instr.step c).wf = true → (c.flags.getLsbD 0 = true → d.addr = 0) → s.graphSt d.x.ctx d.x.key = some gs →
      ∃ t, exec (.step c) s = .next t ∧ s.leftHead t d ∧
        t.graphSt d.x.ctx d.x.key = some { gs with stepno := if c.flags.getLsbD 0 then gs.stepno + 1 else d.addr.setWidth 32 }) ∧
    (s.atHead (.kgraph c) c .none true d → (Instr.kgraph c).wf = true → 1 ≤ d.count → d.index < d.o.cmds.length → d.index + d.count ≤ 256 →
      s.core.walk = none → ∃ t, exec (.kgraph c) s = .next t ∧ s.leftHead t d ∧
        t.core.walk = some { next := d.index, left := d.count, free := c.flags.getLsbD 0, last := none, port := d.p.toNat, id := d.q.id }) ∧
    (s.atHead (.barrier c) c .none true d → (Instr.barrier c).wf = true → 1 ≤ d.count → d.count ≤ 5 →
      (∀ (p : BitVec 4) (q : QCmd), q ∈ (s.portAt s.cur p).left ++ (s.portAt s.cur p).queue → q.id < d.q.id → (c.index = 0 ∨ c.index.getLsbD p.toNat = true) →
        (c.flags.toNat % 32 = 0 ∨ bit (c.flags.toNat % 32) (q.word.extractLsb' 112 4).toNat = true) →
        ∀ j, decodeCmd q.word = .ok j → barrierStep.classless j = true) →
      ∃ t, exec (.barrier c) s = .next t ∧ s.leftHead t d ∧ t.group? d.g = some d.x) ∧
    (s.atHead (.segmark c) c .none false d → (Instr.segmark c).wf = true → d.bound 0 = true →
      let later (q : QCmd) : Prop := d.q.id < q.id ∧ q.empty = false ∧ markable q.word = true
      let own := (s.portAt s.cur d.p).queue
      ((∀ q ∈ own, ¬ later q) →
        ∃ t, exec (.segmark c) s = .next t ∧ s.leftHead t d ∧ (t.portAt s.cur d.p).mark = c.flags.setWidth 4 ∧ t.group? d.g = some d.x) ∧
      (∀ k q, own[k]? = some q → later q → (∀ j < k, ∀ u, own[j]? = some u → ¬ later u) → ∃ t, exec (.segmark c) s = .next t ∧
        (t.portAt s.cur d.p).queue = (modAt own k fun q => { q with prog := { q.prog with mark := c.flags.setWidth 4 } }).drop 1 ∧
        (t.portAt s.cur d.p).mark = 0 ∧ t.group? d.g = some d.x ∧ s.sameBytes t)) ∧
    (s.atHead (.btoken c) c .none false d → (Instr.btoken c).wf = true → d.bound 0 = true →
      (∀ q ∈ (s.portAt s.cur d.p).left, q.word.extractLsb' 120 8 ≠ 0x07#8) →
      (d.bound 2 = false → ∃ t, exec (.btoken c) s = .next t ∧ s.leftHead t d ∧ t.group? d.g = some d.x) ∧
      (∀ (r : CellRef) (i : Inst), d.bound 2 = true → (s.begun d).agnFor d.begun = some (r, i) → ∃ (t : State) (y : Group) (i' : Inst) (b : TokBuf), exec (.btoken c) s = .next t ∧ s.leftHead t d ∧
        t.group? d.g = some y ∧ y.insts[r.inst]? = some i' ∧ i'.agn.bufs = i.agn.bufs ++ [b] ∧ b.tag.barrier = true ∧ b.todo = [] ∧ b.owner = some (s.cur, d.q.id))) ∧
    (s.atHead (.pflush c) c .none false d → (Instr.pflush c).wf = true → ∃ t, exec (.pflush c) s = .next t ∧ t.groups = s.groups ∧ s.sameBytes t ∧
      ∀ p : BitVec 4, (t.portAt s.cur p).queue = ((s.portAt s.cur p).queue.drop (if p = d.p then 1 else 0)).filter fun q =>
        !(c.index == 0 || c.index.getLsbD p.toNat) || q.prog.started || decide (d.q.id ≤ q.id))) ∧
  (∀ (s : State) (m : Nat) (w : Walk) (x : Group) (word : CmdWord), (s.coreAt m).walk = some w → s.groupOf m = some x → s.cmdLive x = true →
    s.cmdStarts x = true → w.left ≠ 0 → w.last = none → (s.cmdsOf m)[w.next]? = some word →
    let p : BitVec 4 := word.extractLsb' 116 4
    (word.extractLsb' 120 8 ≠ 0x0F#8 → ((s.coreAt m).port p).queue.length < 8 → ∃ (t : State) (q : QCmd), exec (.kgraphWalkEntry m) s = .next t ∧
      (t.portAt m p).queue = (s.portAt m p).queue ++ [q] ∧ q.word = word ∧ q.index = w.next ∧ q.addrOv = 0 ∧ q.cntOv = 0 ∧
      (t.coreAt m).walk = some { w with next := w.next + 1, left := w.left - 1, last := some (p.toNat, q.id) }) ∧
    (word.extractLsb' 120 8 = 0x0F#8 → ∃ (t : State) (r : FRec), exec (.kgraphWalkEntry m) s = .next t ∧ t.recs = s.recs ++ [r] ∧ r.cause = 0x40 ∧
      r.a = BitVec.ofNat 64 w.next ∧ (t.coreAt m).walk = some { w with left := 0 }))

/-- O40. LSWAP, RCFLUSH, WAGWIN, LAYPIN, the LAYREQ forms, REDWIN open and close, and CFGLD have their effects. Each of these commands, at the head of its
port, well formed and within its rule, completes with its effect and leaves the head: LSWAP, with every LSTAT to the node that was issued earlier
complete in itself and no exchange waiting, marks every instance of the MAT node for the exchange; RCFLUSH drops the graph's recall entries, of
one block or of all, and keeps those of other graphs and contexts, and, with flag bit 1, sends a zero to the 64 bytes of the counter row of each
block (of all GAT nodes where bit 0 is clear), which its memory port writes, or takes in a later cycle, after what comes first there; WAGWIN sets
the next window length, once a window that has just ended is closed; LAYPIN holds or releases a node, LAYREQ marks a bottleneck, suspends or
resumes layout changes; REDWIN opens a window that overlaps none, or closes it; CFGLD leaves once every instance of its node holds its setting.
Where the manual leaves a point open, the model follows its own reading: log entries 48 and 51. -/
def Obligations.LayoutAndCacheCommands : Prop :=
  ∀ (s : State) (c : StreamCmd) (d : Cmd), s.cmdStarts d.x = true → d.q.prog.started = false →
    let mine (i : Inst) : Prop := i.node = d.index ∧ i.role = .node ∧ i.gone = false
    let leaves (i : Instr) (y : Group) : Prop := ∃ t, exec i s = .next t ∧ s.leftHead t d ∧ t.group? d.g = some y
    (s.atHead (.lswap c) c .none false d → (Instr.lswap c).wf = true → d.index < d.o.nodes.length → kindOf d.node = 0 →
      (∀ i ∈ d.x.insts, mine i → i.swapWaits = false) →
      (∀ (p : BitVec 4) (q : QCmd), q.id < d.q.id → q.word.extractLsb' 120 8 = 0x0B#8 → (q.word.extractLsb' 0 16).toNat = d.index →
        q ∉ (s.portAt s.cur p).queue ∧ (q ∈ (s.portAt s.cur p).left → s.cmdDone s.cur p q = true)) →
      ∃ (t : State) (y : Group), exec (.lswap c) s = .next t ∧ s.leftHead t d ∧ t.group? d.g = some y ∧ y.links = d.x.links ∧
        ∀ (j : Nat) (i : Inst), d.x.insts[j]? = some i → ∃ i' : Inst, y.insts[j]? = some i' ∧ (∀ m, mine i → i.st = .mat m → i'.st = .mat { m with swap := true }) ∧ (¬ mine i → i' = i)) ∧
    (s.atHead (.rcflush c) c .none false d → (Instr.rcflush c).wf = true → c.flags.getLsbD 1 = false →
      ∃ t, exec (.rcflush c) s = .next t ∧ (t.portAt s.cur d.p).queue = (s.portAt s.cur d.p).queue.drop 1 ∧ s.sameBytes t ∧
        (∀ die as a, (die, as) ∈ t.recalls → a ∈ as → a.ctx = d.x.ctx → a.graph = d.x.key → ∀ e ∈ a.entries, c.flags.getLsbD 0 = true ∧ e.blk ≠ d.index) ∧
        (∀ die as a, (die, as) ∈ s.recalls → a ∈ as → ∃ bs a', (die, bs) ∈ t.recalls ∧ a' ∈ bs ∧ a'.ctx = a.ctx ∧ a'.graph = a.graph ∧ a'.slots = a.slots ∧
          (¬ (a.ctx = d.x.ctx ∧ a.graph = d.x.key) → a' = a) ∧ (c.flags.getLsbD 0 = true → ∀ e ∈ a.entries, e.blk ≠ d.index → e ∈ a'.entries))) ∧
    (s.atHead (.rcflush c) c .none false d → (Instr.rcflush c).wf = true → c.flags.getLsbD 1 = true →
      let one := c.flags.getLsbD 0
      let gats := (d.o.nodes.filter fun y => kindOf y.hdr == kGAT).map fun y => gatBlk y.hdr
      let flushed := (s.begun d).rcFlush d.x.ctx d.x.key (if one then some d.index else none)
      exec (.rcflush c) s = .next (((if one then [d.index] else gats).foldl (fun s blk => s.rcZero d.x.die d.x.ctx blk) flushed).leaveHead s.cur d.p)) ∧
    (s.atHead (.wagwin c) c .none true d → (Instr.wagwin c).wf = true → 16 ≤ d.count → d.count ≤ 65536 →
      (s.windowOver d.x = false → leaves (.wagwin c) { d.x with winNext := d.count }) ∧ (s.windowOver d.x = true → exec (.wagwin c) s = .next (s.begun d))) ∧
    (s.atHead (.laypin c) c .none false d → (Instr.laypin c).wf = true → d.index < d.o.nodes.length →
      ∃ y, leaves (.laypin c) { d.x with pins := y } ∧ ∀ k, k ∈ y ↔ (k ∈ d.x.pins ∧ k ≠ d.index ∨ k = d.index ∧ c.flags.getLsbD 0 = true)) ∧
    (s.atHead (.layreqBottleneck c) c .none false d → (Instr.layreqBottleneck c).wf = true → d.index < d.o.nodes.length →
      leaves (.layreqBottleneck c) { d.x with bottle := d.x.bottle.filter (· != d.index) ++ [d.index] }) ∧
    (s.atHead (.layreqSuspend c) c .none false d → (Instr.layreqSuspend c).wf = true → leaves (.layreqSuspend c) { d.x with suspend := true }) ∧
    (s.atHead (.layreqResume c) c .none false d → (Instr.layreqResume c).wf = true → leaves (.layreqResume c) { d.x with suspend := false }) ∧
    (∀ te, s.atHead (.redwinOpen c) c .global true d → (Instr.redwinOpen c).wf = true → s.tenant? d.x.tenant = some te → s.isGlobal d.addr = true →
      d.addr.toNat % 8 = 0 → find te.redwin d.index = none → (∀ r ∈ te.redwin, overlap d.addr (8 * d.count) r.2.base (8 * r.2.words) = false) →
      ∃ t, exec (.redwinOpen c) s = .next t ∧ s.leftHead t d ∧ t.tenant? d.x.tenant = some { te with redwin := put te.redwin d.index ⟨d.addr, d.count⟩ }) ∧
    (∀ te r, s.atHead (.redwinClose c) c .none false d → (Instr.redwinClose c).wf = true → s.tenant? d.x.tenant = some te → find te.redwin d.index = some r →
      (∀ p ∈ s.merges, ∀ m ∈ p.2, m.tenant = d.x.tenant → r.holds m.addr = false) →
      ∃ t, exec (.redwinClose c) s = .next t ∧ s.leftHead t d ∧ t.tenant? d.x.tenant = some { te with redwin := del te.redwin d.index }) ∧
    (s.atHead (.cfgld c) c .none false d → (Instr.cfgld c).wf = true → d.index < d.o.nodes.length → (∃ i ∈ d.x.insts, mine i) →
      (∀ i ∈ d.x.insts, mine i → i.loaded = true) → leaves (.cfgld c) d.x) ∧
    (∀ (die blk pa fm gm : Nat) (s1 : State), s.memoryForm →
      let a := s.rcRow d.x.ctx blk
      let rank := rankOf (2433 + die) 0
      let later : Prop := s.portsLater a 8 rank = true ∨ ∃ h ∈ s.heldAdds, h.held = false ∧ h.die = die
      let zero : HeldAdd := { die := die, ctx := d.x.ctx, blk := blk, addr := a, v := 0, zero := true, held := false }
      (later → s.rcZero die d.x.ctx blk = { s with heldAdds := s.heldAdds ++ [zero] }) ∧
      (¬ later → (s.portsServed a 8 rank).translate d.x.ctx a true (some 15) = .ok (pa, fm, gm) s1 → s1.bad pa = false → pa % 128 + 64 ≤ 128 →
        (s.rcZero die d.x.ctx blk).memBytes (s1.keyOf d.x.ctx) pa 64 = List.replicate 64 0 ∧
        s.sameBytesBut (s.rcZero die d.x.ctx blk) (s1.keyOf d.x.ctx) pa 64))

/-- O41. MLD, SLD, TLD and GATHER give the bound AGN their next token to read, with its markers; GATHER takes its index tokens. A running MLD or SLD that
has not read its count of tokens, with room in the bound load AGN, gives it token k: one access of 128 bytes at the address plus 128 k, first and
last for the command, start and end of tile at the segment length, altered at the first and last token by the mark of SEGMARK; and it leaves the
head with its last token. TLD gives the next token of its tile with the accesses and padding of the tensor map. GATHER with index lanes in hand
gives the next token of the row that the first lane names, with no access, zero codes and scale bytes of 0x00 where the index is out of range,
and, with none in hand, takes the next index token. Where the manual leaves a point open, the model follows its own reading: log entry 50. -/
def Obligations.LoadCommandsGiveTokens : Prop :=
  ∀ (s s1 : State) (c : StreamCmd) (d e : Cmd) (r : CellRef) (i : Inst), e.q.prog.dropped = false → e.x.preempt = none → s1.agnFor e = some (r, i) →
    let k := e.q.prog.n
    let j := e.q.prog.j
    let gives (ins : Instr) (b : TokBuf → Prop) (last : Bool) (n' j' : Nat) : Prop := ∃ (t : State) (y : Group) (i' : Inst) (b' : TokBuf), exec ins s = .next t ∧ t.group? d.g = some y ∧
      y.insts[r.inst]? = some i' ∧ i'.agn.bufs = i.agn.bufs ++ [b'] ∧ b'.owner = some (s.cur, d.q.id) ∧ b'.spd = d.q.spd ∧ b'.win = d.window ∧ b b' ∧ s.sameBytes t ∧
      (last = true → (t.portAt s.cur d.p).queue = (s.portAt s.cur d.p).queue.drop 1) ∧
      (last = false → (t.headProg s.cur d.p).map (fun g => (g.n, g.j)) = some (n', j'))
    let marked (tag : Tag) (first last sot eot : Bool) : Prop := tag.first = first ∧ tag.last = last ∧ tag.barrier = false ∧
      tag.sot = (if first then (sot || e.q.prog.mark.getLsbD 0) && !e.q.prog.mark.getLsbD 2 else sot) ∧
      tag.eot = (if last then (eot || e.q.prog.mark.getLsbD 1) && !e.q.prog.mark.getLsbD 3 else eot)
    let len := if d.seg = 7 then d.count else 2 ^ d.seg
    let linear (b : TokBuf) : Prop := b.todo = [{ addr := d.addr + BitVec.ofNat 64 (128 * k), bytes := 128 }] ∧ b.fmt = d.fmt ∧ b.block = (d.fmt == 8) ∧ b.data = 0 ∧
      marked b.tag (k == 0) (k + 1 == d.count) (k % len == 0) (k % len + 1 == len || k + 1 == d.count)
    (s.atHead (.mld c) c .stream true d → s.runsAs (.mld c) (linearOk 2) d s1 e → k < d.count → gives (.mld c) linear (k + 1 == d.count) (k + 1) j) ∧
    (s.atHead (.sld c) c .stream true d → s.runsAs (.sld c) (linearOk 2) d s1 e → k < d.count → gives (.sld c) linear (k + 1 == d.count) (k + 1) j) ∧
    (s.atHead (.tld c) c .stream true d → s.runsAs (.tld c) (tensorOk 2) d s1 e → k < d.tiles →
      let ends := decide (d.map.tileTokens ≤ j + 1)
      gives (.tld c) (fun b => b.todo = d.map.pieces d.addr k j ∧ b.data = d.map.padding d.addr k j ∧ b.fmt = d.map.fmt ∧
        marked b.tag (k == 0 && j == 0) (ends && k + 1 == d.tiles) (j == 0) ends) (ends && k + 1 == d.tiles)
        (if ends then k + 1 else k) (if ends then 0 else j + 1)) ∧
    (∀ v th rest, s.atHead (.gather c) c .stream true d → s.runsAs (.gather c) (rowsOk 2) d s1 e → e.q.prog.idx = (v, th) :: rest →
      (j + 1 = 2 ^ d.seg → rest = [] → e.q.prog.eoi = true) →
      let ends := j + 1 == 2 ^ d.seg
      gives (.gather c) (fun b => b.todo = (if 0 ≤ v ∧ v < d.count then
            [{ addr := d.addr + BitVec.ofInt 64 ((v * ((2 ^ d.seg : Nat) : Int) + (j : Int)) * 128), bytes := 128 }] else []) ∧ b.tag.thread = th ∧ (¬ (0 ≤ v ∧ v < d.count) → b.data = 0 ∧ b.scale.setWidth 1016 = 0) ∧
          marked b.tag (k == 0 && j == 0) (ends && rest.isEmpty) (j == 0) ends) false (if ends then k + 1 else k) (if ends then 0 else j + 1)) ∧
    (∀ s2 tok u, s.atHead (.gather c) c .stream true d → s.runsAs (.gather c) (rowsOk 2) d s1 e → e.q.prog.idx = [] → e.q.prog.eoi = false →
      s1.cmdTake e 0 = (s2, some tok, u) → ∃ t, exec (.gather c) s = .next t ∧
        (t.headProg s.cur d.p).map (fun g => (g.idx, g.eoi)) = some (indexLanes tok, tok.tag.eot))

/-- O42. MST, SST, TST, SCATTER and AMOSTRM take the next token of the bound AGN and hold the accesses that store it. A running store command with no
access in hand and tokens still to store takes the next token of its bound store AGN and holds its accesses: MST and SST one of 128 bytes at the
address plus 128 k with the token's data, TST those of the tensor map with the token's bytes, SCATTER one of the row that its index names, none
where that is out of range, AMOSTRM one 32-bit update for each pair whose index is in range. With an access in hand that can be made, it makes it
and goes on with the rest; a command that has stored its last token and holds no access leaves the head. Where the manual leaves a point open,
the model follows its own reading: log entries 50 and 52. -/
def Obligations.StoreCommandsTakeTokens : Prop :=
  ∀ (s s1 s2 : State) (c : StreamCmd) (d e : Cmd) (tok : Token) (u : Bool), e.x.preempt = none →
    let k := e.q.prog.n
    let holds (ins : Instr) (ps : List Piece) (n' : Nat) : Prop := ∃ t, exec ins s = .next t ∧
      (t.headProg s.cur d.p).map (fun g => (g.pieces, g.eot, g.n)) = some (ps, tok.tag.eot, n')
    let stored (ps : List Piece) : List Piece := ps.map fun p => { p with
      out := if p.nib.isSome then [BitVec.ofNat 8 (tok.data.toNat / 2 ^ p.bitOff % 16)]
        else (List.range p.bytes).map fun b => BitVec.ofNat 8 (tok.data.toNat / 2 ^ (8 * (p.bitOff / 8 + b)) % 256), scale := [] }
    let goes (ins : Instr) (f : Nat) : Prop := ∀ (p : Piece) (rest : List Piece) (j : Nat) (i : Inst) (s3 : State) (ds : List Byte) (gm : Nat) (more : List Piece), e.q.prog.pieces = p :: rest → (d.x.boundAgn d.p) = some j → d.x.insts[j]? = some i →
      s1.tryEl (s1.cmdWho s.cur d.p.toNat e.q (BitVec.ofNat 64 i.node) (.put j i.agn.nextId) f true) p = .done s3 ds gm more →
      (more ++ rest ≠ [] ∨ e.q.prog.eot = false) → exec ins s = .next (s3.modHead s.cur d.p fun g => { g with pieces := more ++ rest })
    let free : Prop := e.q.prog.pieces = [] ∧ e.q.prog.dropped = false
    (s.atHead (.mst c) c .stream true d → s.runsAs (.mst c) (linearOk 3) d s1 e →
      (free → k < d.count → s1.cmdTake e 0 = (s2, some tok, u) →
        holds (.mst c) (stored [{ addr := d.addr + BitVec.ofNat 64 (128 * k), bytes := 128 }]) (k + 1)) ∧
      (free → d.count ≤ k → exec (.mst c) s = .next (s1.leaveHead s.cur d.p)) ∧ goes (.mst c) d.fmt) ∧
    (s.atHead (.sst c) c .stream true d → s.runsAs (.sst c) (linearOk 3) d s1 e →
      (free → k < d.count → s1.cmdTake e 0 = (s2, some tok, u) →
        holds (.sst c) (stored [{ addr := d.addr + BitVec.ofNat 64 (128 * k), bytes := 128 }]) (k + 1)) ∧
      (free → d.count ≤ k → exec (.sst c) s = .next (s1.leaveHead s.cur d.p)) ∧ goes (.sst c) d.fmt) ∧
    (s.atHead (.tst c) c .stream true d → s.runsAs (.tst c) (tensorOk 3) d s1 e →
      let per := max d.map.tileTokens 1
      (free → k < d.tiles * per → s1.cmdTake e 0 = (s2, some tok, u) →
        holds (.tst c) (stored (d.map.pieces d.addr (k / per) (k % per))) (k + 1)) ∧
      (free → d.tiles * per ≤ k → exec (.tst c) s = .next (s1.leaveHead s.cur d.p)) ∧ goes (.tst c) d.map.fmt) ∧
    (s.atHead (.scatter c) c .stream true d → s.runsAs (.scatter c) (rowsOk 3) d s1 e →
      (∀ v th rest, free → e.q.prog.idx = (v, th) :: rest → s1.cmdTake e 1 = (s2, some tok, u) →
        holds (.scatter c) (if 0 ≤ v ∧ v < d.count then
          stored [{ addr := d.addr + BitVec.ofInt 64 ((v * ((2 ^ d.seg : Nat) : Int) + (e.q.prog.j : Int)) * 128), bytes := 128 }] else []) k) ∧
      (free → e.q.prog.idx = [] → e.q.prog.eoi = true → exec (.scatter c) s = .next (s1.leaveHead s.cur d.p)) ∧ goes (.scatter c) d.fmt) ∧
    (s.atHead (.amostrm c) c .stream true d → s.runsAs (.amostrm c) (fun _ d => d.addr.toNat % 4 == 0 && d.bound 3) d s1 e →
      (free → e.q.prog.eoi = false → s1.cmdTake e 0 = (s2, some tok, u) →
        holds (.amostrm c) (updates e tok) (k + 1)) ∧
      (free → e.q.prog.eoi = true → exec (.amostrm c) s = .next (s1.leaveHead s.cur d.p)) ∧ goes (.amostrm c) 15)

/-- O43. FILL, MCAST and LSTAT move their next token, and CPY hands its descriptors to an engine. A running FILL, MCAST or LSTAT that still has tokens,
and whose next access can be made (an element of a block format has two, its codes and then its scale bytes): FILL writes 128 bytes of the
repeated 16-bit pattern at the address plus 128 k; MCAST reads 128 bytes there and writes them at the same offset of the named window of every
rank of its row of 16 that the mask names; LSTAT reads them, and the scale bytes of block formats, into column k of the shadow plane of every
instance of the MAT node. Each goes on with the access that follows, then with the next token, and leaves the head after the last. FILL waits for
loads of its stream that have still to read its bytes; MCAST waits while a target waits for a swap, for its bank's turn or for earlier accesses
of its stream. CPY puts one job at the tail of the queue of the engine of its die and leaves the head; it completes when the engine has finished.
Where the manual leaves a point open, the model follows its own reading: log entries 51 and 59. -/
def Obligations.DataMovingCommands : Prop :=
  ∀ (s s1 s2 : State) (c : StreamCmd) (d e : Cmd) (ds : List Byte) (gm : Nat) (more : List Piece),
    let k := e.q.prog.n
    let piece : Piece := { addr := d.addr + BitVec.ofNat 64 (128 * k), bytes := 128 }
    let now (p : Piece) : Piece := e.q.prog.pieces.head?.getD p
    let next (t : State) : State :=
      let t1 := t.modHead s.cur d.p fun g => { g with n := if more = [] then g.n + 1 else g.n, pieces := more }
      if more = [] ∧ d.count ≤ k + 1 then t1.leaveHead s.cur d.p else t1
    let who (dest : SpillTo) (f : Nat) (w : Bool) : Who := s1.cmdWho s.cur d.p.toNat e.q (BitVec.ofNat 64 d.q.index) dest f w
    (s.atHead (.fill c) c .stream true d → s.runsAs (.fill c) (fun _ d => d.aligned && d.fits (128 * d.count)) d s1 e →
      let put : Piece := { piece with out := (List.replicate 64 (leBytes 2 d.index)).flatten }
      let after : Prop := ∃ a, s1.elAt s.cur d.window put d.q.spd = some a ∧ s1.unread s.cur d.p.toNat d.q.id (who .cmdPut d.fmt true).stream a 128 = true
      (k < d.count → ¬ after → s1.tryEl (who .cmdPut d.fmt true) (now put) = .done s2 ds gm more → exec (.fill c) s = .next (next s2)) ∧
      (k < d.count → after → exec (.fill c) s = .next s1) ∧
      (d.count ≤ k → exec (.fill c) s = .next (s1.leaveHead s.cur d.p))) ∧
    (s.atHead (.mcast c) c .stream true d → s.runsAs (.mcast c) (fun _ d => d.aligned && d.addr.toNat % 65536 + 128 * d.count ≤ 65536
        && (List.range 16).all fun j => !d.c.index.getLsbD j || decide (d.rank / 16 * 16 + j < 2 ^ d.x.k)) d s1 e →
      let w : BitVec 4 := c.flags.setWidth 4
      let first := s.cur - d.rank + d.rank / 16 * 16
      let off := d.addr.toNat % 65536 + 128 * k
      (k < d.count → s1.mcastLater s.cur d.p.toNat d.q.id (who .cmdPut 15 false).stream first c.index w off = false →
        s1.tryEl (who (.mcast first c.index w off) 15 false) (now piece) = .done s2 ds gm more →
        exec (.mcast c) s = .next (next (s2.mcastWrite s.cur d.p.toNat d.x.ctx (BitVec.ofNat 64 d.q.index) first c.index w off ds))) ∧
      (d.count ≤ k → exec (.mcast c) s = .next (s1.leaveHead s.cur d.p))) ∧
    (s.atHead (.lstat c) c .stream true d → s.runsAs (.lstat c) (fun _ d => d.aligned && d.fits (128 * d.count) && d.nodeIn && kindOf d.node == kMAT
        && d.count == 32 && d.fmt == matFmtCode (modeOf d.node)) d s1 e →
      (∀ i ∈ d.x.insts, i.node = d.index → i.role = .node → i.gone = false → i.swapWaits = false) →
      s1.tryEl (who (.lstat d.index k) d.fmt false) (now piece) = .done s2 ds gm more →
        exec (.lstat c) s = .next (next (s2.setColumn d.g d.index k (now piece) ds gm))) ∧
    (s.atHead (.cpy c) c .stream true d → d.q.prog.started = false → s.cmdStarts d.x = true → (Instr.cpy c).wf = true → 1 ≤ d.count →
      s.isGlobal d.addr = true → d.addr.toNat % 64 = 0 → (c.flags.getLsbD 0 = true → d.bound 2 = true) →
      ∃ t, exec (.cpy c) s = .next t ∧ s.leftHead t d ∧ findD t.engines (d.x.die * 8 + d.index % 8) [] = findD s.engines (d.x.die * 8 + d.index % 8) [] ++
        [{ num := d.q.num, core := s.cur, port := d.p.toNat, id := d.q.id, ctx := d.x.ctx, tenant := d.x.tenant, group := d.g, list := d.addr, count := d.count,
           pulse := c.flags.getLsbD 1, resp := c.flags.getLsbD 0 }])

/-- O44. An element of a stream reads or writes exactly the bytes of its access, in a window or in memory. An access of an element inside one unit, with
no spilled element of its stream that reaches its bytes before it (spilled elements count no more once all cores of its group are done), and in
its turn: in memory, where its address translates with the declared format to a unit without uncorrectable error and the block rule holds, a read
gives the bytes there and changes no byte, a write leaves its bytes there and changes no other, and for block-family data the access of the scale
bytes follows, which does so at the address of R77; in an attached window, with no failed unit, it does so at the offset of the live bank, a
write of a 4-bit element into its half of the byte; in an open or draining window it waits, and on a detached one, or beyond the windows, the
agent stops with a record of cause 0x10. An element of a command waits while an earlier copy command of its stream has still to access its bytes.
An address outside this package stops the agent with a record of cause 0x20. Where the manual leaves a point open, the model follows its own
reading: log entry 43. -/
def Obligations.StreamElementsTouchTheirBytes : Prop :=
  ∀ (s : State) (w : Who) (p : Piece), s.memoryForm → p.upd = none →
    let alone : Prop := (s.over w.group = true ∨ ∀ e ∈ s.spill, e.stream = w.stream → e.ctx = w.ctx → s.spillMeets e p w.spd = false) ∧
      s.portLater w (p.span w.spd).1 = false ∧ s.elBehind w p = false
    (s.elBehind w p = true → s.tryEl w p = .wait) ∧
    (w.window = false → s.isGlobal p.addr = true → p.geom = none → alone →
      ∀ s1 pa pf gm, s.translate w.ctx p.addr w.write (some w.fmt) = .ok (pa, pf, gm) s1 → s1.bad pa = false →
      (w.fmt = 8 → p.addr.toNat % max (blockLen gm / 2) 1 = 0 ∧ p.bytes % max (blockLen gm / 2) 1 = 0 ∧ p.grain % max (blockLen gm) 1 = 0) →
      (w.write = false → ∃ t, s.tryEl w p = .done t (s.memBytes (s1.keyOf w.ctx) pa p.bytes) gm (if w.fmt = 8 then [{ p with geom := some gm }] else []) ∧
        s.sameBytes t) ∧
      (w.write = true → pa % 128 + p.out.length ≤ 128 →
        ∃ t, s.tryEl w p = .done t [] gm (if w.fmt = 8 ∧ p.scale ≠ [] then [{ p with geom := some gm }] else []) ∧
          t.memBytes (s1.keyOf w.ctx) pa p.out.length = p.out ∧ s.sameBytesBut t (s1.keyOf w.ctx) pa p.out.length)) ∧
    (∀ g, w.window = false → s.isGlobal p.addr = true → p.geom = some g → alone →
      ∀ s1 qa pf gm, s.translate w.ctx (scaleAddr p.addr w.spd g) w.write none = .ok (qa, pf, gm) s1 → s1.bad qa = false →
      let half := max (blockLen g / 2) 1
      let own := (p.scale.drop (p.bitOff / 4 / max (blockLen g) 1)).take (p.bytes / half)
      (w.write = false → ∃ t, s.tryEl w p = .done t (s.memBytes (s1.keyOf w.ctx) qa (p.bytes / half)) g [] ∧ s.sameBytes t) ∧
      (w.write = true → qa % 128 + own.length ≤ 128 → ∃ t, s.tryEl w p = .done t [] g [] ∧ t.memBytes (s1.keyOf w.ctx) qa own.length = own ∧
        s.sameBytesBut t (s1.keyOf w.ctx) qa own.length)) ∧
    (w.window = false → s.isGlobal p.addr = false → s.elBehind w p = false → ∃ r, s.tryEl w p = .stop (s.record r) ∧ r.cause = 0x20 ∧ r.b = p.addr ∧ r.a = w.a ∧ r.kind = w.kind) ∧
    (w.window = true → 2 ^ 20 ≤ p.addr.toNat → ∃ r, s.tryEl w p = .stop (s.record r) ∧ r.cause = 0x10 ∧ r.b = p.addr) ∧
    (w.window = true → p.addr.toNat < 2 ^ 20 → s.elBehind w p = false →
      let k := BitVec.ofNat 4 (p.addr.toNat / 65536)
      let x := (s.coreAt w.core).win k
      let off := p.addr.toNat % 65536
      let a := s.liveBank w.core k + off
      let turn : Prop := s.bankLater w.core w.core w.tenant k (s.bankRank w.core k w.sub) = false ∧ s.mcastOwes w.stream w.core k off p.bytes = false
      (x.state = .opened ∨ x.state = .draining → s.tryEl w p = .wait) ∧
      (x.state = .detached → ∃ r, s.tryEl w p = .stop (s.record r) ∧ r.cause = 0x10 ∧ r.b = p.addr) ∧
      (x.state = .attached → w.write = true → x.w = false → ∃ r, s.tryEl w p = .stop (s.record r) ∧ r.cause = 0x11 ∧ r.b = p.addr) ∧
      (x.state = .attached → w.write = false → turn → (∀ j < p.bytes, s.badBankUnit (a + j) = false) →
        ∃ t, s.tryEl w p = .done t (Memory.readN s.banks a p.bytes) 0 [] ∧ s.sameBytes t) ∧
      (x.state = .attached → w.write = true → x.w = true → turn → p.nib = none → (∀ j < p.out.length, s.badBankUnit (a + j) = false) →
        ∃ t, s.tryEl w p = .done t [] 0 [] ∧ Memory.readN t.banks a p.out.length = p.out ∧ s.sameBytesButBank t a p.out.length) ∧
      (∀ (h : Nat) (v : Byte), x.state = .attached → w.write = true → x.w = true → turn → p.nib = some h → h < 2 → p.out = [v] → s.badBankUnit a = false →
        let old := (Memory.readN s.banks a 1).headD 0
        ∃ (t : State) (new : Byte), s.tryEl w p = .done t [] 0 [] ∧ Memory.readN t.banks a 1 = [new] ∧ new.toNat / 16 ^ h % 16 = v.toNat % 16 ∧
          new.toNat / 16 ^ (1 - h) % 16 = old.toNat / 16 ^ (1 - h) % 16 ∧ s.sameBytesButBank t a 1))

/-- O45. MAT, FNC and VEC cells take one token of each input and write one; an ACC adds its token to a set and releases full sets. A cell that may fire,
with its tokens at the heads of its inputs, no segment to close and room at its output, fires: MAT and FNC write one token 4 cycles later with
the tag of their token and the data of their mode; VEC writes the lane results one cycle later, ends the segment where any input ends, and then
marks a token late and discards the rest of the longer inputs. ACC adds the 32 lanes to the row whose turn it is, and takes the token unless it
fills the set or ends the segment, which starts a release; a release writes the next token of the set, with first and start of tile on the first
token, last and end of tile on the last, and then empties the set and takes the token that filled it. A start of tile inside an open segment of
its thread first closes the segments that it meets open at a MAT, FNC or VEC, each with a segment error; a VEC then discards what is left of the
others. PLANE_SWAP exchanges the planes of a MAT that waits for it at its place. Where the manual leaves a point open, the model follows its own
reading: log entry 35. -/
def Obligations.ComputingCellsFire : Prop :=
  ∀ (s : State) (r : CellRef) (x : Group) (i : Inst),
    let head (p : Nat) : Option Token := x.head s.cycle r.inst p
    let calm (ins : List Nat) : Prop := x.closing s.cycle r.inst i ins = []
    let room (p : Nat) : Prop := x.room s.cycle r.inst p = true
    (∀ (m : MatSt) (a : Token), s.cellAt r x i → kindOf i.hdr = kMAT → i.st = .mat m → modeOf i.hdr ≠ 5 → head 0 = some a → calm [0] → room 0 →
      s.acts r x (.matFire r) [0] [(0, mkTok (packElems 80 (matSums (modeOf i.hdr) m.active a.nat 0)) a.tag)] 4 fun t i' =>
        firedTo s i.st t i' ∧ (s.inSegment r x i [0] → s.sameBytes t)) ∧
    (∀ (m : MatSt) (a b : Token), s.cellAt r x i → kindOf i.hdr = kMAT → i.st = .mat m → modeOf i.hdr = 5 → head 0 = some a → head 1 = some b →
      calm [0, 1] → room 0 →
      s.acts r x (.matFire r) [0, 1] [(0, mkTok (packElems 80 (matSums 5 m.active a.nat b.nat)) a.tag)] 4 fun t i' =>
        firedTo s i.st t i' ∧ (s.inSegment r x i [0, 1] → s.sameBytes t)) ∧
    (∀ (f : List (BitVec 32)) (a : Token), s.cellAt r x i → kindOf i.hdr = kFNC → i.st = .fnc f → head 0 = some a → calm [0] → room 0 →
      s.acts r x (.fncFire r) [0] [(0, mkTok (fncTok i.hdr i.words f a.nat) a.tag)] 4 fun t i' =>
        firedTo s i.st t i' ∧ (s.inSegment r x i [0] → s.sameBytes t)) ∧
    (∀ d : Nat → Token, s.cellAt r x i → kindOf i.hdr = kVEC → i.skip = [] → (∀ p ∈ vecIns i.hdr, head p = some (d p)) → calm (vecIns i.hdr) → room 0 →
      let v (p : Nat) : Nat := if p ∈ vecIns i.hdr then (d p).nat else 0
      let ends := (vecIns i.hdr).filter fun p => (d p).tag.eot
      let late := if ends = [] then [] else (vecIns i.hdr).filter fun p => !(d p).tag.eot
      s.acts r x (.vecFire r) (vecIns i.hdr)
        [(0, mkTok (vecTok i.hdr i.words (v 0) (v 1) (v 2)) { (d 0).tag with eot := decide (ends ≠ []), late := decide (late ≠ []) })] 1 fun t i' =>
          firedTo s i.st t i' ∧ i'.skip = (if x.perToken i then [] else late) ∧ i'.emitted = (d 0).tag.seq ∧ (late = [] → s.inSegment r x i (vecIns i.hdr) → s.sameBytes t)) ∧
    (∀ (sets : List AccSet) (k : Nat) (e : AccSet) (a : Token), s.cellAt r x i → kindOf i.hdr = kACC → i.st = .acc sets → (∀ q ∈ sets, q.rel = none) →
      head 0 = some a → calm [0] → accSetOf i.hdr sets a.tag.thread = some k → sets[k]? = some e →
      (e.acc.map (·.1)).Pairwise (· < ·) →
      let full := if modeOf i.hdr = 0 then e.n + 1 == accRows i.hdr * accDepth i.hdr else a.tag.eot
      s.acts r x (.accFire r) (if full then [] else [0]) [] 0 fun t i' => i'.fired = some s.cycle ∧ (s.inSegment r x i [0] → s.sameBytes t) ∧
        ∃ e' : AccSet, i'.st = .acc (setAt sets k e') ∧ e'.n = e.n + 1 ∧ e'.thread = a.tag.thread ∧ e'.rel = (if full then some (0, true) else none) ∧
          e'.key = (if classOf i.hdr = 1 then some a.tag.thread else none) ∧
          e'.carry = ⟨e.carry.first || a.tag.first, e.carry.last || a.tag.last, e.carry.replayed || a.tag.replayed⟩ ∧
          ∀ l, (findD e'.acc l 0).toNat = (if l / 32 = e.n % accRows i.hdr then
              xadd (findD e.acc l 0).toNat (accLane i.hdr a.nat (l % 32)) % 2 ^ 80
            else (findD e.acc l 0).toNat)) ∧
    (∀ (sets : List AccSet) (k n : Nat) (eats : Bool) (e : AccSet), s.inst? r = some (x, i) → i.st = .acc sets → sets.findIdx? (fun q => q.rel.isSome) = some k →
      sets[k]? = some e → e.rel = some (n, eats) → s.live x = true → i.outAt ≠ some s.cycle → room 0 → (eats = true → ∃ a, x.headAny s.cycle r.inst 0 = some a) →
      let last := decide (n + 1 ≥ (accTokens i.hdr e).length)
      let tag : Tag := {
        ctx := BitVec.ofNat 12 x.ctx, thread := e.thread, seq := (i.nextSeq 0 e.thread).1, sot := n == 0, eot := last
        first := n == 0 && e.carry.first, last := last && e.carry.last, replayed := e.carry.replayed }
      s.acts r x (.accRelease r) (if last && eats then [0] else [])
        [(0, mkTok ((accTokens i.hdr e).getD n 0) tag)] 2 fun _ i' =>
          i'.st = .acc (setAt sets k (if last then {} else { e with rel := some (n + 1, eats) })) ∧ i'.outAt = some s.cycle) ∧
    (∀ (a : Instr) (ins : List Nat), s.cellAt r x i →
      (kindOf i.hdr = kMAT ∧ (∃ m, i.st = .mat m) ∧ a = .matFire r ∧ ins = (if modeOf i.hdr = 5 then [0, 1] else [0]) ∨
        kindOf i.hdr = kFNC ∧ (∃ f, i.st = .fnc f) ∧ a = .fncFire r ∧ ins = [0] ∨ kindOf i.hdr = kVEC ∧ i.skip = [] ∧ a = .vecFire r ∧ ins = vecIns i.hdr) →
      let cl := x.closing s.cycle r.inst i ins
      let rest := if kindOf i.hdr = kVEC then i.leftOver cl ins else []
      i.role = .node → cl ≠ [] → ∃ (t : State) (y : Group) (i' : Inst), exec a s = .next t ∧ t.group? r.group = some y ∧ y.insts[r.inst]? = some i' ∧ t.cores = s.cores ∧
        i'.opens = i.opens.filter (fun e => !cl.contains e) ∧ i'.skip = i.skip ++ rest ∧ i'.st = i.st ∧
        (x.counts44 i = true → y.counts.segErr = satAdd x.counts.segErr (cl.length + if rest = [] then 0 else 1)) ∧
        ((∀ l ∈ x.links, l.src = r.inst → ∀ m, x.insts[l.dst]? = some m → m.role ≠ .merge) → x.moved y s.cycle r.inst [] [] s.cycle)) ∧
    (∀ m : MatSt, s.inst? r = some (x, i) → i.st = .mat m → m.swap = true → s.atSwap x r.inst i = true →
      s.acts r x (.planeSwap r) [] [] 0 fun t i' => i' = { i with st := .mat { active := m.shadow, shadow := m.active, swap := false } } ∧ s.sameBytes t)

/-- O46. RED, RSUM, CVT and BFY cells take their token into their state and write what it completes, in turn; cells drain what they hold. A RED, RSUM, CVT
or BFY that may fire, with its tokens at the heads of its inputs and no segment to close, takes them into its running values or its packing and
writes the output tokens that this completes, full ones and, at the end of the segment, the rest padded; CVT and BFY keep a packing for each
thread, and at the end the state is as at the start of the next segment. A firing that makes several tokens writes one a cycle, numbered in turn,
and takes its inputs with the last. Every cell that holds tokens of an earlier firing writes the next of them when its output has room. Where the
manual leaves a point open, the model follows its own reading: log entry 35. -/
def Obligations.CollectingCellsFire : Prop :=
  ∀ (s : State) (r : CellRef) (x : Group) (i : Inst),
    let head (p : Nat) : Option Token := x.head s.cycle r.inst p
    let calm (ins : List Nat) : Prop := x.closing s.cycle r.inst i ins = []
    let one (q : Nat × Tag) : List (Nat × Nat × Tag) := [(0, q.1, q.2)]
    (∀ (q : RedSt) (a : Token) (f : Fmt), s.cellAt r x i → kindOf i.hdr = kRED → modeOf i.hdr ≠ 0x20 → i.st = .red q → head 0 = some a → calm [0] →
      (∀ k ∈ i.opens, k.2 = a.tag.thread.toNat) → fmtOf (hf i.hdr 39 36) = some f →
      let m := modeOf i.hdr
      let v := redToken m f q a.nat
      let c : Carry := ⟨q.carry.first || a.tag.first, q.carry.last || a.tag.last, q.carry.replayed || a.tag.replayed⟩
      let q1 : RedSt := { q with vals := if m = 0 ∨ m = 1 then [] else v.1, idxs := if redPerTok m then [] else v.2, taken := q.taken + 1, carry := c }
      let res := if redPerTok m then markElems ⟨a.tag.first, a.tag.last, false⟩ ((if m = 0x18 then List.range (elemsPerToken f) else [0]).map (redResult m f v))
        else if a.tag.eot then redEnd m f q1 else []
      let ts := packToks (redBits m f) a.tag.eot 200 { q.pack with pend := q.pack.pend ++ res, thread := a.tag.thread, replayed := c.replayed } []
      s.firesInTurn r x i (.redFire r) [0] (ts.1.map one) fun t i' =>
        firedTo s (.red (if a.tag.eot then redReset i.hdr q1 else { q1 with pack := ts.2 })) t i' ∧ (s.inSegment r x i [0] → s.sameBytes t)) ∧
    (∀ (q : RedSt) (e g : Token), s.cellAt r x i → kindOf i.hdr = kRED → modeOf i.hdr = 0x20 → i.st = .red q → i.skip = [] → head 0 = some e → head 1 = some g →
      calm [0, 1] → (∀ k ∈ i.opens, (k.1 = 0 → k.2 = e.tag.thread.toNat) ∧ (k.1 = 1 → k.2 = g.tag.thread.toNat)) →
      let sums : Tbl Int := (List.range 32).foldl (fun (v : Tbl Int) j => put v j (fadd (fmul (findD v j 0).toNat (elemAt g.nat 32 j)) (elemAt e.nat 32 j) : Nat)) q.vals
      let c : Carry := ⟨q.carry.first || e.tag.first, q.carry.last || e.tag.last, q.carry.replayed || e.tag.replayed⟩
      let q1 : RedSt := { q with vals := sums, taken := q.taken + 1, carry := c, pack := { q.pack with thread := e.tag.thread } }
      let late := if e.tag.eot && !g.tag.eot then [1] else if g.tag.eot && !e.tag.eot then [0] else []
      let out : Nat × Nat × Tag := (0, packElems 32 ((List.range 32).map fun j => (findD sums j 0).toNat),
        { thread := e.tag.thread, sot := true, eot := true, first := c.first, last := c.last, replayed := c.replayed, late := decide (late ≠ []) })
      s.firesInTurn r x i (.rsumFire r) [0, 1] (if e.tag.eot || g.tag.eot then [[out]] else []) fun t i' =>
        firedTo s (.red (if e.tag.eot || g.tag.eot then redReset i.hdr q1 else q1)) t i' ∧ i'.skip = (if x.perToken i then [] else late) ∧
        (late = [] → s.inSegment r x i [0, 1] → s.sameBytes t)) ∧
    (∀ (l : Tbl RepackSt) (a : Token) (f fo : Fmt), s.cellAt r x i → kindOf i.hdr = kCVT → i.st = .cvt l → head 0 = some a → calm (if modeOf i.hdr = 2 then [0, 1] else [0]) →
      fmtOf (hf i.hdr 39 36) = some f → fmtOf (hf i.hdr 35 32) = some fo →
      let q : RepackSt := findD l a.tag.thread.toNat {}
      let p : Pack := { q.pack with thread := a.tag.thread, replayed := q.pack.replayed || a.tag.replayed }
      (modeOf i.hdr = 1 →
        let ts := quantToks i.hdr i.words a.tag.eot 8 (q.ins ++ carried a (elems a.nat (elemBits f) (elemsPerToken f))) p []
        s.firesInTurn r x i (.cvtFire r) [0] (ts.1.map fun k => [(0, k.1, k.2.2), (1, k.2.1, k.2.2)]) fun t i' =>
          firedTo s (.cvt (l.seg a.tag.thread a.tag.eot { ins := ts.2.1, pack := ts.2.2 })) t i' ∧ (s.inSegment r x i [0] → s.sameBytes t)) ∧
      (∀ b : Token, modeOf i.hdr ≠ 1 → (modeOf i.hdr = 2 → head 1 = some b) →
        let ins := if modeOf i.hdr = 2 then [0, 1] else [0]
        let scale := if modeOf i.hdr = 2 then b.nat else ((head 1).map Token.nat).getD 0
        let ts := packToks (elemBits fo) a.tag.eot 64 { p with pend := p.pend ++ carried a (cvtVals i.hdr i.words a.nat scale) } []
        s.firesInTurn r x i (.cvtFire r) ins (ts.1.map one) fun t i' =>
          firedTo s (.cvt (l.seg a.tag.thread a.tag.eot { ins := [], pack := ts.2 })) t i' ∧ (s.inSegment r x i ins → s.sameBytes t))) ∧
    (∀ (l : Tbl RepackSt) (a : Token) (f : Fmt), s.cellAt r x i → kindOf i.hdr = kBFY → i.st = .bfy l → head 0 = some a → calm [0] → fmtOf (hf i.hdr 39 36) = some f →
      let q : RepackSt := findD l a.tag.thread.toNat {}
      let ins := q.ins ++ carried a ((elems a.nat (elemBits f) (elemsPerToken f)).map fun e => rnd (value f e))
      let h := 2 ^ hf i.hdr 35 33
      let b := bfyGroups h a.tag.eot 200 ins []
      let ts := packToks 32 a.tag.eot 16 { q.pack with thread := a.tag.thread, replayed := q.pack.replayed || a.tag.replayed, pend := q.pack.pend ++ b.2 } []
      s.firesInTurn r x i (.bfyFire r) [0] (ts.1.map one) fun t i' =>
        firedTo s (.bfy (l.seg a.tag.thread a.tag.eot { ins := b.1, pack := ts.2 })) t i' ∧
        ((a.tag.eot = true → ins.length % (2 * h) = 0) → s.inSegment r x i [0] → s.sameBytes t)) ∧
    (∀ (e : Emit) (rest : List Emit) (a : Instr), s.inst? r = some (x, i) → i.outq = e :: rest → s.live x = true → i.outAt ≠ some s.cycle →
      x.roomFor s.cycle r.inst e = true →
      (kindOf i.hdr = kMAT ∧ a = .matFire r ∨ kindOf i.hdr = kACC ∧ a = .accFire r ∨ kindOf i.hdr = kVEC ∧ a = .vecFire r ∨ kindOf i.hdr = kFNC ∧ a = .fncFire r ∨
        kindOf i.hdr = kRED ∧ a = (if modeOf i.hdr = 0x20 then .rsumFire r else .redFire r) ∨ kindOf i.hdr = kCVT ∧ a = .cvtFire r ∨
        kindOf i.hdr = kBFY ∧ a = .bfyFire r) →
      (∀ p ∈ i.due, ∃ u, x.headAny s.cycle r.inst p = some u) → i.due.Nodup →
      s.acts r x a (if rest = [] then i.due else []) e.toks e.lat fun _ i' => i'.outq = rest ∧ i'.outAt = some s.cycle)

/-- O47. CNT and AGN cells start their runs and tiles, write and read their tokens, and acknowledge what they have stored. A CNT that may fire and is
funded starts a run with its count, from its parameter or from the 32-bit integer in memory once the limiter and the port let it read; a running
CNT with a credit and room writes the token of its next index, ends the run with the last and then takes the index token of a nest; a token on i1
returns a credit. An AGN that walks no tile starts one: by its index token or in order. A load AGN writes its next whole token, makes the next
access of its tokens, or begins the next token of its tile with the accesses and padding of the tensor map; a store AGN takes the next data token
of the segment it stores, and its scale token for block formats, with the accesses that store it, makes its next access, or drops tokens beyond
its tile. AGN_ACKNOWLEDGE writes the tile index of a stored segment once it is accepted. ILOAD takes an index token and gives each lane its place
in the tokens being filled for its thread. Where the manual leaves a point open, the model follows its own reading: log entries 45, 49 and 87. -/
def Obligations.SourceCellsRun : Prop :=
  ∀ (s : State) (r : CellRef) (x : Group) (i : Inst),
    let head (p : Nat) : Option Token := x.head s.cycle r.inst p
    let calm (ins : List Nat) : Prop := x.closing s.cycle r.inst i ins = []
    let room (p : Nat) : Prop := x.room s.cycle r.inst p = true
    let own (p : Nat) (tag : Tag) : Tag := { tag with ctx := BitVec.ofNat 12 x.ctx, seq := (i.nextSeq p tag.thread).1 }
    let inSec := ((s.objOf x).secOf i.node).isSome
    (∀ (c : CntSt) (n : Int), s.cellAt r x i → kindOf i.hdr = kCNT → i.st = .cnt c → c.running = false → c.held = false → creditOk i.hdr c = true →
      let nest := modeOf i.hdr == 1
      let once := pw i.words 2 % 2 ^ 32
      (if nest then (∃ a, head 0 = some a) ∧ calm [0] else if once ≠ 0 then c.runs < once else if inSec then 0 < c.budget else c.started = false) →
      (i.hdr.getLsbD 39 = false ∧ n = toSigned 32 (pw i.words 1) ∨ i.hdr.getLsbD 39 = true ∧ ∃ (bs : List Byte) (s1 : State),
        s.loadN x.ctx (BitVec.ofNat 64 (pw i.words 1) + (if i.hdr.getLsbD 38 then BitVec.ofInt 64 (4 * ((head 0).map fun a => laneS a 0).getD 0) else 0)) (some 15) 2 4
          = .ok bs s1 ∧ n = toSigned 32 (leNat bs) ∧ s.cellReadLater x i (countAddr i (head 0)) 4 = false) →
      s.acts r x (.cntRunStart r) (if nest && decide (n ≤ 0) then [0] else []) [] 0 fun _ i' => i'.st = .cnt { c with
        running := decide (0 < n), n := n.toNat, k := 0, runs := c.runs + 1, started := true
        budget := if nest || once ≠ 0 then c.budget else c.budget - 1 }) ∧
    (∀ (c : CntSt) (a : Token), s.cellAt r x i → kindOf i.hdr = kCNT → i.st = .cnt c → c.running = true → creditOk i.hdr c = true → room 0 →
      (modeOf i.hdr = 1 → head 0 = some a) →
      let nest := modeOf i.hdr == 1
      let p := pw i.words 0
      let last := c.k + 1 == c.n
      let lanes := (p % 2 ^ 32 + c.k * (p / 2 ^ 32)) % 2 ^ 32 :: c.k :: (List.range 30).map fun j => if nest then elemAt a.nat 32 j else 0
      let tag := own 0 { first := c.k == 0, sot := c.k == 0, last := last, eot := last, thread := if nest then a.tag.thread else BitVec.ofNat 20 (pw i.words 3) }
      s.acts r x (.cntFire r) (if last && nest then [0] else []) [(0, mkTok (packElems 32 lanes) tag)] 1 fun t i' =>
        firedTo s (.cnt { c with k := c.k + 1, running := !last, credits := if hf i.hdr 37 30 = 0 then 0 else c.credits + 1 }) t i') ∧
    (∀ (c : CntSt) (a : Token), s.inst? r = some (x, i) → i.st = .cnt c → x.headAny s.cycle r.inst 1 = some a → s.live x = true →
      s.acts r x (.cntCreditReturn r) [1] [] 0 fun t i' => i'.st = .cnt { c with credits := c.credits - 1 } ∧ s.sameBytes t) ∧
    (∀ a : AgnSt, s.cellAt r x i → kindOf i.hdr = kAGN → i.st = .agn a → a.walking = false → (x.preempt = none ∨ i.opens ≠ []) →
      let m := s.agnMap x i
      let starts (b : AgnSt) (tile : Nat) : Prop := b.walking = true ∧ b.tile = tile ∧ b.j = 0 ∧ b.spd = s.spdOf x.ctx ∧ b.bufs = a.bufs ∧ b.puts = a.puts
      let inOrder (b : AgnSt) : Prop := starts b a.pos ∧ b.pos = (a.pos + 1) % max m.tiles 1
      (∀ k : Token, modeOf i.hdr = 0 → x.inLinked r.inst 0 = true → head 0 = some k → calm [0] →
        s.acts r x (.agnTileWalk r) [0] [] 0 fun _ i' => ∃ b, i'.st = .agn b ∧ starts b (tileOf m k) ∧ b.thread = k.tag.thread ∧ b.wfirst = true ∧ b.wlast = true) ∧
      (modeOf i.hdr = 0 → x.inLinked r.inst 0 = false → (if inSec then 0 < a.budget else a.started = false) →
        s.acts r x (.agnTileWalk r) [] [] 0 fun _ i' => ∃ b, i'.st = .agn b ∧ inOrder b ∧ b.thread = BitVec.ofNat 20 (pw i.words 1) ∧ b.budget = a.budget - 1 ∧
          (inSec = true → b.wfirst = a.fresh ∧ b.wlast = (a.budget == 1)) ∧
          (inSec = false → b.wfirst = (a.pos == 0) ∧ b.wlast = decide (m.tiles ≤ a.pos + 1) ∧ b.started = decide (m.tiles ≤ a.pos + 1))) ∧
      (∀ k u : Token, modeOf i.hdr = 1 → head 0 = some k → x.inLinked r.inst 2 = true → head 2 = some u → calm [2] →
        s.acts r x (.agnTileWalk r) [2] [] 0 fun _ i' => ∃ b, i'.st = .agn b ∧ starts b (tileOf m u) ∧ b.thread = u.tag.thread ∧ b.taken = k.tag.thread ∧ b.pos = a.pos) ∧
      (∀ k : Token, modeOf i.hdr = 1 → head 0 = some k → x.inLinked r.inst 2 = false →
        s.acts r x (.agnTileWalk r) [] [] 0 fun _ i' => ∃ b, i'.st = .agn b ∧ inOrder b ∧ b.thread = k.tag.thread ∧ b.taken = k.tag.thread)) ∧
    (∀ b : TokBuf, s.cellAt r x i → kindOf i.hdr = kAGN → modeOf i.hdr ≠ 1 → modeOf i.hdr ≠ 3 → nextBuf (x.allCommute r.inst) i.agn.bufs = some b → i.outAt ≠ some s.cycle →
      room 0 → (b.block = true → room 1) → (∀ u ∈ i.agn.bufs, u.todo = []) → (modeOf i.hdr = 2 ∨ i.agn.walking = false) →
      let tag : Tag := { b.tag with late := x.allCommute r.inst && b.late }
      s.acts r x (.agnAccess r) [] ((0, mkTok b.data.toNat tag) :: if b.block then [(1, mkTok (trimScale b.scale).toNat tag)] else []) (max (b.due - s.cycle) 1) fun t i' =>
        i'.outAt = some s.cycle ∧ i'.agn.bufs = i.agn.bufs.filter (·.id != b.id) ∧ s.sameBytes t) ∧
    (∀ (b : TokBuf) (p : Piece) (rest more : List Piece) (s1 : State) (data : List Byte) (geom : Nat), s.cellAt r x i → kindOf i.hdr = kAGN →
      (modeOf i.hdr = 0 ∨ modeOf i.hdr = 4) → s.agnEmit r x i = none → (i.agn.bufs.find? fun u => !u.todo.isEmpty) = some b → b.todo = p :: rest →
      let who := s.agnWho r x i b.fmt b.spd (.buf r.inst b.id) false
      s.tryEl who p = .done s1 data geom more →
      let d := if b.win then s1.winDue who p else (0, s1)
      let u := (d.2.modAgn r fun a => a.modBuf b.id fun u => { (u.fillIn p data geom) with todo := more ++ rest, due := d.1 }).fired r
      (u.inst? r = none → exec (.agnAccess r) s = .next u) ∧
      ∀ x2 i2, u.inst? r = some (x2, i2) → exec (.agnAccess r) s = .next ((u.agnEmit r x2 i2).getD u)) ∧
    (s.cellAt r x i → kindOf i.hdr = kAGN → modeOf i.hdr = 0 → s.agnEmit r x i = none → (∀ u ∈ i.agn.bufs, u.todo = []) → i.agn.walking = true →
      i.agn.full (x.allCommute r.inst) = false → (∀ u ∈ i.agn.bufs, u.id ≠ i.agn.nextId) →
      let a := i.agn
      let m := s.agnMap x i
      let last := decide (a.j + 1 = m.tileTokens)
      ∃ (t : State) (y : Group) (i' : Inst), exec (.agnAccess r) s = .next t ∧ t.group? r.group = some y ∧ y.insts[r.inst]? = some i' ∧ t.cores = s.cores ∧ i'.agn.j = a.j + 1 ∧
        i'.agn.walking = decide (a.j + 1 < m.tileTokens) ∧ (i'.agn.bufs = a.bufs ∧ i'.outAt = some s.cycle ∨ ∃ (b : TokBuf) (more : List Piece), i'.agn.bufs = a.bufs ++ [b] ∧
          b.tag = own 0 { thread := a.thread, sot := a.j == 0, eot := last, first := a.wfirst && a.j == 0, last := a.wlast && last } ∧
          (b.todo = m.pieces (agnBase i) a.tile a.j ∧ b.data = m.padding (agnBase i) a.tile a.j ∨ b.todo = more ++ (m.pieces (agnBase i) a.tile a.j).drop 1))) ∧
    (∀ a : AgnSt, s.cellAt r x i → kindOf i.hdr = kAGN → modeOf i.hdr = 1 → i.st = .agn a →
      let m := s.agnMap x i
      (∀ (p : Piece) (rest more : List Piece) (s1 : State) (ds : List Byte) (gm : Nat), a.puts = p :: rest → (more ++ rest ≠ [] ∨ a.eot = false) →
        s.tryEl (s.agnWho r x i m.fmt a.spd (.put r.inst a.nextId) true) p = .done s1 ds gm more →
        exec (.agnAccess r) s = .next ((s1.modAgn r fun a => { a with puts := more ++ rest }).fired r)) ∧
      (∀ k u : Token, a.puts = [] → a.walking = true → calm (if m.fmt = 8 then [0, 1] else [0]) → head 0 = some k → k.tag.thread = a.taken → (m.fmt = 8 → head 1 = some u) →
        let ins := if m.fmt = 8 then [0, 1] else [0]
        let scale := if m.fmt = 8 then u.nat else ((head 1).map Token.nat).getD 0
        let ps := withData k.nat scale (m.pieces (agnBase i) a.tile a.j)
        (a.j < m.tileTokens → (ps ≠ [] ∨ k.tag.eot = false) → s.acts r x (.agnAccess r) ins [] 0 fun t i' =>
          i'.st = .agn { a with j := a.j + 1, puts := ps, eot := k.tag.eot, replayed := a.replayed || k.tag.replayed } ∧ (s.inSegment r x i ins → s.sameBytes t)) ∧
        (m.tileTokens ≤ a.j → k.tag.eot = false → s.acts r x (.agnAccess r) ins [] 0 fun _ i' => i'.st = .agn { a with excess := true }) ∧
        (m.tileTokens ≤ a.j → k.tag.eot = true → s.putSpilled r a.nextId = false → s.acts r x (.agnAccess r) ins [] 0 fun _ i' =>
          i'.agn.walking = false ∧ i'.agn.nextId = a.nextId + 1 ∧ i'.agn.acks = a.acks ++ (if x.outLinked r.inst 0 then
            [{ id := a.nextId, tile := a.tile, tag := { thread := a.thread, first := true, last := true, sot := true, eot := true, replayed := a.replayed },
               counted := true }] else [])))) ∧
    (∀ (k : Ack) (rest : List Ack), s.inst? r = some (x, i) → i.agn.acks = k :: rest → s.putSpilled r k.id = false → s.live x = true →
      (x.outLinked r.inst 0 = true → room 0 → s.acts r x (.agnAcknowledge r) [] [(0, mkTok k.tile (own 0 k.tag))] 1 fun t i' =>
        i'.agn.acks = rest ∧ s.sameBytes t) ∧
      (x.outLinked r.inst 0 = false → s.acts r x (.agnAcknowledge r) [] [] 0 fun t i' => i'.agn.acks = rest ∧ s.sameBytes t)) ∧
    (∀ k : Token, s.cellAt r x i → kindOf i.hdr = kAGN → modeOf i.hdr = 4 → (∃ a, i.st = .agn a) → calm [0] → head 0 = some k → i.agn.full (x.allCommute r.inst) = false →
      (i.agn.bufs.filter fun b => b.opened && b.tag.thread == k.tag.thread).length ≤ 1 → (i.agn.begun.map (·.1)).Pairwise (· < ·) →
      let m := s.agnMap x i
      let used := ((List.range 32).filter fun j => decide (0 ≤ laneS k j ∧ laneS k j < (m.elems : Int))).length
      let bytes (l : List TokBuf) : Nat := (l.map fun b => (b.todo.map (·.bytes)).sum).sum
      s.acts r x (.iloadFire r) [0] [] 0 fun t i' => i'.fired = some s.cycle ∧ (i'.agn.bufs.map (·.fill)).sum = (i.agn.bufs.map (·.fill)).sum + 32 ∧
        bytes i'.agn.bufs = bytes i.agn.bufs + used * (bitsOf m.fmt / 8) ∧ (s.inSegment r x i [0] → s.sameBytes t) ∧
        (∀ b ∈ i.agn.bufs, b.tag.thread ≠ k.tag.thread → b ∈ i'.agn.bufs) ∧
        (k.tag.eot = true → find i'.agn.begun k.tag.thread.toNat = none ∧ ∀ b, (i'.agn.bufs.filter fun b => b.tag.thread == k.tag.thread).getLast? = some b →
          b.tag.eot = true ∧ b.tag.last = true ∧ b.opened = false))

/-- O48. RTE splits, merges and steers pass on tokens by the rules of their modes, and so do the splits and merges of cloned nodes. An RTE split that may
fire passes its head token, with its tag, to the output of its mode: the sequence modulo the outputs, the hash of its key, the next output in
turn for each segment, or all of them. An inserted split sends a token to the clone that its thread's hash, its sequence, or the segment's choice
names, and queues that choice at the other splits and the merges of its node; the other splits follow their queue; the splits of a cloned merging
RTE send by the sequence alone. A written merge first closes an open segment that a start of tile meets, with one segment error. A merge with
commute, and a clone of a merging RTE, passes the token that came first; one without passes, from its store or its inputs, the token with the
sequence that it expects next, and else stores the lowest head, as does the inserted merge of a cloned merging RTE; any other inserted one
follows its route queue. A steer sends a segment to the output that its first token or its control token chose, and drops it where that names no
output. Where the manual leaves a point open, the model follows its own reading: log entries 33, 34 and 42. -/
def Obligations.RoutingCellsRun : Prop :=
  ∀ (s : State) (r : CellRef) (x : Group) (i : Inst),
    let head (p : Nat) : Option Token := x.head s.cycle r.inst p
    let calm (ins : List Nat) : Prop := x.closing s.cycle r.inst i ins = []
    let room (p : Nat) : Prop := x.room s.cycle r.inst p = true
    let passes (a : Instr) (ins : List Nat) (p out : Nat) (k : Token) (st : CellState) : Prop := s.acts r x a ins [(out, k)] 1 fun t i' => firedTo s st t i' ∧
      (s.inSegment r x i [p] → s.sameBytes t)
    (∀ k : Token, s.cellAt r x i → kindOf i.hdr = kRTE → i.role = .node → head 0 = some k → calm [0] →
      let n := max (x.outs r.inst).length 1
      let th := k.tag.thread.toNat
      let key := if hf i.hdr 39 34 = 63 then th else elemAt k.nat 32 (hf i.hdr 39 34)
      (modeOf i.hdr = 0 → room (k.tag.seq.toNat % n) → passes (.rteSplit r) [0] 0 (k.tag.seq.toNat % n) k i.st) ∧
      (modeOf i.hdr = 1 → room (key * 0x9E3779B1 % 2 ^ 32 * n / 2 ^ 32) → passes (.rteSplit r) [0] 0 (key * 0x9E3779B1 % 2 ^ 32 * n / 2 ^ 32) k i.st) ∧
      (∀ q : RteSt, modeOf i.hdr = 2 → i.st = .rte q → room ((find q.cur th).getD (q.pos % n)) → s.acts r x (.rteSplit r) [0] [((find q.cur th).getD (q.pos % n), k)] 1 fun _ i' =>
        ∃ q', i'.st = .rte q' ∧ q'.pos = (if find q.cur th = none then (q.pos + 1) % n else q.pos) ∧ q'.held = q.held ∧ q'.route = q.route ∧
          ((k.tag.eot = false ∧ (k.tag.sot = true ∨ find q.cur th ≠ none)) → find q'.cur th = some ((find q.cur th).getD (q.pos % n)))) ∧
      (modeOf i.hdr = 5 → (x.outs r.inst).all (x.room s.cycle r.inst) = true →
        s.acts r x (.rteSplit r) [0] ((x.outs r.inst).map fun p => (p, k)) 1 fun t i' => firedTo s i.st t i' ∧ (s.inSegment r x i [0] → s.sameBytes t))) ∧
    (∀ k : Token, s.cellAt r x i → kindOf i.hdr = kRTE → i.role = .split → modeOf i.hdr ≠ 3 → modeOf i.hdr ≠ 4 → head 0 = some k →
      let h := x.served i.node
      let n := max (x.copies i.node).length 1
      let ctl := (x.followers i.node r.inst).head?.bind fun j => x.head s.cycle j 0
      let others := x.fedMerges i.node k ctl ++ x.followers i.node r.inst
      let queues (out : Nat) (t : State) : Prop := ∀ j ∈ others, j ≠ r.inst → others.Nodup → ∀ y, x.insts[j]? = some y →
        ((t.group? r.group).bind fun z => z.insts[j]?).map (·.rte.route) = some (y.rte.route ++ [out])
      let short : Prop := ∀ j ∈ others, ∀ y, x.insts[j]? = some y → y.rte.route.length < 64
      let merges := kindOf h = kRTE ∧ modeOf h = 3
      (classOf h ≠ 1 → merges → calm [0] → let out := k.tag.seq.toNat % n
        room out → passes (.rteSplit r) [0] 0 out k i.st) ∧
      (classOf h = 1 → let out := k.tag.thread.toNat * 0x9E3779B1 % 2 ^ 32 * n / 2 ^ 32
        room out → passes (.rteSplit r) [0] 0 out k i.st) ∧
      (perTok h = true → ¬ merges → x.firstSplit i = true → i.skip = [] → (k.tag.sot = true → i.isOpen 0 k = false) →
        (∀ j ∈ x.followers i.node r.inst, ∃ y u, x.insts[j]? = some y ∧ y.rte.route = [] ∧ y.skip = [] ∧ x.head s.cycle j 0 = some u ∧ u.tag.eot = k.tag.eot ∧
          (u.tag.sot = true → y.isOpen 0 u = false)) → short → let out := k.tag.seq.toNat % n
        room out → s.acts r x (.rteSplit r) [0] [(out, k)] 1 fun t i' => i'.fired = some s.cycle ∧ queues out t) ∧
      (segWise h = true → ¬ merges → x.firstSplit i = true → i.skip = [] → calm [0] →
        (∀ out, find i.rte.cur k.tag.thread.toNat = some out → room out → s.acts r x (.rteSplit r) [0] [(out, k)] 1 fun _ i' => i'.fired = some s.cycle) ∧
        ((kindOf h = kRTE → modeOf h = 4 → h.getLsbD 32 = false → ctl.isSome = true) → find i.rte.cur k.tag.thread.toNat = none → short → let out := if classOf h = 2 then i.rte.pos % n else k.tag.seq.toNat % n
          room out → s.acts r x (.rteSplit r) [0] [(out, k)] 1 fun t i' => i'.fired = some s.cycle ∧ queues out t)) ∧
      (∀ (q : RteSt) (out : Nat) (rest : List Nat), classOf h ≠ 1 → ¬ merges → x.firstSplit i = false → i.st = .rte q → q.route = out :: rest → calm [0] → room out →
        let each := !segWise h || (kindOf h == kAGN && i.iport == 2) || (kindOf h == kRTE && i.iport == 1)
        s.acts r x (.rteSplit r) [0] [(out, k)] 1 fun t i' => firedTo s (.rte { q with route := if each || k.tag.eot then rest else out :: rest }) t i')) ∧
    (∀ (q : RteSt) (p : Nat) (rest : List Nat) (k : Token), s.cellAt r x i → kindOf i.hdr = kRTE → modeOf i.hdr = 3 → i.role = .merge → i.st = .rte q →
      (x.routed i.node).contains r.inst = true → q.route = p :: rest → (∀ h ∈ q.held, h.1 ≠ p) → head p = some k → room 0 →
      (kindOf (x.served i.node)) ∉ [kACC, kRED, kCVT, kBFY, kGAT, kAGN] →
      passes (.rteMerge r) [p] p 0 k (.rte { q with route := if segWise (x.served i.node) && !k.tag.eot then p :: rest else rest })) ∧
    (∀ (q : RteSt), s.cellAt r x i → kindOf i.hdr = kRTE → modeOf i.hdr = 3 → i.st = .rte q →
      let h := x.served i.node
      let merges := kindOf h = kRTE ∧ modeOf h = 3
      let clones := 1 < (x.copies i.node).length
      let starts (p : Nat) (k : Token) : Prop := p ∈ x.ins r.inst ∧ head p = some k ∧ k.tag.sot = true ∧ i.isOpen p k = true
      let alone : Prop := i.role = .node ∧ ¬ clones ∧ ∀ p k, ¬ starts p k
      (i.role = .node → ¬ clones → ∀ p k, starts p k → (∀ q < p, ∀ u, ¬ starts q u) → ∃ (t : State) (y : Group) (i' : Inst), exec (.rteMerge r) s = .next t ∧
        t.group? r.group = some y ∧ y.insts[r.inst]? = some i' ∧ y.links = x.links ∧ i'.opens = i.opens.filter (· != (p, k.tag.thread.toNat)) ∧
        (x.counts44 i = true → y.counts.segErr = satAdd x.counts.segErr 1)) ∧
      (∀ (p : Nat) (k : Token), (alone ∧ commuteOf i.hdr = true ∨ i.role = .node ∧ clones ∨ i.role = .merge ∧ (x.routed i.node).contains r.inst = false ∧
          ¬ (merges ∧ commuteOf h = false) ∧ kindOf h ∉ [kACC, kRED, kCVT, kBFY, kGAT, kAGN]) →
        x.firstArrived s.cycle r.inst = some (p, k) → room 0 → passes (.rteMerge r) [p] p 0 k i.st) ∧
      (alone ∧ commuteOf i.hdr = false ∨ i.role = .merge ∧ merges ∧ commuteOf h = false →
        let due (k : Token) : Bool := k.tag.seq == findD q.expect k.tag.thread.toNat 0
        (∀ h, (q.held.find? fun h => due h.2) = some h → room 0 → s.acts r x (.rteMerge r) [] [(0, h.2)] 1 fun _ i' => ∃ q', i'.st = .rte q' ∧
          q'.held = q.held.filter (· != h) ∧ find q'.expect h.2.tag.thread.toNat = some (h.2.tag.seq + 1)) ∧
        (∀ p k, (∀ h ∈ q.held, due h.2 = false) → x.firstHead s.cycle r.inst (fun _ k => due k) = some (p, k) → room 0 →
          s.acts r x (.rteMerge r) [p] [(0, k)] 1 fun _ i' => ∃ q', i'.st = .rte q' ∧ q'.held = q.held ∧ find q'.expect k.tag.thread.toNat = some (k.tag.seq + 1)) ∧
        (∀ p k, (∀ h ∈ q.held, due h.2 = false) → x.firstHead s.cycle r.inst (fun _ k => due k) = none → x.firstHead s.cycle r.inst (fun _ _ => true) = some (p, k) →
          q.held.length < 64 → s.acts r x (.rteMerge r) [p] [] 0 fun _ i' => i'.st = .rte { q with held := q.held ++ [(p, k)] }))) ∧
    (∀ (q : RteSt) (k : Token), s.cellAt r x i → kindOf i.hdr = kRTE → modeOf i.hdr = 4 → i.st = .rte q → head 0 = some k → calm [0] →
      let th := k.tag.thread.toNat
      let n := (x.outs r.inst).length
      let noted (out : Nat) : CellState := .rte { q with cur := if k.tag.eot then del q.cur th else put q.cur th out }
      (∀ out, find q.cur th = some out → (out < n → room out → passes (.rteSteer r) [0] 0 out k (noted out)) ∧
        (n ≤ out → s.acts r x (.rteSteer r) [0] [] 0 fun t i' => firedTo s (noted out) t i' ∧ (s.inSegment r x i [0] → s.sameBytes t))) ∧
      (find q.cur th = none → i.hdr.getLsbD 32 = true → let out := if elemAt k.nat 32 (hf i.hdr 31 27) = 0 then 0 else 1
        (out < n → room out → passes (.rteSteer r) [0] 0 out k (noted out)) ∧ (n ≤ out → s.acts r x (.rteSteer r) [0] [] 0 (firedTo s (noted out)))) ∧
      (∀ u : Token, find q.cur th = none → i.hdr.getLsbD 32 = false → calm [1] → head 1 = some u → let out := min (elemAt u.nat 32 0) 4
        (out < n → room out → s.acts r x (.rteSteer r) [1, 0] [(out, k)] 1 fun t i' => firedTo s (noted out) t i' ∧ (s.inSegment r x i [0, 1] → s.sameBytes t)) ∧
        (n ≤ out → s.acts r x (.rteSteer r) [1, 0] [] 0 (firedTo s (noted out)))))

/-- O49. A TAP passes its token and acts as its mode says, barrier tokens pass as one, settings load, and count points finish tiles. A TAP that may fire
passes its head token with its tag; where the marker of its mode stands it posts one arrival for each scope at which a count is set for it, or
pulses every core of the placement; a btok TAP (of a cloned one, instance 0) does both for a barrier token and drops that where its setting says
so; a retire TAP keeps a token with a lane that is not zero until its record, which it asks for, is appended. Barrier tokens at every input of a
node that has nothing in hand leave as one on every output. A setting that is not in its cell loads where the cell holds fewer than four others,
an FNC with its table of memory, in which a unit with an uncorrectable error reads as zeros and is recorded, once the limiter and the ports let
it read. A finished tile leaves the count of its section; the last one disarms it and pulses every core of the placement. Where the manual leaves
a point open, the model follows its own reading: log entries 39 and 41. -/
def Obligations.TapsBarriersSettingsAndCounts : Prop :=
  ∀ (s : State) (r : CellRef) (x : Group) (i : Inst),
    let room (p : Nat) : Prop := x.room s.cycle r.inst p = true
    (∀ k : Token, s.cellAt r x i → kindOf i.hdr = kTAP → x.headAny s.cycle r.inst 0 = some k → x.closing s.cycle r.inst i [0] = [] → room 0 →
      let m := modeOf i.hdr
      let mark := !k.tag.barrier && (if i.hdr.getLsbD 37 then k.tag.eot else k.tag.last)
      let b := BitVec.ofNat 2 (hf i.hdr 39 38)
      let goes (st : CellState) (after : State → Prop) : Prop := s.acts r x (.tapFire r) [0] [(0, k)] 1 fun t i' => firedTo s st t i' ∧ after t
      let arrives (t : State) : Prop := ∃ fs : List Flight, t.flights = s.flights ++ fs ∧ (∀ f ∈ fs, f.core = x.coreOf i ∧ f.kind = .cell ∧ f.release = false) ∧
        fs.map (·.op) = ([Scope.core, .quad, .die].filter fun sc => decide (x.tapCount i.node b sc (x.coreOf i) ≠ 0)).map fun sc => FlightOp.tap i.node b sc
      let pulses (t : State) : Prop := ∀ j, (s.objOf x).taps.findIdx? (· == i.node) = some j → t.pulses = s.pulses ++ (if j < 7 then x.cores.map fun n => { core := n, src := 16 + j } else [])
      ((m = 0 ∨ m = 1) → mark = false → goes i.st fun t => t.flights = s.flights ∧ t.pulses = s.pulses ∧ t.retires = s.retires) ∧
      (m = 0 → mark = true → goes i.st fun t => t.pulses = s.pulses ∧ arrives t) ∧
      (m = 1 → mark = true → goes i.st fun t => t.flights = s.flights ∧ pulses t) ∧
      (m = 2 → k.tag.barrier = false → goes i.st fun t => t.flights = s.flights ∧ t.pulses = s.pulses) ∧
      (m = 2 → k.tag.barrier = true → s.acts r x (.tapFire r) [0] (if i.hdr.getLsbD 36 then [] else [(0, k)]) 1 fun t i' => firedTo s i.st t i' ∧ s.sameBytes t ∧
        (i.copy = 0 → arrives t ∧ pulses t) ∧ (i.copy ≠ 0 → t.flights = s.flights ∧ t.pulses = s.pulses)) ∧
      (m = 3 → k.tag.barrier = true ∨ laneMask k = 0 → goes i.st fun t => t.retires = s.retires) ∧
      (m = 3 → k.tag.barrier = false → laneMask k ≠ 0 →
        let waits : Prop := ∃ e ∈ s.retires, e.group = r.group ∧ e.inst = r.inst ∧ e.due = false
        (waits → exec (.tapFire r) s = .next s) ∧
        (¬ waits → exec (.tapFire r) s = .next { s with retires := s.retires ++
          [{ group := r.group, inst := r.inst, header := BitVec.ofNat 64 (pw i.words 0), held := false, due := false }] }))) ∧
    (∀ ks : Nat → Token, s.cellAt r x i → kindOf i.hdr ≠ kTAP → x.barIns r.inst i ≠ [] → (∀ p ∈ x.barIns r.inst i, x.headAny s.cycle r.inst p = some (ks p) ∧ (ks p).tag.barrier = true) →
      (∀ p ∈ x.outs r.inst, room p) → s.barIdle x i = true →
      let tag := (ks ((x.barIns r.inst i).headD 0)).tag
      s.acts r x (.barrierTokenPass r) (x.barIns r.inst i)
        ((x.outs r.inst).map fun p => (p, mkTok 0 (if x.numbersOwn i then
          { ctx := BitVec.ofNat 12 x.ctx, thread := tag.thread, seq := (i.nextSeq p tag.thread).1, barrier := true } else tag))) 1 fun t i' =>
          firedTo s (barSt i ((x.barIns r.inst i).map ks)) t i' ∧ i'.opens = i.opens ∧ s.sameBytes t) ∧
    (s.inst? r = some (x, i) → i.loaded = false → i.gone = false → i.held = false → s.live x = true →
      (x.insts.zipIdx.filter fun p => p.2 != r.inst && p.1.rank == i.rank && p.1.cell == i.cell && !p.1.gone && p.1.loaded).length < 4 →
      ((kindOf i.hdr ≠ kFNC ∨ i.role ≠ .node) → s.acts r x (.settingLoad r) [] [] 0 fun t i' => i' = { i with loaded := true } ∧ s.sameBytes t) ∧
      (∀ (bs : List Byte) (bad : List Word) (s1 : State), kindOf i.hdr = kFNC → i.role = .node →
        let a := BitVec.ofNat 64 (pw i.words 0)
        (s.cellReadLater x i a 2048 = true → exec (.settingLoad r) s = .next s) ∧
        (s.cellReadLater x i a 2048 = false → s.loadZ x.ctx a 18 2048 = .ok (bs, bad) s1 →
          exec (.settingLoad r) s = .next ((bad.foldl (fun s b => s.cellErr x i (.bad b)) (s1.cellReadPaid x i a 2048)).modInst r fun y =>
            { y with loaded := true, st := .fnc ((List.range 512).map fun k => BitVec.ofNat 32 (fieldN bs (4 * k) 4)) })))) ∧
    (∀ (k : Nat) (e : Sec), s.group? r.group = some x → x.secs[k]? = some e → 0 < e.fin → e.count ≠ 0 → ∃ (t : State) (y : Group), exec (.countPointFinish r.group k) s = .next t ∧
      t.group? r.group = some y ∧ y.links = x.links ∧ y.insts = x.insts ∧ t.cores = s.cores ∧ s.sameBytes t ∧
      (e.count = 1 → y.secs = setAt x.secs k {} ∧ t.pulses = s.pulses ++ (if k < 16 then x.cores.map fun n => { core := n, src := k } else [])) ∧
      (e.count ≠ 1 → y.secs = setAt x.secs k { e with count := e.count - 1, fin := e.fin - 1 } ∧ t.pulses = s.pulses))

/-- O50. GAT cells forward misses, replay hits and return the output of their block, and captured entries reach the recall store. A GAT that may fire
writes the next token that it forwards, with its own numbering; else it writes the next token of a replay on o1; else it decides a whole segment
or takes its head token into the segment of its thread. A segment with no entry of its block and tile in the recall store is a miss: its tokens
are forwarded and its output is to be captured. A segment whose entry is of the step before, has its length and lies within the threshold, while
its section is armed and no replay is forced out, is a hit: the entry takes the step, and its output is replayed. GAT_RETURN passes a token of
the oldest miss of its key on o1 and into the capture. RECALL_ENTRY_WRITE replaces the entry of the same tag, takes a free slot of its
allocation, or replaces the entry that the rule of a full one names. Where the manual leaves a point open, the model follows its own reading: log
entry 47. -/
def Obligations.StepCacheCellsRun : Prop :=
  ∀ (s : State) (r : CellRef) (x : Group) (i : Inst) (g : GatSt),
    let gat (i' : Inst) (f : GatSt → Prop) : Prop := ∃ g', i'.st = .gat g' ∧ f g'
    let room (p : Nat) : Prop := x.room s.cycle r.inst p = true
    let own (p : Nat) (tag : Tag) : Tag := { tag with ctx := BitVec.ofNat 12 x.ctx, seq := (i.nextSeq p tag.thread).1 }
    let replays := (gatFronts i.hdr g.outs []).filter fun o => match o with
      | .replay _ _ _ => true
      | _ => false
    (s.cellAt r x i → kindOf i.hdr = kGAT → i.st = .gat g →
      (∀ (k : Token) (rest : List Token), g.fwd = k :: rest → room 0 → s.acts r x (.gatSegment r) [] [(0, { k with tag := own 0 k.tag })] 1 fun t i' =>
        firedTo s (.gat { g with fwd := rest }) t i' ∧ s.sameBytes t) ∧
      (∀ (th : BitVec 20) (id : Nat) (k : Token) (rest : List Token) (more : List GatOut), g.fwd = [] → replays = .replay th id (k :: rest) :: more → room 1 →
        s.acts r x (.gatSegment r) [] [(1, { k with tag := own 1 { k.tag with thread := th, replayed := true, late := false } })] 1 fun t i' => i'.fired = some s.cycle ∧ s.sameBytes t ∧
          gat i' fun g' => g'.outs = (if rest = [] then g.outs.erase (.replay th id [k]) else modAt g.outs (g.outs.idxOf (.replay th id (k :: rest))) fun _ => .replay th id rest)) ∧
      (∀ k : Token, g.fwd = [] → replays = [] → g.whole = none → x.head s.cycle r.inst 0 = some k → x.closing s.cycle r.inst i [0] = [] →
        find g.pass k.tag.thread.toNat = none → (∀ u ∈ g.held, u.tag.thread = k.tag.thread) → (g.held.filter (·.tag.thread == k.tag.thread)).length < 64 →
        s.acts r x (.gatSegment r) [0] [] 0 fun t i' => i'.fired = some s.cycle ∧ (s.inSegment r x i [0] → s.sameBytes t) ∧ gat i' fun g' => g'.held = g.held ++ [k] ∧
          g'.whole = (if k.tag.eot then some k.tag.thread else none) ∧ g'.outs = g.outs ∧ g'.fwd = [] ∧
          find g'.sampled k.tag.thread.toNat = some ((find g.sampled k.tag.thread.toNat).getD (((s.graphSt x.ctx x.key).map (·.stepno)).getD 0))) ∧
      (∀ (th : BitVec 20), g.fwd = [] → replays = [] → g.whole = some th →
        let ts := g.held.filter (·.tag.thread == th)
        let st := findD g.sampled th.toNat 0
        let tile := (g.nextTile (gatKey i.hdr th) st).1
        s.gatWaits r g tile = false →
        (s.rcLookup x.die x.ctx (gatBlk i.hdr) tile = none → s.acts r x (.gatSegment r) [] [] 0 fun _ i' => gat i' fun g' =>
          g'.held = g.held.filter (·.tag.thread != th) ∧ g'.whole = none ∧ g'.outs = g.outs ++ [.miss th] ∧ g'.fwd.map (·.data) = ts.map (·.data) ∧
          g'.caps = g.caps ++ [{ thread := th, tile := tile, step := st, input := ts.map (fun k => BitVec.ofNat 1024 k.nat), bad := false }]) ∧
        (∀ (e : RcEntry) (c : Sec), s.rcLookup x.die x.ctx (gatBlk i.hdr) tile = some e → e.bad = false → e.step = st - 1 → e.input.length = ts.length →
          (hf i.hdr 38 31 = 0 ∨ e.replays < hf i.hdr 38 31) → (i.hdr.getLsbD 30 = true ∧ (∀ k ∈ ts, k.tag.replayed = true) ∨ ∃ f, fmtOf (hf i.hdr 5 2) = some f ∧ gatMatch f (gatElems f (ts.map fun k => k.nat % 2 ^ 1024)) (gatElems f (e.input.map (·.toNat)))
            (i.hdr.getLsbD 39) (pw i.words 0 % 2 ^ 32) = true) → x.secs[hf i.hdr 17 6]? = some c → 0 < c.left →
          s.acts r x (.gatSegment r) [] [] 0 fun t i' => (∀ e', t.rcLookup x.die x.ctx (gatBlk i.hdr) tile = some e' → e'.id = e.id → e'.step = st) ∧ gat i' fun g' =>
            g'.held = g.held.filter (·.tag.thread != th) ∧ g'.whole = none ∧ g'.outs = g.outs ++ [.replay th e.id e.output] ∧ g'.fwd = [] ∧ g'.caps = g.caps))) ∧
    (∀ k : Token, s.cellAt r x i → kindOf i.hdr = kGAT → i.st = .gat g → x.head s.cycle r.inst 1 = some k → x.closing s.cycle r.inst i [1] = [] →
      (gatFronts i.hdr g.outs []).contains (.miss k.tag.thread) = true → room 1 →
      s.acts r x (.gatReturn r) [1] [(1, { k with tag := own 1 { k.tag with late := false } })] 1 fun t i' => i'.fired = some s.cycle ∧
        (k.tag.eot = true → ∀ c, (g.caps.find? (·.thread == k.tag.thread)) = some c → gat i' fun g' => g'.outs = g.outs.erase (.miss k.tag.thread)) ∧
        (k.tag.eot = false → ∀ c, (g.caps.find? (·.thread == k.tag.thread)) = some c → c.output.length ≤ 64 → gat i' fun g' => g'.outs = g.outs ∧
          g'.caps = g.caps.map fun d => if d = c then { c with output := c.output ++ [k] } else d) ∧
        (s.inSegment r x i [1] → s.sameBytes t)) ∧
    (∀ (k : Nat) (w : RcWrite) (a : RcAlloc), s.rcWrites[k]? = some w → (findD s.recalls w.die []).find? (fun b => b.ctx == w.entry.ctx && b.graph == w.graph) = some a →
      let same (e : RcEntry) : Bool := e.ctx == w.entry.ctx && e.blk == w.entry.blk && e.tile == w.entry.tile
      let others := (findD s.recalls w.die []).any fun b => b.entries.any same
      (others = true ∨ a.entries.length < a.slots ∨ (rcVictim w.entry.step a.entries).isSome = true) → ∃ t, exec (.recallEntryWrite k) s = .next t ∧ t.rcWrites = s.rcWrites.eraseIdx k ∧ s.sameBytes t ∧ t.groups = s.groups ∧
        t.rcLookup w.die w.entry.ctx w.entry.blk w.entry.tile = some w.entry ∧ ∀ d, d ≠ w.die → findD t.recalls d [] = findD s.recalls d [])

/-- O51. Pulses reach the terms of their core, due terms act, exchange windows swap, spilled elements retry, records reach their queues. A pulse leaves
its list and adds to the terms of its core that name its source, a count up to 255 or a latch, and to nothing else. A due term that no later slot
has overtaken in its cycle consumes its count or latches and adds its amount to its event counter, with saturation, raises the count of its
section, or queues its command. An exchange window whose covered writes are applied changes its live and shadow banks. A spilled element that may
be retried has its access made, its data in its token, and leaves the queue, or leaves there the access of its scale bytes; where it faults again
it stays, with a new record if that is its first own fault or cause or level changed. A combined translation may leave at any time. A fault
record is written at the tail of its tenant's queue and the tail rises and fills the future that the queue names, waits where a port that the
append uses has served a later agent, is counted as lost where the queue is full, and goes to the host queue where the header cannot be read; a
host record is written at the tail by DMA and raises vector 0. Where the manual leaves a point open, the model follows its own reading: log
entries 44, 60 and 61. -/
def Obligations.EventFabricSteps : Prop :=
  (∀ (s : State) (k : Nat) (p : Pulse), s.pulses[k]? = some p → p.core < 2 ^ 20 → 
    let heard (u : Term) : Term :=
      if tOp u.word.toNat = 0 then (if tSrcA u.word.toNat = p.src then { u with pend := BitVec.ofNat 8 (min 255 (u.pend.toNat + 1)) } else u)
      else { u with a := u.a || tSrcA u.word.toNat == p.src, b := u.b || tSrcB u.word.toNat == p.src }
    ∃ t, exec (.eventPulse k) s = .next t ∧ t.pulses = s.pulses.eraseIdx k ∧ s.sameBytes t ∧ (∀ n, n ≠ p.core → t.coreAt n = s.coreAt n) ∧
      t.coreAt p.core = { (s.coreAt p.core) with terms := (s.coreAt p.core).terms.map heard }) ∧
  (∀ (s : State) (n j g : Nat) (x : Group) (u : Term), j < 16 → (s.coreAt n).terms.toList[j]? = some u → (s.coreAt n).group = some g → s.group? g = some x →
    s.cmdLive x = true → x.preempt = none → (∀ v ∈ (s.coreAt n).terms.toList.drop j, v.last ≠ s.cycle + 1) →
    (tOp u.word.toNat = 0 ∧ u.pend ≠ 0 ∨ tOp u.word.toNat = 1 ∧ (u.a = true ∨ u.b = true) ∨ 2 ≤ tOp u.word.toNat ∧ u.a = true ∧ u.b = true) →
    let w := u.word.toNat
    let spent (t : State) : Prop := (t.coreAt n).terms.toList[j]? =
      some (if tOp w = 0 then { u with pend := u.pend - 1, last := s.cycle + 1 } else { u with a := false, b := false, last := s.cycle + 1 })
    (tAct w = 1 → s.inOrder (countPlace n (BitVec.ofNat 3 (tCtr w))) 1 = true → ∃ t, exec (.eventTermAct n j) s = .next t ∧ spent t ∧ t.groups = s.groups ∧ ∀ m : BitVec 3, (t.coreAt n).evc m =
      if m = BitVec.ofNat 3 (tCtr w) then BitVec.ofNat 32 (min (((s.coreAt n).evc m).toNat + tAmt w) 0xFFFFFFFF) else (s.coreAt n).evc m) ∧
    (∀ e : Sec, tAct w = 2 → x.secs[tSec w]? = some e → e.fin = 0 → ∃ (t : State) (y : Group), exec (.eventTermAct n j) s = .next t ∧ spent t ∧ t.group? g = some y ∧
      y.links = x.links ∧ y.secs = setAt x.secs (tSec w) { e with count := BitVec.ofNat 24 (min (e.count.toNat + tAmt w) 0xFFFFFF) }) ∧
    (2 < tAct w → let q := s.entryAt n (tAmt w) 0 0
      (((s.coreAt n).port q.2).queue.length < Config.portQueue → ∃ t, exec (.eventTermAct n j) s = .next t ∧ spent t ∧
        ((t.coreAt n).port q.2).queue.map (·.word) = ((s.coreAt n).port q.2).queue.map (·.word) ++ [q.1.word]) ∧
      (Config.portQueue ≤ ((s.coreAt n).port q.2).queue.length → exec (.eventTermAct n j) s = .next s))) ∧
  (∀ (s : State) (n w : Nat) (p : Nat × List Nat), (s.coreAt n).swaps.find? (fun q => q.1 == w) = some p →
    (∀ f ∈ s.flights, f.id ∈ p.2 → f.applied = true ∨ f.failed = true) →
    let x := (s.coreAt n).win (BitVec.ofNat 4 w)
    ∃ t, exec (.exchangeSwap n w) s = .next t ∧ s.sameBytes t ∧ (t.coreAt n).swaps = (s.coreAt n).swaps.erase p ∧ (∀ m, m ≠ n → t.coreAt m = s.coreAt m) ∧
      (x.state = .attached → x.mode = .exchange → (t.coreAt n).win (BitVec.ofNat 4 w) = { x with bank := x.shadow, shadow := x.bank })) ∧
  (∀ (s : State) (k : Nat) (x : Spill), s.spill[k]? = some x → x.retry = true → (∀ m mask w off, x.dest ≠ .mcast m mask w off) →
    s.over x.group = false → s.discards x.ctx = false → s.inOrder (homePort (x.piece.span x.spd).1) (rankOf x.src x.sub) = true →
    (∀ e ∈ s.spill.take k, ¬ (e.retry = true ∧ e.port = x.port) ∧ ¬ (e.stream = x.stream ∧ e.ctx = x.ctx ∧ s.spillMeets e x.piece x.spd = true)) →
    let s0 := s.noteServed (homePort (x.piece.span x.spd).1) (rankOf x.src x.sub)
    (∀ s1 bs gm rest, s0.globalEl x.ctx x.piece x.fmt x.spd x.write = .ok s1 bs gm rest [] →
      let left := s1.spill.take k ++ (rest.map fun p => { x with piece := p, tried := false }) ++ s1.spill.drop (k + 1)
      ((∃ i d, x.dest = .put i d) ∨ x.dest = .cmdPut → exec (.spillRetry k) s = .next { s1 with spill := left }) ∧
      (∀ (j id : Nat) (y : Group) (i : Inst), x.dest = .buf j id → s.group? x.group = some y → s1.group? x.group = some y → y.status = .running → y.insts[j]? = some i →
        ∃ (t : State) (z : Group) (i' : Inst), exec (.spillRetry k) s = .next t ∧ t.spill = left ∧ t.group? x.group = some z ∧ z.insts[j]? = some i' ∧
        i'.agn.bufs = i.agn.bufs.map fun b => if b.id = id then
          { (b.fillIn x.piece bs gm) with spilled := if x.piece.geom = none ∧ x.fmt = 8 then b.spilled else b.spilled - 1, late := true } else b)) ∧
    (∀ (e : TErr) (s1 : State), s0.globalEl x.ctx x.piece x.fmt x.spd x.write = .err e s1 → ∃ t, exec (.spillRetry k) s = .next t ∧ s1.sameBytes t ∧
      t.spill = setAt s1.spill k { x with fault := e.addr, cause := e.cause, level := e.level, stage2 := e.host, retry := false, tried := true } ∧
      (x.tried = true → e.cause = x.cause → e.level = x.level → t.recs = s1.recs ∧ t.hrecs = s1.hrecs) ∧
      (x.tried = false ∨ ¬ (e.cause = x.cause ∧ e.level = x.level) → e.host = false → t.recs.length = s1.recs.length + 1))) ∧
  (∀ (s : State) (k : Nat), exec (.tlbEntryDrop k) s = .next { s with tlb := s.tlb.eraseIdx k }) ∧
  (∀ (s : State) (k : Nat) (r : FRec), s.recs[k]? = some r → (∀ c, s.context? r.ctx.toNat = some c → c.purging = true →
    exec (.faultRecordAppend k) s = .next { s with recs := s.recs.eraseIdx k })) ∧
  (∀ (s : State) (k : Nat) (r : FRec), s.recs[k]? = some r → (∀ c, s.context? r.ctx.toNat = some c → c.purging = false) → s.inOrder (queuePlace r.tenant) r.rank = true →
    let s0 := ({ s with recs := s.recs.eraseIdx k } : State).noteServed (queuePlace r.tenant) r.rank
    (s.tenant? r.tenant = none → exec (.faultRecordAppend k) s = .next s0) ∧
    (∀ ports rank, s.faultPorts r.tenant = (ports, rank) → (∃ p ∈ ports, s.inOrder p rank = false) → exec (.faultRecordAppend k) s = .next s) ∧
    (∀ (te : Tenant) (ports : List Nat) (rank : Nat), s.tenant? r.tenant = some te → s.faultPorts r.tenant = (ports, rank) → (∀ p ∈ ports, s.inOrder p rank = true) →
      let h := te.cfg.faultHdr
      let s1 := ports.foldl (fun (s : State) p => s.noteServed p rank) s0
      homePort h ∈ ports ∧
      (∀ e s2, s1.load te.cfg.hostCtx h 64 (some 15) = .err e s2 → exec (.faultRecordAppend k) s = .next { s2 with hrecs := s2.hrecs ++ [r] }) ∧
      (∀ hd s2 s3, s1.load te.cfg.hostCtx h 64 (some 15) = .ok hd s2 → queueFull hd = true →
        s2.store64 te.cfg.hostCtx (h + 0x20) (satInc (hdr64 hd 0x20)) = .ok () s3 → exec (.faultRecordAppend k) s = .next s3) ∧
      (∀ hd s2 s3 s4, s1.load te.cfg.hostCtx h 64 (some 15) = .ok hd s2 → queueFull hd = false →
        s2.store te.cfg.hostCtx (slotAddr hd (hdr64 hd 0)) (r.bytes (hdr64 hd 0)) (some 15) = .ok () s3 →
        s3.store64 te.cfg.hostCtx h (hdr64 hd 0 + 1) = .ok () s4 →
        (hdr64 hd 0x28 = 0 → exec (.faultRecordAppend k) s = .next s4) ∧
        (∀ s5, hdr64 hd 0x28 ≠ 0 → s4.fill te.cfg.hostCtx (hdr64 hd 0x28) ((hdr64 hd 0 + 1).setWidth 63) = .ok () s5 → exec (.faultRecordAppend k) s = .next s5)))) ∧
  (∀ (s : State) (k : Nat) (r : FRec), s.hrecs[k]? = some r → s.inOrder hostPlace r.rank = false → exec (.hostFaultRecordAppend k) s = .next s) ∧
  (∀ (s : State) (k : Nat) (r : FRec), s.hrecs[k]? = some r → s.memoryForm → s.inOrder hostPlace r.rank = true →
    let a := s.host.hfq.toNat
    let hd := Memory.readN s.host.mem a 64
    let tail := hdr64 hd 0
    (s.host.hfq = 0 → exec (.hostFaultRecordAppend k) s = .next (State.noteServed { s with hrecs := s.hrecs.eraseIdx k } hostPlace r.rank)) ∧
    (s.host.hfq ≠ 0 → queueFull hd = false → ∃ t, exec (.hostFaultRecordAppend k) s = .next t ∧ t.hrecs = s.hrecs.eraseIdx k ∧ t.host.msix = s.host.msix ++ [0] ∧
      Memory.readN t.host.mem a 8 = wordBytes (tail + 1) ∧
      ((slotAddr hd tail).toNat + 32 ≤ a ∨ a + 8 ≤ (slotAddr hd tail).toNat → Memory.readN t.host.mem (slotAddr hd tail).toNat 32 = r.bytes tail)) ∧
    (s.host.hfq ≠ 0 → queueFull hd = true → ∃ t, exec (.hostFaultRecordAppend k) s = .next t ∧ t.hrecs = s.hrecs.eraseIdx k ∧ t.host.msix = s.host.msix ∧
      Memory.readN t.host.mem (a + 0x20) 8 = wordBytes (satInc (hdr64 hd 0x20))))

/-- O52. Submissions reach their counters, copy engines copy, retire records, packets and queue checks are made as their rules say. A submission that
reaches its counter is held there where the counter is above zero and not armed, and is refused with a record where it is armed. A copy engine
reads its next descriptor, in which a unit with an uncorrectable error reads as zeros and is recorded, refuses one that breaks the rules with a
record of cause 0x40 and status 1, and copies its next part, which changes exactly the bytes of the destination; of a byte of its source that it
has overwritten it takes the old value or the new; a finished descriptor sends the decrements of its successors in order, pulses where asked and
makes room for the next. A retire record is written at the tail of its queue, once its TAP may pass its token, with the cycle in which it does;
the tail rises and the token passes; a full queue keeps both. A queue check stores the count checked after a record whose stamp holds, sets the
error bit on bounds that fail, and stops where the count has reached the tail; a failed stamp is checked again after 128 cycles. A launch packet
is stored and answered with state 0, and with state 2 where there is no queue; a created queue stands in its tenant's table, or is held where a
stage-2 fault meets its header. Where the manual leaves a point open, the model follows its own reading: log entries 57 to 59. That a token
passes in the step in which its record is appended is the model's choice, log entry 39. -/
def Obligations.QueuesAndCountersServed : Prop :=
  (∀ (s : State) (k : Nat) (u : Submission), s.subs[k]? = some u → u.held = false → u.fresh = false → (∀ v ∈ s.subs.take k, ¬ (v.src = u.src ∧ v.fresh = false)) →
    (∃ c, s.context? u.ctx = some c ∧ c.purging = false) →
    s.inOrder (homePort (blkCounter u.block)) (rankOf u.src 0) = true →
    let s0 := s.noteServed (homePort (blkCounter u.block)) (rankOf u.src 0)
    ∀ c s1, s0.load u.ctx (blkCounter u.block) 16 (some 15) = .ok c s1 →
      (∀ s2, (fieldN c 4 1).testBit 0 = false → fieldN c 0 4 ≠ 0 → s1.store u.ctx (blkCounter u.block) (c.take 4 ++ [BitVec.ofNat 8 (fieldN c 4 1) ||| 1] ++ (c.drop 5).take 3 ++ wordBytes u.addr) (some 15) = .ok () s2 →
        exec (.counterSubmission k) s = .next { s2 with subs := s2.subs.eraseIdx k }) ∧
      ((fieldN c 4 1).testBit 0 = true → ∃ (t : State) (r : FRec), exec (.counterSubmission k) s = .next t ∧ t.subs = s1.subs.eraseIdx k ∧ t.recs = s1.recs ++ [r] ∧
        r.cause = 0x41 ∧ r.a = u.addr ∧ s1.sameBytes t) ∧
      (fieldN c 0 4 = 0 → (fieldN c 4 1).testBit 0 = false → overBanks (s1.winsOf (blkContext u.block u.ctx) u.block) (blkK u.block) = none → ∃ t, exec (.counterSubmission k) s = .next t ∧
        t.subs = s1.subs.eraseIdx k ∧ let q (z : State) : List Ready := findD (findD z.units (blkGoes u.block u.die) {}).ready (readyKey (blkLevel u.block) (s1.tenantOf (blkContext u.block u.ctx))) []
        q t = q s1 ++ [{ addr := u.addr, block := u.block, ctx := blkContext u.block u.ctx, since := s1.cycle }])) ∧
  (∀ (s : State) (n : Nat) (j : CopyJob) (rest : List CopyJob) (x : Group), findD s.engines n [] = j :: rest → j.held = false → j.ready = false → s.copyLive n j = true →
    s.bucketLow (n / 8) j.tenant = false →
    let job (t : State) (f : CopyJob → CopyJob) : Prop := findD t.engines n [] = f j :: rest
    let seen (z : State) (a : Word) (k : Nat) : State := (z.noteServed (homePort a) (rankOf (2048 + n) 0)).charge (n / 8) j.tenant k
    (s.group? j.group = some x → s.coresDone x = false → j.desc = [] → s.copyLater n j j.at false = false → s.copyBehind j j.at 64 false = false → ∀ d bad s1,
      (s.noteServed (homePort j.at) (rankOf (2048 + n) 0)).loadZ j.ctx j.at 2 64 = .ok (d, bad) s1 →
      (copyRefused d = false → ∃ t, exec (.copyDescriptor n) s = .next t ∧ s.sameBytes t ∧ (job t fun k => { k with desc := d, pos := 0, old := [] }) ∧
        t.recs.length = s1.recs.length + bad.length) ∧
      (copyRefused d = true → bad = [] → ∃ (t : State) (r : FRec), exec (.copyDescriptor n) s = .next t ∧ s.sameBytes t ∧
        job t (fun k => { k with desc := d, pos := 0, old := [], ready := true, status := 1 }) ∧ t.recs = s1.recs ++ [r] ∧ r.cause = 0x40 ∧ r.kind = .engine ∧ r.a = j.at)) ∧
    (j.desc ≠ [] → j.pos < j.len →
      let src := j.src + BitVec.ofNat 64 j.pos
      let dst := j.dst + BitVec.ofNat 64 j.pos
      s.isExchange src = false → s.isExchange dst = false → s.copyLater n j src false = false → s.copyLater n j dst true = false → s.copyBehind j src j.part false = false →
      s.copyBehind j dst j.part true = false → (∀ i, j.meets i = none) → j.old = [] →
      ∀ pa f gm s1 pb f' gm' s2, s.translate j.ctx src false (some 15) = .ok (pa, f, gm) s1 → s1.bad pa = false →
        ((seen s1 src j.part).scrub pa).translate j.ctx dst true (some 15) = .ok (pb, f', gm') s2 → s2.bad pb = false → pb % 128 + j.part ≤ 128 → s.memoryForm →
        ∃ t, exec (.copyDescriptor n) s = .next t ∧ t.memBytes (s2.keyOf j.ctx) pb j.part = s1.memBytes (s1.keyOf j.ctx) pa j.part ∧
          s.sameBytesBut t (s2.keyOf j.ctx) pb j.part ∧ job t fun k => { k with pos := j.pos + j.part, ready := decide (j.len ≤ j.pos + j.part), status := if j.len ≤ j.pos + j.part then 0 else k.status })) ∧
  (∀ (s : State) (old : Tbl Byte) (k : Nat) (bs : List Byte), (s.copyChoose old k bs).1.length = bs.length ∧ ∀ (i : Nat) (b v : Byte), bs[i]? = some b → (s.copyChoose old k bs).1[i]? = some v →
    v = b ∨ find old (k + i) = some v) ∧
  (∀ (s : State) (n : Nat) (j : CopyJob) (rest : List CopyJob), findD s.engines n [] = j :: rest → j.ready = true → s.copyLive n j = true → j.resp = false →
    ∃ (t : State) (fs : List Flight), exec (.copyDescriptorDone n) s = .next t ∧ t.flights = s.flights ++ fs ∧ (∀ f ∈ fs, f.kind = .engine ∧ f.core = 2048 + n ∧ f.src = 2048 + n ∧ f.ctx = j.ctx) ∧
      fs.map (·.op) = (if j.status = 0 then (j.succs.filter (· != 0)).map fun a => .dec (BitVec.ofNat 64 a) else []) ∧
      t.pulses = s.pulses ++ (if j.status = 0 ∧ j.pulse = true then [{ core := j.core, src := 23 + n % 8 }] else []) ∧ s.sameBytes t ∧
      findD t.engines n [] = (if j.count ≤ j.next + 1 then rest else { j with desc := [], pos := 0, ready := false, status := 0, next := j.next + 1, old := [] } :: rest)) ∧
  (∀ (s : State) (k : Nat) (q : Retire) (x : Group) (i : Inst) (u : Token) (h : List Byte) (s1 : State), s.retires[k]? = some q → s.inst? ⟨q.group, q.inst⟩ = some (x, i) →
    q.held = false → q.due = false → s.discards x.ctx = false → s.inOrder (retirePlace (homePort q.header)) i.node = true → x.headAny s.cycle q.inst 0 = some u →
    u.tag.barrier = false → laneMask u ≠ 0 → s.mayFire x q.inst i = true → x.room s.cycle q.inst 0 = true →
    ((x.copies i.node).length ≤ 1 ∨ ∀ j ∈ x.routed i.node, ∀ y, x.insts[j]? = some y → y.rte.route.head? = some i.copy) →
    s.loadZ x.ctx q.header 2 64 = .ok (h, []) s1 → retireHdrOk h = true →
    let rank := rankOf (x.coreOf i) (cellSub i.cell)
    let slot := slotAddr h (hdr64 h 0)
    (queueFull h = true → exec (.retireRecordAppend k) s = .next s) ∧
    (∀ s2 s3, queueFull h = false → hdr64 h 0x28 = 0 → s.inOrder (homePort slot) rank = true → s.inOrder (homePort q.header) rank = true →
      ((s1.noteServed (homePort slot) rank).noteServed (homePort q.header) rank).store x.ctx slot (leBytes 2 x.ctx ++ leBytes 2 i.node ++ leBytes 4 u.tag.thread.toNat ++
        leBytes 4 u.tag.seq.toNat ++ leBytes 4 (laneMask u) ++ wordBytes (s1.cycleOf x.die) ++ leBytes 8 0) (some 15) = .ok () s2 →
      s2.store64 x.ctx q.header (hdr64 h 0 + 1) = .ok () s3 → s3.inst? ⟨q.group, q.inst⟩ = some (x, i) → s3.cycle = s.cycle →
      ∃ (t : State) (y : Group) (i' : Inst), exec (.retireRecordAppend k) s = .next t ∧ t.retires = s3.retires.eraseIdx k ∧
        t.group? q.group = some y ∧ y.insts[q.inst]? = some i' ∧ i'.fired = some s.cycle ∧ x.moved y s.cycle q.inst [0] [(0, u)] (s.cycle + 1) ∧
        (s.inSegment ⟨q.group, q.inst⟩ x i [0] → s3.sameBytes t))) ∧
  (∀ (s : State) (te j : Nat) (m : Monitor) (pa fm gm : Nat) (s0 s2 : State) (h : List Byte), s.monitor? te j = some m → m.active = true → m.held = false → m.retry = none → m.due = false → s.discards m.ctx = false →
    s.inOrder (homePort m.header) (rankOf (portSrc (homePort m.header)) 0) = true →
    (s.noteServed (homePort m.header) (rankOf (portSrc (homePort m.header)) 0)).translate m.ctx m.header false (some 15) = .ok (pa, fm, gm) s0 → s0.tenants = s.tenants →
    (s0.modMonitor te j fun m => { m with place := pa }).load m.ctx m.header 64 (some 15) = .ok h s2 → (m.fresh = true → qOn h = true) → qErr h = false →
    let within : Prop := qChecked h ≤ qTail h ∧ (qTail h + 2 ^ 64 - qHead h) % 2 ^ 64 ≤ 2 ^ qSlots h
    ((m.fresh = true → within) → qTail h ≤ qChecked h → ∃ t, exec (.queueMonitorCheck te j) s = .next t ∧ t.monitor? te j = some { m with place := pa, active := false, fresh := false } ∧ s.sameBytes t) ∧
    (∀ s3, m.fresh = true → ¬ within → s2.store m.ctx (m.header + 0x12) (leBytes 1 (fieldN h 0x12 1 / 2 * 2 + 1)) (some 15) = .ok () s3 → s3.monitor? te j = s2.monitor? te j →
      ∃ t, exec (.queueMonitorCheck te j) s = .next t ∧ s3.sameBytes t ∧ t.monitor? te j = some { m with place := pa, active := false, fresh := false }) ∧
    (∀ rec s3 s4, (m.fresh = true → within) → qChecked h < qTail h → qFuture h = 0 → (s2.modMonitor te j fun m => { m with fresh := false }).loadN m.ctx (qSlot h (qChecked h)) (some 15) (qSize h + 2) (qSize h * 64) = .ok rec s3 →
      stampOk rec (qChecked h) = true → s3.store64 m.ctx (m.header + 0x18) (BitVec.ofNat 64 (qChecked h + 1)) = .ok () s4 → s4.monitor? te j = some { m with place := pa, fresh := false } →
      ∃ t, exec (.queueMonitorCheck te j) s = .next t ∧ s4.sameBytes t ∧ t.monitor? te j = some { m with place := pa, seen := none, due := false, fresh := false })) ∧
  (∀ (s : State) (te j c : Nat) (m : Monitor), s.monitor? te j = some m → m.retry = some c → m.held = false →
    (s.cycle - c < 128 → exec (.queueMonitorRetry te j) s = .next s) ∧
    (128 ≤ s.cycle - c → ∃ t, exec (.queueMonitorRetry te j) s = .next t ∧
      exec (.queueMonitorCheck te j) (s.modMonitor te j fun m => { m with retry := none, active := true }) = .next t)) ∧
  (∀ (u : State) (p : LaunchPkt), u.host.ready = true →
    let s : State := { u with host := { u.host with packets := u.host.packets.erase (p, false) } }
    let answers (t : State) (st : Nat) : Prop := ∃ rep, t.host.net = s.host.net ++ [(p.reply, rep)] ∧ rep.take 8 = wordBytes p.tag ∧ fieldN rep 10 1 = st
    (s.tenant? p.tenant = none → ∃ t, exec (.launchPacket p) u = .next t ∧ answers t 2 ∧ s.sameBytes t) ∧
    (∀ (te : Tenant) (m : Monitor) (h : List Byte) (s1 : State), s.tenant? p.tenant = some te → te.down = false → find te.queues p.queue = some m →
      s.load m.ctx m.header 64 (some 15) = .ok h s1 → qOn h = true →
      (p.length ≠ qSize h * 64 → ∃ t, exec (.launchPacket p) u = .next t ∧ answers t 3 ∧ s.sameBytes t) ∧
      (p.length = qSize h * 64 → p.record.length = p.length → 2 ^ qSlots h ≤ (qTail h + 2 ^ 64 - qHead h) % 2 ^ 64 → ∃ t, exec (.launchPacket p) u = .next t ∧ answers t 1 ∧ s.sameBytes t) ∧
      (∀ s2 s3, p.length = qSize h * 64 → p.record.length = p.length → (qTail h + 2 ^ 64 - qHead h) % 2 ^ 64 < 2 ^ qSlots h →
        u.inOrder (homePort m.header) (rankOf 2176 0) = true → u.inOrder (homePort (qSlot h (qTail h))) (rankOf 2176 0) = true →
        ((s1.noteServed (homePort m.header) (rankOf 2176 0)).noteServed (homePort (qSlot h (qTail h))) (rankOf 2176 0)).storeN m.ctx (qSlot h (qTail h)) (some 15) (qSize h + 2) p.record = (s2, none) → s2.store64 m.ctx m.header (BitVec.ofNat 64 (qTail h + 1)) = .ok () s3 →
        ∃ t, exec (.launchPacket p) u = .next t ∧ answers t 0 ∧ s3.sameBytes t))) ∧
  (∀ (s : State) (c : IntakeCfg) (y : Context) (te : Tenant) (s1 s2 : State) (pa f gm : Nat), intakeOk c = true → s.context? c.ctx = some y → y.cfg.tenant = c.tenant → s.tenant? c.tenant = some te →
    let hdr := leBytes 8 0 ++ wordBytes c.base ++ leBytes 1 c.slots ++ leBytes 1 c.size ++ leBytes 2 2 ++ leBytes 20 0 ++ wordBytes c.future ++ leBytes 16 0
    (∀ e, s.store c.ctx c.header ((hdr ++ leBytes 64 0).take 64) (some 15) = .err e s1 → ∃ t, exec (.intakeQueueCreate c) s = .next t ∧
      t.host.creates = s1.host.creates ++ (if e.host then [c] else []) ∧ s1.sameBytes t) ∧
    (s.store c.ctx c.header ((hdr ++ leBytes 64 0).take 64) (some 15) = .ok () s1 →
    s1.translate c.ctx c.header false (some 15) = .ok (pa, f, gm) s2 → ∃ t, exec (.intakeQueueCreate c) s = .next t ∧
      t.monitor? c.tenant c.queue = some { header := c.header, ctx := c.ctx, place := pa } ∧ s1.sameBytes t))

/-- O53. A ready group launches on its cores and starts with its layout; a group that has waited ages its tenant, and a rate window ends. A launch unit
serves the head group that its rules choose, on a placement that it may take: the group leaves its queue, its cores stand at its entry with the
arguments, their rank and their number, and belong to it; a graph that cannot be loaded only leaves the queue. Places for every node that keep
the rules start the group: its instances stand there, its links are empty, its cores run, and the layout version rises. A head group that has
waited 65,536 cycles ages its tenant, and asks for the pre-emption of the groups that stand in its way. A window's end latches the counters of
every written link and sets them to zero, and the next window has the length set for it. Where the manual leaves a point open, the model follows
its own reading: log entries 20 and 56. -/
def Obligations.LaunchAndLayoutSteps : Prop :=
  (∀ (s : State) (die first l te : Nat) (r : Ready), s.launches = true → s.pickReady die = some (l, te, r) → r.group = none → (die, first) ∈ s.spots die r →
    s.engineLater die r.ctx = false → (∃ c, s.context? r.ctx = some c ∧ c.purging = false) →
    let queue (z : State) : List Ready := findD (findD z.units die {}).ready (readyKey l te) []
    (∀ s1, s.loadGraph r.ctx die (blkGraph r.block) = .failed s1 → ∃ t, exec (.groupLaunch die first) s = .next t ∧ queue t = (queue s1).drop 1 ∧ t.groups = s1.groups ∧ t.cores = s1.cores) ∧
    (∀ (s1 : State) (key : Nat) (gs : GraphSt), s.loadGraph r.ctx die (blkGraph r.block) = .ok s1 key → s1.nextId = s.nextId → s1.graphSt r.ctx key = some gs → gs.area.isSome = true →
      ∃ (t : State) (y : Group), exec (.groupLaunch die first) s = .next t ∧
      queue t = (queue s1).drop 1 ∧ t.group? s.nextId = some y ∧ y.ctx = r.ctx ∧ y.graph = blkGraph r.block ∧ y.key = key ∧ y.die = die ∧ y.first = first ∧ y.k = blkK r.block ∧ y.level = l ∧
      ∀ rank, rank < 2 ^ y.k → let c := t.coreAt (die * 128 + first + rank)
        c.group = some s.nextId ∧ c.rank = rank ∧ c.pc = BitVec.ofNat 64 (if blkEntry r.block = 0xFFFFFFFF then gs.obj.entry.getD 0 else blkEntry r.block) ∧
        c.rd 1 = blkArg r.block 0 ∧ c.rd 2 = blkArg r.block 1 ∧ c.rd 3 = blkArg r.block 2 ∧ c.rd 4 = blkArg r.block 3 ∧ c.rd 5 = BitVec.ofNat 64 rank ∧
        c.rd 6 = BitVec.ofNat 64 (2 ^ blkK r.block) ∧ c.intrap = false ∧ c.tvEn = false)) ∧
  (∀ (s : State) (g : Nat) (x : Group) (places : List Place) (gs : GraphSt), s.group? g = some x → x.status = .placing → s.engineLater x.die x.ctx = false → s.graphSt x.ctx x.key = some gs →
    let placed := (List.range places.length).zip places
    places.length = gs.obj.nodes.length → (∀ q ∈ placed, placeOk gs.obj x.k (gs.obj.shares x.k) (placed.filter (·.1 != q.1)) q.1 q.2 = true) →
    ∃ (t : State) (y : Group), exec (.placeGraph g places) s = .next t ∧ t.group? g = some y ∧ y.status = .running ∧ y.launch = s.cycle ∧
      y.insts.map (fun i => (i.node, i.rank, i.cell, i.entry)) = placed.map (fun q => (q.1, q.2.rank, q.2.cell, q.2.entry)) ∧
      y.links.map (fun l => (l.src, l.sp, l.dst, l.dp, l.slots)) = gs.obj.links.map (fun l => (l.src, l.sp, l.dst, l.dp, l.slots)) ∧ (∀ l ∈ y.links, l.toks = []) ∧
      y.secs = List.replicate gs.obj.secs.length {} ∧ (∀ n ∈ x.cores, (t.coreAt n).status = .running) ∧
      (t.graphSt x.ctx x.key).map (·.lver) = some (nextVersion gs.lver)) ∧
  (∀ (s : State) (die l te : Nat) (r : Ready), (findD (findD s.units die {}).ready (readyKey l te) []).head? = some r → 65536 ≤ s.cycle - r.since →
    ∃ t, exec (.tenantAged die l te) s = .next t ∧ readyKey l te ∈ (findD t.units die {}).aged ∧ s.sameBytes t ∧ t.cores = s.cores ∧
      (s.spots die r ≠ [] ∨ s.preempting die = true → t.groups = s.groups) ∧
      (s.spots die r = [] → s.preempting die = false → ∀ v ∈ s.displaced die l r, ((t.group? v.1).bind (·.preempt)).isSome = true)) ∧
  (∀ (s : State) (g : Nat) (x : Group), s.group? g = some x → x.status = .running → x.winLen ≤ s.cycle - x.winAt →
    ∃ (t : State) (y : Group), exec (.windowEnd g) s = .next t ∧ t.group? g = some y ∧ y.insts = x.insts ∧ y.wins = x.wins + 1 ∧ y.winAt = x.winAt + x.winLen ∧ y.winLen = x.winNext ∧
      y.winPrev = x.winLen ∧ y.prev = x.rates ∧ y.bottle = [] ∧ y.links = x.links.map (fun l => { l with passed := 0, stall := 0, starve := 0 }) ∧ t.cores = s.cores ∧ s.sameBytes t ∧
      (∀ j l, j < (s.objOf x).links.length → (x.links.find? fun l => l.written == some j) = some l → y.rates[j]? = some ⟨l.passed, l.stall, l.starve⟩) ∧
      (∀ te : Tenant, s.tenant? x.tenant = some te → te.cfg.relayout = false → y.splice = x.splice))

/-- O54. A splice arms once what it needs is loaded, cuts at its splice point, moves keys and switches consumers, or is cancelled. A splice whose node is
not held arms once what it needs is loaded, the table of a folding or unfolding FNC for the new place alone, and marks what each of the node's
instances has fired; one whose node is held by then, or whose table cannot be read, is cancelled, and the node fires no more where the tenant's
own fault is the cause. At its splice point it cuts: a folded or unfolded node takes its cell, with the table read for it, a clone stands beside
its node with its stationary data and no open segment. Keys whose state is not where the split now sends their tokens move one by one, and then
the consumers switch: one that has drained its old link reads the new one, which takes over its counts. A splice that is not past its cut is
cancelled, and counted, where its point has not come within two windows or a pre-emption is asked for. Where the manual leaves a point open, the
model follows its own reading: log entries 20, 33 and 54. -/
def Obligations.SpliceSteps : Prop :=
  (∀ (s : State) (g : Nat) (x : Group) (p : Splice), s.group? g = some x → x.splice = some p → s.live x = true →
    (p.phase = .prepare → x.preempt = none → p.change.nodes.any x.holdsNode = false → (kindOf (x.zero p.change.node).hdr ≠ kFNC ∨ ∃ n, p.change = .clone n) →
      exec (.spliceArm g) s = .next (s.setGroup g { x with splice := some { p with phase := .armed, armed := s.cycle
                                                                                   marks := (x.insts.zipIdx.filter fun q => p.concerns q.1).map fun q => (q.2, q.1.fired) } })) ∧
    (∀ m a, (p.change = .fold m a ∨ p.change = .unfold m) → p.phase = .prepare → x.preempt = none → p.change.nodes.any x.holdsNode = false → kindOf (x.zero m).hdr = kFNC →
      (x.zero m).held = false → s.settingLater x (x.zero m) = false → let read := s.loadZ x.ctx (BitVec.ofNat 64 (pw (x.zero m).words 0)) 18 2048
      (∀ (bs : List Byte) (s1 : State), read = .ok (bs, []) s1 → s1.group? g = some x → ∃ (t : State) (y : Group) (q : Splice),
        exec (.spliceArm g) s = .next t ∧ t.group? g = some y ∧ y.splice = some q ∧ q.phase = .armed ∧ q.change = p.change ∧ y.links = x.links ∧ y.insts = x.insts ∧
        q.table = some ((List.range 512).map fun k => BitVec.ofNat 32 (fieldN bs (4 * k) 4))) ∧
      ∀ (e : TErr) (s1 : State), read = .err e s1 → s1.group? g = some x → ∃ (t : State) (y : Group), exec (.spliceArm g) s = .next t ∧ t.group? g = some y ∧
        y.splice = none ∧ y.counts.cancel = satAdd x.counts.cancel 1 ∧ y.links = x.links ∧
        (e.host = true → y.insts = x.insts) ∧ (e.host = false → ∀ j ∈ x.copies (x.zero m).node, ∀ i, x.insts[j]? = some i → y.insts[j]? = some { i with dead := true })) ∧
    (p.phase = .prepare → x.preempt = none → p.change.nodes.any x.holdsNode = true → ∃ (t : State) (y : Group), exec (.spliceArm g) s = .next t ∧ t.group? g = some y ∧
      y.splice = none ∧ y.counts.cancel = satAdd x.counts.cancel 1 ∧ y.insts = x.insts ∧ y.links = x.links) ∧
    (∀ m a, p.phase = .armed → x.preempt = none → x.atPoint p = true → s.engineLater x.die x.ctx = false → (p.change = .fold m a ∨ p.change = .unfold m) → ∃ (t : State) (y : Group), exec (.spliceCut g) s = .next t ∧
      t.group? g = some y ∧ ∀ i, x.insts[(x.copies m).headD 0]? = some i → y.insts[(x.copies m).headD 0]? = some { i with rank := p.rank, cell := p.cell, entry := p.entry, folded := decide (p.change = .fold m a), st := (p.table.map CellState.fnc).getD i.st }) ∧
    (∀ n, p.phase = .armed → x.preempt = none → x.atPoint p = true → s.engineLater x.die x.ctx = false → p.change = .clone n → ∃ (t : State) (y : Group) (i : Inst), exec (.spliceCut g) s = .next t ∧ t.group? g = some y ∧
      y.insts.take x.insts.length = x.insts ∧ y.insts[x.insts.length]? = some i ∧ i.node = (x.zero n).node ∧ i.copy = (x.copies n).length ∧ i.role = (x.zero n).role ∧
      i.rank = p.rank ∧ i.cell = p.cell ∧ i.entry = p.entry ∧ i.opens = []) ∧
    (∀ key a b i j, p.phase = .move → s.engineLater x.die x.ctx = false → x.misplaced p.change.node = some (key, a, b) → a ≠ b → x.insts[a]? = some i → x.insts[b]? = some j → ∃ (t : State) (y : Group),
      exec (.keyStateMove g) s = .next t ∧ t.group? g = some y ∧ y.links = x.links ∧ y.splice = x.splice ∧
      y.insts[a]? = some { i with st := (moveKey key i.st j.st).1 } ∧ y.insts[b]? = some { j with st := (moveKey key i.st j.st).2 } ∧ ∀ k, k ≠ a → k ≠ b → y.insts[k]? = x.insts[k]?) ∧
    (p.phase = .move → s.engineLater x.die x.ctx = false → x.misplaced p.change.node = none → p.switch ≠ [] → exec (.keyStateMove g) s = .next (s.setGroup g { x with splice := some { p with phase := .switch } })) ∧
    (∀ (w : Nat × Nat) (l m : Link), p.phase = .switch → s.engineLater x.die x.ctx = false → p.switch.find? (fun q => q.1 == w.1) = some w → w.1 ≠ w.2 → x.links[w.1]? = some l → l.toks = [] → x.links[w.2]? = some m →
      ∃ (t : State) (y : Group), exec (.consumerSwitch g w.1) s = .next t ∧ t.group? g = some y ∧ y.links[w.1]? = some l.drop ∧
      y.links[w.2]? = some { m with written := l.written, passed := l.passed, stall := l.stall, starve := l.starve } ∧ y.insts = x.insts ∧
      (∀ q ∈ p.switch, q ≠ w → y.splice = some { p with switch := p.switch.filter (· != w) })) ∧
    ((p.phase = .prepare ∨ p.phase = .armed) → (x.preempt.isSome = true ∨ p.phase = .armed ∧ 2 * x.winLen ≤ s.cycle - p.armed) → ∃ (t : State) (y : Group),
      exec (.spliceCancel g) s = .next t ∧ t.group? g = some y ∧ y.splice = none ∧ y.counts.cancel = satAdd x.counts.cancel 1 ∧ y.insts = x.insts ∧ y.links = x.links))

/-- O55. Packets hop and age, links fail and retrain, buckets refill, clocks step, combined updates and parked data go where their rules say. A packet at
the head of its buffer, with room ahead, moves one hop towards its target; entering the network it needs a bucket that is not below zero and is
charged its data, and it does not age before; a buffer holds eight packets of one ring and direction; one of a purging context is discarded. A
packet that has waited 512 cycles at an arbiter is aged. A link whose retries failed takes no packet until it is retrained, and the data packet
on it is recorded with cause 0x50 and done. A refill brings the level of a bucket to now. A governor step moves the clock by one within its
bounds when the buffers were more than half full, or less than an eighth. A combined update leaves its buffer 1,024 cycles after its first: a
sending port's merges again at the ingress port, where that has its entry or room, and else it is applied to memory. Load data of a group that is
out goes to the parking queue, is delivered to a running group, and is recorded with cause 0x31 where its group has ended. Where the manual
leaves a point open, the model follows its own reading: log entries 14 and 63 to 66. That which buffers there are, and how many packets each
holds, is the model's choice, log entries 15, 63 and 93. -/
def Obligations.NetworkAndClockSteps : Prop :=
  (∀ (s : State) (k : Nat) (f : Flight), s.flight? k = some f → f.waiting = true →
    let clear (h : Hop) : Prop := s.retrain.contains h.link = false ∧ s.isHead f = true ∧ s.agedFirst f h = false ∧
      s.inBuffer h.die h.router h.ring + (if f.ring = h.ring then 1 else 2) ≤ 8
    let enters : Prop := 0 ≤ s.bucketNow f.die f.tenant ∧ s.leaves f = true
    (s.discards f.ctx = true → exec (.networkPacketHop k) s = .next { s with flights := s.flights.filter (·.id != k) }) ∧
    (∀ h, s.discards f.ctx = false → f.nextHop = some h → clear h → (f.entered = false → enters) → ∃ t, exec (.networkPacketHop k) s = .next t ∧
      t.flights = (s.flights.map fun x => if x.id = k then { x with die := h.die, router := h.router, ring := h.ring, entered := true, since := s.cycle, aged := false } else x) ∧
      (f.entered = true → t.buckets = s.buckets) ∧
      (f.entered = false → find t.buckets (f.die * 64 + f.tenant) = some { level := max (-65536) (s.bucketNow f.die f.tenant - f.dataBytes), since := s.cycle }) ∧ s.sameBytes t ∧ t.cores = s.cores) ∧
    (∀ h, s.discards f.ctx = false → f.nextHop = some h → (s.retrain.contains h.link = true ∨ 8 ≤ s.inBuffer h.die h.router h.ring ∨ s.agedFirst f h = true) →
      s.isHead f = true → (f.entered = false → enters) → exec (.networkPacketHop k) s = .next s) ∧
    (∀ h, s.discards f.ctx = false → f.nextHop = some h → f.entered = false → ¬ (s.isHead f = true ∧ enters) →
      exec (.networkPacketHop k) s = .next { s with flights := s.flights.map fun x => if x.id = k then { x with since := s.cycle } else x }) ∧
    (∀ h, f.nextHop = some h → f.entered = true → s.retrain.contains h.link = false → ∃ t, exec (.linkRetryFail k) s = .next t ∧ t.retrain = s.retrain ++ [h.link] ∧ s.sameBytes t ∧
      (f.dataBytes = 0 → t.flights = s.flights ∧ t.recs = s.recs) ∧
      (f.dataBytes ≠ 0 → ∃ r : FRec, t.recs = s.recs ++ [r] ∧ r.cause = 0x50 ∧ r.b = f.address ∧ r.kind = f.kind ∧
        t.flights = s.flights.map fun x => if x.id = f.id then { x with applied := true } else x))) ∧
  (∀ f h, Flight.nextHop f = some h → (f.die ≠ f.toDie → h.die ≠ f.die ∧ h.router = f.router) ∧ (f.die = f.toDie → h.die = f.die ∧ h.router ≠ f.router)) ∧
  (∀ (s : State) (k : Nat), exec (.packetAged k) s = .next { s with flights := s.flights.map fun f =>
    if f.id = k ∧ f.waiting = true ∧ f.nextHop.isSome = true ∧ (f.entered = true ∨ s.atArbiter f = true) ∧ 512 ≤ s.cycle - f.since then { f with aged := true } else f }) ∧
  (∀ (s : State) (link : Nat), exec (.linkRetrained link) s = .next { s with retrain := s.retrain.filter (· != link) }) ∧
  (∀ (s : State) (die te : Nat) (x : Tenant), s.tenant? te = some x → ∃ t, exec (.tokenBucketRefill die te) s = .next t ∧
    find t.buckets (die * 64 + te) = some { level := s.bucketNow die te, since := s.cycle } ∧ t.bucketNow die te = min (x.cfg.bucketDepth : Int) (s.bucketNow die te) ∧ s.sameBytes t) ∧
  (∀ (s : State) (r : Nat), r < 768 → 1024 * 17 ≤ (s.cycle - (s.region r).since) * (s.region r).clock →
    let x := s.region r
    let t8 := (s.cycle - x.since) * 64
    ∃ t, exec (.clockGovernorStep r) s = .next t ∧ (t.region r).occ = 0 ∧ (t.region r).since = s.cycle ∧ (t.region r).lo = x.lo ∧ (t.region r).hi = x.hi ∧
      (t8 < 2 * x.occ → (t.region r).clock = min (x.clock + 1) x.hi) ∧ (8 * x.occ < t8 → (t.region r).clock = max (x.clock - 1) x.lo) ∧
      (2 * x.occ ≤ t8 → t8 ≤ 8 * x.occ → (t.region r).clock = x.clock) ∧ ∀ q, q ≠ r → t.region q = s.region q) ∧
  (∀ (s : State) (k p : Nat) (m : Merge), (s.merges.flatMap fun p => p.2.map fun m => (p.1, m))[k]? = some (p, m) → 1024 ≤ s.cycle - m.since → m.held = false → s.discards m.ctx = false → s.memoryForm →
    let place := homePort m.addr
    let rank := rankOf (portSrc place) 0
    let s0 : State := { s with merges := put s.merges p ((findD s.merges p []).erase m) }
    let l := findD s0.merges (ingressOf p) []
    let same (e : Merge) : Bool := e.takes m.ctx m.addr m.wide m.op && e.tenant == m.tenant && !e.held
    (p < 32 → l.any same = true → exec (.reductionEntryForward k) s =
      .next { s0 with merges := put s0.merges (ingressOf p) (l.map fun e => if same e then { e.join m.v with since := min e.since m.since } else e) }) ∧
    (p < 32 → l.any same = false → l.length < 256 → exec (.reductionEntryForward k) s = .next { s0 with merges := put s0.merges (ingressOf p) (l ++ [m]) }) ∧
    ∀ pa f gm s1, (32 ≤ p ∨ l.any same = false ∧ 256 ≤ l.length) → s.inOrder place rank = true → (s0.noteServed place rank).translate m.ctx m.addr true (some 15) = .ok (pa, f, gm) s1 → s1.bad pa = false →
    pa % 128 + 8 ≤ 128 → ∃ (t : State) (new : Word), exec (.reductionEntryForward k) s = .next t ∧ t.merges = s1.merges ∧
      (m.wide = true → amoIs m.op (bytesWord (s1.memBytes (s1.keyOf m.ctx) pa 8)) m.v new ∧ t.memBytes (s1.keyOf m.ctx) pa 8 = wordBytes new ∧ s.sameBytesBut t (s1.keyOf m.ctx) pa 8) ∧
      (m.wide = false → m.op = .add → t.memBytes (s1.keyOf m.ctx) pa 4 = leBytes 4 (leNat (s1.memBytes (s1.keyOf m.ctx) pa 4) + m.v.toNat % 2 ^ 32) ∧
        s.sameBytesBut t (s1.keyOf m.ctx) pa 4)) ∧
  (∀ (s : State) (k : Nat) (w : Stray), s.strays[k]? = some w →
    let taken : State := { s with strays := s.strays.eraseIdx k }
    (s.discards w.elem.ctx = true → exec (.parkedToken k) s = .next taken) ∧
    (∀ x, s.discards w.elem.ctx = false → s.group? w.elem.group = some x → x.status = .running → exec (.parkedToken k) s = .next (taken.deliverSpill w.elem w.data w.geom)) ∧
    (∀ x c i, s.discards w.elem.ctx = false → s.group? w.elem.group = some x → x.status = .preempted → s.context? w.elem.ctx = some c →
      (List.range 4096).find? (fun i => !(c.parked.map (·.slot)).contains i) = some i →
      let a := c.cfg.saveArea + BitVec.ofNat 64 (160 * i)
      s.portsLater a 160 (rankOf (portSrc (homePort a)) 0) = false →
      ∃ t, exec (.parkedToken k) s = .next t ∧ t.strays = s.strays.eraseIdx k ∧ t.context? w.elem.ctx = some { c with parked := c.parked ++ [{ w with slot := i }] } ∧ t.groups = s.groups) ∧
    (s.discards w.elem.ctx = false → s.group? w.elem.group = none → s.engineLater 0 w.elem.ctx = false → s.graphSt w.elem.ctx w.graph = none → ∃ (t : State) (r : FRec), exec (.parkedToken k) s = .next t ∧
      t.strays = s.strays.eraseIdx k ∧ t.recs = s.recs ++ [r] ∧ r.cause = 0x31 ∧ r.a = BitVec.ofNat 64 w.node ∧ r.b = w.tag.seq.setWidth 64))

/-- O56. Pre-emption asks a group, freezes it, captures it into its save area, and resumes it on a placement that it may take. A request marks a running
group that can be saved, and takes a place for its record; a polite one becomes a freeze at its limit; a freeze stops the group. A capture that
may happen saves the cores of the group in rank order and its copy commands, frees the cores, and puts the group at the tail of its tenant's
queue. A resume on a placement that the launch unit may take, with a save record that passes its check, runs the group there again, with the
registers, pc and trap state that were saved; one whose record fails the check is refused with a record of cause 0x41 and check 10. Where the
manual leaves a point open, the model follows its own reading: log entries 11 and 67. -/
def Obligations.PreemptionSteps : Prop :=
  (∀ (s : State) (g : Nat) (x : Group) (b : Bool), s.group? g = some x →
    (x.status = .running → x.preempt = none → s.canSave x = true → ∃ (t : State) (p : Preempt), exec (.preemptRequest g b) s = .next t ∧ t = s.setGroup g { x with preempt := some p } ∧
      p.since = s.cycle ∧ p.frozen = false ∧ (b = true → p.freeze = true) ∧ s.savePlace x = some p.place) ∧
    ((x.status ≠ .running ∨ x.preempt.isSome = true ∨ s.canSave x = false) → exec (.preemptRequest g b) s = .next s)) ∧
  (∀ (s : State) (g : Nat) (x : Group) (p : Preempt) (te : Tenant), s.group? g = some x → x.preempt = some p → s.tenant? x.tenant = some te →
    (p.freeze = false → te.cfg.freezeLimit ≤ s.cycle - p.since → exec (.freezeLimitExpire g) s = .next (s.setGroup g { x with preempt := some { p with freeze := true } })) ∧
    (p.freeze = true → p.frozen = false → ∃ (t : State) (y : Group), exec (.freeze g) s = .next t ∧ t.group? g = some y ∧ y.preempt = some { p with frozen := true } ∧
      t.live y = false ∧ t.cmdLive y = false ∧ y.insts = x.insts ∧ y.links = x.links ∧ t.cores = s.cores) ∧
    (x.status = .running → s.canCapture g x p = true → s.portsLater (s.saveAddr x p) (saveBound x.k) (rankOf (2449 + x.die) 0) = false → (∀ w ∈ s.lates, w.die ≠ x.die) → ∃ (t : State) (y : Group) (v : Saved), exec (.capture g) s = .next t ∧
      t.group? g = some y ∧ y.status = .preempted ∧ y.preempt = none ∧ y.saved = some v ∧ v.addr = s.saveAddr x p ∧ v.place = p.place ∧ v.cores = x.cores.map (fun n => (s.coreAt n).captured) ∧ v.jobs = s.jobsOf g ∧ (∀ e ∈ t.engines, ∀ j ∈ e.2, j.group ≠ g) ∧
      (∀ n ∈ x.cores, (t.coreAt n).status = .idle ∧ (t.coreAt n).group = none ∧ (t.coreAt n).wins = Vector.replicate 16 {}) ∧
      let q (z : State) : List Ready := findD (findD z.units x.die {}).ready (readyKey x.level x.tenant) []
      ∃ r : Ready, q t = q s ++ [r] ∧ r.group = some g ∧ r.ctx = x.ctx ∧ r.since = s.cycle)) ∧
  (∀ (s : State) (g die first l te : Nat) (x : Group) (v : Saved) (r : Ready) (hd bs : List Byte) (s1 s2 : State), s.group? g = some x → x.saved = some v → s.host.ready = true →
    s.pickReady x.die = some (l, te, r) → r.group = some g → (die, first) ∈ s.spots x.die r → s.loadN x.ctx v.addr (some 15) 3 128 = .ok hd s1 →
    let len := fieldN hd 0 8
    128 ≤ len → len ≤ saveBound x.k → s1.loadN x.ctx v.addr (some 15) (len / 128 + 2) len = .ok bs s2 → s1.groups = s.groups → s2.groups = s.groups →
    (recordOk bs = true → v.cores.length = v.banks.length → (∀ c, s2.context? x.ctx = some c → ∀ q ∈ c.parked, q.elem.group ≠ g) →
      ∃ (t : State) (y : Group), exec (.resumeGroup g die first) s = .next t ∧ t.group? g = some y ∧ y.status = .running ∧ y.die = die ∧
      y.first = first ∧ y.saved = none ∧ ∀ (rank : Nat) (c : CoreSt), v.cores[rank]? = some c → let d := t.coreAt (die * 128 + first + rank)
        d.g = c.g ∧ d.p = c.p ∧ d.pc = c.pc ∧ d.ec = c.ec ∧ d.dqbase = c.dqbase ∧ d.dqlim = c.dqlim ∧ c.sameTrapRegs d ∧ d.tvEn = c.tvEn ∧ d.tvAddr = c.tvAddr ∧
        d.status = c.status ∧ d.wait = c.wait ∧ d.ports = c.ports ∧ d.terms = c.terms ∧ d.group = some g ∧ d.rank = rank) ∧
    (recordOk bs = false → s.groups.Pairwise (fun a b => a.1 < b.1) → ∃ t, exec (.resumeGroup g die first) s = .next t ∧ t.group? g = none ∧ ∃ e ∈ t.recs, e.cause = 0x41 ∧ e.a = x.graph ∧ e.c = 10))

/-- O57. A group that ends leaves nothing, a purge frees a context, a teardown empties a tenant, and a partition reset keeps the tenant. A group that ends
leaves nothing: its group and its flights, spilled elements and retire records are gone, its cores are idle with no window attached, and no other
group has changed. A purge first marks its context, then frees all of it and writes 1 to the completion address of each request for it. A
teardown marks every context of the tenant and empties its queues, and the tenant goes with its last context; a partition reset marks the
contexts and keeps the tenant. Where the manual leaves a point open, the model follows its own reading: log entries 68 and 81. -/
def Obligations.EndAndPurgeSteps : Prop :=
  (∀ (s : State) (g : Nat) (x : Group), s.group? g = some x → s.mayEnd g x = true → s.groups.Pairwise (fun a b => a.1 < b.1) → ∃ t, exec (.groupEnd g) s = .next t ∧ t.group? g = none ∧
    (∀ f ∈ t.flights, f.group ≠ g) ∧ (∀ e ∈ t.spill, e.group ≠ g) ∧ (∀ q ∈ t.retires, q.group ≠ g) ∧
    (∀ n ∈ x.cores, (t.coreAt n).status = .idle ∧ (t.coreAt n).group = none ∧ (t.coreAt n).wins = Vector.replicate 16 {}) ∧ ∀ k, k ≠ g → t.group? k = s.group? k) ∧
  (∀ (s : State) (ctx : Nat) (a : Word), s.memoryForm → s.contexts.Pairwise (fun a b => a.1 < b.1) →
    let report : List Word := if a = 0 then [] else [a]
    (s.context? ctx = none → ∃ t, exec (.contextPurge ctx a) s = .next t ∧ (a ≠ 0 → Memory.readN t.host.mem a.toNat 8 = leBytes 8 1)) ∧
    (∀ c, s.context? ctx = some c → c.purging = false →
      exec (.contextPurge ctx a) s = .next { s with contexts := put s.contexts ctx { c with purging := true, completion := c.completion ++ report } }) ∧
    (∀ c, s.context? ctx = some c → c.purging = true → ∃ t, exec (.contextPurge ctx a) s = .next t ∧ t.context? ctx = none ∧
      (∀ f ∈ t.flights, f.ctx ≠ ctx) ∧ (∀ e ∈ t.spill, e.ctx ≠ ctx) ∧ (∀ e ∈ t.tlb, e.ctx ≠ ctx) ∧ (∀ q ∈ t.subs, q.ctx ≠ ctx) ∧ (∀ e ∈ t.recs, e.ctx.toNat ≠ ctx) ∧
      ((c.completion ++ report).Pairwise (fun a b => a.toNat + 8 ≤ b.toNat ∨ b.toNat + 8 ≤ a.toNat) → ∀ b ∈ c.completion ++ report, Memory.readN t.host.mem b.toNat 8 = leBytes 8 1))) ∧
  (∀ (s : State) (te : Nat) (x : Tenant), s.tenant? te = some x → s.contexts.Pairwise (fun a b => a.1 < b.1) →
    (∃ t, exec (.partitionReset te) s = .next t ∧ t.tenants = s.tenants ∧ s.sameBytes t ∧ ∀ ctx c, s.context? ctx = some c →
      (t.context? ctx).map (·.purging) = some (c.purging || c.cfg.tenant == te)) ∧
    (∃ t, exec (.tenantTeardown te) s = .next t ∧ s.sameBytes t ∧ (∀ ctx c, s.context? ctx = some c → (t.context? ctx).map (·.purging) = some (c.purging || c.cfg.tenant == te)) ∧
      ((∃ ctx c, s.context? ctx = some c ∧ c.cfg.tenant = te) → t.tenant? te = some { x with down := true, queues := [] }) ∧
      ((∀ p ∈ s.contexts, p.2.cfg.tenant ≠ te) → s.tenants.Pairwise (fun a b => a.1 < b.1) → t.tenant? te = none)))

/-- O58. The host link, the management controller, start-up, the power cap and the thermal trip act as their rules say; off, no step is taken. A host read
of 1 to 128 bytes gives the bytes at its address, or all ones where it faults, or where the tenant has no host context; a write stores its bytes.
S2INV takes a 32-byte request while fewer than 16 are pending, and counts what it discards; its completion drops the translations that it and
those before it name, has what was held tried again, and then writes 1 to its address. REPADDR asks for a report, unless one is to be written;
its turn writes it and raises vector 1; HFQ and NONCE store what is written. A start goes through phases 0, 1 and 2, measuring what runs next;
one that passes zeroes memory and makes the package ready; one that fails ends in phase 15. A tenant or context within the rules is entered, a
descriptor changes for its die while no group of the context is resident, a power cap sets the bounds of every clock region and holds launches,
and a thermal trip leaves no tenant, context or group of one, and turns the package off; a package that is off takes no step. Where the manual
leaves a point open, the model follows its own reading: log entries 68 to 70. That a token bucket is full when its tenant is created, and which
key is drawn, is the model's choice, log entries 12 and 76. -/
def Obligations.HostAndPowerSteps : Prop :=
  (∀ (s : State) (te ctx : Nat) (off : BitVec 40), s.hostCtx? te = some ctx →
    let place := homePort (barAddr off)
    let z := s.noteServed place (rankOf 2176 0)
    (∀ len : Nat, 0 < len → len ≤ 128 → s.tenantOf ctx = te → s.discards ctx = false → s.inOrder place (rankOf 2176 0) = true →
      (∀ bs s1, z.loadN ctx (barAddr off) (some 15) 3 len = .ok bs s1 → exec (.hostBarRead te off len) s = .next { s1 with host := { s1.host with answer := bs } }) ∧
      (∀ (e : TErr) (s1 : State), z.loadN ctx (barAddr off) (some 15) 3 len = .err e s1 → e.host = false → ∃ t, exec (.hostBarRead te off len) s = .next t ∧ t.host.answer = List.replicate len 0xFF ∧
        s.sameBytes t ∧ t.recs.length = s1.recs.length + 1)) ∧
    (∀ len : Nat, 0 < len → len ≤ 128 → s.tenantOf ctx ≠ te → ∃ (t : State) (r : FRec), exec (.hostBarRead te off len) s = .next t ∧ t.host.answer = List.replicate len 0xFF ∧
      s.sameBytes t ∧ t.recs = s.recs ++ [r] ∧ r.tenant = te ∧ r.kind = .network ∧ r.b = barAddr off) ∧
    (∀ (bs : List Byte) (pa f gm : Nat) (s1 : State), bs ≠ [] → (barAddr off).toNat % 128 + bs.length ≤ 128 → s.memoryForm → s.tenantOf ctx = te → s.discards ctx = false →
      s.inOrder place (rankOf 2176 0) = true → z.translate ctx (barAddr off) true (some 15) = .ok (pa, f, gm) s1 → s1.bad pa = false → pa % 128 + bs.length ≤ 128 →
      ∃ t, exec (.hostBarWrite te off bs) s = .next t ∧ t.memBytes (s1.keyOf ctx) pa bs.length = bs ∧ s.sameBytesBut t (s1.keyOf ctx) pa bs.length ∧ t.cores = s.cores)) ∧
  (∀ (s : State) (bs : List Byte), s.host.ready = true →
    (bs.length = 32 → s.host.s2.length < 16 → exec (.s2inv bs) s = .next { s with host := { s.host with s2 := s.host.s2 ++ [{ bytes := bs }] } }) ∧
    ((bs.length ≠ 32 ∨ 16 ≤ s.host.s2.length) → exec (.s2inv bs) s = .next { s with host := { s.host with s2drop := BitVec.ofNat 16 (min 0xFFFF (s.host.s2drop.toNat + 1)) } })) ∧
  (∀ (s : State) (k : Nat) (r : S2Req), s.host.s2[k]? = some r → ∃ s1 t : State,
    let u := s1.unhold (s.s2Names r)
    let z := u.again (s.retryHeld (s.s2Names r))
    exec (.stage2InvComplete k) s = .next t ∧ t = z.complete (BitVec.ofNat 64 (fieldN r.bytes 16 8)) ∧
    s1.host.s2 = s.host.s2.eraseIdx k ∧ s1.tlb = s.tlb.filter (fun e => (s.host.s2.take (k + 1)).all fun q => !(s.s2Names q e.ctx && q.frame e.gframe)) ∧
    (∀ e ∈ s.spill, s.s2Names r e.ctx = true → e.stage2 = true → { e with retry := true } ∈ u.spill) ∧ (∀ f ∈ u.flights, s.s2Names r f.ctx = true → f.held = false) ∧
    (z.host.mem.wf = true → Memory.readN t.host.mem (BitVec.ofNat 64 (fieldN r.bytes 16 8)).toNat 8 = leBytes 8 1)) ∧
  (∀ (s : State) (a : Word), s.host.ready = true →
    (s.host.asked = none → exec (.repaddr a) s = .next { s with host := { s.host with asked := some a } }) ∧ (s.host.asked.isSome = true → exec (.repaddr a) s = .next s)) ∧
  (∀ (s : State) (a : Word), s.host.asked = some a → s.memoryForm → ∃ t, s.turn .report = .next t ∧ t.host.asked = none ∧ t.host.msix = s.host.msix ++ [1] ∧
    Memory.readN t.host.mem a.toNat 4 = leBytes 4 1 ∧ Memory.readN t.host.mem (a.toNat + 8) 8 = wordBytes s.ident ∧
    Memory.readN t.host.mem (a.toNat + 16) 32 = leBytes 32 s.host.nonce.toNat ∧ (∀ key b, t.memByte key b = s.memByte key b)) ∧
  (∀ (s : State) (bs : List Byte), s.host.ready = true →
    (bs.length = 8 → exec (.registerWrite 0x200 bs) s = .next { s with host := { s.host with hfq := BitVec.ofNat 64 (leNat bs) } }) ∧
    (bs.length = 32 → exec (.registerWrite 0x300 bs) s = .next { s with host := { s.host with nonce := BitVec.ofNat 256 (leNat bs) } }) ∧
    (bs.length = 8 → exec (.registerWrite 0x320 bs) s = exec (.repaddr (BitVec.ofNat 64 (leNat bs))) s) ∧ (bs.length = 32 → exec (.registerWrite 0x100 bs) s = exec (.s2inv bs) s) ∧
    (∀ off : BitVec 16, off.toNat < 0x120 → 0x100 < off.toNat + bs.length → (off.toNat ≤ 0x100 → off.toNat + bs.length < 0x120) →
      exec (.registerWrite off bs) s = .next { s with host := { s.host with s2drop := BitVec.ofNat 16 (min 0xFFFF (s.host.s2drop.toNat + 1)) } }) ∧
    (∀ off : BitVec 16, 0x320 < off.toNat → exec (.registerWrite off bs) s = .next s)) ∧
  (∀ (s : State) (c : StartCfg), s.host.ready = false → s.host.fail = false → recallOk c.recallMiB = true →
    let of (stages : List Nat) : List (Nat × List Byte) := c.stages.filter fun x => stages.contains x.1
    (s.host.phase = 0 → exec (.deviceStart c) s = .next { s with host := { s.host with meas := (of [0]).foldl extendMeas (Vector.replicate 4 0), phase := 1 } }) ∧
    (s.host.phase = 1 → exec (.deviceStart c) s = .next { s with host := { s.host with meas := (of [1, 2]).foldl extendMeas s.host.meas, phase := 2 } }) ∧
    (s.host.phase = 2 → c.passed = true → ∃ t, exec (.deviceStart c) s = .next t ∧ t.host.ready = true ∧ t.host.phase = 3 ∧ t.mem = [] ∧ t.sealed = [] ∧
      t.host.meas = s.host.meas ∧ t.host.pkg = c.pkg ∧ t.host.withheld = c.withheld ∧ t.host.recallMiB = c.recallMiB) ∧
    (s.host.phase = 2 → c.passed = false → ∃ t, exec (.deviceStart c) s = .next t ∧ t = { s with host := { s.host with phase := 0xF, fail := true } } ∧
      exec (.deviceStart c) t = .next t)) ∧
  (∀ (s : State) (c : TenantCfg), s.host.ready = true → tenantOk c = true → s.tenant? c.tenant = none → ∃ (t : State) (x : Tenant), exec (.tenantCreate c) s = .next t ∧
    t.tenant? c.tenant = some x ∧ x.cfg = c ∧ x.key = Config.drawKey s.keys ∧ x.queues = [] ∧ x.redwin = [] ∧ x.down = false ∧ t.keys = s.keys + 1 ∧ s.sameBytes t ∧
    (∀ d, d < 16 → find t.buckets (d * 64 + c.tenant) = some { level := c.bucketDepth, since := s.cycle }) ∧ ∀ k, k ≠ c.tenant → t.tenant? k = s.tenant? k) ∧
  (∀ (s : State) (c : ContextCfg) (te : Tenant), s.host.ready = true → s.contextOk c = true → s.tenant? c.tenant = some te → ∃ (t : State) (y : Context), exec (.contextCreate c) s = .next t ∧
    t.context? c.ctx = some y ∧ y.cfg = c ∧ y.purging = false ∧ y.graphs = [] ∧ y.binds = [] ∧ y.spd = 0 ∧ t.groups = s.groups ∧ t.cores = s.cores ∧
    (c.ctx = te.cfg.hostCtx → t.subs.map (·.addr) = s.subs.map (·.addr) ++ te.cfg.admission.toList) ∧ (c.ctx ≠ te.cfg.hostCtx → t.subs = s.subs) ∧
    ∀ k, k ≠ c.ctx → t.context? k = s.context? k) ∧
  (∀ (s : State) (ctx die : Nat) (d : TrDesc) (c : Context), die < 16 → s.context? ctx = some c → (∀ g ∈ s.groups, g.2.ctx = ctx → g.2.status ≠ .running ∧ g.2.status ≠ .placing) →
    exec (.translationDescriptorChange ctx die d) s = .next { s with
      contexts := put s.contexts ctx { c with cfg := { c.cfg with descs := c.cfg.descs.set die d } }, tlb := s.tlb.filter fun e => !(e.ctx == ctx && e.port / 16 == die) }) ∧
  (∀ (s : State) (on : Bool) (lo hi : Nat), 8 ≤ lo → lo ≤ hi → hi ≤ 28 → ∃ t, exec (.powerCap on lo hi) s = .next t ∧ t.host.cap = on ∧ (on = true → t.launches = false) ∧ s.sameBytes t ∧
    ∀ r, r < 768 → (t.region r).lo = lo ∧ (t.region r).hi = hi ∧ (t.region r).clock = max lo (min hi (s.region r).clock) ∧ (t.region r).occ = (s.region r).occ) ∧
  (∀ (s : State) (die : Nat), die < 16 → ∃ t, exec (.thermalTrip die) s = .next t ∧ t.off = true ∧ step t = .fault .poweredOff ∧ t.cycle = s.cycle ∧
    t.tenants = [] ∧ t.contexts = [] ∧ ((∀ g ∈ s.groups, (s.context? g.2.ctx).isSome = true) → t.groups = [])) ∧
  (∀ s : State, s.off = true → step s = .fault .poweredOff)

/-- O59. At reset the package is not ready, in phase 0, with no tenant, context or group, every core idle, and memory and banks hold nothing. State.reset:
the package is on and not ready, its start phase 0, no failure; no tenant, no context and no group exists, no request, record, pulse or
translation is under way; every core is idle, belongs to no group, and has no window attached; memory, banks and host memory list nothing and
have their canonical form, and a byte of DRAM and of a bank reads as 0. That the registers of a core that no launch has set hold 0 is the model's
choice of log entry 4, that host memory reads as 0 that of log entry 5. That a byte of DRAM reads 0 before start phase 2 is the model's choice,
log entry 75. -/
def Obligations.ResetState : Prop :=
  let s := State.reset
  s.host.ready = false ∧ s.host.phase = 0 ∧ s.host.fail = false ∧ s.off = false ∧ s.tenants = [] ∧ s.contexts = [] ∧ s.groups = [] ∧ s.flights = [] ∧ s.recs = [] ∧
  s.tlb = [] ∧ s.pulses = [] ∧ s.memoryForm ∧ (∀ a, Memory.read s.banks a = 0) ∧ (∀ key a, Machine.region a = 0 → s.memByte key a = 0) ∧
  (∀ n, (s.coreAt n).status = .idle ∧ (s.coreAt n).group = none ∧ (s.coreAt n).wins = Vector.replicate 16 {}) ∧
  (∀ n r, (s.coreAt n).rd r = 0) ∧ (∀ a, Memory.read s.host.mem a = 0) ∧ ∃ t, step s = .next t

/-- O60. Every step keeps the canonical form of every memory. For every state in which the addresses listed for memory, for the banks and for host memory
strictly rise and no listed byte is one that an unlisted address reads as: if a step answers a next state, that state has the same form. -/
def Obligations.MemoryFormIsKept : Prop :=
  ∀ s t : State, s.memoryForm → step s = .next t → t.memoryForm
end

