-- ==== Sys2Proof/Laws/Tables.lean ====
section
/-! SUPPORT. Tables by number: what is found after a put. -/

namespace Sys2Proof.Machine

@[simp] theorem find_put {β : Type} (t : Tbl β) (k : Nat) (v : β) : find (put t k v) k = some v := by
  induction t with
  | nil => simp [put, find]
  | cons x t ih =>
    obtain ⟨j, u⟩ := x
    by_cases h1 : k < j
    · simp [put, find, h1]
    · by_cases h2 : k = j
      · simp [put, find, h2]
      · have h3 : j ≠ k := Ne.symm h2
        simp [put, find, h1, h2, h3, ih]

theorem find_put_ne {β : Type} (t : Tbl β) {k i : Nat} (h : i ≠ k) (v : β) : find (put t k v) i = find t i := by
  induction t with
  | nil =>
    have h3 : k ≠ i := Ne.symm h
    by_cases h4 : i < k <;> simp [put, find, h3, h4]
  | cons x t ih =>
    obtain ⟨j, u⟩ := x
    have h3 : k ≠ i := Ne.symm h
    by_cases h1 : k < j
    · by_cases h4 : i < k
      · have h5 : j ≠ i := by omega
        have h6 : i < j := by omega
        simp [put, find, h1, h3, h4, h5, h6]
      · simp [put, find, h1, h3, h4]
    · by_cases h2 : k = j
      · subst h2
        by_cases h4 : i < k <;> simp [put, find, h3, h4]
      · by_cases h4 : j = i
        · subst h4; simp [put, find, h1, h2]
        · by_cases h5 : i < j <;> simp [put, find, h1, h2, h4, h5, ih]

theorem put_put {β : Type} (t : Tbl β) (k : Nat) (u v : β) : put (put t k u) k v = put t k v := by
  induction t with
  | nil => simp [put]
  | cons x t ih =>
    obtain ⟨j, w⟩ := x
    by_cases h1 : k < j
    · simp [put, h1]
    · by_cases h2 : k = j
      · simp [put, h2]
      · simp [put, h1, h2, ih]

end Sys2Proof.Machine
end

