-- ==== Sys2Proof/Laws/State.lean ====
section
/-! SUPPORT. What reading a field gives after each named update of the state and of a control core. -/

namespace Sys2Proof.Machine

/-! ### Updates of the state -/

@[simp] theorem State.setCoreAt_cycle (s : State) (n : Nat) (c : CoreSt) : (s.setCoreAt n c).cycle = s.cycle := rfl
@[simp] theorem State.setCoreAt_agenda (s : State) (n : Nat) (c : CoreSt) : (s.setCoreAt n c).agenda = s.agenda := rfl
@[simp] theorem State.setCoreAt_cur (s : State) (n : Nat) (c : CoreSt) : (s.setCoreAt n c).cur = s.cur := rfl
@[simp] theorem State.setCoreAt_free (s : State) (n : Nat) (c : CoreSt) : (s.setCoreAt n c).free = s.free := rfl
@[simp] theorem State.setCoreAt_off (s : State) (n : Nat) (c : CoreSt) : (s.setCoreAt n c).off = s.off := rfl
@[simp] theorem State.setCoreAt_groups (s : State) (n : Nat) (c : CoreSt) : (s.setCoreAt n c).groups = s.groups := rfl
@[simp] theorem State.setCoreAt_tenants (s : State) (n : Nat) (c : CoreSt) : (s.setCoreAt n c).tenants = s.tenants := rfl
@[simp] theorem State.setCoreAt_contexts (s : State) (n : Nat) (c : CoreSt) : (s.setCoreAt n c).contexts = s.contexts := rfl
@[simp] theorem State.setCoreAt_mem (s : State) (n : Nat) (c : CoreSt) : (s.setCoreAt n c).mem = s.mem := rfl
@[simp] theorem State.setCoreAt_sealed (s : State) (n : Nat) (c : CoreSt) : (s.setCoreAt n c).sealed = s.sealed := rfl
@[simp] theorem State.setCoreAt_badMem (s : State) (n : Nat) (c : CoreSt) : (s.setCoreAt n c).badMem = s.badMem := rfl
@[simp] theorem State.setCoreAt_softMem (s : State) (n : Nat) (c : CoreSt) : (s.setCoreAt n c).softMem = s.softMem := rfl
@[simp] theorem State.setCoreAt_banks (s : State) (n : Nat) (c : CoreSt) : (s.setCoreAt n c).banks = s.banks := rfl
@[simp] theorem State.setCoreAt_badBank (s : State) (n : Nat) (c : CoreSt) : (s.setCoreAt n c).badBank = s.badBank := rfl
@[simp] theorem State.setCoreAt_softBank (s : State) (n : Nat) (c : CoreSt) : (s.setCoreAt n c).softBank = s.softBank := rfl
@[simp] theorem State.setCoreAt_tlb (s : State) (n : Nat) (c : CoreSt) : (s.setCoreAt n c).tlb = s.tlb := rfl
@[simp] theorem State.setCoreAt_spill (s : State) (n : Nat) (c : CoreSt) : (s.setCoreAt n c).spill = s.spill := rfl
@[simp] theorem State.setCoreAt_waits (s : State) (n : Nat) (c : CoreSt) : (s.setCoreAt n c).waits = s.waits := rfl
@[simp] theorem State.setCoreAt_flights (s : State) (n : Nat) (c : CoreSt) : (s.setCoreAt n c).flights = s.flights := rfl
@[simp] theorem State.setCoreAt_recs (s : State) (n : Nat) (c : CoreSt) : (s.setCoreAt n c).recs = s.recs := rfl
@[simp] theorem State.setCoreAt_hrecs (s : State) (n : Nat) (c : CoreSt) : (s.setCoreAt n c).hrecs = s.hrecs := rfl
@[simp] theorem State.setCoreAt_subs (s : State) (n : Nat) (c : CoreSt) : (s.setCoreAt n c).subs = s.subs := rfl
@[simp] theorem State.setCoreAt_retires (s : State) (n : Nat) (c : CoreSt) : (s.setCoreAt n c).retires = s.retires := rfl
@[simp] theorem State.setCoreAt_pulses (s : State) (n : Nat) (c : CoreSt) : (s.setCoreAt n c).pulses = s.pulses := rfl
@[simp] theorem State.setCoreAt_units (s : State) (n : Nat) (c : CoreSt) : (s.setCoreAt n c).units = s.units := rfl
@[simp] theorem State.setCoreAt_layouts (s : State) (n : Nat) (c : CoreSt) : (s.setCoreAt n c).layouts = s.layouts := rfl
@[simp] theorem State.setCoreAt_engines (s : State) (n : Nat) (c : CoreSt) : (s.setCoreAt n c).engines = s.engines := rfl
@[simp] theorem State.setCoreAt_recalls (s : State) (n : Nat) (c : CoreSt) : (s.setCoreAt n c).recalls = s.recalls := rfl
@[simp] theorem State.setCoreAt_rcWrites (s : State) (n : Nat) (c : CoreSt) : (s.setCoreAt n c).rcWrites = s.rcWrites := rfl
@[simp] theorem State.setCoreAt_merges (s : State) (n : Nat) (c : CoreSt) : (s.setCoreAt n c).merges = s.merges := rfl
@[simp] theorem State.setCoreAt_heldAdds (s : State) (n : Nat) (c : CoreSt) : (s.setCoreAt n c).heldAdds = s.heldAdds := rfl
@[simp] theorem State.setCoreAt_lates (s : State) (n : Nat) (c : CoreSt) : (s.setCoreAt n c).lates = s.lates := rfl
@[simp] theorem State.setCoreAt_strays (s : State) (n : Nat) (c : CoreSt) : (s.setCoreAt n c).strays = s.strays := rfl
@[simp] theorem State.setCoreAt_buckets (s : State) (n : Nat) (c : CoreSt) : (s.setCoreAt n c).buckets = s.buckets := rfl
@[simp] theorem State.setCoreAt_regions (s : State) (n : Nat) (c : CoreSt) : (s.setCoreAt n c).regions = s.regions := rfl
@[simp] theorem State.setCoreAt_retrain (s : State) (n : Nat) (c : CoreSt) : (s.setCoreAt n c).retrain = s.retrain := rfl
@[simp] theorem State.setCoreAt_served (s : State) (n : Nat) (c : CoreSt) : (s.setCoreAt n c).served = s.served := rfl
@[simp] theorem State.setCoreAt_nextId (s : State) (n : Nat) (c : CoreSt) : (s.setCoreAt n c).nextId = s.nextId := rfl
@[simp] theorem State.setCoreAt_keys (s : State) (n : Nat) (c : CoreSt) : (s.setCoreAt n c).keys = s.keys := rfl
@[simp] theorem State.setCoreAt_host (s : State) (n : Nat) (c : CoreSt) : (s.setCoreAt n c).host = s.host := rfl
@[simp] theorem State.setCore_cycle (s : State) (c : CoreSt) : (s.setCore c).cycle = s.cycle := rfl
@[simp] theorem State.setCore_agenda (s : State) (c : CoreSt) : (s.setCore c).agenda = s.agenda := rfl
@[simp] theorem State.setCore_cur (s : State) (c : CoreSt) : (s.setCore c).cur = s.cur := rfl
@[simp] theorem State.setCore_free (s : State) (c : CoreSt) : (s.setCore c).free = s.free := rfl
@[simp] theorem State.setCore_off (s : State) (c : CoreSt) : (s.setCore c).off = s.off := rfl
@[simp] theorem State.setCore_groups (s : State) (c : CoreSt) : (s.setCore c).groups = s.groups := rfl
@[simp] theorem State.setCore_tenants (s : State) (c : CoreSt) : (s.setCore c).tenants = s.tenants := rfl
@[simp] theorem State.setCore_contexts (s : State) (c : CoreSt) : (s.setCore c).contexts = s.contexts := rfl
@[simp] theorem State.setCore_mem (s : State) (c : CoreSt) : (s.setCore c).mem = s.mem := rfl
@[simp] theorem State.setCore_sealed (s : State) (c : CoreSt) : (s.setCore c).sealed = s.sealed := rfl
@[simp] theorem State.setCore_badMem (s : State) (c : CoreSt) : (s.setCore c).badMem = s.badMem := rfl
@[simp] theorem State.setCore_softMem (s : State) (c : CoreSt) : (s.setCore c).softMem = s.softMem := rfl
@[simp] theorem State.setCore_banks (s : State) (c : CoreSt) : (s.setCore c).banks = s.banks := rfl
@[simp] theorem State.setCore_badBank (s : State) (c : CoreSt) : (s.setCore c).badBank = s.badBank := rfl
@[simp] theorem State.setCore_softBank (s : State) (c : CoreSt) : (s.setCore c).softBank = s.softBank := rfl
@[simp] theorem State.setCore_tlb (s : State) (c : CoreSt) : (s.setCore c).tlb = s.tlb := rfl
@[simp] theorem State.setCore_spill (s : State) (c : CoreSt) : (s.setCore c).spill = s.spill := rfl
@[simp] theorem State.setCore_waits (s : State) (c : CoreSt) : (s.setCore c).waits = s.waits := rfl
@[simp] theorem State.setCore_flights (s : State) (c : CoreSt) : (s.setCore c).flights = s.flights := rfl
@[simp] theorem State.setCore_recs (s : State) (c : CoreSt) : (s.setCore c).recs = s.recs := rfl
@[simp] theorem State.setCore_hrecs (s : State) (c : CoreSt) : (s.setCore c).hrecs = s.hrecs := rfl
@[simp] theorem State.setCore_subs (s : State) (c : CoreSt) : (s.setCore c).subs = s.subs := rfl
@[simp] theorem State.setCore_retires (s : State) (c : CoreSt) : (s.setCore c).retires = s.retires := rfl
@[simp] theorem State.setCore_pulses (s : State) (c : CoreSt) : (s.setCore c).pulses = s.pulses := rfl
@[simp] theorem State.setCore_units (s : State) (c : CoreSt) : (s.setCore c).units = s.units := rfl
@[simp] theorem State.setCore_layouts (s : State) (c : CoreSt) : (s.setCore c).layouts = s.layouts := rfl
@[simp] theorem State.setCore_engines (s : State) (c : CoreSt) : (s.setCore c).engines = s.engines := rfl
@[simp] theorem State.setCore_recalls (s : State) (c : CoreSt) : (s.setCore c).recalls = s.recalls := rfl
@[simp] theorem State.setCore_rcWrites (s : State) (c : CoreSt) : (s.setCore c).rcWrites = s.rcWrites := rfl
@[simp] theorem State.setCore_merges (s : State) (c : CoreSt) : (s.setCore c).merges = s.merges := rfl
@[simp] theorem State.setCore_heldAdds (s : State) (c : CoreSt) : (s.setCore c).heldAdds = s.heldAdds := rfl
@[simp] theorem State.setCore_lates (s : State) (c : CoreSt) : (s.setCore c).lates = s.lates := rfl
@[simp] theorem State.setCore_strays (s : State) (c : CoreSt) : (s.setCore c).strays = s.strays := rfl
@[simp] theorem State.setCore_buckets (s : State) (c : CoreSt) : (s.setCore c).buckets = s.buckets := rfl
@[simp] theorem State.setCore_regions (s : State) (c : CoreSt) : (s.setCore c).regions = s.regions := rfl
@[simp] theorem State.setCore_retrain (s : State) (c : CoreSt) : (s.setCore c).retrain = s.retrain := rfl
@[simp] theorem State.setCore_served (s : State) (c : CoreSt) : (s.setCore c).served = s.served := rfl
@[simp] theorem State.setCore_nextId (s : State) (c : CoreSt) : (s.setCore c).nextId = s.nextId := rfl
@[simp] theorem State.setCore_keys (s : State) (c : CoreSt) : (s.setCore c).keys = s.keys := rfl
@[simp] theorem State.setCore_host (s : State) (c : CoreSt) : (s.setCore c).host = s.host := rfl
@[simp] theorem State.modCore_cycle (s : State) (n : Nat) (h : CoreSt → CoreSt) : (s.modCore n h).cycle = s.cycle := rfl
@[simp] theorem State.modCore_agenda (s : State) (n : Nat) (h : CoreSt → CoreSt) : (s.modCore n h).agenda = s.agenda := rfl
@[simp] theorem State.modCore_cur (s : State) (n : Nat) (h : CoreSt → CoreSt) : (s.modCore n h).cur = s.cur := rfl
@[simp] theorem State.modCore_free (s : State) (n : Nat) (h : CoreSt → CoreSt) : (s.modCore n h).free = s.free := rfl
@[simp] theorem State.modCore_off (s : State) (n : Nat) (h : CoreSt → CoreSt) : (s.modCore n h).off = s.off := rfl
@[simp] theorem State.modCore_groups (s : State) (n : Nat) (h : CoreSt → CoreSt) : (s.modCore n h).groups = s.groups := rfl
@[simp] theorem State.modCore_tenants (s : State) (n : Nat) (h : CoreSt → CoreSt) : (s.modCore n h).tenants = s.tenants := rfl
@[simp] theorem State.modCore_contexts (s : State) (n : Nat) (h : CoreSt → CoreSt) : (s.modCore n h).contexts = s.contexts := rfl
@[simp] theorem State.modCore_mem (s : State) (n : Nat) (h : CoreSt → CoreSt) : (s.modCore n h).mem = s.mem := rfl
@[simp] theorem State.modCore_sealed (s : State) (n : Nat) (h : CoreSt → CoreSt) : (s.modCore n h).sealed = s.sealed := rfl
@[simp] theorem State.modCore_badMem (s : State) (n : Nat) (h : CoreSt → CoreSt) : (s.modCore n h).badMem = s.badMem := rfl
@[simp] theorem State.modCore_softMem (s : State) (n : Nat) (h : CoreSt → CoreSt) : (s.modCore n h).softMem = s.softMem := rfl
@[simp] theorem State.modCore_banks (s : State) (n : Nat) (h : CoreSt → CoreSt) : (s.modCore n h).banks = s.banks := rfl
@[simp] theorem State.modCore_badBank (s : State) (n : Nat) (h : CoreSt → CoreSt) : (s.modCore n h).badBank = s.badBank := rfl
@[simp] theorem State.modCore_softBank (s : State) (n : Nat) (h : CoreSt → CoreSt) : (s.modCore n h).softBank = s.softBank := rfl
@[simp] theorem State.modCore_tlb (s : State) (n : Nat) (h : CoreSt → CoreSt) : (s.modCore n h).tlb = s.tlb := rfl
@[simp] theorem State.modCore_spill (s : State) (n : Nat) (h : CoreSt → CoreSt) : (s.modCore n h).spill = s.spill := rfl
@[simp] theorem State.modCore_waits (s : State) (n : Nat) (h : CoreSt → CoreSt) : (s.modCore n h).waits = s.waits := rfl
@[simp] theorem State.modCore_flights (s : State) (n : Nat) (h : CoreSt → CoreSt) : (s.modCore n h).flights = s.flights := rfl
@[simp] theorem State.modCore_recs (s : State) (n : Nat) (h : CoreSt → CoreSt) : (s.modCore n h).recs = s.recs := rfl
@[simp] theorem State.modCore_hrecs (s : State) (n : Nat) (h : CoreSt → CoreSt) : (s.modCore n h).hrecs = s.hrecs := rfl
@[simp] theorem State.modCore_subs (s : State) (n : Nat) (h : CoreSt → CoreSt) : (s.modCore n h).subs = s.subs := rfl
@[simp] theorem State.modCore_retires (s : State) (n : Nat) (h : CoreSt → CoreSt) : (s.modCore n h).retires = s.retires := rfl
@[simp] theorem State.modCore_pulses (s : State) (n : Nat) (h : CoreSt → CoreSt) : (s.modCore n h).pulses = s.pulses := rfl
@[simp] theorem State.modCore_units (s : State) (n : Nat) (h : CoreSt → CoreSt) : (s.modCore n h).units = s.units := rfl
@[simp] theorem State.modCore_layouts (s : State) (n : Nat) (h : CoreSt → CoreSt) : (s.modCore n h).layouts = s.layouts := rfl
@[simp] theorem State.modCore_engines (s : State) (n : Nat) (h : CoreSt → CoreSt) : (s.modCore n h).engines = s.engines := rfl
@[simp] theorem State.modCore_recalls (s : State) (n : Nat) (h : CoreSt → CoreSt) : (s.modCore n h).recalls = s.recalls := rfl
@[simp] theorem State.modCore_rcWrites (s : State) (n : Nat) (h : CoreSt → CoreSt) : (s.modCore n h).rcWrites = s.rcWrites := rfl
@[simp] theorem State.modCore_merges (s : State) (n : Nat) (h : CoreSt → CoreSt) : (s.modCore n h).merges = s.merges := rfl
@[simp] theorem State.modCore_heldAdds (s : State) (n : Nat) (h : CoreSt → CoreSt) : (s.modCore n h).heldAdds = s.heldAdds := rfl
@[simp] theorem State.modCore_lates (s : State) (n : Nat) (h : CoreSt → CoreSt) : (s.modCore n h).lates = s.lates := rfl
@[simp] theorem State.modCore_strays (s : State) (n : Nat) (h : CoreSt → CoreSt) : (s.modCore n h).strays = s.strays := rfl
@[simp] theorem State.modCore_buckets (s : State) (n : Nat) (h : CoreSt → CoreSt) : (s.modCore n h).buckets = s.buckets := rfl
@[simp] theorem State.modCore_regions (s : State) (n : Nat) (h : CoreSt → CoreSt) : (s.modCore n h).regions = s.regions := rfl
@[simp] theorem State.modCore_retrain (s : State) (n : Nat) (h : CoreSt → CoreSt) : (s.modCore n h).retrain = s.retrain := rfl
@[simp] theorem State.modCore_served (s : State) (n : Nat) (h : CoreSt → CoreSt) : (s.modCore n h).served = s.served := rfl
@[simp] theorem State.modCore_nextId (s : State) (n : Nat) (h : CoreSt → CoreSt) : (s.modCore n h).nextId = s.nextId := rfl
@[simp] theorem State.modCore_keys (s : State) (n : Nat) (h : CoreSt → CoreSt) : (s.modCore n h).keys = s.keys := rfl
@[simp] theorem State.modCore_host (s : State) (n : Nat) (h : CoreSt → CoreSt) : (s.modCore n h).host = s.host := rfl
@[simp] theorem State.record_cycle (s : State) (r : FRec) : (s.record r).cycle = s.cycle := rfl
@[simp] theorem State.record_agenda (s : State) (r : FRec) : (s.record r).agenda = s.agenda := rfl
@[simp] theorem State.record_cur (s : State) (r : FRec) : (s.record r).cur = s.cur := rfl
@[simp] theorem State.record_free (s : State) (r : FRec) : (s.record r).free = s.free := rfl
@[simp] theorem State.record_off (s : State) (r : FRec) : (s.record r).off = s.off := rfl
@[simp] theorem State.record_cores (s : State) (r : FRec) : (s.record r).cores = s.cores := rfl
@[simp] theorem State.record_groups (s : State) (r : FRec) : (s.record r).groups = s.groups := rfl
@[simp] theorem State.record_tenants (s : State) (r : FRec) : (s.record r).tenants = s.tenants := rfl
@[simp] theorem State.record_contexts (s : State) (r : FRec) : (s.record r).contexts = s.contexts := rfl
@[simp] theorem State.record_mem (s : State) (r : FRec) : (s.record r).mem = s.mem := rfl
@[simp] theorem State.record_sealed (s : State) (r : FRec) : (s.record r).sealed = s.sealed := rfl
@[simp] theorem State.record_badMem (s : State) (r : FRec) : (s.record r).badMem = s.badMem := rfl
@[simp] theorem State.record_softMem (s : State) (r : FRec) : (s.record r).softMem = s.softMem := rfl
@[simp] theorem State.record_banks (s : State) (r : FRec) : (s.record r).banks = s.banks := rfl
@[simp] theorem State.record_badBank (s : State) (r : FRec) : (s.record r).badBank = s.badBank := rfl
@[simp] theorem State.record_softBank (s : State) (r : FRec) : (s.record r).softBank = s.softBank := rfl
@[simp] theorem State.record_tlb (s : State) (r : FRec) : (s.record r).tlb = s.tlb := rfl
@[simp] theorem State.record_spill (s : State) (r : FRec) : (s.record r).spill = s.spill := rfl
@[simp] theorem State.record_waits (s : State) (r : FRec) : (s.record r).waits = s.waits := rfl
@[simp] theorem State.record_flights (s : State) (r : FRec) : (s.record r).flights = s.flights := rfl
@[simp] theorem State.record_hrecs (s : State) (r : FRec) : (s.record r).hrecs = s.hrecs := rfl
@[simp] theorem State.record_subs (s : State) (r : FRec) : (s.record r).subs = s.subs := rfl
@[simp] theorem State.record_retires (s : State) (r : FRec) : (s.record r).retires = s.retires := rfl
@[simp] theorem State.record_pulses (s : State) (r : FRec) : (s.record r).pulses = s.pulses := rfl
@[simp] theorem State.record_units (s : State) (r : FRec) : (s.record r).units = s.units := rfl
@[simp] theorem State.record_layouts (s : State) (r : FRec) : (s.record r).layouts = s.layouts := rfl
@[simp] theorem State.record_engines (s : State) (r : FRec) : (s.record r).engines = s.engines := rfl
@[simp] theorem State.record_recalls (s : State) (r : FRec) : (s.record r).recalls = s.recalls := rfl
@[simp] theorem State.record_rcWrites (s : State) (r : FRec) : (s.record r).rcWrites = s.rcWrites := rfl
@[simp] theorem State.record_merges (s : State) (r : FRec) : (s.record r).merges = s.merges := rfl
@[simp] theorem State.record_heldAdds (s : State) (r : FRec) : (s.record r).heldAdds = s.heldAdds := rfl
@[simp] theorem State.record_lates (s : State) (r : FRec) : (s.record r).lates = s.lates := rfl
@[simp] theorem State.record_strays (s : State) (r : FRec) : (s.record r).strays = s.strays := rfl
@[simp] theorem State.record_buckets (s : State) (r : FRec) : (s.record r).buckets = s.buckets := rfl
@[simp] theorem State.record_regions (s : State) (r : FRec) : (s.record r).regions = s.regions := rfl
@[simp] theorem State.record_retrain (s : State) (r : FRec) : (s.record r).retrain = s.retrain := rfl
@[simp] theorem State.record_served (s : State) (r : FRec) : (s.record r).served = s.served := rfl
@[simp] theorem State.record_nextId (s : State) (r : FRec) : (s.record r).nextId = s.nextId := rfl
@[simp] theorem State.record_keys (s : State) (r : FRec) : (s.record r).keys = s.keys := rfl
@[simp] theorem State.record_host (s : State) (r : FRec) : (s.record r).host = s.host := rfl
@[simp] theorem State.record_recs (s : State) (r : FRec) : (s.record r).recs = s.recs ++ [r] := rfl
@[simp] theorem State.hostRecord_cycle (s : State) (r : FRec) : (s.hostRecord r).cycle = s.cycle := rfl
@[simp] theorem State.hostRecord_agenda (s : State) (r : FRec) : (s.hostRecord r).agenda = s.agenda := rfl
@[simp] theorem State.hostRecord_cur (s : State) (r : FRec) : (s.hostRecord r).cur = s.cur := rfl
@[simp] theorem State.hostRecord_free (s : State) (r : FRec) : (s.hostRecord r).free = s.free := rfl
@[simp] theorem State.hostRecord_off (s : State) (r : FRec) : (s.hostRecord r).off = s.off := rfl
@[simp] theorem State.hostRecord_cores (s : State) (r : FRec) : (s.hostRecord r).cores = s.cores := rfl
@[simp] theorem State.hostRecord_groups (s : State) (r : FRec) : (s.hostRecord r).groups = s.groups := rfl
@[simp] theorem State.hostRecord_tenants (s : State) (r : FRec) : (s.hostRecord r).tenants = s.tenants := rfl
@[simp] theorem State.hostRecord_contexts (s : State) (r : FRec) : (s.hostRecord r).contexts = s.contexts := rfl
@[simp] theorem State.hostRecord_mem (s : State) (r : FRec) : (s.hostRecord r).mem = s.mem := rfl
@[simp] theorem State.hostRecord_sealed (s : State) (r : FRec) : (s.hostRecord r).sealed = s.sealed := rfl
@[simp] theorem State.hostRecord_badMem (s : State) (r : FRec) : (s.hostRecord r).badMem = s.badMem := rfl
@[simp] theorem State.hostRecord_softMem (s : State) (r : FRec) : (s.hostRecord r).softMem = s.softMem := rfl
@[simp] theorem State.hostRecord_banks (s : State) (r : FRec) : (s.hostRecord r).banks = s.banks := rfl
@[simp] theorem State.hostRecord_badBank (s : State) (r : FRec) : (s.hostRecord r).badBank = s.badBank := rfl
@[simp] theorem State.hostRecord_softBank (s : State) (r : FRec) : (s.hostRecord r).softBank = s.softBank := rfl
@[simp] theorem State.hostRecord_tlb (s : State) (r : FRec) : (s.hostRecord r).tlb = s.tlb := rfl
@[simp] theorem State.hostRecord_spill (s : State) (r : FRec) : (s.hostRecord r).spill = s.spill := rfl
@[simp] theorem State.hostRecord_waits (s : State) (r : FRec) : (s.hostRecord r).waits = s.waits := rfl
@[simp] theorem State.hostRecord_flights (s : State) (r : FRec) : (s.hostRecord r).flights = s.flights := rfl
@[simp] theorem State.hostRecord_recs (s : State) (r : FRec) : (s.hostRecord r).recs = s.recs := rfl
@[simp] theorem State.hostRecord_subs (s : State) (r : FRec) : (s.hostRecord r).subs = s.subs := rfl
@[simp] theorem State.hostRecord_retires (s : State) (r : FRec) : (s.hostRecord r).retires = s.retires := rfl
@[simp] theorem State.hostRecord_pulses (s : State) (r : FRec) : (s.hostRecord r).pulses = s.pulses := rfl
@[simp] theorem State.hostRecord_units (s : State) (r : FRec) : (s.hostRecord r).units = s.units := rfl
@[simp] theorem State.hostRecord_layouts (s : State) (r : FRec) : (s.hostRecord r).layouts = s.layouts := rfl
@[simp] theorem State.hostRecord_engines (s : State) (r : FRec) : (s.hostRecord r).engines = s.engines := rfl
@[simp] theorem State.hostRecord_recalls (s : State) (r : FRec) : (s.hostRecord r).recalls = s.recalls := rfl
@[simp] theorem State.hostRecord_rcWrites (s : State) (r : FRec) : (s.hostRecord r).rcWrites = s.rcWrites := rfl
@[simp] theorem State.hostRecord_merges (s : State) (r : FRec) : (s.hostRecord r).merges = s.merges := rfl
@[simp] theorem State.hostRecord_heldAdds (s : State) (r : FRec) : (s.hostRecord r).heldAdds = s.heldAdds := rfl
@[simp] theorem State.hostRecord_lates (s : State) (r : FRec) : (s.hostRecord r).lates = s.lates := rfl
@[simp] theorem State.hostRecord_strays (s : State) (r : FRec) : (s.hostRecord r).strays = s.strays := rfl
@[simp] theorem State.hostRecord_buckets (s : State) (r : FRec) : (s.hostRecord r).buckets = s.buckets := rfl
@[simp] theorem State.hostRecord_regions (s : State) (r : FRec) : (s.hostRecord r).regions = s.regions := rfl
@[simp] theorem State.hostRecord_retrain (s : State) (r : FRec) : (s.hostRecord r).retrain = s.retrain := rfl
@[simp] theorem State.hostRecord_served (s : State) (r : FRec) : (s.hostRecord r).served = s.served := rfl
@[simp] theorem State.hostRecord_nextId (s : State) (r : FRec) : (s.hostRecord r).nextId = s.nextId := rfl
@[simp] theorem State.hostRecord_keys (s : State) (r : FRec) : (s.hostRecord r).keys = s.keys := rfl
@[simp] theorem State.hostRecord_host (s : State) (r : FRec) : (s.hostRecord r).host = s.host := rfl
@[simp] theorem State.hostRecord_hrecs (s : State) (r : FRec) : (s.hostRecord r).hrecs = s.hrecs ++ [r] := rfl
@[simp] theorem State.setGroup_cycle (s : State) (g : Nat) (x : Group) : (s.setGroup g x).cycle = s.cycle := rfl
@[simp] theorem State.setGroup_agenda (s : State) (g : Nat) (x : Group) : (s.setGroup g x).agenda = s.agenda := rfl
@[simp] theorem State.setGroup_cur (s : State) (g : Nat) (x : Group) : (s.setGroup g x).cur = s.cur := rfl
@[simp] theorem State.setGroup_free (s : State) (g : Nat) (x : Group) : (s.setGroup g x).free = s.free := rfl
@[simp] theorem State.setGroup_off (s : State) (g : Nat) (x : Group) : (s.setGroup g x).off = s.off := rfl
@[simp] theorem State.setGroup_cores (s : State) (g : Nat) (x : Group) : (s.setGroup g x).cores = s.cores := rfl
@[simp] theorem State.setGroup_tenants (s : State) (g : Nat) (x : Group) : (s.setGroup g x).tenants = s.tenants := rfl
@[simp] theorem State.setGroup_contexts (s : State) (g : Nat) (x : Group) : (s.setGroup g x).contexts = s.contexts := rfl
@[simp] theorem State.setGroup_mem (s : State) (g : Nat) (x : Group) : (s.setGroup g x).mem = s.mem := rfl
@[simp] theorem State.setGroup_sealed (s : State) (g : Nat) (x : Group) : (s.setGroup g x).sealed = s.sealed := rfl
@[simp] theorem State.setGroup_badMem (s : State) (g : Nat) (x : Group) : (s.setGroup g x).badMem = s.badMem := rfl
@[simp] theorem State.setGroup_softMem (s : State) (g : Nat) (x : Group) : (s.setGroup g x).softMem = s.softMem := rfl
@[simp] theorem State.setGroup_banks (s : State) (g : Nat) (x : Group) : (s.setGroup g x).banks = s.banks := rfl
@[simp] theorem State.setGroup_badBank (s : State) (g : Nat) (x : Group) : (s.setGroup g x).badBank = s.badBank := rfl
@[simp] theorem State.setGroup_softBank (s : State) (g : Nat) (x : Group) : (s.setGroup g x).softBank = s.softBank := rfl
@[simp] theorem State.setGroup_tlb (s : State) (g : Nat) (x : Group) : (s.setGroup g x).tlb = s.tlb := rfl
@[simp] theorem State.setGroup_spill (s : State) (g : Nat) (x : Group) : (s.setGroup g x).spill = s.spill := rfl
@[simp] theorem State.setGroup_waits (s : State) (g : Nat) (x : Group) : (s.setGroup g x).waits = s.waits := rfl
@[simp] theorem State.setGroup_flights (s : State) (g : Nat) (x : Group) : (s.setGroup g x).flights = s.flights := rfl
@[simp] theorem State.setGroup_recs (s : State) (g : Nat) (x : Group) : (s.setGroup g x).recs = s.recs := rfl
@[simp] theorem State.setGroup_hrecs (s : State) (g : Nat) (x : Group) : (s.setGroup g x).hrecs = s.hrecs := rfl
@[simp] theorem State.setGroup_subs (s : State) (g : Nat) (x : Group) : (s.setGroup g x).subs = s.subs := rfl
@[simp] theorem State.setGroup_retires (s : State) (g : Nat) (x : Group) : (s.setGroup g x).retires = s.retires := rfl
@[simp] theorem State.setGroup_pulses (s : State) (g : Nat) (x : Group) : (s.setGroup g x).pulses = s.pulses := rfl
@[simp] theorem State.setGroup_units (s : State) (g : Nat) (x : Group) : (s.setGroup g x).units = s.units := rfl
@[simp] theorem State.setGroup_layouts (s : State) (g : Nat) (x : Group) : (s.setGroup g x).layouts = s.layouts := rfl
@[simp] theorem State.setGroup_engines (s : State) (g : Nat) (x : Group) : (s.setGroup g x).engines = s.engines := rfl
@[simp] theorem State.setGroup_recalls (s : State) (g : Nat) (x : Group) : (s.setGroup g x).recalls = s.recalls := rfl
@[simp] theorem State.setGroup_rcWrites (s : State) (g : Nat) (x : Group) : (s.setGroup g x).rcWrites = s.rcWrites := rfl
@[simp] theorem State.setGroup_merges (s : State) (g : Nat) (x : Group) : (s.setGroup g x).merges = s.merges := rfl
@[simp] theorem State.setGroup_heldAdds (s : State) (g : Nat) (x : Group) : (s.setGroup g x).heldAdds = s.heldAdds := rfl
@[simp] theorem State.setGroup_lates (s : State) (g : Nat) (x : Group) : (s.setGroup g x).lates = s.lates := rfl
@[simp] theorem State.setGroup_strays (s : State) (g : Nat) (x : Group) : (s.setGroup g x).strays = s.strays := rfl
@[simp] theorem State.setGroup_buckets (s : State) (g : Nat) (x : Group) : (s.setGroup g x).buckets = s.buckets := rfl
@[simp] theorem State.setGroup_regions (s : State) (g : Nat) (x : Group) : (s.setGroup g x).regions = s.regions := rfl
@[simp] theorem State.setGroup_retrain (s : State) (g : Nat) (x : Group) : (s.setGroup g x).retrain = s.retrain := rfl
@[simp] theorem State.setGroup_served (s : State) (g : Nat) (x : Group) : (s.setGroup g x).served = s.served := rfl
@[simp] theorem State.setGroup_nextId (s : State) (g : Nat) (x : Group) : (s.setGroup g x).nextId = s.nextId := rfl
@[simp] theorem State.setGroup_keys (s : State) (g : Nat) (x : Group) : (s.setGroup g x).keys = s.keys := rfl
@[simp] theorem State.setGroup_host (s : State) (g : Nat) (x : Group) : (s.setGroup g x).host = s.host := rfl
@[simp] theorem State.modGroup_cycle (s : State) (g : Nat) (h : Group → Group) : (s.modGroup g h).cycle = s.cycle := by
  simp only [State.modGroup]; split <;> rfl
@[simp] theorem State.modGroup_agenda (s : State) (g : Nat) (h : Group → Group) : (s.modGroup g h).agenda = s.agenda := by
  simp only [State.modGroup]; split <;> rfl
@[simp] theorem State.modGroup_cur (s : State) (g : Nat) (h : Group → Group) : (s.modGroup g h).cur = s.cur := by
  simp only [State.modGroup]; split <;> rfl
@[simp] theorem State.modGroup_free (s : State) (g : Nat) (h : Group → Group) : (s.modGroup g h).free = s.free := by
  simp only [State.modGroup]; split <;> rfl
@[simp] theorem State.modGroup_off (s : State) (g : Nat) (h : Group → Group) : (s.modGroup g h).off = s.off := by
  simp only [State.modGroup]; split <;> rfl
@[simp] theorem State.modGroup_cores (s : State) (g : Nat) (h : Group → Group) : (s.modGroup g h).cores = s.cores := by
  simp only [State.modGroup]; split <;> rfl
@[simp] theorem State.modGroup_tenants (s : State) (g : Nat) (h : Group → Group) : (s.modGroup g h).tenants = s.tenants := by
  simp only [State.modGroup]; split <;> rfl
@[simp] theorem State.modGroup_contexts (s : State) (g : Nat) (h : Group → Group) : (s.modGroup g h).contexts = s.contexts := by
  simp only [State.modGroup]; split <;> rfl
@[simp] theorem State.modGroup_mem (s : State) (g : Nat) (h : Group → Group) : (s.modGroup g h).mem = s.mem := by
  simp only [State.modGroup]; split <;> rfl
@[simp] theorem State.modGroup_sealed (s : State) (g : Nat) (h : Group → Group) : (s.modGroup g h).sealed = s.sealed := by
  simp only [State.modGroup]; split <;> rfl
@[simp] theorem State.modGroup_badMem (s : State) (g : Nat) (h : Group → Group) : (s.modGroup g h).badMem = s.badMem := by
  simp only [State.modGroup]; split <;> rfl
@[simp] theorem State.modGroup_softMem (s : State) (g : Nat) (h : Group → Group) : (s.modGroup g h).softMem = s.softMem := by
  simp only [State.modGroup]; split <;> rfl
@[simp] theorem State.modGroup_banks (s : State) (g : Nat) (h : Group → Group) : (s.modGroup g h).banks = s.banks := by
  simp only [State.modGroup]; split <;> rfl
@[simp] theorem State.modGroup_badBank (s : State) (g : Nat) (h : Group → Group) : (s.modGroup g h).badBank = s.badBank := by
  simp only [State.modGroup]; split <;> rfl
@[simp] theorem State.modGroup_softBank (s : State) (g : Nat) (h : Group → Group) : (s.modGroup g h).softBank = s.softBank := by
  simp only [State.modGroup]; split <;> rfl
@[simp] theorem State.modGroup_tlb (s : State) (g : Nat) (h : Group → Group) : (s.modGroup g h).tlb = s.tlb := by
  simp only [State.modGroup]; split <;> rfl
@[simp] theorem State.modGroup_spill (s : State) (g : Nat) (h : Group → Group) : (s.modGroup g h).spill = s.spill := by
  simp only [State.modGroup]; split <;> rfl
@[simp] theorem State.modGroup_waits (s : State) (g : Nat) (h : Group → Group) : (s.modGroup g h).waits = s.waits := by
  simp only [State.modGroup]; split <;> rfl
@[simp] theorem State.modGroup_flights (s : State) (g : Nat) (h : Group → Group) : (s.modGroup g h).flights = s.flights := by
  simp only [State.modGroup]; split <;> rfl
@[simp] theorem State.modGroup_recs (s : State) (g : Nat) (h : Group → Group) : (s.modGroup g h).recs = s.recs := by
  simp only [State.modGroup]; split <;> rfl
@[simp] theorem State.modGroup_hrecs (s : State) (g : Nat) (h : Group → Group) : (s.modGroup g h).hrecs = s.hrecs := by
  simp only [State.modGroup]; split <;> rfl
@[simp] theorem State.modGroup_subs (s : State) (g : Nat) (h : Group → Group) : (s.modGroup g h).subs = s.subs := by
  simp only [State.modGroup]; split <;> rfl
@[simp] theorem State.modGroup_retires (s : State) (g : Nat) (h : Group → Group) : (s.modGroup g h).retires = s.retires := by
  simp only [State.modGroup]; split <;> rfl
@[simp] theorem State.modGroup_pulses (s : State) (g : Nat) (h : Group → Group) : (s.modGroup g h).pulses = s.pulses := by
  simp only [State.modGroup]; split <;> rfl
@[simp] theorem State.modGroup_units (s : State) (g : Nat) (h : Group → Group) : (s.modGroup g h).units = s.units := by
  simp only [State.modGroup]; split <;> rfl
@[simp] theorem State.modGroup_layouts (s : State) (g : Nat) (h : Group → Group) : (s.modGroup g h).layouts = s.layouts := by
  simp only [State.modGroup]; split <;> rfl
@[simp] theorem State.modGroup_engines (s : State) (g : Nat) (h : Group → Group) : (s.modGroup g h).engines = s.engines := by
  simp only [State.modGroup]; split <;> rfl
@[simp] theorem State.modGroup_recalls (s : State) (g : Nat) (h : Group → Group) : (s.modGroup g h).recalls = s.recalls := by
  simp only [State.modGroup]; split <;> rfl
@[simp] theorem State.modGroup_rcWrites (s : State) (g : Nat) (h : Group → Group) : (s.modGroup g h).rcWrites = s.rcWrites := by
  simp only [State.modGroup]; split <;> rfl
@[simp] theorem State.modGroup_merges (s : State) (g : Nat) (h : Group → Group) : (s.modGroup g h).merges = s.merges := by
  simp only [State.modGroup]; split <;> rfl
@[simp] theorem State.modGroup_heldAdds (s : State) (g : Nat) (h : Group → Group) : (s.modGroup g h).heldAdds = s.heldAdds := by
  simp only [State.modGroup]; split <;> rfl
@[simp] theorem State.modGroup_lates (s : State) (g : Nat) (h : Group → Group) : (s.modGroup g h).lates = s.lates := by
  simp only [State.modGroup]; split <;> rfl
@[simp] theorem State.modGroup_strays (s : State) (g : Nat) (h : Group → Group) : (s.modGroup g h).strays = s.strays := by
  simp only [State.modGroup]; split <;> rfl
@[simp] theorem State.modGroup_buckets (s : State) (g : Nat) (h : Group → Group) : (s.modGroup g h).buckets = s.buckets := by
  simp only [State.modGroup]; split <;> rfl
@[simp] theorem State.modGroup_regions (s : State) (g : Nat) (h : Group → Group) : (s.modGroup g h).regions = s.regions := by
  simp only [State.modGroup]; split <;> rfl
@[simp] theorem State.modGroup_retrain (s : State) (g : Nat) (h : Group → Group) : (s.modGroup g h).retrain = s.retrain := by
  simp only [State.modGroup]; split <;> rfl
@[simp] theorem State.modGroup_served (s : State) (g : Nat) (h : Group → Group) : (s.modGroup g h).served = s.served := by
  simp only [State.modGroup]; split <;> rfl
@[simp] theorem State.modGroup_nextId (s : State) (g : Nat) (h : Group → Group) : (s.modGroup g h).nextId = s.nextId := by
  simp only [State.modGroup]; split <;> rfl
@[simp] theorem State.modGroup_keys (s : State) (g : Nat) (h : Group → Group) : (s.modGroup g h).keys = s.keys := by
  simp only [State.modGroup]; split <;> rfl
@[simp] theorem State.modGroup_host (s : State) (g : Nat) (h : Group → Group) : (s.modGroup g h).host = s.host := by
  simp only [State.modGroup]; split <;> rfl
@[simp] theorem State.modContext_cycle (s : State) (g : Nat) (h : Context → Context) : (s.modContext g h).cycle = s.cycle := by
  simp only [State.modContext]; split <;> rfl
@[simp] theorem State.modContext_agenda (s : State) (g : Nat) (h : Context → Context) : (s.modContext g h).agenda = s.agenda := by
  simp only [State.modContext]; split <;> rfl
@[simp] theorem State.modContext_cur (s : State) (g : Nat) (h : Context → Context) : (s.modContext g h).cur = s.cur := by
  simp only [State.modContext]; split <;> rfl
@[simp] theorem State.modContext_free (s : State) (g : Nat) (h : Context → Context) : (s.modContext g h).free = s.free := by
  simp only [State.modContext]; split <;> rfl
@[simp] theorem State.modContext_off (s : State) (g : Nat) (h : Context → Context) : (s.modContext g h).off = s.off := by
  simp only [State.modContext]; split <;> rfl
@[simp] theorem State.modContext_cores (s : State) (g : Nat) (h : Context → Context) : (s.modContext g h).cores = s.cores := by
  simp only [State.modContext]; split <;> rfl
@[simp] theorem State.modContext_groups (s : State) (g : Nat) (h : Context → Context) : (s.modContext g h).groups = s.groups := by
  simp only [State.modContext]; split <;> rfl
@[simp] theorem State.modContext_tenants (s : State) (g : Nat) (h : Context → Context) : (s.modContext g h).tenants = s.tenants := by
  simp only [State.modContext]; split <;> rfl
@[simp] theorem State.modContext_mem (s : State) (g : Nat) (h : Context → Context) : (s.modContext g h).mem = s.mem := by
  simp only [State.modContext]; split <;> rfl
@[simp] theorem State.modContext_sealed (s : State) (g : Nat) (h : Context → Context) : (s.modContext g h).sealed = s.sealed := by
  simp only [State.modContext]; split <;> rfl
@[simp] theorem State.modContext_badMem (s : State) (g : Nat) (h : Context → Context) : (s.modContext g h).badMem = s.badMem := by
  simp only [State.modContext]; split <;> rfl
@[simp] theorem State.modContext_softMem (s : State) (g : Nat) (h : Context → Context) : (s.modContext g h).softMem = s.softMem := by
  simp only [State.modContext]; split <;> rfl
@[simp] theorem State.modContext_banks (s : State) (g : Nat) (h : Context → Context) : (s.modContext g h).banks = s.banks := by
  simp only [State.modContext]; split <;> rfl
@[simp] theorem State.modContext_badBank (s : State) (g : Nat) (h : Context → Context) : (s.modContext g h).badBank = s.badBank := by
  simp only [State.modContext]; split <;> rfl
@[simp] theorem State.modContext_softBank (s : State) (g : Nat) (h : Context → Context) : (s.modContext g h).softBank = s.softBank := by
  simp only [State.modContext]; split <;> rfl
@[simp] theorem State.modContext_tlb (s : State) (g : Nat) (h : Context → Context) : (s.modContext g h).tlb = s.tlb := by
  simp only [State.modContext]; split <;> rfl
@[simp] theorem State.modContext_spill (s : State) (g : Nat) (h : Context → Context) : (s.modContext g h).spill = s.spill := by
  simp only [State.modContext]; split <;> rfl
@[simp] theorem State.modContext_waits (s : State) (g : Nat) (h : Context → Context) : (s.modContext g h).waits = s.waits := by
  simp only [State.modContext]; split <;> rfl
@[simp] theorem State.modContext_flights (s : State) (g : Nat) (h : Context → Context) : (s.modContext g h).flights = s.flights := by
  simp only [State.modContext]; split <;> rfl
@[simp] theorem State.modContext_recs (s : State) (g : Nat) (h : Context → Context) : (s.modContext g h).recs = s.recs := by
  simp only [State.modContext]; split <;> rfl
@[simp] theorem State.modContext_hrecs (s : State) (g : Nat) (h : Context → Context) : (s.modContext g h).hrecs = s.hrecs := by
  simp only [State.modContext]; split <;> rfl
@[simp] theorem State.modContext_subs (s : State) (g : Nat) (h : Context → Context) : (s.modContext g h).subs = s.subs := by
  simp only [State.modContext]; split <;> rfl
@[simp] theorem State.modContext_retires (s : State) (g : Nat) (h : Context → Context) : (s.modContext g h).retires = s.retires := by
  simp only [State.modContext]; split <;> rfl
@[simp] theorem State.modContext_pulses (s : State) (g : Nat) (h : Context → Context) : (s.modContext g h).pulses = s.pulses := by
  simp only [State.modContext]; split <;> rfl
@[simp] theorem State.modContext_units (s : State) (g : Nat) (h : Context → Context) : (s.modContext g h).units = s.units := by
  simp only [State.modContext]; split <;> rfl
@[simp] theorem State.modContext_layouts (s : State) (g : Nat) (h : Context → Context) : (s.modContext g h).layouts = s.layouts := by
  simp only [State.modContext]; split <;> rfl
@[simp] theorem State.modContext_engines (s : State) (g : Nat) (h : Context → Context) : (s.modContext g h).engines = s.engines := by
  simp only [State.modContext]; split <;> rfl
@[simp] theorem State.modContext_recalls (s : State) (g : Nat) (h : Context → Context) : (s.modContext g h).recalls = s.recalls := by
  simp only [State.modContext]; split <;> rfl
@[simp] theorem State.modContext_rcWrites (s : State) (g : Nat) (h : Context → Context) : (s.modContext g h).rcWrites = s.rcWrites := by
  simp only [State.modContext]; split <;> rfl
@[simp] theorem State.modContext_merges (s : State) (g : Nat) (h : Context → Context) : (s.modContext g h).merges = s.merges := by
  simp only [State.modContext]; split <;> rfl
@[simp] theorem State.modContext_heldAdds (s : State) (g : Nat) (h : Context → Context) : (s.modContext g h).heldAdds = s.heldAdds := by
  simp only [State.modContext]; split <;> rfl
@[simp] theorem State.modContext_lates (s : State) (g : Nat) (h : Context → Context) : (s.modContext g h).lates = s.lates := by
  simp only [State.modContext]; split <;> rfl
@[simp] theorem State.modContext_strays (s : State) (g : Nat) (h : Context → Context) : (s.modContext g h).strays = s.strays := by
  simp only [State.modContext]; split <;> rfl
@[simp] theorem State.modContext_buckets (s : State) (g : Nat) (h : Context → Context) : (s.modContext g h).buckets = s.buckets := by
  simp only [State.modContext]; split <;> rfl
@[simp] theorem State.modContext_regions (s : State) (g : Nat) (h : Context → Context) : (s.modContext g h).regions = s.regions := by
  simp only [State.modContext]; split <;> rfl
@[simp] theorem State.modContext_retrain (s : State) (g : Nat) (h : Context → Context) : (s.modContext g h).retrain = s.retrain := by
  simp only [State.modContext]; split <;> rfl
@[simp] theorem State.modContext_served (s : State) (g : Nat) (h : Context → Context) : (s.modContext g h).served = s.served := by
  simp only [State.modContext]; split <;> rfl
@[simp] theorem State.modContext_nextId (s : State) (g : Nat) (h : Context → Context) : (s.modContext g h).nextId = s.nextId := by
  simp only [State.modContext]; split <;> rfl
@[simp] theorem State.modContext_keys (s : State) (g : Nat) (h : Context → Context) : (s.modContext g h).keys = s.keys := by
  simp only [State.modContext]; split <;> rfl
@[simp] theorem State.modContext_host (s : State) (g : Nat) (h : Context → Context) : (s.modContext g h).host = s.host := by
  simp only [State.modContext]; split <;> rfl
@[simp] theorem State.modTenant_cycle (s : State) (g : Nat) (h : Tenant → Tenant) : (s.modTenant g h).cycle = s.cycle := by
  simp only [State.modTenant]; split <;> rfl
@[simp] theorem State.modTenant_agenda (s : State) (g : Nat) (h : Tenant → Tenant) : (s.modTenant g h).agenda = s.agenda := by
  simp only [State.modTenant]; split <;> rfl
@[simp] theorem State.modTenant_cur (s : State) (g : Nat) (h : Tenant → Tenant) : (s.modTenant g h).cur = s.cur := by
  simp only [State.modTenant]; split <;> rfl
@[simp] theorem State.modTenant_free (s : State) (g : Nat) (h : Tenant → Tenant) : (s.modTenant g h).free = s.free := by
  simp only [State.modTenant]; split <;> rfl
@[simp] theorem State.modTenant_off (s : State) (g : Nat) (h : Tenant → Tenant) : (s.modTenant g h).off = s.off := by
  simp only [State.modTenant]; split <;> rfl
@[simp] theorem State.modTenant_cores (s : State) (g : Nat) (h : Tenant → Tenant) : (s.modTenant g h).cores = s.cores := by
  simp only [State.modTenant]; split <;> rfl
@[simp] theorem State.modTenant_groups (s : State) (g : Nat) (h : Tenant → Tenant) : (s.modTenant g h).groups = s.groups := by
  simp only [State.modTenant]; split <;> rfl
@[simp] theorem State.modTenant_contexts (s : State) (g : Nat) (h : Tenant → Tenant) : (s.modTenant g h).contexts = s.contexts := by
  simp only [State.modTenant]; split <;> rfl
@[simp] theorem State.modTenant_mem (s : State) (g : Nat) (h : Tenant → Tenant) : (s.modTenant g h).mem = s.mem := by
  simp only [State.modTenant]; split <;> rfl
@[simp] theorem State.modTenant_sealed (s : State) (g : Nat) (h : Tenant → Tenant) : (s.modTenant g h).sealed = s.sealed := by
  simp only [State.modTenant]; split <;> rfl
@[simp] theorem State.modTenant_badMem (s : State) (g : Nat) (h : Tenant → Tenant) : (s.modTenant g h).badMem = s.badMem := by
  simp only [State.modTenant]; split <;> rfl
@[simp] theorem State.modTenant_softMem (s : State) (g : Nat) (h : Tenant → Tenant) : (s.modTenant g h).softMem = s.softMem := by
  simp only [State.modTenant]; split <;> rfl
@[simp] theorem State.modTenant_banks (s : State) (g : Nat) (h : Tenant → Tenant) : (s.modTenant g h).banks = s.banks := by
  simp only [State.modTenant]; split <;> rfl
@[simp] theorem State.modTenant_badBank (s : State) (g : Nat) (h : Tenant → Tenant) : (s.modTenant g h).badBank = s.badBank := by
  simp only [State.modTenant]; split <;> rfl
@[simp] theorem State.modTenant_softBank (s : State) (g : Nat) (h : Tenant → Tenant) : (s.modTenant g h).softBank = s.softBank := by
  simp only [State.modTenant]; split <;> rfl
@[simp] theorem State.modTenant_tlb (s : State) (g : Nat) (h : Tenant → Tenant) : (s.modTenant g h).tlb = s.tlb := by
  simp only [State.modTenant]; split <;> rfl
@[simp] theorem State.modTenant_spill (s : State) (g : Nat) (h : Tenant → Tenant) : (s.modTenant g h).spill = s.spill := by
  simp only [State.modTenant]; split <;> rfl
@[simp] theorem State.modTenant_waits (s : State) (g : Nat) (h : Tenant → Tenant) : (s.modTenant g h).waits = s.waits := by
  simp only [State.modTenant]; split <;> rfl
@[simp] theorem State.modTenant_flights (s : State) (g : Nat) (h : Tenant → Tenant) : (s.modTenant g h).flights = s.flights := by
  simp only [State.modTenant]; split <;> rfl
@[simp] theorem State.modTenant_recs (s : State) (g : Nat) (h : Tenant → Tenant) : (s.modTenant g h).recs = s.recs := by
  simp only [State.modTenant]; split <;> rfl
@[simp] theorem State.modTenant_hrecs (s : State) (g : Nat) (h : Tenant → Tenant) : (s.modTenant g h).hrecs = s.hrecs := by
  simp only [State.modTenant]; split <;> rfl
@[simp] theorem State.modTenant_subs (s : State) (g : Nat) (h : Tenant → Tenant) : (s.modTenant g h).subs = s.subs := by
  simp only [State.modTenant]; split <;> rfl
@[simp] theorem State.modTenant_retires (s : State) (g : Nat) (h : Tenant → Tenant) : (s.modTenant g h).retires = s.retires := by
  simp only [State.modTenant]; split <;> rfl
@[simp] theorem State.modTenant_pulses (s : State) (g : Nat) (h : Tenant → Tenant) : (s.modTenant g h).pulses = s.pulses := by
  simp only [State.modTenant]; split <;> rfl
@[simp] theorem State.modTenant_units (s : State) (g : Nat) (h : Tenant → Tenant) : (s.modTenant g h).units = s.units := by
  simp only [State.modTenant]; split <;> rfl
@[simp] theorem State.modTenant_layouts (s : State) (g : Nat) (h : Tenant → Tenant) : (s.modTenant g h).layouts = s.layouts := by
  simp only [State.modTenant]; split <;> rfl
@[simp] theorem State.modTenant_engines (s : State) (g : Nat) (h : Tenant → Tenant) : (s.modTenant g h).engines = s.engines := by
  simp only [State.modTenant]; split <;> rfl
@[simp] theorem State.modTenant_recalls (s : State) (g : Nat) (h : Tenant → Tenant) : (s.modTenant g h).recalls = s.recalls := by
  simp only [State.modTenant]; split <;> rfl
@[simp] theorem State.modTenant_rcWrites (s : State) (g : Nat) (h : Tenant → Tenant) : (s.modTenant g h).rcWrites = s.rcWrites := by
  simp only [State.modTenant]; split <;> rfl
@[simp] theorem State.modTenant_merges (s : State) (g : Nat) (h : Tenant → Tenant) : (s.modTenant g h).merges = s.merges := by
  simp only [State.modTenant]; split <;> rfl
@[simp] theorem State.modTenant_heldAdds (s : State) (g : Nat) (h : Tenant → Tenant) : (s.modTenant g h).heldAdds = s.heldAdds := by
  simp only [State.modTenant]; split <;> rfl
@[simp] theorem State.modTenant_lates (s : State) (g : Nat) (h : Tenant → Tenant) : (s.modTenant g h).lates = s.lates := by
  simp only [State.modTenant]; split <;> rfl
@[simp] theorem State.modTenant_strays (s : State) (g : Nat) (h : Tenant → Tenant) : (s.modTenant g h).strays = s.strays := by
  simp only [State.modTenant]; split <;> rfl
@[simp] theorem State.modTenant_buckets (s : State) (g : Nat) (h : Tenant → Tenant) : (s.modTenant g h).buckets = s.buckets := by
  simp only [State.modTenant]; split <;> rfl
@[simp] theorem State.modTenant_regions (s : State) (g : Nat) (h : Tenant → Tenant) : (s.modTenant g h).regions = s.regions := by
  simp only [State.modTenant]; split <;> rfl
@[simp] theorem State.modTenant_retrain (s : State) (g : Nat) (h : Tenant → Tenant) : (s.modTenant g h).retrain = s.retrain := by
  simp only [State.modTenant]; split <;> rfl
@[simp] theorem State.modTenant_served (s : State) (g : Nat) (h : Tenant → Tenant) : (s.modTenant g h).served = s.served := by
  simp only [State.modTenant]; split <;> rfl
@[simp] theorem State.modTenant_nextId (s : State) (g : Nat) (h : Tenant → Tenant) : (s.modTenant g h).nextId = s.nextId := by
  simp only [State.modTenant]; split <;> rfl
@[simp] theorem State.modTenant_keys (s : State) (g : Nat) (h : Tenant → Tenant) : (s.modTenant g h).keys = s.keys := by
  simp only [State.modTenant]; split <;> rfl
@[simp] theorem State.modTenant_host (s : State) (g : Nat) (h : Tenant → Tenant) : (s.modTenant g h).host = s.host := by
  simp only [State.modTenant]; split <;> rfl

/-! ### The control cores of a state -/

@[simp] theorem State.coreAt_setCoreAt (s : State) (n : Nat) (c : CoreSt) : (s.setCoreAt n c).coreAt n = c := by
  simp [State.coreAt, State.setCoreAt, findD]

theorem State.coreAt_setCoreAt_ne (s : State) {n m : Nat} (c : CoreSt) (h : m ≠ n) : (s.setCoreAt n c).coreAt m = s.coreAt m := by
  simp [State.coreAt, State.setCoreAt, findD, find_put_ne _ h]

@[simp] theorem State.core_setCore (s : State) (c : CoreSt) : (s.setCore c).core = c := by
  simp [State.core, State.setCore]

@[simp] theorem State.setCore_setCore (s : State) (c d : CoreSt) : (s.setCore c).setCore d = s.setCore d := by
  simp [State.setCore, State.setCoreAt, put_put]

@[simp] theorem State.coreAt_record (s : State) (r : FRec) (n : Nat) : (s.record r).coreAt n = s.coreAt n := rfl
@[simp] theorem State.coreAt_hostRecord (s : State) (r : FRec) (n : Nat) : (s.hostRecord r).coreAt n = s.coreAt n := rfl
@[simp] theorem State.coreAt_setGroup (s : State) (g : Nat) (x : Group) (n : Nat) : (s.setGroup g x).coreAt n = s.coreAt n := rfl
@[simp] theorem State.core_record (s : State) (r : FRec) : (s.record r).core = s.core := rfl
@[simp] theorem State.core_hostRecord (s : State) (r : FRec) : (s.hostRecord r).core = s.core := rfl
@[simp] theorem State.core_setGroup (s : State) (g : Nat) (x : Group) : (s.setGroup g x).core = s.core := rfl

/-! ### Registers and predicates (R159, R160) -/

@[simp] theorem CoreSt.rd_zero (c : CoreSt) : c.rd 0#5 = 0#64 := rfl
@[simp] theorem CoreSt.wr_zero (c : CoreSt) (v : Word) : c.wr 0#5 v = c := rfl
@[simp] theorem CoreSt.rdp_seven (c : CoreSt) : c.rdp 7#3 = true := rfl
@[simp] theorem CoreSt.wrp_seven (c : CoreSt) (b : Bool) : c.wrp 7#3 b = c := rfl

/-- A write to a register other than g0 changes that register alone. -/
theorem CoreSt.wr_of_ne (c : CoreSt) {r : Reg} (v : Word) (h : r ≠ 0) :
    c.wr r v = { c with g := c.g.set r.toNat v r.isLt } := by
  unfold CoreSt.wr; rw [if_neg h]

theorem CoreSt.rd_of_ne (c : CoreSt) {r : Reg} (h : r ≠ 0) : c.rd r = c.g[r.toNat]'r.isLt := by
  unfold CoreSt.rd; rw [if_neg h]

@[simp] theorem CoreSt.rd_wr (c : CoreSt) {r : Reg} (v : Word) (h : r ≠ 0) : (c.wr r v).rd r = v := by
  rw [CoreSt.rd_of_ne _ h, CoreSt.wr_of_ne _ _ h]; exact Vector.getElem_set_self _

theorem CoreSt.rd_wr_ne (c : CoreSt) {r q : Reg} (v : Word) (h : q ≠ r) : (c.wr r v).rd q = c.rd q := by
  by_cases hq : q = 0
  · subst hq; rfl
  · by_cases hr : r = 0
    · subst hr; rfl
    · rw [CoreSt.rd_of_ne _ hq, CoreSt.rd_of_ne _ hq, CoreSt.wr_of_ne _ _ hr]
      exact Vector.getElem_set_ne r.isLt q.isLt fun e => h (BitVec.eq_of_toNat_eq e).symm

theorem predBit_set : ∀ (v : BitVec 7) (p q : PReg) (b : Bool), p ≠ 7 → q ≠ 7 →
    (if b then v ||| ((1#7) <<< p.toNat) else v &&& ~~~((1#7) <<< p.toNat)).getLsbD q.toNat = if q = p then b else v.getLsbD q.toNat := by
  decide +kernel

theorem CoreSt.rdp_wrp (c : CoreSt) (p q : PReg) (b : Bool) :
    (c.wrp p b).rdp q = if q = p ∧ p ≠ 7 then b else c.rdp q := by
  by_cases hq : q = 7
  · subst hq
    by_cases hp : p = 7
    · subst hp; rfl
    · rw [if_neg fun h => hp h.1.symm]; rfl
  · by_cases hp : p = 7
    · subst hp; simp
    · have := predBit_set c.p p q b hp hq
      have e : (c.wrp p b).p = if b then c.p ||| ((1#7) <<< p.toNat) else c.p &&& ~~~((1#7) <<< p.toNat) := by
        unfold CoreSt.wrp; rw [if_neg hp]
      unfold CoreSt.rdp; rw [if_neg hq, if_neg hq, e, this]
      by_cases hqp : q = p
      · rw [if_pos hqp, if_pos ⟨hqp, hp⟩]
      · rw [if_neg hqp, if_neg fun h => hqp h.1]

@[simp] theorem CoreSt.wr_p (c : CoreSt) (r : Reg) (v : Word) : (c.wr r v).p = c.p := by
  unfold CoreSt.wr; split <;> rfl
@[simp] theorem CoreSt.wr_pc (c : CoreSt) (r : Reg) (v : Word) : (c.wr r v).pc = c.pc := by
  unfold CoreSt.wr; split <;> rfl
@[simp] theorem CoreSt.wr_ec (c : CoreSt) (r : Reg) (v : Word) : (c.wr r v).ec = c.ec := by
  unfold CoreSt.wr; split <;> rfl
@[simp] theorem CoreSt.wr_dqbase (c : CoreSt) (r : Reg) (v : Word) : (c.wr r v).dqbase = c.dqbase := by
  unfold CoreSt.wr; split <;> rfl
@[simp] theorem CoreSt.wr_dqlim (c : CoreSt) (r : Reg) (v : Word) : (c.wr r v).dqlim = c.dqlim := by
  unfold CoreSt.wr; split <;> rfl
@[simp] theorem CoreSt.wr_tvEn (c : CoreSt) (r : Reg) (v : Word) : (c.wr r v).tvEn = c.tvEn := by
  unfold CoreSt.wr; split <;> rfl
@[simp] theorem CoreSt.wr_tvAddr (c : CoreSt) (r : Reg) (v : Word) : (c.wr r v).tvAddr = c.tvAddr := by
  unfold CoreSt.wr; split <;> rfl
@[simp] theorem CoreSt.wr_code (c : CoreSt) (r : Reg) (v : Word) : (c.wr r v).code = c.code := by
  unfold CoreSt.wr; split <;> rfl
@[simp] theorem CoreSt.wr_cause (c : CoreSt) (r : Reg) (v : Word) : (c.wr r v).cause = c.cause := by
  unfold CoreSt.wr; split <;> rfl
@[simp] theorem CoreSt.wr_trapaddr (c : CoreSt) (r : Reg) (v : Word) : (c.wr r v).trapaddr = c.trapaddr := by
  unfold CoreSt.wr; split <;> rfl
@[simp] theorem CoreSt.wr_epc (c : CoreSt) (r : Reg) (v : Word) : (c.wr r v).epc = c.epc := by
  unfold CoreSt.wr; split <;> rfl
@[simp] theorem CoreSt.wr_intrap (c : CoreSt) (r : Reg) (v : Word) : (c.wr r v).intrap = c.intrap := by
  unfold CoreSt.wr; split <;> rfl
@[simp] theorem CoreSt.wr_wins (c : CoreSt) (r : Reg) (v : Word) : (c.wr r v).wins = c.wins := by
  unfold CoreSt.wr; split <;> rfl
@[simp] theorem CoreSt.wr_terms (c : CoreSt) (r : Reg) (v : Word) : (c.wr r v).terms = c.terms := by
  unfold CoreSt.wr; split <;> rfl
@[simp] theorem CoreSt.wr_ports (c : CoreSt) (r : Reg) (v : Word) : (c.wr r v).ports = c.ports := by
  unfold CoreSt.wr; split <;> rfl
@[simp] theorem CoreSt.wr_walk (c : CoreSt) (r : Reg) (v : Word) : (c.wr r v).walk = c.walk := by
  unfold CoreSt.wr; split <;> rfl
@[simp] theorem CoreSt.wr_issued (c : CoreSt) (r : Reg) (v : Word) : (c.wr r v).issued = c.issued := by
  unfold CoreSt.wr; split <;> rfl
@[simp] theorem CoreSt.wr_swaps (c : CoreSt) (r : Reg) (v : Word) : (c.wr r v).swaps = c.swaps := by
  unfold CoreSt.wr; split <;> rfl
@[simp] theorem CoreSt.wr_status (c : CoreSt) (r : Reg) (v : Word) : (c.wr r v).status = c.status := by
  unfold CoreSt.wr; split <;> rfl
@[simp] theorem CoreSt.wr_wait (c : CoreSt) (r : Reg) (v : Word) : (c.wr r v).wait = c.wait := by
  unfold CoreSt.wr; split <;> rfl
@[simp] theorem CoreSt.wr_group (c : CoreSt) (r : Reg) (v : Word) : (c.wr r v).group = c.group := by
  unfold CoreSt.wr; split <;> rfl
@[simp] theorem CoreSt.wr_rank (c : CoreSt) (r : Reg) (v : Word) : (c.wr r v).rank = c.rank := by
  unfold CoreSt.wr; split <;> rfl
@[simp] theorem CoreSt.wrp_g (c : CoreSt) (p : PReg) (b : Bool) : (c.wrp p b).g = c.g := by
  unfold CoreSt.wrp; split <;> rfl
@[simp] theorem CoreSt.wrp_pc (c : CoreSt) (p : PReg) (b : Bool) : (c.wrp p b).pc = c.pc := by
  unfold CoreSt.wrp; split <;> rfl
@[simp] theorem CoreSt.wrp_ec (c : CoreSt) (p : PReg) (b : Bool) : (c.wrp p b).ec = c.ec := by
  unfold CoreSt.wrp; split <;> rfl
@[simp] theorem CoreSt.wrp_dqbase (c : CoreSt) (p : PReg) (b : Bool) : (c.wrp p b).dqbase = c.dqbase := by
  unfold CoreSt.wrp; split <;> rfl
@[simp] theorem CoreSt.wrp_dqlim (c : CoreSt) (p : PReg) (b : Bool) : (c.wrp p b).dqlim = c.dqlim := by
  unfold CoreSt.wrp; split <;> rfl
@[simp] theorem CoreSt.wrp_tvEn (c : CoreSt) (p : PReg) (b : Bool) : (c.wrp p b).tvEn = c.tvEn := by
  unfold CoreSt.wrp; split <;> rfl
@[simp] theorem CoreSt.wrp_tvAddr (c : CoreSt) (p : PReg) (b : Bool) : (c.wrp p b).tvAddr = c.tvAddr := by
  unfold CoreSt.wrp; split <;> rfl
@[simp] theorem CoreSt.wrp_code (c : CoreSt) (p : PReg) (b : Bool) : (c.wrp p b).code = c.code := by
  unfold CoreSt.wrp; split <;> rfl
@[simp] theorem CoreSt.wrp_cause (c : CoreSt) (p : PReg) (b : Bool) : (c.wrp p b).cause = c.cause := by
  unfold CoreSt.wrp; split <;> rfl
@[simp] theorem CoreSt.wrp_trapaddr (c : CoreSt) (p : PReg) (b : Bool) : (c.wrp p b).trapaddr = c.trapaddr := by
  unfold CoreSt.wrp; split <;> rfl
@[simp] theorem CoreSt.wrp_epc (c : CoreSt) (p : PReg) (b : Bool) : (c.wrp p b).epc = c.epc := by
  unfold CoreSt.wrp; split <;> rfl
@[simp] theorem CoreSt.wrp_intrap (c : CoreSt) (p : PReg) (b : Bool) : (c.wrp p b).intrap = c.intrap := by
  unfold CoreSt.wrp; split <;> rfl
@[simp] theorem CoreSt.wrp_wins (c : CoreSt) (p : PReg) (b : Bool) : (c.wrp p b).wins = c.wins := by
  unfold CoreSt.wrp; split <;> rfl
@[simp] theorem CoreSt.wrp_terms (c : CoreSt) (p : PReg) (b : Bool) : (c.wrp p b).terms = c.terms := by
  unfold CoreSt.wrp; split <;> rfl
@[simp] theorem CoreSt.wrp_ports (c : CoreSt) (p : PReg) (b : Bool) : (c.wrp p b).ports = c.ports := by
  unfold CoreSt.wrp; split <;> rfl
@[simp] theorem CoreSt.wrp_walk (c : CoreSt) (p : PReg) (b : Bool) : (c.wrp p b).walk = c.walk := by
  unfold CoreSt.wrp; split <;> rfl
@[simp] theorem CoreSt.wrp_issued (c : CoreSt) (p : PReg) (b : Bool) : (c.wrp p b).issued = c.issued := by
  unfold CoreSt.wrp; split <;> rfl
@[simp] theorem CoreSt.wrp_swaps (c : CoreSt) (p : PReg) (b : Bool) : (c.wrp p b).swaps = c.swaps := by
  unfold CoreSt.wrp; split <;> rfl
@[simp] theorem CoreSt.wrp_status (c : CoreSt) (p : PReg) (b : Bool) : (c.wrp p b).status = c.status := by
  unfold CoreSt.wrp; split <;> rfl
@[simp] theorem CoreSt.wrp_wait (c : CoreSt) (p : PReg) (b : Bool) : (c.wrp p b).wait = c.wait := by
  unfold CoreSt.wrp; split <;> rfl
@[simp] theorem CoreSt.wrp_group (c : CoreSt) (p : PReg) (b : Bool) : (c.wrp p b).group = c.group := by
  unfold CoreSt.wrp; split <;> rfl
@[simp] theorem CoreSt.wrp_rank (c : CoreSt) (p : PReg) (b : Bool) : (c.wrp p b).rank = c.rank := by
  unfold CoreSt.wrp; split <;> rfl
@[simp] theorem CoreSt.adv_g (c : CoreSt) : c.adv.g = c.g := rfl
@[simp] theorem CoreSt.adv_p (c : CoreSt) : c.adv.p = c.p := rfl
@[simp] theorem CoreSt.adv_ec (c : CoreSt) : c.adv.ec = c.ec := rfl
@[simp] theorem CoreSt.adv_dqbase (c : CoreSt) : c.adv.dqbase = c.dqbase := rfl
@[simp] theorem CoreSt.adv_dqlim (c : CoreSt) : c.adv.dqlim = c.dqlim := rfl
@[simp] theorem CoreSt.adv_tvEn (c : CoreSt) : c.adv.tvEn = c.tvEn := rfl
@[simp] theorem CoreSt.adv_tvAddr (c : CoreSt) : c.adv.tvAddr = c.tvAddr := rfl
@[simp] theorem CoreSt.adv_code (c : CoreSt) : c.adv.code = c.code := rfl
@[simp] theorem CoreSt.adv_cause (c : CoreSt) : c.adv.cause = c.cause := rfl
@[simp] theorem CoreSt.adv_trapaddr (c : CoreSt) : c.adv.trapaddr = c.trapaddr := rfl
@[simp] theorem CoreSt.adv_epc (c : CoreSt) : c.adv.epc = c.epc := rfl
@[simp] theorem CoreSt.adv_intrap (c : CoreSt) : c.adv.intrap = c.intrap := rfl
@[simp] theorem CoreSt.adv_wins (c : CoreSt) : c.adv.wins = c.wins := rfl
@[simp] theorem CoreSt.adv_terms (c : CoreSt) : c.adv.terms = c.terms := rfl
@[simp] theorem CoreSt.adv_ports (c : CoreSt) : c.adv.ports = c.ports := rfl
@[simp] theorem CoreSt.adv_walk (c : CoreSt) : c.adv.walk = c.walk := rfl
@[simp] theorem CoreSt.adv_issued (c : CoreSt) : c.adv.issued = c.issued := rfl
@[simp] theorem CoreSt.adv_swaps (c : CoreSt) : c.adv.swaps = c.swaps := rfl
@[simp] theorem CoreSt.adv_status (c : CoreSt) : c.adv.status = c.status := rfl
@[simp] theorem CoreSt.adv_wait (c : CoreSt) : c.adv.wait = c.wait := rfl
@[simp] theorem CoreSt.adv_group (c : CoreSt) : c.adv.group = c.group := rfl
@[simp] theorem CoreSt.adv_rank (c : CoreSt) : c.adv.rank = c.rank := rfl
@[simp] theorem CoreSt.adv_pc (c : CoreSt) : c.adv.pc = c.pc + 4 := rfl
@[simp] theorem CoreSt.setWin_g (c : CoreSt) (w : BitVec 4) (x : Win) : (c.setWin w x).g = c.g := rfl
@[simp] theorem CoreSt.setWin_p (c : CoreSt) (w : BitVec 4) (x : Win) : (c.setWin w x).p = c.p := rfl
@[simp] theorem CoreSt.setWin_pc (c : CoreSt) (w : BitVec 4) (x : Win) : (c.setWin w x).pc = c.pc := rfl
@[simp] theorem CoreSt.setWin_ec (c : CoreSt) (w : BitVec 4) (x : Win) : (c.setWin w x).ec = c.ec := rfl
@[simp] theorem CoreSt.setWin_dqbase (c : CoreSt) (w : BitVec 4) (x : Win) : (c.setWin w x).dqbase = c.dqbase := rfl
@[simp] theorem CoreSt.setWin_dqlim (c : CoreSt) (w : BitVec 4) (x : Win) : (c.setWin w x).dqlim = c.dqlim := rfl
@[simp] theorem CoreSt.setWin_tvEn (c : CoreSt) (w : BitVec 4) (x : Win) : (c.setWin w x).tvEn = c.tvEn := rfl
@[simp] theorem CoreSt.setWin_tvAddr (c : CoreSt) (w : BitVec 4) (x : Win) : (c.setWin w x).tvAddr = c.tvAddr := rfl
@[simp] theorem CoreSt.setWin_code (c : CoreSt) (w : BitVec 4) (x : Win) : (c.setWin w x).code = c.code := rfl
@[simp] theorem CoreSt.setWin_cause (c : CoreSt) (w : BitVec 4) (x : Win) : (c.setWin w x).cause = c.cause := rfl
@[simp] theorem CoreSt.setWin_trapaddr (c : CoreSt) (w : BitVec 4) (x : Win) : (c.setWin w x).trapaddr = c.trapaddr := rfl
@[simp] theorem CoreSt.setWin_epc (c : CoreSt) (w : BitVec 4) (x : Win) : (c.setWin w x).epc = c.epc := rfl
@[simp] theorem CoreSt.setWin_intrap (c : CoreSt) (w : BitVec 4) (x : Win) : (c.setWin w x).intrap = c.intrap := rfl
@[simp] theorem CoreSt.setWin_terms (c : CoreSt) (w : BitVec 4) (x : Win) : (c.setWin w x).terms = c.terms := rfl
@[simp] theorem CoreSt.setWin_ports (c : CoreSt) (w : BitVec 4) (x : Win) : (c.setWin w x).ports = c.ports := rfl
@[simp] theorem CoreSt.setWin_walk (c : CoreSt) (w : BitVec 4) (x : Win) : (c.setWin w x).walk = c.walk := rfl
@[simp] theorem CoreSt.setWin_issued (c : CoreSt) (w : BitVec 4) (x : Win) : (c.setWin w x).issued = c.issued := rfl
@[simp] theorem CoreSt.setWin_swaps (c : CoreSt) (w : BitVec 4) (x : Win) : (c.setWin w x).swaps = c.swaps := rfl
@[simp] theorem CoreSt.setWin_status (c : CoreSt) (w : BitVec 4) (x : Win) : (c.setWin w x).status = c.status := rfl
@[simp] theorem CoreSt.setWin_wait (c : CoreSt) (w : BitVec 4) (x : Win) : (c.setWin w x).wait = c.wait := rfl
@[simp] theorem CoreSt.setWin_group (c : CoreSt) (w : BitVec 4) (x : Win) : (c.setWin w x).group = c.group := rfl
@[simp] theorem CoreSt.setWin_rank (c : CoreSt) (w : BitVec 4) (x : Win) : (c.setWin w x).rank = c.rank := rfl
@[simp] theorem CoreSt.setPort_g (c : CoreSt) (w : BitVec 4) (x : Port) : (c.setPort w x).g = c.g := rfl
@[simp] theorem CoreSt.setPort_p (c : CoreSt) (w : BitVec 4) (x : Port) : (c.setPort w x).p = c.p := rfl
@[simp] theorem CoreSt.setPort_pc (c : CoreSt) (w : BitVec 4) (x : Port) : (c.setPort w x).pc = c.pc := rfl
@[simp] theorem CoreSt.setPort_ec (c : CoreSt) (w : BitVec 4) (x : Port) : (c.setPort w x).ec = c.ec := rfl
@[simp] theorem CoreSt.setPort_dqbase (c : CoreSt) (w : BitVec 4) (x : Port) : (c.setPort w x).dqbase = c.dqbase := rfl
@[simp] theorem CoreSt.setPort_dqlim (c : CoreSt) (w : BitVec 4) (x : Port) : (c.setPort w x).dqlim = c.dqlim := rfl
@[simp] theorem CoreSt.setPort_tvEn (c : CoreSt) (w : BitVec 4) (x : Port) : (c.setPort w x).tvEn = c.tvEn := rfl
@[simp] theorem CoreSt.setPort_tvAddr (c : CoreSt) (w : BitVec 4) (x : Port) : (c.setPort w x).tvAddr = c.tvAddr := rfl
@[simp] theorem CoreSt.setPort_code (c : CoreSt) (w : BitVec 4) (x : Port) : (c.setPort w x).code = c.code := rfl
@[simp] theorem CoreSt.setPort_cause (c : CoreSt) (w : BitVec 4) (x : Port) : (c.setPort w x).cause = c.cause := rfl
@[simp] theorem CoreSt.setPort_trapaddr (c : CoreSt) (w : BitVec 4) (x : Port) : (c.setPort w x).trapaddr = c.trapaddr := rfl
@[simp] theorem CoreSt.setPort_epc (c : CoreSt) (w : BitVec 4) (x : Port) : (c.setPort w x).epc = c.epc := rfl
@[simp] theorem CoreSt.setPort_intrap (c : CoreSt) (w : BitVec 4) (x : Port) : (c.setPort w x).intrap = c.intrap := rfl
@[simp] theorem CoreSt.setPort_wins (c : CoreSt) (w : BitVec 4) (x : Port) : (c.setPort w x).wins = c.wins := rfl
@[simp] theorem CoreSt.setPort_terms (c : CoreSt) (w : BitVec 4) (x : Port) : (c.setPort w x).terms = c.terms := rfl
@[simp] theorem CoreSt.setPort_walk (c : CoreSt) (w : BitVec 4) (x : Port) : (c.setPort w x).walk = c.walk := rfl
@[simp] theorem CoreSt.setPort_issued (c : CoreSt) (w : BitVec 4) (x : Port) : (c.setPort w x).issued = c.issued := rfl
@[simp] theorem CoreSt.setPort_swaps (c : CoreSt) (w : BitVec 4) (x : Port) : (c.setPort w x).swaps = c.swaps := rfl
@[simp] theorem CoreSt.setPort_status (c : CoreSt) (w : BitVec 4) (x : Port) : (c.setPort w x).status = c.status := rfl
@[simp] theorem CoreSt.setPort_wait (c : CoreSt) (w : BitVec 4) (x : Port) : (c.setPort w x).wait = c.wait := rfl
@[simp] theorem CoreSt.setPort_group (c : CoreSt) (w : BitVec 4) (x : Port) : (c.setPort w x).group = c.group := rfl
@[simp] theorem CoreSt.setPort_rank (c : CoreSt) (w : BitVec 4) (x : Port) : (c.setPort w x).rank = c.rank := rfl
@[simp] theorem CoreSt.setEvc_g (c : CoreSt) (w : BitVec 3) (x : BitVec 32) : (c.setEvc w x).g = c.g := rfl
@[simp] theorem CoreSt.setEvc_p (c : CoreSt) (w : BitVec 3) (x : BitVec 32) : (c.setEvc w x).p = c.p := rfl
@[simp] theorem CoreSt.setEvc_pc (c : CoreSt) (w : BitVec 3) (x : BitVec 32) : (c.setEvc w x).pc = c.pc := rfl
@[simp] theorem CoreSt.setEvc_dqbase (c : CoreSt) (w : BitVec 3) (x : BitVec 32) : (c.setEvc w x).dqbase = c.dqbase := rfl
@[simp] theorem CoreSt.setEvc_dqlim (c : CoreSt) (w : BitVec 3) (x : BitVec 32) : (c.setEvc w x).dqlim = c.dqlim := rfl
@[simp] theorem CoreSt.setEvc_tvEn (c : CoreSt) (w : BitVec 3) (x : BitVec 32) : (c.setEvc w x).tvEn = c.tvEn := rfl
@[simp] theorem CoreSt.setEvc_tvAddr (c : CoreSt) (w : BitVec 3) (x : BitVec 32) : (c.setEvc w x).tvAddr = c.tvAddr := rfl
@[simp] theorem CoreSt.setEvc_code (c : CoreSt) (w : BitVec 3) (x : BitVec 32) : (c.setEvc w x).code = c.code := rfl
@[simp] theorem CoreSt.setEvc_cause (c : CoreSt) (w : BitVec 3) (x : BitVec 32) : (c.setEvc w x).cause = c.cause := rfl
@[simp] theorem CoreSt.setEvc_trapaddr (c : CoreSt) (w : BitVec 3) (x : BitVec 32) : (c.setEvc w x).trapaddr = c.trapaddr := rfl
@[simp] theorem CoreSt.setEvc_epc (c : CoreSt) (w : BitVec 3) (x : BitVec 32) : (c.setEvc w x).epc = c.epc := rfl
@[simp] theorem CoreSt.setEvc_intrap (c : CoreSt) (w : BitVec 3) (x : BitVec 32) : (c.setEvc w x).intrap = c.intrap := rfl
@[simp] theorem CoreSt.setEvc_wins (c : CoreSt) (w : BitVec 3) (x : BitVec 32) : (c.setEvc w x).wins = c.wins := rfl
@[simp] theorem CoreSt.setEvc_terms (c : CoreSt) (w : BitVec 3) (x : BitVec 32) : (c.setEvc w x).terms = c.terms := rfl
@[simp] theorem CoreSt.setEvc_ports (c : CoreSt) (w : BitVec 3) (x : BitVec 32) : (c.setEvc w x).ports = c.ports := rfl
@[simp] theorem CoreSt.setEvc_walk (c : CoreSt) (w : BitVec 3) (x : BitVec 32) : (c.setEvc w x).walk = c.walk := rfl
@[simp] theorem CoreSt.setEvc_issued (c : CoreSt) (w : BitVec 3) (x : BitVec 32) : (c.setEvc w x).issued = c.issued := rfl
@[simp] theorem CoreSt.setEvc_swaps (c : CoreSt) (w : BitVec 3) (x : BitVec 32) : (c.setEvc w x).swaps = c.swaps := rfl
@[simp] theorem CoreSt.setEvc_status (c : CoreSt) (w : BitVec 3) (x : BitVec 32) : (c.setEvc w x).status = c.status := rfl
@[simp] theorem CoreSt.setEvc_wait (c : CoreSt) (w : BitVec 3) (x : BitVec 32) : (c.setEvc w x).wait = c.wait := rfl
@[simp] theorem CoreSt.setEvc_group (c : CoreSt) (w : BitVec 3) (x : BitVec 32) : (c.setEvc w x).group = c.group := rfl
@[simp] theorem CoreSt.setEvc_rank (c : CoreSt) (w : BitVec 3) (x : BitVec 32) : (c.setEvc w x).rank = c.rank := rfl

/-- A register reads alike in two cores that hold the same g registers. -/
theorem CoreSt.rd_congr {c d : CoreSt} (h : d.g = c.g) (r : Reg) : d.rd r = c.rd r := by simp only [CoreSt.rd, h]
/-- A predicate reads alike in two cores that hold the same predicates. -/
theorem CoreSt.rdp_congr {c d : CoreSt} (h : d.p = c.p) (p : PReg) : d.rdp p = c.rdp p := by simp only [CoreSt.rdp, h]
@[simp] theorem CoreSt.rd_adv (c : CoreSt) (r : Reg) : c.adv.rd r = c.rd r := rfl
@[simp] theorem CoreSt.rdp_adv (c : CoreSt) (p : PReg) : c.adv.rdp p = c.rdp p := rfl

@[simp] theorem CoreSt.win_setWin (c : CoreSt) (w : BitVec 4) (x : Win) : (c.setWin w x).win w = x := Vector.getElem_set_self _
theorem CoreSt.win_setWin_ne (c : CoreSt) {w v : BitVec 4} (x : Win) (h : v ≠ w) : (c.setWin w x).win v = c.win v :=
  Vector.getElem_set_ne w.isLt v.isLt fun e => h (BitVec.eq_of_toNat_eq e).symm
@[simp] theorem CoreSt.port_setPort (c : CoreSt) (p : BitVec 4) (x : Port) : (c.setPort p x).port p = x := Vector.getElem_set_self _
theorem CoreSt.port_setPort_ne (c : CoreSt) {p q : BitVec 4} (x : Port) (h : q ≠ p) : (c.setPort p x).port q = c.port q :=
  Vector.getElem_set_ne p.isLt q.isLt fun e => h (BitVec.eq_of_toNat_eq e).symm
@[simp] theorem CoreSt.evc_setEvc (c : CoreSt) (n : BitVec 3) (v : BitVec 32) : (c.setEvc n v).evc n = v := Vector.getElem_set_self _
theorem CoreSt.evc_setEvc_ne (c : CoreSt) {n m : BitVec 3} (v : BitVec 32) (h : m ≠ n) : (c.setEvc n v).evc m = c.evc m :=
  Vector.getElem_set_ne n.isLt m.isLt fun e => h (BitVec.eq_of_toNat_eq e).symm

end Sys2Proof.Machine
end

