-- ==== Sys2Proof/Laws/Memory.lean ====
section
/-! SUPPORT. Memory: every operation keeps the canonical form; a read after a write; what the named memory and bank operations leave alone. -/

namespace Sys2Proof.Machine

/-! ### The canonical form and reads -/

theorem Memory.wfFrom_cons {lo k : Nat} {v : Byte} {m : Memory} :
    Memory.wfFrom lo ((k, v) :: m) = true ↔ lo ≤ k ∧ v ≠ Memory.blank ∧ Memory.wfFrom (k + 1) m = true := by
  simp only [Memory.wfFrom, Bool.and_eq_true, decide_eq_true_eq, bne_iff_ne, and_assoc]

theorem Memory.wfFrom_le {lo lo' : Nat} {m : Memory} (h : Memory.wfFrom lo m = true) (hl : lo' ≤ lo) : Memory.wfFrom lo' m = true := by
  cases m with
  | nil => rfl
  | cons x m =>
    rw [Memory.wfFrom_cons] at h ⊢
    exact ⟨Nat.le_trans hl h.1, h.2⟩

theorem Memory.read_below {lo a : Nat} {m : Memory} (h : Memory.wfFrom lo m = true) (ha : a < lo) : Memory.read m a = Memory.blank := by
  cases m with
  | nil => rfl
  | cons x m =>
    obtain ⟨k, v⟩ := x
    rw [Memory.wfFrom_cons] at h
    have h1 : k ≠ a := by omega
    have h2 : a < k := by omega
    simp [Memory.read, h1, h2]

theorem Memory.write_wfFrom {lo a : Nat} {m : Memory} (b : Byte) (h : Memory.wfFrom lo m = true) (ha : lo ≤ a) :
    Memory.wfFrom lo (Memory.write m a b) = true := by
  induction m generalizing lo with
  | nil =>
    by_cases hb : b = Memory.blank
    · simp [Memory.write, hb, Memory.wfFrom]
    · simp [Memory.write, hb, Memory.wfFrom, ha]
  | cons x m ih =>
    obtain ⟨k, v⟩ := x
    obtain ⟨h1, h2, h3⟩ := Memory.wfFrom_cons.1 h
    unfold Memory.write
    by_cases c1 : a < k
    · by_cases hb : b = Memory.blank
      · simp only [c1, hb, if_true]; exact h
      · simp only [c1, hb, if_true, if_false]
        exact Memory.wfFrom_cons.2 ⟨ha, hb, Memory.wfFrom_cons.2 ⟨by omega, h2, h3⟩⟩
    · by_cases c2 : a = k
      · by_cases hb : b = Memory.blank
        · simp only [c2, hb, if_true, if_false, Nat.lt_irrefl]
          exact Memory.wfFrom_le h3 (by omega)
        · simp only [c2, hb, if_true, if_false, Nat.lt_irrefl]
          exact Memory.wfFrom_cons.2 ⟨by omega, hb, h3⟩
      · simp only [c1, c2, if_false]
        exact Memory.wfFrom_cons.2 ⟨h1, h2, ih h3 (by omega)⟩

theorem Memory.read_write_from {lo a : Nat} {m : Memory} (b : Byte) (h : Memory.wfFrom lo m = true) (i : Nat) :
    Memory.read (Memory.write m a b) i = if i = a then b else Memory.read m i := by
  induction m generalizing lo with
  | nil =>
    by_cases hb : b = Memory.blank
    · subst hb; by_cases hi : i = a <;> simp [Memory.write, Memory.read, hi]
    · by_cases hi : i = a
      · simp [Memory.write, Memory.read, hb, hi]
      · have : a ≠ i := Ne.symm hi
        by_cases c : i < a <;> simp [Memory.write, Memory.read, hb, hi, this]
  | cons x m ih =>
    obtain ⟨k, v⟩ := x
    obtain ⟨h1, h2, h3⟩ := Memory.wfFrom_cons.1 h
    unfold Memory.write
    by_cases c1 : a < k
    · by_cases hb : b = Memory.blank
      · simp only [c1, hb, if_true]
        by_cases hi : i = a
        · have e1 : k ≠ a := by omega
          subst hi; simp [Memory.read, e1, c1]
        · simp [hi]
      · simp only [c1, hb, if_true, if_false]
        by_cases hi : i = a
        · simp [Memory.read, hi]
        · have h4 : a ≠ i := Ne.symm hi
          by_cases c : i < a
          · have : k ≠ i := by omega
            have : i < k := by omega
            simp [Memory.read, *]
          · simp [Memory.read, hi, h4, c]
    · by_cases c2 : a = k
      · subst c2
        by_cases hb : b = Memory.blank
        · simp only [hb, if_true, if_false, Nat.lt_irrefl]
          by_cases hi : i = a
          · subst hi; simp [Memory.read_below h3 (Nat.lt_succ_self i)]
          · have h4 : a ≠ i := Ne.symm hi
            by_cases c : i < a
            · have := Memory.read_below (a := i) h3 (by omega)
              simp [Memory.read, hi, h4, c, this]
            · simp [Memory.read, hi, h4, c]
        · simp only [hb, if_true, if_false, Nat.lt_irrefl]
          by_cases hi : i = a
          · simp [Memory.read, hi]
          · have h4 : a ≠ i := Ne.symm hi
            by_cases c : i < a <;> simp [Memory.read, hi, h4]
      · simp only [c1, c2, if_false]
        by_cases hi : k = i
        · have : i ≠ a := by omega
          simp [Memory.read, hi, this]
        · by_cases c : i < k
          · have : i ≠ a := by omega
            simp [Memory.read, hi, c, this]
          · simp only [Memory.read, hi, c, if_false]; exact ih h3

/-- A write keeps the canonical form. -/
theorem Memory.write_wf {m : Memory} (a : Nat) (b : Byte) (h : m.wf = true) : (m.write a b).wf = true := Memory.write_wfFrom b h (Nat.zero_le a)

/-- A read after a write gives what was written at its address, and what stood there elsewhere. -/
theorem Memory.read_write {m : Memory} (a : Nat) (b : Byte) (h : m.wf = true) (i : Nat) :
    (m.write a b).read i = if i = a then b else m.read i := Memory.read_write_from b h i

theorem Memory.writeN_wf {m : Memory} (a : Nat) (bs : List Byte) (h : m.wf = true) : (m.writeN a bs).wf = true := by
  induction bs generalizing m a with
  | nil => exact h
  | cons b bs ih => exact ih (a + 1) (Memory.write_wf a b h)

/-- A read after writing bytes upward from an address. -/
theorem Memory.read_writeN {m : Memory} (a : Nat) (bs : List Byte) (h : m.wf = true) (i : Nat) :
    (m.writeN a bs).read i = if h : a ≤ i ∧ i < a + bs.length then bs[i - a]'(by omega) else m.read i := by
  induction bs generalizing m a with
  | nil =>
    have : ¬ (a ≤ i ∧ i < a + ([] : List Byte).length) := by simp
    rw [dif_neg this]; rfl
  | cons b bs ih =>
    show ((m.write a b).writeN (a + 1) bs).read i = _
    rw [ih (a + 1) (Memory.write_wf a b h), Memory.read_write a b h]
    by_cases c1 : i = a
    · subst c1
      have h1 : ¬ (i + 1 ≤ i ∧ i < i + 1 + bs.length) := by omega
      have h2 : i ≤ i ∧ i < i + (b :: bs).length := by simp
      rw [dif_neg h1, dif_pos h2]; simp
    · by_cases c2 : a + 1 ≤ i ∧ i < a + 1 + bs.length
      · have h2 : a ≤ i ∧ i < a + (b :: bs).length := by simp; omega
        rw [dif_pos c2, dif_pos h2]
        have : i - a = (i - (a + 1)) + 1 := by omega
        simp [this]
      · have h2 : ¬ (a ≤ i ∧ i < a + (b :: bs).length) := by simp; omega
        rw [dif_neg c2, dif_neg h2, if_neg c1]

theorem Memory.read_writeN_out {m : Memory} (a : Nat) (bs : List Byte) (h : m.wf = true) {i : Nat} (hi : ¬ (a ≤ i ∧ i < a + bs.length)) :
    (m.writeN a bs).read i = m.read i := by rw [Memory.read_writeN a bs h, dif_neg hi]

theorem Memory.clear_wfFrom {lo : Nat} {m : Memory} (a n : Nat) (h : Memory.wfFrom lo m = true) : Memory.wfFrom lo (m.clear a n) = true := by
  induction m generalizing lo with
  | nil => rfl
  | cons x m ih =>
    obtain ⟨k, v⟩ := x
    obtain ⟨h1, h2, h3⟩ := Memory.wfFrom_cons.1 h
    have h4 := ih h3
    unfold Memory.clear at h4 ⊢
    rw [List.filter_cons]
    split
    · exact Memory.wfFrom_cons.2 ⟨h1, h2, h4⟩
    · exact Memory.wfFrom_le h4 (by omega)

theorem Memory.clear_wf {m : Memory} (a n : Nat) (h : m.wf = true) : (m.clear a n).wf = true := Memory.clear_wfFrom a n h

theorem Memory.read_clear_from {lo : Nat} {m : Memory} (a n : Nat) (h : Memory.wfFrom lo m = true) (i : Nat) :
    Memory.read (m.clear a n) i = if a ≤ i ∧ i < a + n then Memory.blank else Memory.read m i := by
  induction m generalizing lo with
  | nil => by_cases c : a ≤ i ∧ i < a + n <;> simp [Memory.clear, Memory.read, c]
  | cons x m ih =>
    obtain ⟨k, v⟩ := x
    obtain ⟨h1, h2, h3⟩ := Memory.wfFrom_cons.1 h
    have h4 := ih h3
    have h5 := Memory.clear_wfFrom a n h3
    unfold Memory.clear at h4 h5 ⊢
    rw [List.filter_cons]
    by_cases c : a ≤ k ∧ k < a + n
    · have : (!(decide (a ≤ k) && decide (k < a + n))) = false := by simp [c]
      rw [if_neg (by simp only [this]; decide), h4]
      by_cases d : a ≤ i ∧ i < a + n
      · rw [if_pos d, if_pos d]
      · rw [if_neg d, if_neg d]
        have e : k ≠ i := by omega
        by_cases f : i < k
        · rw [Memory.read_below h3 (by omega)]; simp [Memory.read, e, f]
        · simp [Memory.read, e, f]
    · have : (!(decide (a ≤ k) && decide (k < a + n))) = true := by
        simp only [Bool.not_eq_true', Bool.and_eq_false_iff, decide_eq_false_iff_not]; omega
      rw [if_pos (by simpa using this)]
      by_cases e : k = i
      · subst e; rw [if_neg c]; simp [Memory.read]
      · by_cases f : i < k
        · simp [Memory.read, e, f]
        · simp only [Memory.read, e, f, if_false]; exact h4

theorem Memory.read_clear {m : Memory} (a n : Nat) (h : m.wf = true) (i : Nat) :
    (m.clear a n).read i = if a ≤ i ∧ i < a + n then Memory.blank else m.read i := Memory.read_clear_from a n h i

/-! ### Bytes of words -/

@[simp] theorem leBytes_length (n x : Nat) : (leBytes n x).length = n := by
  induction n generalizing x with
  | zero => rfl
  | succ n ih => simp [leBytes, ih]

@[simp] theorem wordBytes_length (w : Word) : (wordBytes w).length = 8 := leBytes_length 8 _

theorem leNat_leBytes (n x : Nat) : leNat (leBytes n x) = x % 256 ^ n := by
  induction n generalizing x with
  | zero => simp [leBytes, leNat, Nat.mod_one]
  | succ n ih =>
    have e : (256 : Nat) ^ (n + 1) = 256 * 256 ^ n := by rw [Nat.pow_succ, Nat.mul_comm]
    rw [leBytes, leNat, ih, BitVec.toNat_ofNat, e, Nat.mod_mul]

/-- A word is what its bytes are read as. -/
@[simp] theorem bytesWord_wordBytes (w : Word) : bytesWord (wordBytes w) = w := by
  unfold bytesWord wordBytes
  rw [leNat_leBytes]
  apply BitVec.eq_of_toNat_eq
  rw [BitVec.toNat_ofNat]
  have := w.isLt
  omega

/-! ### The named operations -/

@[simp] theorem State.notice_mem (s : State) (a n : Nat) : (s.notice a n).mem = s.mem := by unfold State.notice; split <;> rfl
@[simp] theorem State.notice_sealed (s : State) (a n : Nat) : (s.notice a n).sealed = s.sealed := by unfold State.notice; split <;> rfl
@[simp] theorem State.notice_banks (s : State) (a n : Nat) : (s.notice a n).banks = s.banks := by unfold State.notice; split <;> rfl
@[simp] theorem State.notice_host (s : State) (a n : Nat) : (s.notice a n).host = s.host := by unfold State.notice; split <;> rfl
@[simp] theorem State.notice_cores (s : State) (a n : Nat) : (s.notice a n).cores = s.cores := by unfold State.notice; split <;> rfl
@[simp] theorem State.notice_cur (s : State) (a n : Nat) : (s.notice a n).cur = s.cur := by unfold State.notice; split <;> rfl

@[simp] theorem State.scrub_mem (s : State) (a : Nat) : (s.scrub a).mem = s.mem := by unfold State.scrub; split <;> rfl
@[simp] theorem State.scrub_sealed (s : State) (a : Nat) : (s.scrub a).sealed = s.sealed := by unfold State.scrub; split <;> rfl
@[simp] theorem State.scrub_banks (s : State) (a : Nat) : (s.scrub a).banks = s.banks := by unfold State.scrub; split <;> rfl
@[simp] theorem State.scrub_cores (s : State) (a : Nat) : (s.scrub a).cores = s.cores := by unfold State.scrub; split <;> rfl
@[simp] theorem State.scrub_cur (s : State) (a : Nat) : (s.scrub a).cur = s.cur := by unfold State.scrub; split <;> rfl
@[simp] theorem State.scrub_hostMem (s : State) (a : Nat) : (s.scrub a).host.mem = s.host.mem := by unfold State.scrub; split <;> rfl

@[simp] theorem State.rewrite_mem (s : State) (a n : Nat) : (s.rewrite a n).mem = s.mem := by unfold State.rewrite; split <;> simp
@[simp] theorem State.rewrite_sealed (s : State) (a n : Nat) : (s.rewrite a n).sealed = s.sealed := by unfold State.rewrite; split <;> simp
@[simp] theorem State.rewrite_banks (s : State) (a n : Nat) : (s.rewrite a n).banks = s.banks := by unfold State.rewrite; split <;> simp
@[simp] theorem State.rewrite_cores (s : State) (a n : Nat) : (s.rewrite a n).cores = s.cores := by unfold State.rewrite; split <;> simp
@[simp] theorem State.rewrite_cur (s : State) (a n : Nat) : (s.rewrite a n).cur = s.cur := by unfold State.rewrite; split <;> simp
@[simp] theorem State.rewrite_hostMem (s : State) (a n : Nat) : (s.rewrite a n).host.mem = s.host.mem := by unfold State.rewrite; split <;> simp

@[simp] theorem State.memWrite_banks (s : State) (key a : Nat) (bs : List Byte) : (s.memWrite key a bs).banks = s.banks := by
  simp only [State.memWrite]; repeat' split
  all_goals simp
@[simp] theorem State.memWrite_cores (s : State) (key a : Nat) (bs : List Byte) : (s.memWrite key a bs).cores = s.cores := by
  simp only [State.memWrite]; repeat' split
  all_goals simp
@[simp] theorem State.memWrite_cur (s : State) (key a : Nat) (bs : List Byte) : (s.memWrite key a bs).cur = s.cur := by
  simp only [State.memWrite]; repeat' split
  all_goals simp
@[simp] theorem State.memWrite_hostMem (s : State) (key a : Nat) (bs : List Byte) : (s.memWrite key a bs).host.mem = s.host.mem := by
  simp only [State.memWrite]; repeat' split
  all_goals simp

theorem State.memWrite_mem_wf {s : State} (key a : Nat) (bs : List Byte) (h : s.mem.wf = true) : (s.memWrite key a bs).mem.wf = true := by
  simp only [State.memWrite]; repeat' split
  all_goals simp only [State.rewrite_mem, State.notice_mem]
  all_goals first
    | exact Memory.writeN_wf _ _ (Memory.writeN_wf _ _ h)
    | exact Memory.writeN_wf _ _ h

/-- A memory write keeps the canonical form. -/
theorem State.memWrite_form {s : State} (key a : Nat) (bs : List Byte) (h : s.memoryForm) : (s.memWrite key a bs).memoryForm :=
  ⟨State.memWrite_mem_wf key a bs h.1, by simpa using h.2.1, by simpa using h.2.2⟩

/-- Freeing a bank keeps the canonical form. -/
theorem State.freeBank_form {s : State} (die : Nat) (b : BankId) (h : s.memoryForm) : (s.freeBank die b).memoryForm :=
  ⟨h.1, Memory.clear_wf _ _ h.2.1, h.2.2⟩

theorem bankFold_wf (bad : Nat → Bool) (bs : List Byte) : ∀ (m : Memory) (a : Nat), m.wf = true →
    (bs.foldl (fun (acc : Memory × Nat) b => (if bad acc.2 then acc.1 else Memory.write acc.1 acc.2 b, acc.2 + 1)) (m, a)).1.wf = true := by
  induction bs with
  | nil => intro m a h; exact h
  | cons b bs ih =>
    intro m a h
    rw [List.foldl_cons]
    apply ih
    simp only []
    split
    · exact h
    · exact Memory.write_wf _ _ h

@[simp] theorem State.scrubBank_mem (s : State) (a : Nat) : (s.scrubBank a).mem = s.mem := by unfold State.scrubBank; split <;> rfl
@[simp] theorem State.scrubBank_sealed (s : State) (a : Nat) : (s.scrubBank a).sealed = s.sealed := by unfold State.scrubBank; split <;> rfl
@[simp] theorem State.scrubBank_banks (s : State) (a : Nat) : (s.scrubBank a).banks = s.banks := by unfold State.scrubBank; split <;> rfl
@[simp] theorem State.scrubBank_cores (s : State) (a : Nat) : (s.scrubBank a).cores = s.cores := by unfold State.scrubBank; split <;> rfl
@[simp] theorem State.scrubBank_cur (s : State) (a : Nat) : (s.scrubBank a).cur = s.cur := by unfold State.scrubBank; split <;> rfl
@[simp] theorem State.scrubBank_hostMem (s : State) (a : Nat) : (s.scrubBank a).host.mem = s.host.mem := by unfold State.scrubBank; split <;> rfl

/-- Correcting units of a bank leaves what a bank and a memory hold. -/
theorem State.scrubUnits_frame (l : List Nat) : ∀ s : State,
    let t := l.foldl (fun s u => s.scrubBank (u * 8)) s
    t.mem = s.mem ∧ t.sealed = s.sealed ∧ t.banks = s.banks ∧ t.cores = s.cores ∧ t.cur = s.cur ∧ t.host.mem = s.host.mem := by
  induction l with
  | nil => intro s; simp
  | cons u l ih => intro s; simpa using ih (s.scrubBank (u * 8))

/-- A bank write changes no other memory. -/
theorem State.bankWrite_frame (s : State) (a : Nat) (bs : List Byte) :
    (s.bankWrite a bs).1.mem = s.mem ∧ (s.bankWrite a bs).1.sealed = s.sealed ∧ (s.bankWrite a bs).1.cores = s.cores
      ∧ (s.bankWrite a bs).1.cur = s.cur ∧ (s.bankWrite a bs).1.host.mem = s.host.mem := by
  obtain ⟨h1, h2, -, h4, h5, h6⟩ := State.scrubUnits_frame
    (((List.range ((a % 8 + bs.length + 7) / 8)).map (a / 8 + ·)).filter fun u => !(decide (a ≤ u * 8) && decide (u * 8 + 8 ≤ a + bs.length)))
    { s with badBank := s.badBank.filter fun u => !(decide (a ≤ u * 8) && decide (u * 8 + 8 ≤ a + bs.length)),
             softBank := s.softBank.filter fun u => !(decide (a ≤ u * 8) && decide (u * 8 + 8 ≤ a + bs.length)) }
  exact ⟨h1, h2, h4, h5, h6⟩

/-- A bank write keeps the canonical form. -/
theorem State.bankWrite_form {s : State} (a : Nat) (bs : List Byte) (h : s.memoryForm) : (s.bankWrite a bs).1.memoryForm := by
  obtain ⟨h1, -, -, -, h5⟩ := s.bankWrite_frame a bs
  refine ⟨by rw [h1]; exact h.1, ?_, by rw [h5]; exact h.2.2⟩
  unfold State.bankWrite
  apply bankFold_wf
  rw [(State.scrubUnits_frame _ _).2.2.1]
  exact h.2.1

theorem State.reset_form : State.reset.memoryForm := ⟨rfl, rfl, rfl⟩

end Sys2Proof.Machine
end

