-- ==== Sys2Proof/Laws/Seal.lean ====
section
/-! SUPPORT. What a write of memory does, byte by byte, as every reader sees it through the seal (R344, R346). -/

namespace Sys2Proof.Machine

@[simp] theorem State.notice_memByte (s : State) (a n key i : Nat) : (s.notice a n).memByte key i = s.memByte key i := by
  simp [State.memByte, State.cipherUnit]

@[simp] theorem State.memBytes_length (s : State) (key a n : Nat) : (s.memBytes key a n).length = n := by simp [State.memBytes]

theorem State.memBytes_get (s : State) (key a n i : Nat) (h : i < (s.memBytes key a n).length) : (s.memBytes key a n)[i] = s.memByte key (a + i) := by
  simp [State.memBytes]

@[simp] theorem State.rewrite_memByte (s : State) (a n key i : Nat) : (s.rewrite a n).memByte key i = s.memByte key i := by
  simp [State.memByte, State.cipherUnit]

theorem Memory.readN_congr {m k : Memory} {a n : Nat} (h : ∀ i, a ≤ i → i < a + n → m.read i = k.read i) : m.readN a n = k.readN a n := by
  induction n generalizing a with
  | zero => rfl
  | succ n ih =>
    rw [Memory.readN, Memory.readN, h a (Nat.le_refl a) (by omega), ih fun i h1 h2 => h i (by omega) (by omega)]

/-- A byte as a reader under a key sees it depends on the 128 bytes of its unit, and on the seal of its unit alone. -/
theorem State.memByte_congr {s t : State} {key i : Nat} (hm : ∀ j, j / 128 = i / 128 → Memory.read t.mem j = Memory.read s.mem j)
    (hs : find t.sealed (i / 128) = find s.sealed (i / 128)) : t.memByte key i = s.memByte key i := by
  simp only [State.memByte, State.cipherUnit, hm i rfl, hs,
    Memory.readN_congr (m := t.mem) (k := s.mem) (a := i / 128 * 128) (n := 128) fun j h1 h2 => hm j (by omega)]

/-- Where the seal is the reader's own, it depends on that byte of memory alone. -/
theorem State.memByte_congr_own {s t : State} {key i : Nat} (hm : Memory.read t.mem i = Memory.read s.mem i)
    (hs : find t.sealed (i / 128) = find s.sealed (i / 128)) (hk : Machine.region i = 1 → find s.sealed (i / 128) = some key) :
    t.memByte key i = s.memByte key i := by
  unfold State.memByte
  by_cases r : Machine.region i = 1
  · simp [r, hs, hk r, hm]
  · simp [r, hm]

theorem region_of_unit {a b : Nat} (h : a / 128 = b / 128) : Machine.region a = Machine.region b := by
  unfold Machine.region; omega

theorem State.notice_memBytes (s : State) (a n key i k : Nat) : (s.notice a n).memBytes key i k = s.memBytes key i k := by
  simp [State.memBytes]

theorem State.rewrite_memBytes (s : State) (a n key i k : Nat) : (s.rewrite a n).memBytes key i k = s.memBytes key i k := by
  simp [State.memBytes]

/-- Whether a write has to seal its unit anew. -/
def State.reseals (s : State) (key a : Nat) : Prop := Machine.region a = 1 ∧ find s.sealed (a / 128) ≠ some key

theorem State.memWrite_mem_old {s : State} {key a : Nat} (bs : List Byte) (h : ¬ s.reseals key a) :
    (s.memWrite key a bs).mem = Memory.writeN s.mem a bs ∧ (s.memWrite key a bs).sealed = s.sealed := by
  unfold State.memWrite
  by_cases r : Machine.region a = 1
  · have c : find s.sealed (a / 128) = some key := by
      by_cases c : find s.sealed (a / 128) = some key
      · exact c
      · exact absurd ⟨r, c⟩ h
    simp [r, c]
  · simp [r]

theorem State.memWrite_mem_new {s : State} {key a : Nat} (bs : List Byte) (h : s.reseals key a) :
    (s.memWrite key a bs).mem = Memory.writeN (Memory.writeN s.mem (a / 128 * 128) (s.memBytes key (a / 128 * 128) 128)) a bs ∧
    (s.memWrite key a bs).sealed = put s.sealed (a / 128) key := by
  unfold State.memWrite
  have c := h.2
  simp [h.1, c, State.notice_memBytes, State.rewrite_memBytes]

/-- After a write inside one unit, the writer reads what was written, and every other byte as before. -/
theorem State.memByte_memWrite {s : State} (key a : Nat) (bs : List Byte) (h : s.mem.wf = true) (hu : a % 128 + bs.length ≤ 128) (i : Nat) :
    (s.memWrite key a bs).memByte key i = if h : a ≤ i ∧ i < a + bs.length then bs[i - a]'(by omega) else s.memByte key i := by
  by_cases r : s.reseals key a
  · obtain ⟨e1, e2⟩ := State.memWrite_mem_new bs r
    have hw2 := Memory.writeN_wf (a / 128 * 128) (s.memBytes key (a / 128 * 128) 128) h
    by_cases e : i / 128 = a / 128
    · have own : (s.memWrite key a bs).memByte key i = Memory.read (s.memWrite key a bs).mem i := by
        unfold State.memByte
        rw [e2, e, find_put, if_neg (by simp)]
      rw [own, e1, Memory.read_writeN _ _ hw2]
      by_cases d : a ≤ i ∧ i < a + bs.length
      · rw [dif_pos d, dif_pos d]
      · have f : a / 128 * 128 ≤ i ∧ i < a / 128 * 128 + (s.memBytes key (a / 128 * 128) 128).length := by
          rw [State.memBytes_length]; omega
        rw [dif_neg d, dif_neg d, Memory.read_writeN _ _ h, dif_pos f, State.memBytes_get]
        have g : a / 128 * 128 + (i - a / 128 * 128) = i := by omega
        rw [g]
    · have d : ¬ (a ≤ i ∧ i < a + bs.length) := by omega
      rw [dif_neg d]
      apply State.memByte_congr
      · intro j hj
        rw [e1, Memory.read_writeN_out _ _ hw2 (by omega), Memory.read_writeN_out _ _ h]
        rw [State.memBytes_length]; omega
      · rw [e2]; exact find_put_ne _ e _
  · obtain ⟨e1, e2⟩ := State.memWrite_mem_old bs r
    by_cases d : a ≤ i ∧ i < a + bs.length
    · rw [dif_pos d]
      have e : i / 128 = a / 128 := by omega
      have er := region_of_unit e
      unfold State.memByte
      rw [e1, e2, e, er, Memory.read_writeN _ _ h, dif_pos d]
      by_cases q : Machine.region a = 1
      · have c : find s.sealed (a / 128) = some key := by
          by_cases c : find s.sealed (a / 128) = some key
          · exact c
          · exact absurd ⟨q, c⟩ r
        simp [q, c]
      · simp [q]
    · rw [dif_neg d]
      by_cases e : i / 128 = a / 128
      · refine State.memByte_congr_own (by rw [e1]; exact Memory.read_writeN_out _ _ h d) (by rw [e2]) fun q => ?_
        rw [region_of_unit e] at q
        by_cases c : find s.sealed (a / 128) = some key
        · rw [e]; exact c
        · exact absurd ⟨q, c⟩ r
      · exact State.memByte_congr (fun j hj => by rw [e1]; exact Memory.read_writeN_out _ _ h (by omega)) (by rw [e2])

/-- Under any other key, no byte changes outside the written bytes and, where the memory is sealed, outside their unit. -/
theorem State.memByte_memWrite_other {s : State} (key a : Nat) (bs : List Byte) (h : s.mem.wf = true) (hu : a % 128 + bs.length ≤ 128)
    (k i : Nat) (hi : ¬ (a ≤ i ∧ i < a + bs.length)) (hr : Machine.region a ≠ 1 ∨ i / 128 ≠ a / 128) :
    (s.memWrite key a bs).memByte k i = s.memByte k i := by
  by_cases r : s.reseals key a
  · have e : i / 128 ≠ a / 128 := hr.resolve_left fun x => x r.1
    obtain ⟨e1, e2⟩ := State.memWrite_mem_new bs r
    have hw2 := Memory.writeN_wf (a / 128 * 128) (s.memBytes key (a / 128 * 128) 128) h
    apply State.memByte_congr
    · intro j hj
      rw [e1, Memory.read_writeN_out _ _ hw2 (by omega), Memory.read_writeN_out _ _ h]
      rw [State.memBytes_length]; omega
    · rw [e2]; exact find_put_ne _ e _
  · obtain ⟨e1, e2⟩ := State.memWrite_mem_old bs r
    by_cases e : i / 128 = a / 128
    · have q : Machine.region i ≠ 1 := by rw [region_of_unit e]; exact hr.resolve_right fun x => x e
      unfold State.memByte
      rw [if_neg fun x => q x.1, if_neg fun x => q x.1, e1]
      exact Memory.read_writeN_out _ _ h hi
    · exact State.memByte_congr (fun j hj => by rw [e1]; exact Memory.read_writeN_out _ _ h (by omega)) (by rw [e2])

/-- A write inside one unit changes the written bytes alone. -/
theorem State.memWrite_sameBytesBut {s : State} (key a : Nat) (bs : List Byte) (h : s.mem.wf = true) (hu : a % 128 + bs.length ≤ 128) :
    s.sameBytesBut (s.memWrite key a bs) key a bs.length :=
  ⟨fun i hi => by rw [State.memByte_memWrite key a bs h hu, dif_neg hi], fun k i hi hr => State.memByte_memWrite_other key a bs h hu k i hi hr,
   fun i => by simp, fun i => by simp⟩

/-- The writer reads back the bytes that it wrote. -/
theorem State.memBytes_memWrite {s : State} (key a : Nat) (bs : List Byte) (h : s.mem.wf = true) (hu : a % 128 + bs.length ≤ 128) :
    (s.memWrite key a bs).memBytes key a bs.length = bs := by
  apply List.ext_getElem
  · simp
  · intro i h1 h2
    have : a ≤ a + i ∧ a + i < a + bs.length := by omega
    rw [State.memBytes_get, State.memByte_memWrite key a bs h hu, dif_pos this]
    simp

end Sys2Proof.Machine
end

