-- ==== Sys2Proof/Tests/Slice0.lean ====
section
/-! SUPPORT. Tests: what the checks of WellFormed refuse, words written out from the encoding tables, single steps with results taken from the spec,
and, for every statement with hypotheses, a state and operands that meet them (theorems named after the statement). -/

namespace Sys2Proof.Tests

open Sys2Proof Sys2Proof.Machine

set_option Elab.async false

/-! ### Small states -/

/-- Whether an outcome is a next state of which something holds. -/
def got (o : Out) (p : State → Bool) : Bool := match o with
  | .next t => p t
  | _ => false

/-- Whether an access answers with a state of which something holds. -/
def done {α : Type} (r : Res α) (p : α → State → Bool) : Bool := match r with
  | .ok x t => p x t
  | .err _ _ => false

/-- Whether a decoding answers a value, or a rejection. -/
def reads {α : Type} [DecidableEq α] (r : Except Reject α) (x : α) : Bool := match r with
  | .ok y => y == x
  | .error _ => false
def refuses {α : Type} (r : Except Reject α) (e : Reject) : Bool := match r with
  | .ok _ => false
  | .error f => f == e

/-- The state of an outcome. -/
def after (o : Out) : State := match o with
  | .next t => t
  | _ => {}

/-- The global address of a byte of die 0, with the package's own number (R156). -/
def ga (a : Nat) : Word := BitVec.ofNat 64 (0x3FF * 2 ^ 50 + a)

/-- A core with values in some registers. -/
def withRegs (c : CoreSt) (l : List (Reg × Word)) : CoreSt := l.foldl (fun c p => c.wr p.1 p.2) c

/-- A core that runs group 1, with a trap handler at 0x100. -/
def core0 : CoreSt := { pc := 0x20, tvEn := true, tvAddr := 0x40, status := .running, group := some 1 }

/-- Group 1 of context 2 and tenant 3, on core 0. -/
def grp : Group := { ctx := 2, tenant := 3, graph := 0x10000, key := 0x10000, die := 0, first := 0, k := 0 }

def ctxCfg : ContextCfg := { ctx := 2, tenant := 3, descs := List.replicate 16 ⟨0, 0, 0⟩, region := ga 0x8000, saveArea := ga 0x6000, saveLen := 4096 }

def obj0 : GObj := { code := List.replicate 64 0x6E000007#32 }

def ctx2 : Context := { cfg := ctxCfg, graphs := [(0x10000, { obj := obj0, lver := 1, area := some 0 })] }

def tenCfg : TenantCfg := {
  tenant := 3, weight := 1, flagRaces := false, cloneThr := 50, foldThr := 10, budget := 4, relayout := false, recallAlloc := 4, graphLimit := 4
  freezeLimit := 100, bucketRate := 1, bucketDepth := 1000, hostCtx := 2, faultHdr := ga 0x2000, faultBase := ga 0x3000, faultSlots := 4, faultFuture := 0
  admission := none }

/-- A combined entry for page 0 at a port: raw bytes, writable, at the same physical address. -/
def ent (port : Nat) : TlbEntry := { port := port, ctx := 2, vpage := 0, large := false, frame := 0, w := true, fmt := 15, geom := 0, gframe := 0 }

/-- A package that is ready, with group 1 running on core 0; page 0 is mapped at every port of die 0. -/
def base : State := {
  cycle := 1000
  cores := [(0, core0)]
  groups := [(1, grp)]
  tenants := [(3, { cfg := tenCfg, key := 1 })]
  contexts := [(2, ctx2)]
  tlb := (List.range 16).map ent
  nextId := 10
  host := { phase := 3, ready := true, pkg := 5 } }

/-- The same with values in registers of core 0. -/
def regs (l : List (Reg × Word)) : State := base.setCore (withRegs core0 l)

/-- The same with one window of core 0 changed. -/
def wins (s : State) (w : BitVec 4) (x : Win) : State := s.setCore (s.core.setWin w x)

def bank (n : Nat) : BankId := ⟨0, BitVec.ofNat 5 n⟩

/-- An attached plain writable window on bank 1 of quad 0. -/
def winA : Win := { state := .attached, mode := .plain, w := true, bank := some (bank 1) }

/-- Memory with 0x1122334455667788 at 0x1000. -/
def mem1 : Memory := Memory.writeN [] 0x1000 (wordBytes 0x1122334455667788)

/-- A posted request of core 0, numbered 4, that has arrived at a router of die 0. -/
def fl (op : FlightOp) (router : Nat) : Flight := {
  id := 4, core := 0, src := 0, ctx := 2, tenant := 3, group := 1, pc := 0x1C, op := op, order := 4, die := 0, router := router, toDie := 0, toRouter := router, since := 0 }

def flying (s : State) (f : Flight) : State := { s with flights := s.flights ++ [f] }
def many (s : State) : State := { s with flights := (List.range 32).map fun i => { fl (.store (ga 0) []) 40 with id := 100 + i } }

abbrev G := Guard.always

/-! ### What the checks of WellFormed refuse, one term for each -/

theorem test_wf_guard : (Instr.nop ⟨true, 7⟩).wf = false := by decide
theorem test_wf_loop_g0 : (Instr.loop G 0 1).wf = false := by decide
theorem test_wf_waite_amount : (Instr.waite G 0 0).wf = false := by decide
theorem test_wf_exit_count : (Instr.exitSuccessors G 1 0).wf = false ∧ (Instr.exitSuccessors G 1 5).wf = false ∧ (Instr.exitSuccessors G 0 1).wf = false := by decide
theorem test_wf_signed_eight_bytes : (Instr.ldgx G 1 2 3 false true .b8).wf = false := by decide
theorem test_wf_amo_order : (Instr.amo G 1 2 .add .acq .pod).wf = false ∧ (Instr.amof G 1 2 .add .sc .pod).wf = false := by decide
theorem test_wf_scopes : (Instr.acq G 1 2 .lane).wf = false ∧ (Instr.bar G 1 .pkg).wf = false := by decide
theorem test_wf_fence_order : (Instr.fence G .rel .pod).wf = false := by decide

def cmd (cls : BitVec 4) (flags : BitVec 8) (addr : BitVec 56) (count : BitVec 24) (index : BitVec 16) : StreamCmd :=
  { port := 0, cls := cls, flags := flags, tag := 0, addr := addr, count := count, index := index }

theorem test_wf_class : (Instr.mld (cmd 3 0 0 1 0)).wf = false ∧ (Instr.arm (cmd 1 0 0 1 0)).wf = false := by decide
theorem test_wf_flags : (Instr.lswap (cmd 0 1 0 0 0)).wf = false := by decide
theorem test_wf_address : (Instr.mld (cmd 2 0xF (2 ^ 50) 1 0)).wf = false ∧ (Instr.sld (cmd 0 0xF (2 ^ 20) 1 0)).wf = false := by decide
theorem test_wf_count : (Instr.barrier (cmd 0 0 0 8 0)).wf = false := by decide
theorem test_wf_index : (Instr.evcfg (cmd 0 0 0 0 16)).wf = false := by decide
theorem test_wf_format : (Instr.mld (cmd 2 9 0 1 0)).wf = false := by decide
theorem test_wf_row : (Instr.gather (cmd 2 0x7F 0 1 0)).wf = false := by decide
theorem test_wf_layreq_form : (Instr.layreqSuspend (cmd 0 2 0 0 0)).wf = false ∧ (Instr.layreqResume (cmd 0 1 0 0 0)).wf = false := by decide
theorem test_wf_mark : (Instr.segmark (cmd 0 5 0 0 0)).wf = false ∧ (Instr.segmark (cmd 0 10 0 0 0)).wf = false := by decide
theorem test_wf_amostrm_op : (Instr.amostrm (cmd 3 9 0 1 0)).wf = false := by decide
theorem test_wf_redwin : (Instr.redwinOpen (cmd 0 0 0 1 0)).wf = false ∧ (Instr.redwinClose (cmd 0 1 0 0 0)).wf = false := by decide

/-! ### Words written out field by field from the formats (R136 to R140, R145) -/

/-- Format R: opcode, gd, ga, gb, fn, guard. -/
def wR (op : BitVec 7) (d a b : BitVec 5) (fn : BitVec 6) (gd : BitVec 4) : Word32 := op ++ d ++ a ++ b ++ fn ++ gd

/-- The worked words of the encoding section (N19 to N39). -/
theorem test_words_listing :
    reads (decodeWord 0x42100007#32) (.li G 1 0) = true ∧ reads (decodeWord 0x8A308007#32) (.sts G 3 1 0) = true ∧ reads (decodeWord 0x48914407#32) (.cmpi G .ltu 1 2 64) = true ∧
    reads (decodeWord 0x600FFF91#32) (.br ⟨false, 1⟩ 0xFFF9) = true ∧ reads (decodeWord 0xE0000407#32) (.issue G 0 0 8 false) = true ∧
    reads (decodeWord 0x88530F87#32) (.lds G 5 6 248) = true ∧ reads (decodeWord 0x72000219#32) (.trap ⟨true, 1⟩ 0x21) = true := by decide
/-- `FENCE.sc.core` has fn = 0b100_001 (R140). -/
theorem test_word_fence : reads (decodeWord (wR 0x4F 0 0 0 0b100001 7)) (.fence G .sc .core) = true := by decide
theorem test_word_add : reads (decodeWord (wR 0x01 1 2 3 0 7)) (.add G 1 2 3) = true := by decide
theorem test_word_guarded : reads (decodeWord (wR 0x01 1 2 3 0 0xA)) (.add ⟨true, 2⟩ 1 2 3) = true := by decide
theorem test_word_reserved_guard : refuses (decodeWord (wR 0x01 1 2 3 0 0xF)) .reservedGuard = true := by decide
theorem test_word_reserved_field : refuses (decodeWord (wR 0x01 1 2 3 1 7)) .reservedField = true := by decide
theorem test_word_reserved_code : refuses (decodeWord (wR 0x23 1 2 3 0xA 7)) .reservedCode = true := by decide
theorem test_word_pand : reads (decodeWord (wR 0x25 1 2 3 2 7)) (.pand G 1 2 3 true false) = true := by decide
theorem test_word_waddr : reads (decodeWord (wR 0x2C 4 5 0 9 7)) (.waddr G 4 5 9) = true := by decide
theorem test_word_ldg : reads (decodeWord (0x40#7 ++ 7#5 ++ 8#5 ++ 0x7F8#11 ++ 7#4)) (.ldg G 7 8 0x7F8) = true := by decide
theorem test_word_amo : reads (decodeWord (wR 0x48 7 8 1 0b010101 7)) (.amo G 7 8 .and .rel .pod) = true := by decide
theorem test_word_give : reads (decodeWord (wR 0x58 7 8 9 0b001111 7)) (.give G 7 8 9 15) = true := by decide
theorem test_word_dpop : reads (decodeWord (wR 0x65 7 0 9 0 7)) (.dpop G 7 9) = true := by decide
theorem test_word_mfs : reads (decodeWord (0x78#7 ++ 3#5 ++ 0x33#16 ++ 7#4)) (.mfs G 3 0x33) = true := by decide
theorem test_word_bytes : reads (decode [0x07, 0x00, 0x00, 0x6E, 0xAA]) (.nop G, [0xAA]) = true ∧ refuses (decode [0x07, 0x00, 0x00]) .shortInput = true := by decide

/-- A command word (R145): MST, code 0x02, at port 9 with class M store, raw format, 4 tokens at 0x100. -/
theorem test_word_command : reads (decodeCmd (0x02#8 ++ 9#4 ++ 3#4 ++ 0x0F#8 ++ 0#8 ++ 0x100#56 ++ 4#24 ++ 0#16)) (.mst { port := 9, cls := 3, flags := 0x0F, tag := 0, addr := 0x100, count := 4, index := 0 }) = true := by decide
theorem test_word_command_reserved : refuses (decodeCmd (0xFF#8 ++ 0#120)) .reservedCommand = true := by decide

/-! ### Results given by the spec -/

/-- The worked XADDR of R182. -/
theorem test_xaddr : got (exec (.xaddr G 3 1 2) (regs [(1, 0x03FF01A5), (2, 0x50120)])) (fun t => t.core.rd 3 == 0x8FFCD2A800000120#64) = true := by decide +kernel
/-- BFX of a field at 16 of width 8, and BFI of 0x55 there (R174). -/
theorem test_bit_field :
    got (exec (.bfx G 3 1 2) (regs [(1, 0xABCDEF), (2, 0x0810)])) (fun t => t.core.rd 3 == 0xAB#64) = true ∧
    got (exec (.bfi G 3 1 2) (regs [(1, 0x55), (2, 0x0810)])) (fun t => t.core.rd 3 == 0x550000#64) = true := by decide +kernel
/-- −7 / 2 is −3 with remainder −1; by zero all ones and the dividend (R170). -/
theorem test_division :
    got (exec (.div G 3 1 2) (regs [(1, -7), (2, 2)])) (fun t => t.core.rd 3 == -3) = true ∧
    got (exec (.rem G 3 1 2) (regs [(1, -7), (2, 2)])) (fun t => t.core.rd 3 == -1) = true ∧
    got (exec (.div G 3 1 2) (regs [(1, -7), (2, 0)])) (fun t => t.core.rd 3 == -1) = true ∧
    got (exec (.rem G 3 1 2) (regs [(1, -7), (2, 0)])) (fun t => t.core.rd 3 == -7) = true := by decide +kernel
/-- The most negative number by −1 wraps (R170). -/
theorem test_division_wraps : got (exec (.div G 3 1 2) (regs [(1, 0x8000000000000000), (2, -1)])) (fun t => t.core.rd 3 == 0x8000000000000000) = true := by decide +kernel
theorem test_add_wraps : got (exec (.add G 1 1 1) (regs [(1, 0x8000000000000001)])) (fun t => t.core.rd 1 == 2) = true := by decide +kernel
theorem test_g0_discards : got (exec (.add G 0 1 1) (regs [(1, 1)])) (fun t => t.core.rd 0 == 0 && t.core.pc == 0x24) = true := by decide +kernel
theorem test_shift_amount : got (exec (.shl G 3 1 2) (regs [(1, 1), (2, 0x41)])) (fun t => t.core.rd 3 == 2) = true := by decide +kernel
theorem test_jmp_link_aliases : got (exec (.jmp G 1 1) (regs [(1, 0x80)])) (fun t => t.core.pc == 0x80 && t.core.rd 1 == 0x24) = true := by decide +kernel
theorem test_loop_ends : got (exec (.loop G 1 0xFFFF) (regs [(1, 1)])) (fun t => t.core.pc == 0x24 && t.core.rd 1 == 0) = true := by decide +kernel
theorem test_trap_entry : got (exec (.trap G 0x55) (regs [])) (fun t => t.core.pc == 0x100 && t.core.epc == 0x20 && t.core.cause == 3 && t.core.code == 0x55 && t.core.intrap) = true := by
  decide +kernel
theorem test_ldg_misaligned : got (exec (.ldg G 3 1 4) (regs [(1, 0x1000)])) (fun t => t.core.cause == 2 && t.core.trapaddr == 0x1004) = true := by decide +kernel

/-! ### States that meet the hypotheses of the statements on words, steps and results -/

theorem witness_ScalarEncodingRoundTrip : (Instr.dsteal G 1 2 3).wf = true ∧ encodeWord (.dsteal G 1 2 3) = some 0xCC110C07#32 := by decide
theorem witness_ScalarEncodingRoundTrip_back : reads (decodeWord 0xCC110C07#32) (.dsteal G 1 2 3) = true := by decide
theorem witness_CommandEncodingRoundTrip : (Instr.arm (cmd 0 0 0 5 3)).wf = true ∧ (encodeCmd (.arm (cmd 0 0 0 5 3))).isSome = true
    ∧ reads (decodeCmd (0x0D#8 ++ 0#64 ++ 0#16 ++ 5#24 ++ 3#16)) (.arm (cmd 0 0 0 5 3)) = true := by decide

/-- A state with one turn to come. -/
def turn (s : State) (t : Turn) : State := { s with agenda := [t, .tick] }

/-- A state with a command at the head of port 2 of core 0. -/
def queued (s : State) (w : CmdWord) : State := s.setCore (s.core.setPort 2 { s.core.port 2 with queue := [{ word := w, id := 4 }] })
def armWord : CmdWord := 0x0D#8 ++ 2#4 ++ 0#4 ++ 0#8 ++ 0#8 ++ 0#56 ++ 5#24 ++ 0#16

theorem witness_StepRunsTheDecodedTurn_core : let s := turn base (.core 0)
    s.off = false ∧ ({ s with agenda := [.tick], cur := 0 } : State).mayRun 0 = true ∧ (s.coreAt 0).pc.toNat % 4 = 0 ∧ s.fetch 0 = some 0x6E000007#32 ∧
    reads (decode (leBytes 4 (0x6E000007#32).toNat)) (.nop G, []) = true ∧ got (step s) (fun t => t.core.pc == 0x24) = true := by decide +kernel
theorem witness_StepRunsTheDecodedTurn_port : let s := turn (queued base armWord) (.port 0 2)
    let s1 := ({ s with agenda := [.tick], cur := 0 } : State).settlePort 0 2
    s.off = false ∧ (s1.portAt 0 2).queue = [{ word := armWord, id := 4 }] ∧ s1.groupOf 0 = some grp ∧ s1.cmdLive grp = true ∧ s1.cmdStarts grp = true ∧
    reads (decodeCmd armWord) (.arm { cmd 0 0 0 5 0 with port := 2 }) = true := by decide +kernel
theorem witness_StepRunsTheDecodedTurn_event : let s := turn base (.event (.tlbEntryDrop 0))
    s.off = false ∧ encodeWord (.tlbEntryDrop 0) = none ∧ encodeCmd (.tlbEntryDrop 0) = none ∧ got (step s) (fun t => t.tlb.length == 15) = true := by decide +kernel
theorem witness_StepRunsTheDecodedTurn_tick : (turn base .tick).off = false ∧ got (step (turn base .tick)) (fun t => t.cycle == 1001) = true := by decide +kernel
theorem witness_StepRunsTheDecodedTurn_empty : base.agenda = [] ∧ got (step base) (fun t => t.agenda.contains .tick) = true := by decide +kernel

theorem witness_FetchFaultsTrap_misaligned : let s := turn (base.setCore { core0 with pc := 0x22 }) (.core 0)
    ({ s with agenda := [.tick], cur := 0 } : State).mayRun 0 = true ∧ (s.coreAt 0).pc.toNat % 4 ≠ 0 ∧ got (step s) (fun t => t.core.cause == 2 && t.core.trapaddr == 0x22) = true := by
  decide +kernel
theorem witness_FetchFaultsTrap_beyond : let s := turn (base.setCore { core0 with pc := 0x100 }) (.core 0)
    ({ s with agenda := [.tick], cur := 0 } : State).mayRun 0 = true ∧ s.groupOf 0 = some grp ∧ (s.objOf grp).code.length ≤ (s.coreAt 0).pc.toNat / 4 ∧ s.fetch 0 = none ∧
    got (step s) (fun t => t.core.cause == 1 && t.core.trapaddr == 0) = true := by decide +kernel
theorem witness_FetchFaultsTrap_word : let s := turn { base with contexts := [(2, { ctx2 with graphs := [(0x10000, { obj := { code := List.replicate 9 0#32 } })] })] } (.core 0)
    ({ s with agenda := [.tick], cur := 0 } : State).mayRun 0 = true ∧ s.fetch 0 = some 0#32 ∧ refuses (decode (leBytes 4 0)) .unassignedOpcode = true ∧
    got (step s) (fun t => t.core.cause == 1 && t.core.epc == 0x20) = true := by decide +kernel

theorem witness_RegistersReadBackAsWritten : (31 : Reg) ≠ 0 ∧ (6 : PReg) ≠ 7 ∧ (core0.wr 31 9).rd 31 = 9 ∧ (core0.wrp 6 true).rdp 6 = true := by decide +kernel
theorem witness_FalseGuardOnlyAdvances : (Instr.add ⟨true, 7⟩ 1 1 1).guard? = some ⟨true, 7⟩ ∧ (regs [(1, 5)]).core.holds ⟨true, 7⟩ = false ∧
    got (exec (.add ⟨true, 7⟩ 1 1 1) (regs [(1, 5)])) (fun t => t.core.rd 1 == 5 && t.core.pc == 0x24) = true := by decide +kernel
/-- The guard of the result statements. -/
theorem witness_IntegerAndBitResults_arithmetic : (regs [(1, 5), (2, 7)]).core.holds G = true ∧ got (exec (.mulh G 3 1 2) (regs [(1, -5), (2, 7)])) (fun t => t.core.rd 3 == -1) = true := by
  decide +kernel
theorem witness_IntegerAndBitResults_immediate : (regs [(1, -5)]).core.holds G = true ∧ got (exec (.srai G 3 1 63) (regs [(1, -5)])) (fun t => t.core.rd 3 == -1) = true ∧
    got (exec (.lih G 1 0xFFFF) (regs [(1, 0x0001000000000000)])) (fun t => t.core.rd 1 == 0xFFFF) = true := by decide +kernel
theorem witness_IntegerAndBitResults_bits : (regs [(1, 1)]).core.holds G = true ∧ got (exec (.clz G 3 1) (regs [(1, 0)])) (fun t => t.core.rd 3 == 64) = true ∧
    got (exec (.sext G 3 1 7) (regs [(1, 0x180)])) (fun t => t.core.rd 3 == -128) = true ∧ got (exec (.popc G 3 1) (regs [(1, -1)])) (fun t => t.core.rd 3 == 64) = true := by decide +kernel
theorem witness_PredicateResults : (regs [(1, -1)]).core.holds G = true ∧ got (exec (.cmp G .ltu 1 1 2) (regs [(1, -1), (2, 1)])) (fun t => t.core.rdp 1 == false) = true ∧
    got (exec (.cmp G .lt 1 1 2) (regs [(1, -1), (2, 1)])) (fun t => t.core.rdp 1) = true ∧ got (exec (.pmovGet G 3) (regs [])) (fun t => t.core.rd 3 == 0x80) = true := by decide +kernel
theorem witness_AddressResults : (regs [(1, 0x03FF01A5)]).core.holds G = true ∧ reads (decodeWord (wR 0x2D 3 1 2 0 7)) (.xaddr G 3 1 2) = true ∧ Guard.ok G = true := by decide +kernel
theorem witness_CodeAddressResults : (regs []).core.holds G = true ∧ got (exec (.call G 0xFFFF) (regs [])) (fun t => t.core.pc == 0x1C && t.core.rd 31 == 0x24) = true := by decide +kernel

/-! ### waiting, traps, frames, address checks -/

theorem witness_WaitOnEventCounter : let s := base.setCore (core0.setEvc 3 5)
    s.core.holds G = true ∧ (5 : BitVec 16).toNat ≤ (s.core.evc 3).toNat ∧ got (exec (.waite G 3 5) s) (fun t => t.core.evc 3 == 0 && t.core.wait == .none) = true ∧
    (s.core.evc 3).toNat < (6 : BitVec 16).toNat ∧ got (exec (.waite G 3 6) s) (fun t => t.core.wait == .event 3 6) = true := by decide +kernel
theorem witness_WaitOnEventCounter_pass : let s := base.setCore { core0.setEvc 3 5 with wait := .event 3 5 }
    (s.coreAt 0).wait = .event 3 5 ∧ (s.groupOf 0).bind (·.preempt) = none ∧ (5 : BitVec 16).toNat ≤ ((s.coreAt 0).evc 3).toNat ∧
    got (exec (.waitePass 0) s) (fun t => (t.coreAt 0).evc 3 == 0 && (t.coreAt 0).pc == 0x24) = true := by decide +kernel
theorem witness_WaitOnEventCounter_held : let s := { base.setCore { core0.setEvc 3 5 with wait := .event 3 5 } with groups := [(1, { grp with preempt := some ⟨false, 0, false, 0⟩ })] }
    (s.coreAt 0).wait = .event 3 5 ∧ ((s.groupOf 0).bind (·.preempt)).isSome = true ∧ got (exec (.waitePass 0) s) (fun t => t == s) = true := by decide +kernel

theorem witness_TrapEntry : base.core.intrap = false ∧ base.core.tvEn = true ∧ base.core.holds G = true := by decide +kernel
theorem witness_TrapHaltsOutsideAHandler : let s := base.setCore { core0 with intrap := true }
    let u := base.setCore { core0 with tvEn := false }
    s.core.intrap = true ∧ u.core.tvEn = false ∧ (s.trap 0x03 0 9 8).recs.map (fun r => (r.cause, r.nested, r.a, r.b)) = [(0x03#8, true, 0x20#64, 9#64)] ∧
    (u.trap 0x03 0 9 8).recs.map (fun r => (r.halted, r.nested)) = [(true, false)] ∧ (u.trap 0x03 0 9 8).core.status = .halted := by decide +kernel
theorem witness_ReturnFromTrap : let s := base.setCore { core0 with intrap := true, epc := 0x44 }
    s.core.holds G = true ∧ s.core.intrap = true ∧ base.core.intrap = false ∧ got (exec (.eret G) s) (fun t => t.core.pc == 0x44 && !t.core.intrap) = true ∧
    got (exec (.eret G) base) (fun t => t.core.cause == 1 && t.core.trapaddr == 0xF4000007) = true := by decide +kernel
theorem witness_CoreOnlyFrame : (Instr.rate G 1 2).coreOnly = true ∧ (2 : Reg) ∉ (Instr.rate G 1 2).dests ∧ (0 : PReg) ∉ (Instr.rate G 1 2).pdests := by decide
theorem witness_AddressChecks_misaligned : let s := regs [(1, 0x1004), (2, 1), (3, 0x8000000000000004)]
    s.core.holds G = true ∧ (s.core.rd 1).toNat % 8 ≠ 0 ∧ (s.core.rd 1).toNat % 16 ≠ 0 ∧ (s.core.rd 1).toNat % 64 ≠ 0 ∧ (s.core.rd 3).toNat % 8 ≠ 0 ∧
    (s.core.rd 3).extractLsb' 60 4 = 8#4 ∧ (s.core.rd 1 + s.core.rd 2).toNat % sizeBytes .b2 ≠ 0 ∧ (1 : Reg) ≠ 2 ∧
    got (exec (.stx G 1 3) s) (fun t => t.core.cause == 2 && t.core.trapaddr == 0x8000000000000004) = true ∧
    got (exec (.ldgx G 4 1 2 false false .b2) s) (fun t => t.core.cause == 2 && t.core.trapaddr == 0x1005) = true := by decide +kernel
theorem witness_AddressChecks_foreign : let s := regs [(1, 0x1000000000001000)]
    s.core.holds G = true ∧ s.isGlobal (s.core.rd 1) = false ∧ (s.core.rd 1).toNat % 64 = 0 ∧ (s.core.rd 1).extractLsb' 60 4 ≠ 8#4 ∧
    got (exec (.stg G 2 1 0) s) (fun t => t.recs.map (fun r => (r.cause, r.posted, r.b)) == [(0x20#8, true, 0x1000000000001000#64)] && t.core.pc == 0x24) = true ∧
    got (exec (.acq G 2 1 .die) s) (fun t => t.core.cause == 0x20) = true := by decide +kernel

/-! ### Loads, posted requests, atomics -/

/-- The translation of the memory statements, at an address of page 0. -/
def maps (s : State) (a : Word) (write : Bool) (pa : Nat) : Bool := done (s.translate 2 a write (some 15)) fun x t => x == (pa, 15, 0) && !t.bad pa

theorem witness_LoadResults : let s := { regs [(1, ga 0x1000)] with mem := mem1 }
    s.core.holds G = true ∧ s.isGlobal (ga 0x1000) = true ∧ s.ownPending (ga 0x1000) 8 = false ∧ s.limited (ga 0x1000) = false ∧ s.ctxOf s.cur = 2 ∧ maps s (ga 0x1000) false 0x1000 = true ∧
    got (exec (.ldg G 3 1 0) s) (fun t => t.core.rd 3 == 0x1122334455667788#64 && t.core.pc == 0x24) = true ∧
    got (exec (.ldgx G 3 1 0 false true .b1) s) (fun t => t.core.rd 3 == 0xFFFFFFFFFFFFFF88#64) = true ∧
    got (exec (.ldgx G 3 1 0 false false .b2) s) (fun t => t.core.rd 3 == 0x7788#64) = true := by decide +kernel
theorem witness_LoadResults_response : let s := { base.setCore { core0 with wait := .access (.ldg 3 (ga 0x1000) .b8 false) false 0 } with mem := mem1 }
    (s.coreAt 0).wait = .access (.ldg 3 (ga 0x1000) .b8 false) false 0 ∧ (s.groupOf 0).bind (·.preempt) = none ∧
    got (exec (.accessResponse 0) s) (fun t => t.core.rd 3 == 0x1122334455667788#64 && t.core.wait == .none) = true := by decide +kernel
theorem witness_LoadResults_waits : let s := flying (regs [(1, ga 0x1000)]) (fl (.store (ga 0x1004) [1]) 40)
    let u := { regs [(1, ga 0x1000)] with buckets := [(3, ⟨-1, 1000⟩)] }
    s.isGlobal (ga 0x1000) = true ∧ s.ownPending (ga 0x1000) 8 = true ∧ u.limited (ga 0x1000) = true ∧
    got (exec (.ldg G 3 1 0) s) (fun t => t.core.wait != .none) = true ∧ got (exec (.ldg G 3 1 0) u) (fun t => t.core.wait != .none) = true := by decide +kernel
theorem witness_LoadResults_window : let s := wins { regs [(1, 0x2FFF8)] with banks := [(bankAddr 0 (bank 1) 0xFFF8, 7)] } 2 winA
    s.core.holds G = true ∧ (0x2FFF8 : Word).toNat = (2 : BitVec 4).toNat * 2 ^ 16 + 0xFFF8 ∧ (s.core.win 2).state = .attached ∧ s.ownWinPending s.cur 2 = false ∧
    (∀ i < 8, s.badBankUnit (s.liveBank s.cur 2 + 0xFFF8 + i) = false) ∧ got (exec (.lds G 3 1 0) s) (fun t => t.core.rd 3 == 7) = true := by decide +kernel
theorem witness_LoadResults_window_stops : let s := regs [(1, 0x20000), (2, 0x100000)]
    (s.core.win 2).state = .detached ∧ 2 ^ 20 ≤ (s.core.rd 2).toNat ∧ got (exec (.lds G 3 1 0) s) (fun t => t.core.cause == 0x10 && t.core.trapaddr == 0x20000) = true ∧
    got (exec (.lds G 3 2 0) s) (fun t => t.core.cause == 0x10) = true ∧ ((wins s 2 { winA with state := .opened }).core.win 2).state = .opened ∧
    got (exec (.lds G 3 1 0) (wins s 2 { winA with state := .draining })) (fun t => t.core.wait != .none) = true := by decide +kernel

theorem witness_PostedInstructionsPostTheirRequest : let s := regs [(1, ga 0x1000), (2, 9), (4, 0x1FFF8), (5, 0x8FFC000000000008)]
    s.core.holds G = true ∧ (s.posted s.cur).length < 32 ∧ s.isGlobal (s.core.rd 1) = true ∧ (s.core.rd 1).toNat % 16 = 0 ∧ (s.core.rd 4).toNat < 2 ^ 20 ∧ (s.core.rd 4).toNat % 8 = 0 ∧
    s.isExchange (s.core.rd 5) = true ∧ (s.core.rd 5).toNat % 8 = 0 ∧ (s.core.win 3).mode ≠ .tagged ∧
    got (exec (.stg G 2 1 0) s) (fun t => t.flights.map (·.op) == [.store (ga 0x1000) (wordBytes 9)]) = true ∧
    got (exec (.sts G 2 4 0) s) (fun t => t.flights.map (·.op) == [.wstore 1 0xFFF8 (wordBytes 9)]) = true ∧
    got (exec (.signal G 1 2) s) (fun t => t.flights.map (fun f => (f.op, f.release)) == [(.signal (ga 0x1000) 9, true)]) = true ∧
    got (exec (.amo G 2 1 .add .rel .pod) s) (fun t => t.flights.map (·.release) == [true]) = true := by decide +kernel
theorem witness_PostedInstructionsPostTheirRequest_full : let s := many (regs [(1, ga 0x1000), (2, 9)])
    s.core.holds G = true ∧ 32 ≤ (s.posted s.cur).length ∧ got (exec (.stg G 2 1 0) s) (fun t => t == s) = true := by decide +kernel
theorem witness_PostedInstructionsPostTheirRequest_tagged : let s := wins base 3 { winA with mode := .tagged, tags := [(0, 5)] }
    (s.core.win 3).mode = .tagged ∧ (s.posted s.cur).length < 32 ∧ got (exec (.bzero G 3) s) (fun t => (t.core.win 3).tags == [] && t.flights.length == 1) = true := by decide +kernel

theorem witness_PostedMemoryRequestsApply : let f := fl (.store (ga 0x107E) [1, 2]) 32
    let s := flying base f
    (s.mem.wf ∧ s.banks.wf ∧ s.host.mem.wf) ∧ s.flight? 4 = some f ∧ s.arrived f = true ∧ s.inOrder (s.placeOf f) (s.rankAt f) = true ∧ maps s (ga 0x107E) true 0x107E = true ∧ 0x107E % 128 + 2 ≤ 128 ∧
    got (exec (.memoryAccess 4) s) (fun t => t.mem == [(0x107E, 1), (0x107F, 2)] && t.flights.all (·.applied)) = true := by decide +kernel
theorem witness_PostedMemoryRequestsApply_amo : let f := fl (.amo (ga 0x1000) .max (-1) false) 32
    let s := { flying base f with mem := mem1 }
    s.flight? 4 = some f ∧ s.arrived f = true ∧ maps s (ga 0x1000) true 0x1000 = true ∧ got (exec (.memoryAccess 4) s) (fun t => t.mem == mem1) = true := by decide +kernel
/-- A word of an open window, and what its entry becomes with one more update (R409). -/
theorem test_covered_update_merges : let m : Merge := { addr := ga 0x1000, ctx := 2, tenant := 3, wide := true, op := .add, v := 5, since := 0 }
    ({ base with tenants := [(3, { cfg := tenCfg, key := 1, redwin := [(0, ⟨ga 0x1000, 2⟩)] })] } : State).covered 3 (ga 0x100F) = true ∧ base.covered 3 (ga 0x1000) = false ∧
    m.takes 2 (ga 0x1000) true .add = true ∧ (m.join 3).v = 8 ∧ ({ m with wide := false, v := 0xFFFFFFFF }.join 3).v = 2 := by decide +kernel
/-- A store to a sealed unit leaves the rest of the unit as its key shows it. -/
theorem test_seal_merges : let s := { base with tlb := [{ ent 0 with frame := 2 ^ 44 }], sealed := [(2 ^ 37, 1)], mem := [(2 ^ 44, 5)] }
    got (exec (.memoryAccess 4) (flying s (fl (.store (ga 1) [6]) 32))) (fun t => t.memBytes 1 (2 ^ 44) 3 == [5, 6, 0]) = true := by decide +kernel

theorem witness_BankRequestsApply_store : let f := fl (.wstore 2 8 [1, 2]) 0
    let s := flying (wins base 2 winA) f
    (s.mem.wf ∧ s.banks.wf ∧ s.host.mem.wf) ∧ s.flight? 4 = some f ∧ s.arrived f = true ∧ s.inOrder (s.placeOf f) (s.rankAt f) = true ∧ (s.group? 1).map (·.status) = some .running ∧
    ((s.coreAt 0).win 2).state = .attached ∧ ((s.coreAt 0).win 2).w = true ∧ (∀ i < 2, s.badBankUnit (s.liveBank 0 2 + 8 + i) = false) ∧
    got (exec (.bankAccess 4) s) (fun t => t.banks == [(0x10008, 1), (0x10009, 2)]) = true := by decide +kernel
theorem witness_BankRequestsApply_stops : let f := fl (.wstore 2 8 [1, 2]) 0
    let s := flying (wins base 2 { winA with w := false }) f
    let u := flying base f
    s.arrived f = true ∧ ((s.coreAt 0).win 2).state = .attached ∧ ((s.coreAt 0).win 2).w = false ∧ ((u.coreAt 0).win 2).state = .detached ∧ u.arrived f = true ∧
    got (exec (.bankAccess 4) s) (fun t => t.recs.map (fun r => (r.cause, r.b)) == [(0x11#8, 0x20008#64)]) = true ∧
    got (exec (.bankAccess 4) u) (fun t => t.recs.map (·.cause) == [0x10#8]) = true ∧
    got (exec (.bankAccess 4) (flying (wins base 2 { winA with state := .opened }) f)) (fun t => t.flights.all (!·.applied)) = true := by decide +kernel
theorem witness_BankRequestsApply_bzero : let f := fl (.bzero 2 0) 0
    let s := { flying (wins base 2 winA) f with banks := [(0xFFFF, 1), (0x10000, 2), (0x1FFFF, 3), (0x20000, 4)] }
    s.flight? 4 = some f ∧ s.arrived f = true ∧ s.inOrder (s.placeOf f) (s.rankAt f) = true ∧ (s.group? 1).map (·.status) = some .running ∧
    got (exec (.bankAccess 4) s) (fun t => t.banks == [(0xFFFF, 1), (0x20000, 4)]) = true := by decide +kernel
/-- Exchange writes go to the shadow bank of an exchange window (R201). -/
theorem witness_BankRequestsApply_exchange : let f := fl (.xstore 0x8FFC001000000008 [9]) 0
    let s := flying (wins base 2 { winA with mode := .exchange, shadow := some (bank 3) }) f
    s.flight? 4 = some f ∧ s.arrived f = true ∧ xWin 0x8FFC001000000008 = some 2 ∧ xCore 0x8FFC001000000008 = 0 ∧ s.swapFirst 0 2 4 = false ∧
    (match s.xDest 3 2 0 2 none with | .ok b => b == bank 3 | .error _ => false) = true ∧ s.badBankUnit (bankAddr 0 (bank 3) 8) = false ∧
    got (exec (.bankAccess 4) s) (fun t => t.banks == [(0x30008, 9)]) = true := by decide +kernel

theorem witness_AtomicsWithAResult : let s := { regs [(1, ga 0x1000), (2, 9), (3, 0x1122334455667788)] with mem := mem1 }
    s.core.holds G = true ∧ s.isGlobal (ga 0x1000) = true ∧ s.limited (ga 0x1000) = false ∧ maps s (ga 0x1000) true 0x1000 = true ∧ 0x1000 % 128 + 8 ≤ 128 ∧ (ga 0x1000).toNat % 64 = 0 ∧
    s.ownPending (ga 0x1000) 8 = false ∧ s.quiet = true ∧
    got (exec (.amof G 2 1 .swap .acqrel .pod) s) (fun t => t.core.rd 2 == 0x1122334455667788#64 && t.memBytes 1 0x1000 8 == wordBytes 9) = true ∧
    got (exec (.cas G 3 1 2 .rlx .pod) s) (fun t => t.core.rd 3 == 0x1122334455667788#64 && t.memBytes 1 0x1000 8 == wordBytes 9) = true ∧
    got (exec (.cas G 2 1 3 .rlx .pod) s) (fun t => t.core.rd 2 == 0x1122334455667788#64 && t.mem == mem1) = true := by decide +kernel
/-- An object held by core 0x50000 (package 5, core 0) with generation 0xFFFF, and a free one. -/
theorem witness_AtomicsWithAResult_objects : let s := { regs [(1, ga 0x1000), (2, ga 0x1040)] with mem := Memory.writeN (Memory.writeN [] 0x1000 (wordBytes 0xFFFF000500000001)) 0x1040 (wordBytes 0x2) }
    (s.locator s.cur).toNat = 0x50000 ∧ s.core.holds G = true ∧ maps s (ga 0x1000) true 0x1000 = true ∧ maps s (ga 0x1040) true 0x1040 = true ∧ s.quiet = true ∧
    (0xFFFF000500000001#64).getLsbD 0 = true ∧ ((0xFFFF000500000001#64).extractLsb' 16 26).toNat = 0x50000 ∧
    got (exec (.acq G 3 1 .die) s) (fun t => t.core.rd 3 == 1 && t.mem == s.mem) = true ∧
    got (exec (.acq G 3 2 .die) s) (fun t => t.core.rd 3 == 0 && t.memBytes 1 0x1040 8 == wordBytes 0x500000003) = true ∧
    got (exec (.rel G 3 1 .die) s) (fun t => t.core.rd 3 == 0 && t.memBytes 1 0x1000 8 == wordBytes 0) = true ∧
    got (exec (.rel G 3 2 .die) s) (fun t => t.core.rd 3 == 1 && t.mem == s.mem) = true := by decide +kernel

theorem witness_ScalarStoresWriteNothingAtIssue : (Instr.stg G 2 1 0).guard? = some G ∧ (Instr.stg G 2 1 0).writesBytes = false ∧ got (exec (.stg G 2 1 0) (regs [(1, ga 0x1000)])) (fun t => t.mem == []) = true := by
  decide +kernel
theorem witness_ScalarRegisterFrame : (Instr.cas G 3 1 2 .rlx .pod).guard? = some G ∧ (Instr.cas G 3 1 2 .rlx .pod).isMts = false ∧ (Instr.cas G 3 1 2 .rlx .pod).writesWindows = false ∧
    (4 : Reg) ∉ (Instr.cas G 3 1 2 .rlx .pod).dests ∧ got (exec (.cas G 3 1 2 .rlx .pod) (regs [(1, ga 0x1000), (4, 6)])) (fun t => t.core.rd 4 == 6) = true := by decide +kernel

/-! ### Bindings, futures, fences, barriers, counters -/

/-- A context with so many bindings on die 0. -/
def bound (s : State) (n : Nat) : State := { s with contexts := [(2, { ctx2 with binds := [(0, List.replicate n (ga 0, ga 7, 1))] })] }
theorem witness_BindingsAndFutures_bind : let s := regs [(1, ga 0x1000), (2, ga 0x5000), (3, 2 ^ 40), (4, 0)]
    s.core.holds G = true ∧ (s.core.rd 1).toNat % 64 = 0 ∧ s.isGlobal (s.core.rd 1) = true ∧
    ¬ (s.core.rd 3 = 0 ∨ (s.core.rd 3).toNat > 2 ^ 40 ∨ (s.core.rd 2).toNat + (s.core.rd 3).toNat > 2 ^ 64) ∧ s.core.rd 4 = 0 ∧
    got (exec (.bind G 3 1 2) (bound s 255)) (fun t => t.core.rd 3 == 0 && ((t.context? 2).map fun c => (findD c.binds 0 []).length) == some 256) = true ∧
    got (exec (.bind G 3 1 2) (bound s 256)) (fun t => t.core.rd 3 == 1) = true ∧ got (exec (.bind G 4 1 2) (bound s 0)) (fun t => t.core.rd 4 == 2) = true ∧
    got (exec (.bind G 4 1 2) (bound s 256)) (fun t => t.free == s.free + 1) = true := by decide +kernel
theorem witness_BindingsAndFutures_unbind : let s := bound (regs [(1, ga 0), (2, ga 7), (3, ga 8)]) 2
    (∃ e, (findD ctx2.binds 0 [(ga 0, ga 7, (1 : Word))])[0]? = some e ∧ e.1 = ga 0 ∧ e.2.1 = ga 7) ∧ got (exec (.unbind G 4 1 2) s) (fun t => t.core.rd 4 == 0 && ((t.context? 2).map fun c => (findD c.binds 0 []).length) == some 1) = true ∧
    got (exec (.unbind G 4 1 3) s) (fun t => t.core.rd 4 == 1 && t.contexts == s.contexts) = true := ⟨⟨_, rfl, rfl, rfl⟩, by decide +kernel, by decide +kernel⟩
theorem witness_BindingsAndFutures_wait : let s := regs [(1, ga 0x1000)]
    let full := { s with mem := Memory.writeN [] 0x1000 (wordBytes 0x8000000000000005) }
    let table := { s with waits := (List.range 256).map fun i => (i, 0, 1) }
    s.core.holds G = true ∧ (3 : Reg) ≠ 4 ∧ s.ownPending (ga 0x1000) 8 = false ∧ s.limited (ga 0x1000) = false ∧ maps s (ga 0x1000) false 0x1000 = true ∧ maps full (ga 0x1000) false 0x1000 = true ∧
    (0x8000000000000005#64).getLsbD 63 = true ∧ table.waits.length = 256 ∧ table.canSave grp = false ∧
    got (exec (.wait G 3 1 4) full) (fun t => t.core.rd 3 == 5 && t.core.rd 4 == 1) = true ∧
    got (exec (.wait G 3 1 4) s) (fun t => t.core.wait == .parked 3 4 (ga 0x1000) && t.waits == [(0x1000, ga 0x1000, 0)]) = true ∧
    got (exec (.wait G 3 1 4) table) (fun t => t.core.rd 4 == 2 && t.core.wait == .none) = true := by decide +kernel
theorem witness_BindingsAndFutures_wake : let s := base.setCore { core0 with wait := .woken 3 4 5 }
    (s.coreAt 0).wait = .woken 3 4 5 ∧ (s.groupOf 0).bind (·.preempt) = none ∧ got (exec (.waiterWake 0) s) (fun t => t.core.rd 3 == 5 && t.core.wait == .none) = true := by decide +kernel
theorem witness_FutureFillWakesWaiters : let f := fl (.signal (ga 0x1000) 5) 32
    let s := { flying (base.setCore { core0 with wait := .parked 3 4 (ga 0x1000) }) f with waits := [(0x1000, ga 0x1000, 0), (0x2000, ga 0x2000, 1)] }
    (s.mem.wf ∧ s.banks.wf ∧ s.host.mem.wf) ∧ s.flight? 4 = some f ∧ s.arrived f = true ∧ s.inOrder (s.placeOf f) (s.rankAt f) = true ∧ maps s (ga 0x1000) true 0x1000 = true ∧
    got (exec (.signalApply 4) s) (fun t => t.memBytes 1 0x1000 8 == wordBytes 0x8000000000000005 && t.core.wait == .woken 3 4 5 && t.waits == [(0x2000, ga 0x2000, 1)]) = true := by decide +kernel
theorem witness_FutureFillWakesWaiters_ack : let f := { fl (.signal (ga 0x1000) 5) 32 with applied := true }
    (flying base f).flight? 4 = some f ∧ got (exec (.postedRequestAcknowledged 4) (flying base f)) (fun t => t.flights == [] && t.pulses == [⟨0, 31⟩]) = true := by decide +kernel

theorem witness_FencesAndBarrierWaits : let s := regs [(1, ga 0x1000), (2, 1)]
    let u := flying s (fl (.dec (ga 0)) 32)
    s.core.holds G = true ∧ s.quiet = true ∧ u.quiet = false ∧ s.isGlobal (s.core.rd 1) = true ∧ s.core.group = some 1 ∧ s.group? 1 = some grp ∧
    got (exec (.fence G .sc .pod) s) (fun t => t.core.pc == 0x24) = true ∧ got (exec (.fence G .sc .pod) u) (fun t => t.core.pc == 0x20 && t.core.wait != .none) = true ∧
    got (exec (.tlbiPage G 1) s) (fun t => t.tlb == []) = true ∧ got (exec (.tlbiCtx G) s) (fun t => t.tlb == []) = true ∧
    got (exec (.barw G 2 .core) s) (fun t => t.core.wait == .barrier 1 .core true) = true := by decide +kernel
theorem witness_FencesAndBarrierWaits_resume : let s := base.setCore { core0 with wait := .barrier 1 .quad true }
    (s.coreAt 0).wait = .barrier 1 .quad true ∧ (s.coreAt 0).swaps = [] ∧ (s.groupOf 0).bind (·.preempt) = none ∧ got (exec (.barwResume 0) s) (fun t => t.core.pc == 0x24) = true ∧
    got (exec (.barwResume 0) (base.setCore { core0 with wait := .barrier 0 .quad true, swaps := [(0, [])] })) (fun t => t.core.pc == 0x20) = true := by decide +kernel

/-- Two cores in one group; the first arrival waits, the second completes the phase. -/
def pair : State := { base with groups := [(1, { grp with k := 1 })], cores := [(0, { core0 with wait := .barrier 1 .quad false }), (1, { core0 with rank := 1 })] }
theorem witness_BarrierArrivals : let f := fl (.bar 1 .quad) 0
    let s := flying pair f
    s.flight? 4 = some f ∧ s.arrived f = true ∧ s.inOrder (s.placeOf f) (s.rankAt f) = true ∧ (s.group? 1).isSome = true ∧
    got (exec (.barrierArrival 4) s) (fun t => ((t.group? 1).map fun y => (y.phase 1 .quad 0).count) == some 1 && t.core.wait == .barrier 1 .quad false) = true := by decide +kernel
theorem witness_BarrierArrivals_last : let f := { fl (.bar 1 .quad) 0 with core := 1 }
    let x : Group := { grp with k := 1, phases := [(phaseKey 1 .quad 0, { count := 1, expected := 2, arrived := [(0, 3)], busy := true })] }
    let s := flying { pair with groups := [(1, x)] } f
    s.arrived f = true ∧ (1 : Nat) ∉ (x.phase 1 .quad 1).arrived.map (·.1) ∧ (x.phase 1 .quad 1).busy = true ∧
    got (exec (.barrierArrival 4) s) (fun t => t.core.wait == .barrier 1 .quad true && ((t.group? 1).map fun y => y.phase 1 .quad 0) == some {}) = true := by decide +kernel
theorem witness_BarrierArrivals_twice : let f := fl (.bar 1 .quad) 0
    let x : Group := { grp with k := 1, phases := [(phaseKey 1 .quad 0, { count := 1, expected := 2, arrived := [(0, 3)], busy := true })] }
    (0 : Nat) ∈ (x.phase 1 .quad 0).arrived.map (·.1) ∧ got (exec (.barrierArrival 4) (flying { pair with groups := [(1, x)] } f)) (fun t => t.recs.map (·.cause) == [0x38#8]) = true := by decide +kernel

/-- A counter at 0x1000: count, armed, held block. -/
def counterAt (n armed blk : Nat) : Memory := Memory.writeN [] 0x1000 (leBytes 4 n ++ leBytes 4 armed ++ leBytes 8 blk)
theorem witness_CounterDecrements : let f := fl (.dec (ga 0x1000)) 32
    let s (m : Memory) : State := { flying base f with mem := m }
    (s []).flight? 4 = some f ∧ (s []).arrived f = true ∧ (s []).inOrder ((s []).placeOf f) ((s []).rankAt f) = true ∧ done ((s (counterAt 2 1 0)).load 2 (ga 0x1000) 16 (some 15)) (fun c _ => leNat (c.take 4) == 2) = true ∧
    got (exec (.counterDecrement 4) (s (counterAt 2 1 0))) (fun t => t.mem == counterAt 1 1 0) = true ∧
    got (exec (.counterDecrement 4) (s (counterAt 1 0 0))) (fun t => t.mem == counterAt 0 0 0) = true ∧
    got (exec (.counterDecrement 4) (s [])) (fun t => t.recs.map (fun r => (r.cause, r.a)) == [(0x30#8, ga 0x1000)]) = true := by decide +kernel

/-- A graph object's header at 0x4000 with 64 words of code and no windows (R55), and at 0x5000 and 0x5040 a launch block for it on one core of its
submitter's die, in its submitter's context, with no counter (R92). -/
def blk : List Byte := wordBytes (ga 0x4000) ++ leBytes 4 0 ++ leBytes 2 0 ++ leBytes 2 0xF000 ++ leBytes 8 0 ++ wordBytes 11 ++ leBytes 24 0 ++ leBytes 2 0xFFFF ++ leBytes 6 0
def launchMem (m : Memory) : Memory := Memory.writeN (Memory.writeN (Memory.writeN m 0x4054 (leBytes 4 64)) 0x5000 blk) 0x5040 blk

theorem witness_CounterDecrements_release : let f := fl (.dec (ga 0x1000)) 32
    let s : State := { flying base f with mem := launchMem (counterAt 1 1 (ga 0x5000).toNat) }
    let w : Submitter := { ctx := 2, die := 0, kind := .memport, loc := portLoc 0, src := portSrc 0, a := ga 0x5000 }
    (match s.readBlock w (ga 0x5000) with | .pass b _ => b == blk | _ => false) = true ∧
    got (exec (.counterDecrement 4) s) (fun t => Memory.readN t.mem 0x1000 8 == leBytes 8 0 && t.recs == []
      && (findD (findD t.units 0 {}).ready (readyKey 0 3) []).map (fun r => (r.addr, r.ctx)) == [(ga 0x5000, 2)]) = true := by decide +kernel

/-! ### Windows, tags, deques, issue, system registers, launches -/

/-- Two cores of one running group of context 2. -/
def two : State := { base with groups := [(1, { grp with k := 1 })], cores := [(0, core0), (1, { core0 with rank := 1 })] }

theorem witness_WindowStatesAndGives_open : let s := base
    let u := wins base 2 winA
    s.core.holds G = true ∧ (s.core.win 2).state = .detached ∧ (u.core.win 2).state ≠ .detached ∧
    got (exec (.openw G 3 true true 2) s) (fun t => t.core.rd 3 == 0 && t.core.win 2 == { state := .opened, mode := .tagged, w := true }) = true ∧
    got (exec (.openw G 3 true true 2) u) (fun t => t.core.rd 3 == 1) = true := by decide +kernel
theorem witness_WindowStatesAndGives_close : let s := { wins base 2 winA with banks := [(0xFFFF, 1), (0x10000, 2)] }
    let o := wins base 2 { state := .opened }
    let d := wins base 2 { winA with state := .draining }
    s.core.holds G = true ∧ (s.mem.wf ∧ s.banks.wf ∧ s.host.mem.wf) ∧ (s.core.win 2).state = .attached ∧ s.draining s.cur 2 s.nextId = false ∧ (o.core.win 2).resv = false ∧ (d.core.win 2).state = .draining ∧
    got (exec (.close G 3 2) base) (fun t => t.core.rd 3 == 1) = true ∧ got (exec (.close G 3 2) o) (fun t => t.core.win 2 == {} && t.core.pc == 0x24) = true ∧
    got (exec (.close G 3 2) d) (fun t => t.core.wait != .none) = true ∧ got (exec (.close G 3 2) s) (fun t => t.core.win 2 == {} && t.banks == [(0xFFFF, 1)]) = true := by decide +kernel
theorem witness_WindowStatesAndGives_swap : let x : Win := { winA with bank := some (bank 2) }
    let s := (wins (wins (regs [(1, 5), (2, 7)]) 4 winA) 5 x)
    let u := wins (regs [(1, 4)]) 4 { winA with mode := .exchange, shadow := some (bank 6) }
    s.core.holds G = true ∧ (4 : BitVec 4) ≠ (s.core.rd 1).setWidth 4 ∧ (s.core.win 4).state = .attached ∧ (s.core.win 5).state = .attached ∧ (s.core.win 4).mode = (s.core.win 5).mode ∧
    (u.core.win 4).mode = .exchange ∧ (4 : BitVec 4) = (u.core.rd 1).setWidth 4 ∧ (s.core.win 7).state = .detached ∧
    got (exec (.swapb G 3 1 4) s) (fun t => (t.core.win 4).bank == some (bank 2) && (t.core.win 5).bank == some (bank 1) && t.core.rd 3 == 0) = true ∧
    got (exec (.swapb G 3 2 4) s) (fun t => t.core.rd 3 == 1) = true ∧ got (exec (.swapb G 3 1 5) s) (fun t => t.core.rd 3 == 2) = true ∧
    got (exec (.swapb G 3 1 4) u) (fun t => (t.core.win 4).bank == some (bank 6) && (t.core.win 4).shadow == some (bank 1)) = true := by decide +kernel
/-- BSTAT: plain attached writable window on bank 1 of quad 0, one access under way (R166, R221). -/
theorem witness_WindowStatesAndGives_bstat : let s := flying (wins base 2 winA) (fl (.wstore 2 0 [1]) 0)
    s.core.holds G = true ∧ s.pending s.cur 2 = 1 ∧ got (exec (.bstat G 3 2) s) (fun t => t.core.rd 3 == 0x18C01#64) = true := by decide +kernel
theorem witness_WindowStatesAndGives_give : let s := wins two 2 winA
    let ok := (s.setCoreAt 1 ((s.coreAt 1).setWin 3 { state := .opened })).setCore (withRegs s.core [(1, 0x50001), (2, 3)])
    let give (s : State) (l : List (Reg × Word)) (v : Word) : Bool := got (exec (.give G 4 1 2 2) (s.setCore (withRegs s.core l))) fun t => t.core.rd 4 == v
    ok.core.holds G = true ∧ ok.named 0x50001 = some 1 ∧ ok.named 0x60001 = none ∧ (ok.groupOf 1).isSome = true ∧ ((ok.coreAt 1).win 3).state = .opened ∧
    give ok [(1, 0x60001)] 2 = true ∧ give ok [(1, 0x50081)] 2 = true ∧ give two [(1, 0x50001)] 3 = true ∧ give (wins two 2 { winA with mode := .exchange }) [(1, 0x50001)] 4 = true ∧
    give ok [(1, 0x50002)] 5 = true ∧ give { ok with groups := ok.groups ++ [(2, { grp with first := 2, status := .preempted })] } [(1, 0x50002)] 6 = true ∧ give ok [(2, 4)] 1 = true ∧
    got (exec (.give G 4 1 2 2) ok) (fun t => (t.core.win 2).state == .draining && ((t.coreAt 1).win 3).resv && t.core.wait != .none) = true := by decide +kernel
theorem witness_WindowStatesAndGives_drained : let c := { (core0.setWin 2 { winA with state := .draining }) with wait := .access (.give 4 2 1 3 9) false 0 }
    let s := (two.setCoreAt 1 ((two.coreAt 1).setWin 3 { state := .opened, resv := true })).setCore c
    (s.coreAt 0).wait = .access (.give 4 2 1 3 9) false 0 ∧ s.draining 0 2 9 = false ∧
    got (exec (.giveDrainDone 0) s) (fun t => (t.coreAt 0).win 2 == {} && ((t.coreAt 1).win 3).bank == some (bank 1) && ((t.coreAt 1).win 3).state == .attached) = true ∧
    (flying s (fl (.wstore 2 0 [1]) 0)).draining 0 2 9 = true := by decide +kernel

theorem witness_TagInstructionResults : let x : Win := { winA with mode := .tagged, tags := [(3, 9), (63, 9)] }
    let s := wins (regs [(1, 0x2405), (2, 0xFFFF), (3, 0x800)]) 2 x
    s.core.holds G = true ∧ (s.core.win 2).state = .attached ∧ (s.core.win 2).mode = .tagged ∧ x.tags.wf = true ∧ (3, 9) ∈ x.tags ∧ (9 : BitVec 54).toNat = (s.core.rd 1).toNat / 2 ^ 10 ∧
    got (exec (.tlook G 4 1 2) s) (fun t => t.core.rd 4 == 0x20C05) = true ∧ got (exec (.tlook G 4 2 2) s) (fun t => t.core.rd 4 == -1) = true ∧
    got (exec (.tset G 2 3 2) s) (fun t => (t.core.win 2).tags == [(3, 9), (63, 2)]) = true ∧ got (exec (.tinv G 2 2) s) (fun t => (t.core.win 2).tags == [(3, 9)]) = true ∧
    got (exec (.tclr G 2) s) (fun t => (t.core.win 2).tags == []) = true := by decide +kernel
theorem witness_TagInstructionResults_stops : (base.core.win 2).state = .detached ∧ got (exec (.tclr G 2) base) (fun t => t.core.cause == 0x10 && t.core.trapaddr == 0x20000) = true ∧
    ((wins base 2 winA).core.win 2).mode ≠ .tagged ∧ got (exec (.tclr G 2) (wins base 2 winA)) (fun t => t.core.cause == 1) = true ∧
    got (exec (.tclr G 2) (wins base 2 { winA with state := .draining })) (fun t => t.core.wait != .none) = true := by decide +kernel

/-- A deque of 2 entries at 0x20000 with t and b, and 7 and 8 in its entries. -/
def deq (t b : Nat) : State :=
  { ({ wins (regs [(1, 9), (2, 0x50000)]) 2 winA with cur := 0 } : State).setCore { (withRegs core0 [(1, 9), (2, 0x50000)]).setWin 2 winA with dqbase := 0x4000, dqlim := 0x4004 } with
    banks := Memory.writeN [] 0x10000 (leBytes 8 t ++ leBytes 8 b ++ leBytes 8 7 ++ leBytes 8 8) }
theorem witness_DequeResults : let s := deq 4 5
    (s.mem.wf ∧ s.banks.wf ∧ s.host.mem.wf) ∧ s.core.holds G = true ∧ s.badBank = [] ∧ s.core.deque = some (0x20000, 2) ∧ (s.core.win 2).w = true ∧ s.ownWinPending s.cur 2 = false ∧
    got (exec (.dpush G 3 1) s) (fun t => t.core.rd 3 == 0 && Memory.readN t.banks 0x10008 16 == leBytes 8 6 ++ leBytes 8 7 && Memory.readN t.banks 0x10018 8 == leBytes 8 9) = true ∧
    got (exec (.dpush G 3 1) (deq 4 6)) (fun t => t.core.rd 3 == 1 && t.banks == (deq 4 6).banks) = true ∧
    got (exec (.dpop G 3 4) s) (fun t => t.core.rd 3 == 7 && t.core.rd 4 == 0 && Memory.readN t.banks 0x10008 8 == leBytes 8 4) = true ∧
    got (exec (.dpop G 3 4) (deq 4 4)) (fun t => t.core.rd 4 == 1) = true := by decide +kernel
theorem witness_DequeResults_steal : let s := deq 4 5
    s.named (s.core.rd 2) = some 0 ∧ dieOf 0 = dieOf s.cur ∧ s.groupOf 0 = some grp ∧ grp.ctx = s.ctxOf s.cur ∧ (s.coreAt 0).deque = some (0x20000, 2) ∧ s.named 9 = none ∧
    got (exec (.dsteal G 3 2 4) s) (fun t => t.core.rd 3 == 7 && t.core.rd 4 == 0 && Memory.readN t.banks 0x10000 8 == leBytes 8 5) = true ∧
    got (exec (.dsteal G 3 2 4) (deq 4 4)) (fun t => t.core.rd 4 == 1) = true ∧ got (exec (.dsteal G 3 1 4) s) (fun t => t.core.rd 4 == 2) = true := by decide +kernel
theorem witness_DequeResults_invalid : base.core.deque = none ∧ got (exec (.dpop G 3 4) base) (fun t => t.core.cause == 1) = true ∧ got (exec (.dsteal G 3 2 3) (deq 4 5)) (fun t => t.core.cause == 1) = true := by
  decide +kernel

/-- A graph with one command, ARM at port 2, in entry 0. -/
def withCmds (s : State) (l : List CmdWord) : State := { s with contexts := [(2, { ctx2 with graphs := [(0x10000, { obj := { obj0 with cmds := l }, lver := 1, area := some 0 })] })] }
def fullPort (s : State) : State := s.setCore (s.core.setPort 2 { queue := List.replicate 8 { word := 0 } })
def oneIssued : State :=
  let c : CoreSt := (withRegs core0 [(1, 4)]).setPort 2 { queue := [{ word := armWord, id := 0 }] }
  base.setCore { c with issued := 1 }
theorem witness_CommandIssue : let s := withCmds (regs [(1, 0x100), (2, 5)]) [armWord]
    let p := s.core.port 2
    let full := fullPort s
    s.core.holds G = true ∧ (s.cmdsOf s.cur)[0]? = some armWord ∧ armWord.extractLsb' 116 4 = 2#4 ∧ p.queue.length < 8 ∧ 8 ≤ (full.core.port 2).queue.length ∧ (s.cmdsOf s.cur)[1]? = none ∧
    got (exec (.issue G 0 1 2 true) s) (fun t => (t.core.port 2).queue.map (fun q => (q.index, q.addrOv, q.cntOv)) == [(0, 0x100#64, 5#64)] && t.core.wait == .access (.command 2 0) false 0) = true ∧
    got (exec (.issue G 0 1 2 true) full) (fun t => t == full) = true ∧ got (exec (.issuex G 0 2 1 false) s) (fun t => (t.core.port 0).queue.map (·.index) == [5]) = true := by decide +kernel
theorem witness_CommandIssue_drain : let s := oneIssued
    (∃ p : BitVec 4, ((s.core.rd 1).toNat % 2 ^ 16 = 0 ∨ (s.core.rd 1).getLsbD p.toNat = true) ∧ ∃ q ∈ (s.core.port p).left ++ (s.core.port p).queue, q.id < s.core.issued) ∧
    got (exec (.cdrain G 1) s) (fun t => t.core.wait != .none) = true ∧ got (exec (.cdrain G 1) (regs [(1, 8)])) (fun t => t.core.pc == 0x24) = true :=
  ⟨⟨2, by decide +kernel⟩, by decide +kernel, by decide +kernel⟩

theorem witness_SystemRegisterAccess : let s := base.setCore { withRegs core0 [(1, 0xFFFFFFFFFFFFFFFF)] with trapaddr := 6, epc := 7 }
    let reads (n : BitVec 16) (v : Word) : Bool := got (exec (.mfs G 3 n) s) fun t => t.core.rd 3 == v
    s.core.holds G = true ∧ reads 0 2 = true ∧ reads 1 3 = true ∧ reads 2 0x50000 = true ∧ reads 7 (ga 0x2000) = true ∧ reads 0x30 0x8000000000000100 = true ∧ reads 0x32 6 = true ∧ reads 0x33 7 = true ∧
    0x34 ≤ (0x34 : BitVec 16).toNat ∧ got (exec (.mfs G 3 0x34) s) (fun t => t.core.cause == 1 && t.core.trapaddr == 0xF0300347) = true ∧
    got (exec (.mfs G 3 0x0A) s) (fun t => t.core.cause == 1) = true := by decide +kernel
theorem witness_SystemRegisterAccess_write : let s := regs [(1, 0xFFFFFFFFFFFFFFFF)]
    s.core.holds G = true ∧ s.context? (s.ctxOf s.cur) = some ctx2 ∧ (0x05 : BitVec 16).toNat ≠ 0x06 ∧ ¬ (0x20 ≤ (0x05 : BitVec 16).toNat ∧ (0x05 : BitVec 16).toNat ≤ 0x29) ∧
    got (exec (.mts G 1 0x28) s) (fun t => t.core.dqbase == 0x1FFFF) = true ∧ got (exec (.mts G 1 0x31) s) (fun t => t.core.code == 0xFFFF && t.core.cause == 0xFF) = true ∧
    got (exec (.mts G 1 6) s) (fun t => ((t.context? 2).map (·.spd)) == some 0x3FFFFFFF) = true ∧ got (exec (.mts G 1 5) s) (fun t => t.core.cause == 1) = true := by decide +kernel

theorem witness_LayoutAndRateReads : let x : Group := { grp with rates := [⟨1, 2, 3⟩], wins := 2 ^ 32 }
    let s := { regs [(1, 0)] with groups := [(1, x)] }
    s.core.holds G = true ∧ s.groupOf s.cur = some x ∧ s.context? 2 = some ctx2 ∧ (s.graphSt 2 0x10000).isSome = true ∧ ((s.graphSt 2 0x10000).bind (·.area)) = some 0 ∧ x.winLen < 2 ^ 32 ∧
    got (exec (.glvCur G 3) s) (fun t => t.core.rd 3 == ga 0x108000) = true ∧ got (exec (.rate G 3 1) s) (fun t => t.core.rd 3 == BitVec.ofNat 64 (1 + 2 * 2 ^ 17 + 3 * 2 ^ 34)) = true ∧
    got (exec (.rateWin G 3) s) (fun t => t.core.rd 3 == 0xFFFFFFFF00001000) = true := by decide +kernel

theorem witness_ExitAndLaunch : let s := { regs [(1, ga 0x5000), (2, ga 0x6000)] with
      mem := Memory.writeN (launchMem []) 0x6000 (blk.take 12 ++ leBytes 2 8 ++ blk.drop 14)
      groups := [(1, { grp with admits := true })] }
    let u := flying s (fl (.dec (ga 0)) 32)
    s.core.holds G = true ∧ s.quiet = true ∧ u.quiet = false ∧ ((s.groupOf s.cur).map (·.admits)) = some true ∧ ((base.groupOf 0).map (·.admits)) = some false ∧
    (match s.submit (s.coreSubmitter s.cur) (ga 0x5000) with | .pass b _ => b == blk | _ => false) = true ∧ (match s.submit (s.coreSubmitter s.cur) (ga 0x6000) with | .refused _ => true | _ => false) = true ∧
    got (exec (.launch G 3 1) s) (fun t => t.core.rd 3 == 0 && (findD (findD t.units 0 {}).ready (readyKey 0 3) []).length == 1) = true ∧
    got (exec (.launch G 3 2) s) (fun t => t.core.rd 3 == 1 && t.recs.map (·.cause) == [0x41]) = true ∧ got (exec (.launch G 3 1) base) (fun t => t.core.cause == 1) = true ∧
    got (exec (.exit G) s) (fun t => t.core.status == .exited) = true ∧ got (exec (.exit G) u) (fun t => t.core.wait != .none) = true ∧
    (match s.submitPosted (s.coreSubmitter s.cur) (ga 0x5000) with | .pass _ t => (match t.submitPosted (t.coreSubmitter t.cur) (ga 0x5040) with | .pass _ _ => true | _ => false) | _ => false) = true ∧
    got (exec (.exitSuccessors G 1 2) s) (fun t => t.core.status == .exited && (findD (findD t.units 0 {}).ready (readyKey 0 3) []).map (·.addr) == [ga 0x5000, ga 0x5040]) = true := by decide +kernel

/-! ### Stream commands -/

/-- A setting header (R33): kind, mode, class, interval 1, and the low 40 bits. -/
def sh (kind mode cls low : Nat) : BitVec 64 := BitVec.ofNat 64 (kind * 2 ^ 60 + mode * 2 ^ 52 + cls * 2 ^ 50 + 2 ^ 40 + low)

/-- Nodes: a barrier TAP, a MAT, a load AGN bound to port 2, a store AGN bound to port 3, a CNT that is its section's count point. -/
def headers : List (BitVec 64) := [sh 11 0 0 0, sh 0 0 0 0, sh 8 2 0 (2 * 2 ^ 31), sh 8 3 0 (3 * 2 ^ 31), sh 7 0 3 0]
/-- A map of two tiles of 32 words of 32 bits. -/
def mapW : TMap := { rank := 1, fmt := 0, pad := 0, dims := [64], tile := [32], strides := [4] }
def objC : GObj := {
  nodes := headers.map fun h => { hdr := h, words := [] }, secs := [{ members := [4], point := 4 }], maps := [mapW], cmds := [armWord], code := obj0.code }
def inst (n : Nat) (st : CellState) : Inst := { node := n, cell := n, hdr := headers.getD n 0, st := st }
def tok (d : Nat) (t : Tag) : Token := mkTok d t
def lk (src sp dst dp : Nat) (l : List Token) : Link := { src := src, sp := sp, dst := dst, dp := dp, slots := 8, toks := l.map fun t => { tok := t, ready := 0 } }
def whole : Tag := { first := true, last := true, sot := true, eot := true }
def grpC : Group := {
  grp with
  insts := [inst 0 (.tap), inst 1 (.mat {}), inst 2 (.agn {}), inst 3 (.agn {}), inst 4 (.cnt {})]
  links := [lk 1 0 3 0 [tok 0x55 whole], lk 0 0 3 1 [tok 0x66 whole]]
  secs := [{ count := 7 }] }
def baseC : State := { base with groups := [(1, grpC)], contexts := [(2, { ctx2 with graphs := [(0x10000, { obj := objC, lver := 1, area := some 0 })] })] }

/-- A command at the head of its port, as far as it has got. -/
def putHead (s : State) (f : StreamCmd → Instr) (c : StreamCmd) (g : Prog) : State :=
  s.setCore (s.core.setPort c.port { queue := [{ word := (encodeCmd (f c)).getD 0, id := 4, prog := g }] })
def st (f : StreamCmd → Instr) (c : StreamCmd) : State := putHead baseC f c {}
/-- The command at the head of its port, with its address and count. -/
def dd (s : State) (c : StreamCmd) (addr : Word) (count : Nat) : Cmd := {
  n := 0, p := c.port, q := ((s.portAt 0 c.port).queue.head?).getD { word := 0 }, c := c, addr := addr, count := count, g := 1, x := (s.group? 1).getD grp
  o := s.objOf ((s.group? 1).getD grp) }
def cp (port : BitVec 4) (cls : BitVec 4) (flags : BitVec 8) (addr : BitVec 56) (count : BitVec 24) (index : BitVec 16) : StreamCmd :=
  { port := port, cls := cls, flags := flags, tag := 0, addr := addr, count := count, index := index }
def left (t : State) (p : BitVec 4) : Bool := (t.portAt 0 p).queue.isEmpty
def gr (t : State) : Group := (t.group? 1).getD grp

theorem witness_CommandHeads : let s := st .arm (cp 2 0 0 0 0x600000 0)
    let q := ((s.portAt s.cur 2).queue.head?).getD { word := 0 }
    encodeCmd (.arm (cp 2 0 0 0 0x600000 0)) = some q.word ∧ s.core.group = some 1 ∧ s.group? 1 = some grpC ∧ q.word.extractLsb' 116 4 = 2#4 ∧ q.empty = false ∧ q.prog.started = false := by decide +kernel
theorem witness_CommandHeads_dead : let s := { st .arm (cp 2 0 0 0 1 0) with groups := [(1, { grpC with status := .preempted })] }
    s.cmdLive { grpC with status := .preempted } = false ∧ got (exec (.arm (cp 2 0 0 0 1 0)) s) (fun t => t == s) = true := by decide +kernel
theorem witness_CommandHeads_held : let s := { st .arm (cp 2 0 0 0 1 0) with groups := [(1, { grpC with preempt := some ⟨false, 0, false, 0⟩ })] }
    s.cmdStarts { grpC with preempt := some ⟨false, 0, false, 0⟩ } = false ∧ got (exec (.arm (cp 2 0 0 0 1 0)) s) (fun t => t == s) = true := by decide +kernel
theorem witness_CommandHeads_ill : let s := st .arm (cp 2 0 1 0 1 0)
    s.cmdLive grpC = true ∧ s.cmdStarts grpC = true ∧ (Instr.arm (cp 2 0 1 0 1 0)).wf = false ∧
    got (exec (.arm (cp 2 0 1 0 1 0)) s) (fun t => left t 2 && t.recs.map (fun r => (r.cause, r.b, r.c)) == [(0x40#8, 0x0D200100#64, 2#32)]) = true := by decide +kernel

theorem witness_SectionAndQueueCommands_nopc : (st .nopc (cp 2 0 0 0 0 0)).atHead (.nopc (cp 2 0 0 0 0 0)) (cp 2 0 0 0 0 0) .none false (dd (st .nopc (cp 2 0 0 0 0 0)) (cp 2 0 0 0 0 0) 0 0) ∧
    (st .nopc (cp 2 0 0 0 0 0)).cmdStarts grpC = true ∧ got (exec (.nopc (cp 2 0 0 0 0 0)) (st .nopc (cp 2 0 0 0 0 0))) (fun t => left t 2) = true := by unfold State.atHead; decide +kernel
def cArm : StreamCmd := cp 2 0 0 0 0xFFFFFF 0
theorem witness_SectionAndQueueCommands_arm : (st .arm cArm).atHead (.arm cArm) cArm .none true (dd (st .arm cArm) cArm 0 0xFFFFFF) ∧ (Instr.arm cArm).wf = true ∧ grpC.secs[0]? = some { count := 7 } ∧
    got (exec (.arm cArm) (st .arm cArm)) (fun t => left t 2 && (gr t).secs == [{ count := 0xFFFFFF }] && (gr t).insts.getLast?.map (·.st) == some (.cnt { budget := 0xFFFFFF })) = true := by
  unfold State.atHead; decide +kernel
def cDis : StreamCmd := cp 2 0 1 0 0 0
theorem witness_SectionAndQueueCommands_disarm : (st .disarm cDis).atHead (.disarm cDis) cDis .none false (dd (st .disarm cDis) cDis 0 0) ∧ (Instr.disarm cDis).wf = true ∧
    got (exec (.disarm cDis) (st .disarm cDis)) (fun t => left t 2 && (gr t).secs == [{}] && t.pulses == [⟨0, 0⟩]) = true := by unfold State.atHead; decide +kernel
def cTap : StreamCmd := cp 2 0 0xD 0 255 0
theorem witness_SectionAndQueueCommands_tapset : (st .tapset cTap).atHead (.tapset cTap) cTap .none true (dd (st .tapset cTap) cTap 0 255) ∧ (Instr.tapset cTap).wf = true ∧ barScope .die = true ∧
    cTap.flags.toNat / 4 % 8 = (scopeCode .die).toNat ∧ kindOf (objC.hdr 0) = 11 ∧ modeOf (objC.hdr 0) = 0 ∧
    got (exec (.tapset cTap) (st .tapset cTap)) (fun t => left t 2 && (gr t).tapset == [(tapKey 0 1 .die, 255)]) = true := by unfold State.atHead; decide +kernel
/-- A term: source 3, act 1 on counter 2 by 5. -/
def cEv : StreamCmd := cp 2 0 0 (BitVec.ofNat 56 (2 * 2 ^ 23 + 5 * 2 ^ 15 + 2 ^ 12 + 3)) 0 15
theorem witness_SectionAndQueueCommands_evcfg : (st .evcfg cEv).atHead (.evcfg cEv) cEv (.value 40) false (dd (st .evcfg cEv) cEv (cEv.addr.setWidth 64) 0) ∧ (Instr.evcfg cEv).wf = true ∧
    termWordOk (cEv.addr.setWidth 64).toNat 1 = true ∧ got (exec (.evcfg cEv) (st .evcfg cEv)) (fun t => left t 2 && (t.core.terms.toList.getLast?).map (·.word) == some (cEv.addr.setWidth 40)) = true := by
  unfold State.atHead; decide +kernel
def cPul : StreamCmd := cp 2 0 0 0 2 31
theorem witness_SectionAndQueueCommands_evpulse : (st .evpulse cPul).atHead (.evpulse cPul) cPul .none true (dd (st .evpulse cPul) cPul 0 2) ∧ (Instr.evpulse cPul).wf = true ∧
    got (exec (.evpulse cPul) (st .evpulse cPul)) (fun t => !left t 2 && t.pulses == [⟨0, 31⟩]) = true := by unfold State.atHead; decide +kernel
def cStep : StreamCmd := cp 2 0 0 7 0 0
theorem witness_SectionAndQueueCommands_step : (st .step cStep).atHead (.step cStep) cStep (.value 32) false (dd (st .step cStep) cStep 7 0) ∧ (Instr.step cStep).wf = true ∧
    ((st .step cStep).graphSt 2 0x10000).isSome = true ∧ got (exec (.step cStep) (st .step cStep)) (fun t => left t 2 && (t.graphSt 2 0x10000).map (·.stepno) == some 7) = true := by unfold State.atHead; decide +kernel
def cWalk : StreamCmd := cp 2 0 0 0 1 0
theorem witness_SectionAndQueueCommands_kgraph : (st .kgraph cWalk).atHead (.kgraph cWalk) cWalk .none true (dd (st .kgraph cWalk) cWalk 0 1) ∧ (Instr.kgraph cWalk).wf = true ∧
    (st .kgraph cWalk).core.walk = none ∧ got (exec (.kgraph cWalk) (st .kgraph cWalk)) (fun t => left t 2 && t.core.walk == some ⟨0, 1, false, none, 2, 4⟩) = true := by unfold State.atHead; decide +kernel
def cBar : StreamCmd := cp 2 0 0 0 1 0
theorem witness_SectionAndQueueCommands_barrier : (st .barrier cBar).atHead (.barrier cBar) cBar .none true (dd (st .barrier cBar) cBar 0 1) ∧ (Instr.barrier cBar).wf = true ∧
    got (exec (.barrier cBar) (st .barrier cBar)) (fun t => left t 2) = true := by unfold State.atHead; decide +kernel
def cMark : StreamCmd := cp 2 0 9 0 0 0
theorem witness_SectionAndQueueCommands_segmark : (st .segmark cMark).atHead (.segmark cMark) cMark .none false (dd (st .segmark cMark) cMark 0 0) ∧ (Instr.segmark cMark).wf = true ∧
    (dd (st .segmark cMark) cMark 0 0).bound 0 = true ∧ got (exec (.segmark cMark) (st .segmark cMark)) (fun t => left t 2 && (t.portAt 0 2).mark == 9) = true := by unfold State.atHead; decide +kernel
def cTok : StreamCmd := cp 2 0 0 0 0 0
theorem witness_SectionAndQueueCommands_btoken : (st .btoken cTok).atHead (.btoken cTok) cTok .none false (dd (st .btoken cTok) cTok 0 0) ∧ (Instr.btoken cTok).wf = true ∧
    (dd (st .btoken cTok) cTok 0 0).bound 2 = true ∧ (((st .btoken cTok).begun (dd (st .btoken cTok) cTok 0 0)).agnFor (dd (st .btoken cTok) cTok 0 0)).isSome = true ∧
    got (exec (.btoken cTok) (st .btoken cTok)) (fun t => left t 2 && (gr t).insts.flatMap (fun i => i.agn.bufs.map (·.tag.barrier)) == [true]) = true := by unfold State.atHead; decide +kernel
theorem witness_SectionAndQueueCommands_btoken_store : let c := cp 3 0 0 0 0 0
    (dd (st .btoken c) c 0 0).bound 0 = true ∧ (dd (st .btoken c) c 0 0).bound 2 = false ∧ got (exec (.btoken c) (st .btoken c)) (fun t => left t 3 && (gr t).insts == grpC.insts) = true := by decide +kernel
def cFlush : StreamCmd := cp 2 0 0 0 0 4
def sFlush : State := let s := st .pflush cFlush
  s.setCore (s.core.setPort 2 { queue := (s.core.port 2).queue ++ [{ word := armWord, id := 2 }, { word := armWord, id := 3, prog := { started := true } }, { word := armWord, id := 5 }] })
theorem witness_SectionAndQueueCommands_pflush : sFlush.atHead (.pflush cFlush) cFlush .none false (dd sFlush cFlush 0 0) ∧ (Instr.pflush cFlush).wf = true ∧
    got (exec (.pflush cFlush) sFlush) (fun t => (t.portAt 0 2).queue.map (·.id) == [3, 5]) = true := by unfold State.atHead; decide +kernel
theorem witness_SectionAndQueueCommands_walk : let s := baseC.setCore { core0 with walk := some ⟨0, 1, false, none, 3, 9⟩ }
    (s.coreAt 0).walk = some ⟨0, 1, false, none, 3, 9⟩ ∧ s.groupOf 0 = some grpC ∧ s.cmdLive grpC = true ∧ s.cmdStarts grpC = true ∧ (s.cmdsOf 0)[0]? = some armWord ∧ armWord.extractLsb' 120 8 ≠ 0x0F#8 ∧
    got (exec (.kgraphWalkEntry 0) s) (fun t => (t.portAt 0 2).queue.map (·.word) == [armWord] && (t.coreAt 0).walk.map (fun w => (w.next, w.left)) == some (1, 0)) = true := by decide +kernel
theorem witness_SectionAndQueueCommands_walked : let w : CmdWord := 0x0F#8 ++ 0#120
    let s := (withCmds base [w]).setCore { core0 with walk := some ⟨0, 1, false, none, 3, 9⟩ }
    (s.cmdsOf 0)[0]? = some w ∧ w.extractLsb' 120 8 = 0x0F#8 ∧ got (exec (.kgraphWalkEntry 0) s) (fun t => t.recs.map (·.cause) == [0x40] && (t.coreAt 0).walk.map (·.left) == some 0) = true := by decide +kernel

def cSwap : StreamCmd := cp 2 0 0 0 0 1
theorem witness_LayoutAndCacheCommands_lswap : (st .lswap cSwap).atHead (.lswap cSwap) cSwap .none false (dd (st .lswap cSwap) cSwap 0 0) ∧ (Instr.lswap cSwap).wf = true ∧ kindOf (objC.hdr 1) = 0 ∧
    (∀ i ∈ grpC.insts, i.node = 1 ∧ i.role = .node ∧ i.gone = false → i.swapWaits = false) ∧
    got (exec (.lswap cSwap) (st .lswap cSwap)) (fun t => left t 2 && (gr t).insts.map (·.swapWaits) == [false, true, false, false, false]) = true := by unfold State.atHead; decide +kernel
def rcE (blk : Nat) : RcEntry := { id := blk, ctx := 2, blk := blk, tile := 0, step := 1, input := [], output := [] }
def cRc : StreamCmd := cp 2 0 1 0 0 7
def sRc : State := { st .rcflush cRc with recalls := [(0, [{ ctx := 2, graph := 0x10000, slots := 4, entries := [rcE 6, rcE 7] }, { ctx := 2, graph := 0, slots := 4, entries := [rcE 8] }])] }
theorem witness_LayoutAndCacheCommands_rcflush : sRc.atHead (.rcflush cRc) cRc .none false (dd sRc cRc 0 0) ∧ (Instr.rcflush cRc).wf = true ∧ cRc.flags.getLsbD 1 = false ∧
    got (exec (.rcflush cRc) sRc) (fun t => left t 2 && t.recalls.map (fun p => p.2.map fun a => a.entries.map (·.blk)) == [[[6], [8]]]) = true := by unfold State.atHead; decide +kernel
def cWin : StreamCmd := cp 2 0 0 0 65536 0
theorem witness_LayoutAndCacheCommands_wagwin : (st .wagwin cWin).atHead (.wagwin cWin) cWin .none true (dd (st .wagwin cWin) cWin 0 65536) ∧ (Instr.wagwin cWin).wf = true ∧
    got (exec (.wagwin cWin) (st .wagwin cWin)) (fun t => left t 2 && (gr t).winNext == 65536 && (gr t).winLen == 4096) = true := by unfold State.atHead; decide +kernel
def cPin : StreamCmd := cp 2 0 1 0 0 4
theorem witness_LayoutAndCacheCommands_laypin : (st .laypin cPin).atHead (.laypin cPin) cPin .none false (dd (st .laypin cPin) cPin 0 0) ∧ (Instr.laypin cPin).wf = true ∧ 4 < objC.nodes.length ∧
    got (exec (.laypin cPin) (st .laypin cPin)) (fun t => left t 2 && (gr t).pins == [4]) = true := by unfold State.atHead; decide +kernel
def cReq (k : BitVec 8) : StreamCmd := cp 2 0 k 0 0 0
theorem witness_LayoutAndCacheCommands_layreq : (st .layreqBottleneck (cReq 0)).atHead (.layreqBottleneck (cReq 0)) (cReq 0) .none false (dd (st .layreqBottleneck (cReq 0)) (cReq 0) 0 0) ∧
    (st .layreqSuspend (cReq 1)).atHead (.layreqSuspend (cReq 1)) (cReq 1) .none false (dd (st .layreqSuspend (cReq 1)) (cReq 1) 0 0) ∧
    (st .layreqResume (cReq 2)).atHead (.layreqResume (cReq 2)) (cReq 2) .none false (dd (st .layreqResume (cReq 2)) (cReq 2) 0 0) ∧
    (Instr.layreqBottleneck (cReq 0)).wf = true ∧ (Instr.layreqSuspend (cReq 1)).wf = true ∧ (Instr.layreqResume (cReq 2)).wf = true ∧
    got (exec (.layreqBottleneck (cReq 0)) (st .layreqBottleneck (cReq 0))) (fun t => left t 2 && (gr t).bottle == [0]) = true ∧
    got (exec (.layreqSuspend (cReq 1)) (st .layreqSuspend (cReq 1))) (fun t => left t 2 && (gr t).suspend) = true := by unfold State.atHead; decide +kernel
def cOpen : StreamCmd := cp 2 0 1 0x1000 16 3
theorem witness_LayoutAndCacheCommands_redwin : (st .redwinOpen cOpen).atHead (.redwinOpen cOpen) cOpen .global true (dd (st .redwinOpen cOpen) cOpen (ga 0x1000) 16) ∧ (Instr.redwinOpen cOpen).wf = true ∧
    ((st .redwinOpen cOpen).tenant? 3).map (·.redwin) = some [] ∧ (ga 0x1000).toNat < 2 ^ 60 ∧ (ga 0x1000).toNat % 8 = 0 ∧
    got (exec (.redwinOpen cOpen) (st .redwinOpen cOpen)) (fun t => left t 2 && (t.tenant? 3).map (·.redwin) == some [(3, ⟨ga 0x1000, 16⟩)]) = true := by unfold State.atHead; decide +kernel
def cClose : StreamCmd := cp 2 0 0 0 0 3
def sClose : State := { st .redwinClose cClose with tenants := [(3, { cfg := tenCfg, key := 1, redwin := [(3, ⟨ga 0x1000, 16⟩)] })] }
theorem witness_LayoutAndCacheCommands_redwin_close : sClose.atHead (.redwinClose cClose) cClose .none false (dd sClose cClose 0 0) ∧ (Instr.redwinClose cClose).wf = true ∧ sClose.merges = [] ∧
    got (exec (.redwinClose cClose) sClose) (fun t => left t 2 && (t.tenant? 3).map (·.redwin) == some []) = true := by unfold State.atHead; decide +kernel
def cCfg : StreamCmd := cp 2 0 0 0 0 1
theorem witness_LayoutAndCacheCommands_cfgld : (st .cfgld cCfg).atHead (.cfgld cCfg) cCfg .none false (dd (st .cfgld cCfg) cCfg 0 0) ∧ (Instr.cfgld cCfg).wf = true ∧
    (∃ i ∈ grpC.insts, i.node = 1 ∧ i.role = .node ∧ i.gone = false) ∧ (∀ i ∈ grpC.insts, i.loaded = true) ∧
    got (exec (.cfgld cCfg) (st .cfgld cCfg)) (fun t => left t 2) = true := by unfold State.atHead; decide +kernel

/-! Loads: two tokens of class M at port 2 -/

def cMld : StreamCmd := cp 2 2 0x7F 0x1000 2 0
def dMld : Cmd := dd (st .mld cMld) cMld (ga 0x1000) 2
theorem witness_LoadCommandsGiveTokens : (st .mld cMld).atHead (.mld cMld) cMld .stream true dMld ∧ (st .mld cMld).cmdStarts grpC = true ∧ (Instr.mld cMld).wf = true ∧ linearOk 2 (st .mld cMld) dMld = true ∧
    (((st .mld cMld).begun dMld).agnFor (dMld.begun)).map (·.1) = some ⟨1, 2⟩ ∧ grpC.preempt = none ∧
    got (exec (.mld cMld) (st .mld cMld)) (fun t => (gr t).insts.flatMap (fun i => i.agn.bufs.map fun b => (b.todo.map (·.addr), b.tag.first, b.tag.last, b.tag.sot, b.tag.eot)) == [([ga 0x1000], true, false, true, false)]
      && (t.headProg 0 2).map (·.n) == some 1) = true := by unfold State.atHead; decide +kernel
/-- The last token, with a mark that clears its end of tile. -/
def sMld2 : State := putHead baseC .mld cMld { started := true, n := 1, mark := 8 }
theorem witness_LoadCommandsGiveTokens_last : sMld2.runsAs (.mld cMld) (linearOk 2) (dd sMld2 cMld (ga 0x1000) 2) sMld2 (dd sMld2 cMld (ga 0x1000) 2) ∧
    got (exec (.mld cMld) sMld2) (fun t => (gr t).insts.flatMap (fun i => i.agn.bufs.map fun b => (b.todo.map (·.addr), b.tag.last, b.tag.eot)) == [([ga 0x1080], true, false)] && left t 2) = true :=
  ⟨.inl ⟨by decide +kernel, rfl, rfl⟩, by decide +kernel⟩
def cSld : StreamCmd := cp 2 0 0x0F 0x20000 1 0
theorem witness_LoadCommandsGiveTokens_sld : (st .sld cSld).atHead (.sld cSld) cSld .stream true (dd (st .sld cSld) cSld 0x20000 1) ∧ linearOk 2 (st .sld cSld) (dd (st .sld cSld) cSld 0x20000 1) = true ∧
    got (exec (.sld cSld) (st .sld cSld)) (fun t => left t 2 && (gr t).insts.flatMap (fun i => i.agn.bufs.map fun b => (b.win, b.tag.sot, b.tag.eot)) == [(true, true, true)]) = true := by unfold State.atHead; decide +kernel
def cTld : StreamCmd := cp 2 2 0 0x1000 0 0
theorem witness_LoadCommandsGiveTokens_tld : (st .tld cTld).atHead (.tld cTld) cTld .stream true (dd (st .tld cTld) cTld (ga 0x1000) 0) ∧ tensorOk 2 (st .tld cTld) (dd (st .tld cTld) cTld (ga 0x1000) 0) = true ∧
    (dd (st .tld cTld) cTld (ga 0x1000) 0).tiles = 2 ∧ mapW.tileTokens = 1 ∧
    got (exec (.tld cTld) (st .tld cTld)) (fun t => (t.headProg 0 2).map (fun g => (g.n, g.j)) == some (1, 0)
      && (gr t).insts.flatMap (fun i => i.agn.bufs.map fun b => b.todo.map fun p => (p.addr, p.bytes)) == [[(ga 0x1000, 128)]]) = true := by unfold State.atHead; decide +kernel
def cGat : StreamCmd := cp 2 2 0x0F 0x1000 4 0
def sGat : State := putHead baseC .gather cGat { started := true, idx := [(3, 5), (-2, 5)] }
theorem witness_LoadCommandsGiveTokens_gather : sGat.atHead (.gather cGat) cGat .stream true (dd sGat cGat (ga 0x1000) 4) ∧ (dd sGat cGat (ga 0x1000) 4).q.prog.idx = [(3, 5), (-2, 5)] ∧
    (sGat.agnFor (dd sGat cGat (ga 0x1000) 4)).isSome = true ∧
    got (exec (.gather cGat) sGat) (fun t => (t.headProg 0 2).map (fun g => (g.n, g.idx)) == some (1, [(-2, 5)])
      && (gr t).insts.flatMap (fun i => i.agn.bufs.map fun b => (b.tag.thread, b.todo.map (·.addr))) == [(5, [ga 0x1180])]) = true := by unfold State.atHead; decide +kernel
/-- With no lane in hand, the index token is taken: lane 0 is row 3, the other lanes are holes. -/
def sGat0 : State := putHead { baseC with groups := [(1, { grpC with links := [lk 0 0 2 0 [tok (3 + (2 ^ 992 - 1) * 2 ^ 32) whole]] })] } .gather cGat { started := true }
theorem witness_LoadCommandsGiveTokens_index : sGat0.atHead (.gather cGat) cGat .stream true (dd sGat0 cGat (ga 0x1000) 4) ∧ (sGat0.cmdTake (dd sGat0 cGat (ga 0x1000) 4) 0).2.1.isSome = true ∧
    (sGat0.agnFor (dd sGat0 cGat (ga 0x1000) 4)).isSome = true ∧
    got (exec (.gather cGat) sGat0) (fun t => (t.headProg 0 2).map (fun g => (g.idx, g.eoi)) == some ([(3, 0)], true)) = true := by unfold State.atHead; decide +kernel

/-! Stores at port 3 -/

def cMst : StreamCmd := cp 3 3 0x0F 0x1000 2 0
def sMst (g : Prog) : State := putHead baseC .mst cMst g
def dMst (g : Prog) : Cmd := dd (sMst g) cMst (ga 0x1000) 2
def half : Prog := { started := true, n := 2, pieces := [{ addr := ga 0x1080, bytes := 2, out := [1, 2] }] }
theorem witness_StoreCommandsTakeTokens : (sMst {}).atHead (.mst cMst) cMst .stream true (dMst {}) ∧ linearOk 3 (sMst {}) (dMst {}) = true ∧ (sMst {}).cmdStarts grpC = true ∧ (Instr.mst cMst).wf = true ∧
    (((sMst {}).begun (dMst {})).cmdTake ((dMst {}).begun) 0).2.1 = some (tok 0x55 whole) ∧
    got (exec (.mst cMst) (sMst {})) (fun t => (t.headProg 0 3).map (fun g => (g.pieces.map fun p => (p.addr, p.out.take 2), g.eot, g.n)) == some ([(ga 0x1000, [0x55, 0])], true, 1)) = true := by
  unfold State.atHead; decide +kernel
theorem witness_StoreCommandsTakeTokens_access : (sMst half).atHead (.mst cMst) cMst .stream true (dMst half) ∧ (dMst half).q.prog.started = true ∧ grpC.boundAgn 3 = some 3 ∧
    (match (sMst half).tryEl ((sMst half).cmdWho 0 3 (dMst half).q 3 (.put 3 0) 15 true) { addr := ga 0x1080, bytes := 2, out := [1, 2] } with | .done _ _ _ _ => true | _ => false) = true ∧
    got (exec (.mst cMst) (sMst half)) (fun t => t.mem == [(0x1080, 1), (0x1081, 2)] && (t.headProg 0 3).map (·.pieces) == some []) = true ∧
    got (exec (.mst cMst) (sMst { half with pieces := [] })) (fun t => left t 3) = true := by unfold State.atHead; decide +kernel
def cSst : StreamCmd := cp 3 1 0x0F 0x20000 1 0
theorem witness_StoreCommandsTakeTokens_sst : (st .sst cSst).atHead (.sst cSst) cSst .stream true (dd (st .sst cSst) cSst 0x20000 1) ∧ linearOk 3 (st .sst cSst) (dd (st .sst cSst) cSst 0x20000 1) = true ∧
    got (exec (.sst cSst) (st .sst cSst)) (fun t => (t.headProg 0 3).map (fun g => g.pieces.map (·.addr)) == some [0x20000]) = true := by unfold State.atHead; decide +kernel
def cTst : StreamCmd := cp 3 3 0 0x1000 1 0
theorem witness_StoreCommandsTakeTokens_tst : (st .tst cTst).atHead (.tst cTst) cTst .stream true (dd (st .tst cTst) cTst (ga 0x1000) 1) ∧ tensorOk 3 (st .tst cTst) (dd (st .tst cTst) cTst (ga 0x1000) 1) = true ∧
    got (exec (.tst cTst) (st .tst cTst)) (fun t => (t.headProg 0 3).map (fun g => g.pieces.map fun p => (p.addr, p.bytes)) == some [(ga 0x1000, 128)]) = true := by unfold State.atHead; decide +kernel
def cSca : StreamCmd := cp 3 3 0x0F 0x1000 4 0
def sSca (l : List (Int × BitVec 20)) : State := putHead baseC .scatter cSca { started := true, idx := l, eoi := true }
theorem witness_StoreCommandsTakeTokens_scatter : (sSca [(3, 5)]).atHead (.scatter cSca) cSca .stream true (dd (sSca [(3, 5)]) cSca (ga 0x1000) 4) ∧
    ((sSca [(3, 5)]).cmdTake (dd (sSca [(3, 5)]) cSca (ga 0x1000) 4) 1).2.1 = some (tok 0x66 whole) ∧
    got (exec (.scatter cSca) (sSca [(3, 5)])) (fun t => (t.headProg 0 3).map (fun g => (g.pieces.map fun p => (p.addr, p.out.take 1), g.idx)) == some ([(ga 0x1180, [0x66])], [])) = true ∧
    got (exec (.scatter cSca) (sSca [(4, 5)])) (fun t => (t.headProg 0 3).map (·.pieces) == some []) = true ∧ got (exec (.scatter cSca) (sSca [])) (fun t => left t 3) = true := by unfold State.atHead; decide +kernel
/-- AMOSTRM max: the token's only lane pair in range names word 2. -/
def cAmo : StreamCmd := cp 3 3 5 0x1000 3 0
def sAmo (g : Prog) : State := putHead { baseC with groups := [(1, { grpC with links := [lk 1 0 3 0 [tok (2 + 9 * 2 ^ 32 + (2 ^ 960 - 1) * 2 ^ 64) whole]] })] } .amostrm cAmo g
theorem witness_StoreCommandsTakeTokens_amostrm : (sAmo {}).atHead (.amostrm cAmo) cAmo .stream true (dd (sAmo {}) cAmo (ga 0x1000) 3) ∧ (dd (sAmo {}) cAmo (ga 0x1000) 3).bound 3 = true ∧ (Instr.amostrm cAmo).wf = true ∧
    got (exec (.amostrm cAmo) (sAmo {})) (fun t => (t.headProg 0 3).map (fun g => (g.pieces.map fun p => (p.addr, p.upd), g.eoi)) == some ([(ga 0x1008, some (.max, 9))], true)) = true ∧
    got (exec (.amostrm cAmo) (sAmo { started := true, eoi := true })) (fun t => left t 3) = true := by unfold State.atHead; decide +kernel

/-! Commands that move their own data -/

def cFill : StreamCmd := cp 2 3 0x0F 0x1000 1 0xBEEF
theorem witness_DataMovingCommands_fill : (st .fill cFill).atHead (.fill cFill) cFill .stream true (dd (st .fill cFill) cFill (ga 0x1000) 1) ∧ (dd (st .fill cFill) cFill (ga 0x1000) 1).aligned = true ∧ (Instr.fill cFill).wf = true ∧
    got (exec (.fill cFill) (st .fill cFill)) (fun t => left t 2 && t.memBytes 1 0x107C 6 == [0xEF, 0xBE, 0xEF, 0xBE, 0, 0]) = true := by unfold State.atHead; decide +kernel
def cMc : StreamCmd := cp 2 2 5 0x1000 1 1
def sMc : State := { wins (st .mcast cMc) 5 winA with mem := mem1 }
theorem witness_DataMovingCommands_mcast : sMc.atHead (.mcast cMc) cMc .stream true (dd sMc cMc (ga 0x1000) 1) ∧ (Instr.mcast cMc).wf = true ∧ (ga 0x1000).toNat % 65536 + 128 ≤ 65536 ∧ sMc.swapFirst 0 5 sMc.nextId = false ∧
    got (exec (.mcast cMc) sMc) (fun t => left t 2 && Memory.readN t.banks 0x11000 8 == wordBytes 0x1122334455667788) = true := by unfold State.atHead; decide +kernel
def cLs : StreamCmd := cp 2 2 1 0x1000 32 1
def sLs : State := { putHead { baseC with tlb := (List.range 16).map fun p => { ent p with fmt := 1 } } .lstat cLs { started := true, n := 31 } with mem := [(0x1F80, 9)] }
theorem witness_DataMovingCommands_lstat : sLs.atHead (.lstat cLs) cLs .stream true (dd sLs cLs (ga 0x1000) 32) ∧ (Instr.lstat cLs).wf = true ∧ (∀ i ∈ grpC.insts, i.swapWaits = false) ∧
    got (exec (.lstat cLs) sLs) (fun t => left t 2 && (gr t).insts.map (fun i => match i.st with | .mat m => m.shadow.getLast?.map (·.1) | _ => none) == [none, some 9, none, none, none]) = true := by
  unfold State.atHead; decide +kernel
def cCpy : StreamCmd := cp 2 4 2 0x1000 3 7
theorem witness_DataMovingCommands_cpy : (st .cpy cCpy).atHead (.cpy cCpy) cCpy .stream true (dd (st .cpy cCpy) cCpy (ga 0x1000) 3) ∧ (Instr.cpy cCpy).wf = true ∧ (ga 0x1000).toNat < 2 ^ 60 ∧ (ga 0x1000).toNat % 64 = 0 ∧
    got (exec (.cpy cCpy) (st .cpy cCpy)) (fun t => left t 2 && (findD t.engines 7 []).map (fun j => (j.list, j.count, j.pulse, j.resp)) == [(ga 0x1000, 3, true, false)]) = true := by unfold State.atHead; decide +kernel

/-! Elements -/

def who (window write : Bool) : Who := {
  ctx := 2, tenant := 3, group := 1, core := 0, kind := .cell, loc := 0, src := 0, sub := 1, a := 6, stream := (0, 1, 0), window := window, fmt := 15, spd := 0, write := write, dest := .put 0 0 }
def el (o : ElOut) (p : State → List Byte → Bool) : Bool := match o with
  | .done t bs _ _ => p t bs
  | _ => false
def stops (o : ElOut) : List (BitVec 8) := match o with
  | .stop t => t.recs.map (·.cause)
  | _ => []
theorem witness_StreamElementsTouchTheirBytes : let s := { base with mem := mem1 }
    (s.mem.wf ∧ s.banks.wf ∧ s.host.mem.wf) ∧ (who false false).window = false ∧ (who false false).fmt ≠ 8 ∧ s.isGlobal (ga 0x1000) = true ∧ s.isGlobal (ga (2 ^ 60)) = false ∧ s.spill = [] ∧ maps s (ga 0x1000) false 0x1000 = true ∧ maps s (ga 0x107E) true 0x107E = true ∧
    el (s.tryEl (who false false) { addr := ga 0x1000, bytes := 8 }) (fun _ bs => bs == wordBytes 0x1122334455667788) = true ∧
    el (s.tryEl (who false true) { addr := ga 0x107E, bytes := 2, out := [1, 2] }) (fun t _ => t.memBytes 1 0x107E 3 == [1, 2, 0]) = true ∧ stops (s.tryEl (who false false) { addr := ga (2 ^ 60), bytes := 8 }) = [0x20] := by decide +kernel
theorem witness_StreamElementsTouchTheirBytes_window : let s := { wins base 2 winA with banks := [(0x1FFFF, 7)] }
    (s.mem.wf ∧ s.banks.wf ∧ s.host.mem.wf) ∧ ((s.coreAt 0).win 2).state = .attached ∧ ((s.coreAt 0).win 2).w = true ∧ ((s.coreAt 0).win 3).state = .detached ∧
    el (s.tryEl (who true false) { addr := 0x2FFFF, bytes := 1 }) (fun _ bs => bs == [7]) = true ∧ el (s.tryEl (who true true) { addr := 0x2FFFE, bytes := 1, out := [5] }) (fun t _ => t.banks == [(0x1FFFE, 5), (0x1FFFF, 7)]) = true ∧
    stops (s.tryEl (who true false) { addr := 0x30000, bytes := 1 }) = [0x10] ∧ stops ((wins base 2 { winA with w := false }).tryEl (who true true) { addr := 0x20000, bytes := 1, out := [5] }) = [0x11] ∧
    (match (wins base 2 { winA with state := .opened }).tryEl (who true false) { addr := 0x20000, bytes := 1 } with | .wait => true | _ => false) = true := by decide +kernel
/-- The access of scale bytes that follows the one of the codes of a block format (R77). -/
theorem witness_StreamElementsTouchTheirBytes_scale : let s := { base with mem := mem1 }
    let w : Who := { who false false with fmt := 8 }
    let p : Piece := { addr := ga 0x80, bytes := 128, geom := some 1 }
    s.portLater w p.addr = false ∧ maps s (scaleAddr (ga 0x80) w.spd 1) false 0x10 = true ∧
    el (({ s with mem := [(0x10, 7), (0x1F, 9)] } : State).tryEl w p) (fun _ bs => bs == 7 :: List.replicate 14 0 ++ [9]) = true := by decide +kernel
theorem witness_StreamElementsTouchTheirBytes_beyond : stops (base.tryEl (who true false) { addr := 0x100000, bytes := 1 }) = [0x10] ∧
    base.portLater (who false false) (ga 0x1000) = false := by decide +kernel

/-- A CPY whose override names an exchange address, and a SEGMARK with a load queued behind it. -/
def sX : State := baseC.setCore (baseC.core.setPort 2 { queue := [{ word := (encodeCmd (.cpy cCpy)).getD 0, id := 4, addrOv := 0x8FFC000000000040 }] })
theorem witness_CommandHeads_exchange : sX.atHead (.cpy cCpy) cCpy .stream true (dd sX cCpy 0x8FFC000000000040 3) ∧ sX.cmdStarts grpC = true ∧ (Instr.cpy cCpy).wf = true ∧
    got (exec (.cpy cCpy) sX) (fun t => left t 2 && t.recs.map (fun r => (r.cause, r.b)) == [(0x20#8, 0x8FFC000000000040#64)]) = true := by unfold State.atHead; decide +kernel
def sMark : State := baseC.setCore (baseC.core.setPort 2 { queue := [{ word := (encodeCmd (.segmark cMark)).getD 0, id := 4 }, { word := (encodeCmd (.mld cMld)).getD 0, id := 5 }] })
theorem witness_SectionAndQueueCommands_segmark_behind : sMark.atHead (.segmark cMark) cMark .none false (dd sMark cMark 0 0) ∧
    got (exec (.segmark cMark) sMark) (fun t => (t.portAt 0 2).queue.map (fun q => (q.id, q.prog.mark)) == [(5, 9)] && (t.portAt 0 2).mark == 0) = true := by unfold State.atHead; decide +kernel

/-! ### Cells -/

/-- A map of two tiles of 128 raw bytes. -/
def mapR : TMap := { rank := 1, fmt := 15, pad := 0, dims := [256], tile := [128], strides := [1] }
/-- Group 1 with one node under test, instance 0, between outputs and inputs of a TAP of mode 2, instance 1: tokens at its inputs, links at its outputs. -/
def cell (h : BitVec 64) (ws : List Word) (st : CellState) (ins : List (Nat × List Token)) (outs : List Nat) : State := {
  base with
  groups := [(1, { grp with
    insts := [{ node := 0, cell := 0, hdr := h, words := ws, st := st }, { node := 1, cell := 1, hdr := sh 11 2 0 0, st := .tap }]
    links := (ins.map fun p => lk 1 0 0 p.1 p.2) ++ outs.map fun p => lk 0 p 1 p [] })]
  contexts := [(2, { ctx2 with graphs := [(0x10000, { obj := { obj0 with maps := [mapW, mapR] }, lver := 1, area := some 0 })] })] }
def c0 : CellRef := { group := 1, inst := 0 }
def xOf (s : State) : Group := (s.group? 1).getD grp
def iOf (s : State) : Inst := (xOf s).insts.headD { node := 9 }
abbrev hd (s : State) (p : Nat) : Option Token := (xOf s).head s.cycle 0 p
abbrev calmAt (s : State) (ins : List Nat) : Prop := (xOf s).closing s.cycle 0 (iOf s) ins = []
abbrev roomAt (s : State) (p : Nat) : Prop := (xOf s).room s.cycle 0 p = true
/-- The instance may fire, with a token at the head of an input and no segment to close there. -/
abbrev atCell (s : State) (kind : Nat) : Prop := s.cellAt c0 (xOf s) (iOf s) ∧ kindOf (iOf s).hdr = kind
abbrev headAt (s : State) (p : Nat) (t : Token) : Prop := hd s p = some t ∧ calmAt s [p] ∧ calmAt s [0, p]
/-- Whether every end of tile among the heads of some inputs belongs to a segment. -/
def segs (s : State) (ins : List Nat) : Bool := ins.all fun p => match (xOf s).headAny s.cycle 0 p with
  | some t => !t.tag.eot || t.tag.sot || (iOf s).isOpen p t
  | none => true
theorem segs_inSegment {s : State} {ins : List Nat} (h : segs s ins = true) : s.inSegment c0 (xOf s) (iOf s) ins := fun _ p hp t ht he => by
  have h1 := List.all_eq_true.mp h p hp
  simp only [show (xOf s).headAny s.cycle 0 p = some t from ht, he, Bool.not_true, Bool.false_or, Bool.or_eq_true] at h1
  exact h1
/-- Tokens that an output port has sent, with the cycle from which they may be taken, and those still at an input. -/
def sent (t : State) (p : Nat) : List (Token × Nat) := (gr t).links.flatMap fun l => if l.src == 0 && l.sp == p then l.toks.map fun k => (k.tok, k.ready) else []
def atIn (t : State) (p : Nat) : List Token := (gr t).links.flatMap fun l => if l.dst == 0 && l.dp == p then l.toks.map (·.tok) else []
def cst (t : State) : CellState := (iOf t).st
/-- A change of the instance under test. -/
def tweak (s : State) (f : Inst → Inst) : State := s.modInst c0 f
/-- Tags of thread 5, sequence 9: in the middle of a segment, and a whole segment. -/
def t5 : Tag := { thread := 5, seq := 9 }
def t5w : Tag := { whole with thread := 5, seq := 9 }
/-- A tag of the instance's own first number for thread 5. -/
def o5 : Tag := { ctx := 2, thread := 5, seq := 0 }
def o5w : Tag := { whole with ctx := 2, thread := 5, seq := 0 }

/-! MAT: activation 3.0 against weight 2.0 in column 0 gives 6.0 in ext80; codes 2 and 3 in blocks of scale 1 give 6.0 too -/

def sMat : State := cell (sh 0 0 0 0) [] (.mat { active := [(0x4000, 0)] }) [(0, [tok 0x4040 t5w])] [0]
theorem witness_ComputingCellsFire_mat : atCell sMat kMAT ∧ modeOf (iOf sMat).hdr ≠ 5 ∧ headAt sMat 0 (tok 0x4040 t5w) ∧ roomAt sMat 0 ∧ segs sMat [0] = true ∧
    got (exec (.matFire c0) sMat) (fun t => sent t 0 == [(tok 0x40018000000000000000 t5w, 1004)] && atIn t 0 == []) = true := by unfold atCell State.cellAt; decide +kernel
def scl : Nat := 2 ^ 1016 + 31
def sMat5 : State := cell (sh 0 5 0 0) [] (.mat { active := [(3, BitVec.ofNat 1024 scl)] }) [(0, [tok 2 t5w]), (1, [tok scl t5w])] [0]
theorem witness_ComputingCellsFire_mat5 : atCell sMat5 kMAT ∧ modeOf (iOf sMat5).hdr = 5 ∧ headAt sMat5 0 (tok 2 t5w) ∧ headAt sMat5 1 (tok scl t5w) ∧ roomAt sMat5 0 ∧ segs sMat5 [0, 1] = true ∧
    got (exec (.matFire c0) sMat5) (fun t => sent t 0 == [(tok 0x40018000000000000000 t5w, 1004)] && atIn t 0 == [] && atIn t 1 == []) = true := by unfold atCell State.cellAt; decide +kernel
/-- FNC of mode 4: an argument of at least 16 is its own result; 0 gives entry 128 of the table. -/
def sFnc : State := cell (sh 4 4 0 0) [] (.fnc (List.replicate 128 0 ++ [0x3F000000])) [(0, [tok 0x41A00000 t5])] [0]
theorem witness_ComputingCellsFire_fnc : atCell sFnc kFNC ∧ headAt sFnc 0 (tok 0x41A00000 t5) ∧ roomAt sFnc 0 ∧ segs sFnc [0] = true ∧
    got (exec (.fncFire c0) sFnc) (fun t => (sent t 0).map (fun p => (p.1.tag, p.2, p.1.nat % 2 ^ 64)) == [(t5, 1004, 0x3F00000041A00000)]) = true := by unfold atCell State.cellAt; decide +kernel
/-- VEC: 1.0 + 2.0 in lane 0. -/
def sVec : State := cell (sh 2 0 0 0) [] .vec [(0, [tok 0x3F800000 t5w]), (1, [tok 0x40000000 t5w])] [0]
theorem witness_ComputingCellsFire_vec : atCell sVec kVEC ∧ (iOf sVec).skip = [] ∧ vecIns (iOf sVec).hdr = [0, 1] ∧ headAt sVec 0 (tok 0x3F800000 t5w) ∧ headAt sVec 1 (tok 0x40000000 t5w) ∧ roomAt sVec 0 ∧
    segs sVec [0, 1] = true ∧ got (exec (.vecFire c0) sVec) (fun t => sent t 0 == [(tok 0x40400000 t5w, 1001)] && atIn t 0 == [] && atIn t 1 == []) = true := by unfold atCell State.cellAt; decide +kernel
/-- VEC: i0 ends its segment before i1. -/
def sVecL : State := cell (sh 2 0 0 0) [] .vec [(0, [tok 0x3F800000 t5w]), (1, [tok 0x40000000 { t5 with sot := true }])] [0]
theorem witness_ComputingCellsFire_vec_late : atCell sVecL kVEC ∧ (iOf sVecL).skip = [] ∧ headAt sVecL 0 (tok 0x3F800000 t5w) ∧ headAt sVecL 1 (tok 0x40000000 { t5 with sot := true }) ∧ roomAt sVecL 0 ∧
    got (exec (.vecFire c0) sVecL) (fun t => sent t 0 == [(tok 0x40400000 { t5w with late := true }, 1001)] && (iOf t).skip == [1] && (gr t).counts.segErr == 1) = true := by unfold atCell State.cellAt; decide +kernel
/-- ACC of one row and depth 2: 2.0 is added to 1.0 in lane 0. -/
def accH : BitVec 64 := sh 1 0 0 (2 ^ 33 + 2 ^ 9)
def one80 : BitVec 80 := 0x3FFF0000000000000000
def sAcc (n : Nat) : State := cell accH [] (.acc [{ n := n, acc := [(0, one80)], thread := 5 }]) [(0, [tok 0x40000000 t5])] [0]
theorem witness_ComputingCellsFire_acc : atCell (sAcc 0) kACC ∧ headAt (sAcc 0) 0 (tok 0x40000000 t5) ∧ accSetOf accH [{ n := 0, acc := [(0, one80)], thread := 5 }] 5 = some 0 ∧ segs (sAcc 0) [0] = true ∧
    got (exec (.accFire c0) (sAcc 0)) (fun t => atIn t 0 == [] && cst t == .acc [{ n := 1, acc := [(0, 0x40008000000000000000)], thread := 5 }]) = true := by unfold atCell State.cellAt; decide +kernel
theorem witness_ComputingCellsFire_acc_full : atCell (sAcc 1) kACC ∧ headAt (sAcc 1) 0 (tok 0x40000000 t5) ∧
    got (exec (.accFire c0) (sAcc 1)) (fun t => atIn t 0 == [tok 0x40000000 t5] && cst t == .acc [{ n := 2, acc := [(0, 0x40008000000000000000)], thread := 5, rel := some (0, true) }]) = true := by
  unfold atCell State.cellAt; decide +kernel
/-- A set whose one token is released as FP32. -/
def sRel : State := cell accH [] (.acc [{ n := 2, acc := [(0, one80)], thread := 5, carry := ⟨true, true, false⟩, rel := some (0, true) }]) [(0, [tok 0 t5])] [0]
theorem witness_ComputingCellsFire_release : sRel.inst? c0 = some (xOf sRel, iOf sRel) ∧ sRel.live (xOf sRel) = true ∧ (iOf sRel).outAt ≠ some sRel.cycle ∧ roomAt sRel 0 ∧ (xOf sRel).headAny sRel.cycle 0 0 = some (tok 0 t5) ∧
    got (exec (.accRelease c0) sRel) (fun t => sent t 0 == [(tok 0x3F800000 o5w, 1002)] && atIn t 0 == [] && cst t == .acc [{}]) = true := by decide +kernel
/-- A start of tile inside an open segment of thread 5. -/
def sClo : State := tweak (cell (sh 2 64 0 0) [] .vec [(0, [tok 1 t5w])] [0]) fun i => { i with opens := [(0, 5), (0, 6)] }
theorem witness_ComputingCellsFire_close : atCell sClo kVEC ∧ (iOf sClo).role = .node ∧ (xOf sClo).closing sClo.cycle 0 (iOf sClo) (vecIns (iOf sClo).hdr) = [(0, 5)] ∧ (iOf sClo).leftOver [(0, 5)] [0] = [] ∧ hd sClo 0 = some (tok 1 t5w) ∧
    got (exec (.vecFire c0) sClo) (fun t => (iOf t).opens == [(0, 6)] && (gr t).counts.segErr == 1 && atIn t 0 == [tok 1 t5w] && sent t 0 == []) = true := by unfold atCell State.cellAt; decide +kernel
def sSwp : State := cell (sh 0 0 0 0) [] (.mat { active := [(1, 0)], shadow := [(2, 0)], swap := true }) [(0, [])] [0]
theorem witness_ComputingCellsFire_swap : sSwp.inst? c0 = some (xOf sSwp, iOf sSwp) ∧ sSwp.atSwap (xOf sSwp) 0 (iOf sSwp) = true ∧
    got (exec (.planeSwap c0) sSwp) (fun t => cst t == .mat { active := [(2, 0)], shadow := [(1, 0)], swap := false }) = true := by decide +kernel

/-- A start of tile at i0 inside a segment that is open at both inputs: i0's is closed, what is left of i1's is discarded. -/
def sClo2 : State := tweak (cell (sh 2 0 0 0) [] .vec [(0, [tok 1 t5w]), (1, [tok 2 t5])] [0]) fun i => { i with opens := [(0, 5), (1, 5)] }
theorem witness_ComputingCellsFire_close_left : atCell sClo2 kVEC ∧ (xOf sClo2).closing sClo2.cycle 0 (iOf sClo2) [0, 1] = [(0, 5)] ∧ (iOf sClo2).leftOver [(0, 5)] [0, 1] = [1] ∧
    got (exec (.vecFire c0) sClo2) (fun t => (iOf t).opens == [(1, 5)] && (iOf t).skip == [1] && (gr t).counts.segErr == 2) = true := by unfold atCell State.cellAt; decide +kernel
/-! RED: per-token sums (mode 0), running sums by position (mode 0x18), sums of a segment (mode 8) -/

def v12 : Nat := 0x400000003F800000
def sRed (mode fmt : Nat) (q : RedSt) (t : Tag) (d : Nat) : State := cell (sh 3 mode 0 (fmt * 2 ^ 36)) [] (.red q) [(0, [tok d t])] [0]
abbrev redHyps (s : State) (mode : Nat) (q : RedSt) (a : Token) (f : Fmt) : Prop := atCell s kRED ∧ modeOf (iOf s).hdr = mode ∧ (iOf s).st = .red q ∧ headAt s 0 a ∧
  (∀ k ∈ (iOf s).opens, k.2 = a.tag.thread.toNat) ∧ fmtOf (hf (iOf s).hdr 39 36) = some f
theorem witness_CollectingCellsFire_red : let s := sRed 0 0 {} t5 v12
    redHyps s 0 {} (tok v12 t5) .f32 ∧ segs s [0] = true ∧
    got (exec (.redFire c0) s) (fun t => sent t 0 == [] && atIn t 0 == [] && cst t == .red { taken := 1, pack := { pend := [⟨0x40400000, false, false⟩], thread := 5 } }) = true := by unfold redHyps atCell State.cellAt; decide +kernel
theorem witness_CollectingCellsFire_red_end : let q : RedSt := { vals := [(0, 0x3F800000)], taken := 1, carry := ⟨true, false, false⟩ }
    let s := sRed 8 0 q { t5 with eot := true, last := true } v12
    redHyps s 8 q (tok v12 { t5 with eot := true, last := true }) .f32 ∧ roomAt s 0 ∧
    got (exec (.redFire c0) s) (fun t => sent t 0 == [(tok 0x40800000 o5w, 1002)] && atIn t 0 == [] && cst t == .red { taken := 2, vals := [(0, 0x40800000)] }) = true := by unfold redHyps atCell State.cellAt; decide +kernel
theorem witness_CollectingCellsFire_red_two : let s := sRed 0x18 1 {} t5 (0x3F80 * 2 ^ 512 + 0x4000)
    redHyps s 0x18 {} (tok (0x3F80 * 2 ^ 512 + 0x4000) t5) .bf16 ∧ roomAt s 0 ∧
    got (exec (.redFire c0) s) (fun t => sent t 0 == [(tok 0x40000000 { o5 with sot := true }, 1002)] && atIn t 0 != [] && (iOf t).due == [0] &&
      (iOf t).outq.map (·.toks) == [[(0, tok 0x3F800000 { o5 with seq := 1 })]]) = true := by unfold redHyps atCell State.cellAt; decide +kernel
/-- RSUM: 2.0 · 0.5 + 1.0 is 2.0. -/
def sSum (e g : Tag) : State := cell (sh 3 0x20 0 0) [] (.red { vals := [(0, 0x40000000)] }) [(0, [tok 0x3F800000 e]), (1, [tok 0x3F000000 g])] [0]
abbrev sumHyps (s : State) (q : RedSt) (e g : Token) : Prop := atCell s kRED ∧ modeOf (iOf s).hdr = 0x20 ∧ (iOf s).st = .red q ∧ (iOf s).skip = [] ∧ headAt s 0 e ∧ headAt s 1 g ∧
  (∀ k ∈ (iOf s).opens, k.1 = 0 → k.2 = e.tag.thread.toNat)
theorem witness_CollectingCellsFire_rsum : let s := sSum t5 t5
    sumHyps s { vals := [(0, 0x40000000)] } (tok 0x3F800000 t5) (tok 0x3F000000 t5) ∧ segs s [0, 1] = true ∧
    got (exec (.rsumFire c0) s) (fun t => sent t 0 == [] && atIn t 0 == [] && atIn t 1 == [] && (match cst t with | .red q => findD q.vals 0 9 == 0x40000000 && q.taken == 1 | _ => false)) = true := by
  unfold sumHyps atCell State.cellAt; decide +kernel
theorem witness_CollectingCellsFire_rsum_late : let s := sSum t5w t5
    sumHyps s { vals := [(0, 0x40000000)] } (tok 0x3F800000 t5w) (tok 0x3F000000 t5) ∧ roomAt s 0 ∧
    got (exec (.rsumFire c0) s) (fun t => sent t 0 == [(tok 0x40000000 { o5w with late := true }, 1002)] && (iOf t).skip == [1] && (gr t).counts.segErr == 1) = true := by
  unfold sumHyps atCell State.cellAt; decide +kernel
/-! CVT: FP32 to BF16; quantisation of 1.0 to code 4 under scale 29 (type 0, blocks of 16); and back -/

def sCvt (h : BitVec 64) (ins : List (Nat × List Token)) : State := cell h [] (.cvt []) ins [0, 1]
theorem witness_CollectingCellsFire_conv : let s := sCvt (sh 5 0 0 (2 ^ 32)) [(0, [tok 0x3F800000 t5w])]
    atCell s kCVT ∧ headAt s 0 (tok 0x3F800000 t5w) ∧ modeOf (iOf s).hdr = 0 ∧ fmtOf (hf (iOf s).hdr 39 36) = some .f32 ∧ fmtOf (hf (iOf s).hdr 35 32) = some .bf16 ∧ roomAt s 0 ∧ segs s [0] = true ∧
    got (exec (.cvtFire c0) s) (fun t => sent t 0 == [(tok 0x3F80 o5w, 1002)] && atIn t 0 == [] && cst t == .cvt []) = true := by unfold atCell State.cellAt; decide +kernel
theorem witness_CollectingCellsFire_conv_part : let s := sCvt (sh 5 0 0 (2 ^ 32)) [(0, [tok 0x3F800000 t5])]
    atCell s kCVT ∧ headAt s 0 (tok 0x3F800000 t5) ∧ segs s [0] = true ∧
    got (exec (.cvtFire c0) s) (fun t => sent t 0 == [] && atIn t 0 == [] && (match cst t with | .cvt q => q.map (fun p => (p.1, p.2.pack.pend.length)) == [(5, 32)] | _ => false)) = true := by unfold atCell State.cellAt; decide +kernel
def sc29 : Nat := 2 ^ 1016 + 29
theorem witness_CollectingCellsFire_quant : let s := sCvt (sh 5 1 0 (8 * 2 ^ 32 + 2 ^ 25)) [(0, [tok 0x3F800000 t5w])]
    atCell s kCVT ∧ headAt s 0 (tok 0x3F800000 t5w) ∧ modeOf (iOf s).hdr = 1 ∧ fmtOf (hf (iOf s).hdr 39 36) = some .f32 ∧ fmtOf (hf (iOf s).hdr 35 32) = some .q4 ∧ roomAt s 0 ∧ roomAt s 1 ∧ segs s [0] = true ∧
    got (exec (.cvtFire c0) s) (fun t => sent t 0 == [(tok 4 o5w, 1002)] && sent t 1 == [(tok sc29 o5w, 1002)] && atIn t 0 == []) = true := by unfold atCell State.cellAt; decide +kernel
theorem witness_CollectingCellsFire_dequant : let s := sCvt (sh 5 2 0 (8 * 2 ^ 36)) [(0, [tok 4 t5w]), (1, [tok sc29 t5w])]
    atCell s kCVT ∧ headAt s 0 (tok 4 t5w) ∧ headAt s 1 (tok sc29 t5w) ∧ modeOf (iOf s).hdr = 2 ∧ fmtOf (hf (iOf s).hdr 39 36) = some .q4 ∧ fmtOf (hf (iOf s).hdr 35 32) = some .f32 ∧ roomAt s 0 ∧
    got (exec (.cvtFire c0) s) (fun t => sent t 0 == [(tok 0x3F800000 { o5 with sot := true, first := true }, 1002)] && (iOf t).outq.length == 7 && (iOf t).due == [0, 1]) = true := by unfold atCell State.cellAt; decide +kernel
/-- BFY of h = 1: 1.0 and 2.0 give 3.0 and −1.0. -/
def sBfy : State := cell (sh 6 0 0 0) [] (.bfy []) [(0, [tok v12 t5w])] [0]
theorem witness_CollectingCellsFire_bfy : atCell sBfy kBFY ∧ headAt sBfy 0 (tok v12 t5w) ∧ fmtOf (hf (iOf sBfy).hdr 39 36) = some .f32 ∧ roomAt sBfy 0 ∧ segs sBfy [0] = true ∧
    got (exec (.bfyFire c0) sBfy) (fun t => sent t 0 == [(tok 0xBF80000040400000 o5w, 1002)] && atIn t 0 == [] && cst t == .bfy []) = true := by unfold atCell State.cellAt; decide +kernel
def emit (d : Nat) : Emit := { toks := [(0, tok d o5)], lat := 2 }
def sDrn (q : List Emit) : State := tweak (cell (sh 5 0 0 0) [] (.cvt []) [(0, [tok 1 t5])] [0]) fun i => { i with outq := q, due := [0] }
theorem witness_CollectingCellsFire_drain : (∀ q ∈ [[emit 7], [emit 7, emit 8]], (sDrn q).inst? c0 = some (xOf (sDrn q), iOf (sDrn q)) ∧ (iOf (sDrn q)).outq = q ∧ (sDrn q).live (xOf (sDrn q)) = true ∧
      (iOf (sDrn q)).outAt ≠ some (sDrn q).cycle ∧ (xOf (sDrn q)).roomFor (sDrn q).cycle 0 (emit 7) = true ∧ kindOf (iOf (sDrn q)).hdr = kCVT ∧ (iOf (sDrn q)).due.Nodup ∧
      (xOf (sDrn q)).headAny (sDrn q).cycle 0 0 = some (tok 1 t5)) ∧
    got (exec (.cvtFire c0) (sDrn [emit 7])) (fun t => sent t 0 == [(tok 7 o5, 1002)] && atIn t 0 == []) = true ∧
    got (exec (.cvtFire c0) (sDrn [emit 7, emit 8])) (fun t => sent t 0 == [(tok 7 o5, 1002)] && atIn t 0 == [tok 1 t5] && (iOf t).outq == [emit 8]) = true := by decide +kernel

/-! CNT: starts at 5 in steps of 3, thread 5 -/

def cntW (n once : Nat) : List Word := [BitVec.ofNat 64 (5 + 3 * 2 ^ 32), BitVec.ofNat 64 n, BitVec.ofNat 64 once, 5]
def sCnt (mode low : Nat) (ws : List Word) (c : CntSt) (ins : List (Nat × List Token)) : State := cell (sh 7 mode 0 low) ws (.cnt c) ins [0]
abbrev cntHyps (s : State) (c : CntSt) : Prop := atCell s kCNT ∧ (iOf s).st = .cnt c ∧ c.running = false ∧ c.held = false ∧ creditOk (iOf s).hdr c = true
theorem witness_SourceCellsRun_start : let s := sCnt 0 0 (cntW 2 0) {} []
    cntHyps s {} ∧ pw (iOf s).words 2 % 2 ^ 32 = 0 ∧ ((s.objOf (xOf s)).secOf 0).isSome = false ∧ (iOf s).hdr.getLsbD 39 = false ∧
    got (exec (.cntRunStart c0) s) (fun t => cst t == .cnt { running := true, n := 2, runs := 1, started := true }) = true := by unfold cntHyps atCell State.cellAt; decide +kernel
theorem witness_SourceCellsRun_start_once : let c : CntSt := { runs := 1, budget := 4 }
    let s := sCnt 0 0 (cntW 2 2) c []
    cntHyps s c ∧ c.runs < pw (iOf s).words 2 % 2 ^ 32 ∧ got (exec (.cntRunStart c0) s) (fun t => cst t == .cnt { running := true, n := 2, runs := 2, started := true, budget := 4 }) = true := by
  unfold cntHyps atCell State.cellAt; decide +kernel
theorem witness_SourceCellsRun_start_nest : let s := sCnt 1 0 (cntW 0 0) {} [(0, [tok 0 t5w])]
    cntHyps s {} ∧ headAt s 0 (tok 0 t5w) ∧ (iOf s).hdr.getLsbD 39 = false ∧
    got (exec (.cntRunStart c0) s) (fun t => atIn t 0 == [] && cst t == .cnt { runs := 1, started := true }) = true := by unfold cntHyps atCell State.cellAt; decide +kernel
/-- The count is the INT32 at 0x1000 + 4 · 1. -/
theorem witness_SourceCellsRun_start_memory : let s : State := { sCnt 1 (3 * 2 ^ 38) [0, ga 0x1000] {} [(0, [tok 1 t5w])] with mem := mem1 }
    cntHyps s {} ∧ headAt s 0 (tok 1 t5w) ∧ (iOf s).hdr.getLsbD 39 = true ∧ (iOf s).hdr.getLsbD 38 = true ∧ done (s.loadN 2 (ga 0x1004) (some 15) 2 4) (fun bs _ => leNat bs == 0x11223344) = true ∧
    got (exec (.cntRunStart c0) s) (fun t => cst t == .cnt { running := true, n := 0x11223344, runs := 1, started := true }) = true := by unfold cntHyps atCell State.cellAt; decide +kernel
theorem witness_SourceCellsRun_fire : let c : CntSt := { running := true, n := 2, k := 1, credits := 3 }
    let s := sCnt 0 (4 * 2 ^ 30) (cntW 2 0) c []
    atCell s kCNT ∧ (iOf s).st = .cnt c ∧ creditOk (iOf s).hdr c = true ∧ roomAt s 0 ∧
    got (exec (.cntFire c0) s) (fun t => sent t 0 == [(tok (8 + 2 ^ 32) { o5 with last := true, eot := true }, 1001)] && cst t == .cnt { n := 2, k := 2, credits := 4 }) = true := by
  unfold atCell State.cellAt; decide +kernel
theorem witness_SourceCellsRun_fire_nest : let c : CntSt := { running := true, n := 1 }
    let s := sCnt 1 0 (cntW 1 0) c [(0, [tok 0x77 t5w])]
    atCell s kCNT ∧ (iOf s).st = .cnt c ∧ creditOk (iOf s).hdr c = true ∧ roomAt s 0 ∧ hd s 0 = some (tok 0x77 t5w) ∧
    got (exec (.cntFire c0) s) (fun t => sent t 0 == [(tok (5 + 0x77 * 2 ^ 64) o5w, 1001)] && atIn t 0 == []) = true := by unfold atCell State.cellAt; decide +kernel
theorem witness_SourceCellsRun_credit : let s := sCnt 0 (4 * 2 ^ 30) (cntW 2 0) { credits := 4 } [(1, [tok 0 t5])]
    s.inst? c0 = some (xOf s, iOf s) ∧ (xOf s).headAny s.cycle 0 1 = some (tok 0 t5) ∧ s.live (xOf s) = true ∧
    got (exec (.cntCreditReturn c0) s) (fun t => atIn t 1 == [] && cst t == .cnt { credits := 3 }) = true := by decide +kernel

/-! AGN over mapR (two tiles of 128 bytes, one token each) at 0x1000, thread 5 -/

def sAgn (mode : Nat) (a : AgnSt) (ins : List (Nat × List Token)) (outs : List Nat) : State := {
  cell (sh 8 mode 0 (2 ^ 35 + (if mode = 4 then 0 else 2 ^ 19))) [ga 0x1000, 5] (.agn a) ins outs with mem := Memory.writeN mem1 0x1080 (wordBytes 0x99) }
abbrev agnHyps (s : State) (mode : Nat) (a : AgnSt) : Prop := atCell s kAGN ∧ modeOf (iOf s).hdr = mode ∧ (iOf s).st = .agn a
def walks (t : State) (tile pos : Nat) (th : BitVec 20) : Bool := match cst t with
  | .agn b => b.walking && b.tile == tile && b.j == 0 && b.pos == pos && b.thread == th
  | _ => false
theorem witness_SourceCellsRun_walk_index : let s := sAgn 0 {} [(0, [tok 3 t5w])] [0]
    agnHyps s 0 {} ∧ headAt s 0 (tok 3 t5w) ∧ (xOf s).inLinked 0 0 = true ∧ got (exec (.agnTileWalk c0) s) (fun t => atIn t 0 == [] && walks t 1 0 5) = true := by unfold agnHyps atCell State.cellAt; decide +kernel
theorem witness_SourceCellsRun_walk_order : let s := sAgn 0 { pos := 1 } [] [0]
    agnHyps s 0 { pos := 1 } ∧ (xOf s).inLinked 0 0 = false ∧ ((s.objOf (xOf s)).secOf 0).isSome = false ∧
    got (exec (.agnTileWalk c0) s) (fun t => walks t 1 0 5 && (iOf t).agn.started && (iOf t).agn.wlast && !(iOf t).agn.wfirst) = true := by unfold agnHyps atCell State.cellAt; decide +kernel
theorem witness_SourceCellsRun_walk_store_index : let s := sAgn 1 {} [(0, [tok 0 { t5 with thread := 6 }]), (2, [tok 1 t5w])] [0]
    agnHyps s 1 {} ∧ hd s 0 = some (tok 0 { t5 with thread := 6 }) ∧ hd s 2 = some (tok 1 t5w) ∧ (xOf s).inLinked 0 2 = true ∧
    got (exec (.agnTileWalk c0) s) (fun t => atIn t 2 == [] && (atIn t 0).length == 1 && walks t 1 0 5 && (iOf t).agn.taken == 6) = true := by unfold agnHyps atCell State.cellAt; decide +kernel
theorem witness_SourceCellsRun_walk_store : let s := sAgn 1 {} [(0, [tok 0 t5w])] [0]
    agnHyps s 1 {} ∧ hd s 0 = some (tok 0 t5w) ∧ (xOf s).inLinked 0 2 = false ∧ got (exec (.agnTileWalk c0) s) (fun t => walks t 0 1 5) = true := by unfold agnHyps atCell State.cellAt; decide +kernel
def bufA : TokBuf := { id := 3, tag := o5w, data := 0x44, scale := 0x55 }
theorem witness_SourceCellsRun_emit : let s := sAgn 0 { bufs := [bufA] } [] [0]
    agnHyps s 0 { bufs := [bufA] } ∧ nextBuf ((xOf s).allCommute 0) (iOf s).agn.bufs = some bufA ∧ roomAt s 0 ∧
    got (exec (.agnAccess c0) s) (fun t => sent t 0 == [(tok 0x44 o5w, 1001)] && (iOf t).agn.bufs == []) = true := by unfold agnHyps atCell State.cellAt; decide +kernel
theorem witness_SourceCellsRun_emit_block : let b := { bufA with block := true, win := true, due := 1004 }
    let s := sAgn 2 { bufs := [b] } [] [0, 1]
    agnHyps s 2 { bufs := [b] } ∧ nextBuf ((xOf s).allCommute 0) (iOf s).agn.bufs = some b ∧ roomAt s 0 ∧ roomAt s 1 ∧
    got (exec (.agnAccess c0) s) (fun t => sent t 0 == [(tok 0x44 o5w, 1004)] && sent t 1 == [(tok 0x55 o5w, 1004)]) = true := by unfold agnHyps atCell State.cellAt; decide +kernel
def isDone (o : ElOut) (p : List Byte → Bool) : Bool := match o with
  | .done _ d _ _ => p d
  | _ => false
def pcA : Piece := { addr := ga 0x1000, bytes := 4, bitOff := 32 }
theorem witness_SourceCellsRun_read : let b := { bufA with data := 0, todo := [pcA, pcA] }
    let s := sAgn 0 { bufs := [b] } [] [0]
    agnHyps s 0 { bufs := [b] } ∧ s.agnEmit c0 (xOf s) (iOf s) = none ∧ ((iOf s).agn.bufs.find? fun u => !u.todo.isEmpty) = some b ∧
    isDone (s.tryEl (s.agnWho c0 (xOf s) (iOf s) b.fmt b.spd (.buf 0 b.id) false) pcA) (· == [0x88, 0x77, 0x66, 0x55]) = true ∧
    got (exec (.agnAccess c0) s) (fun t => (iOf t).agn.bufs == [{ b with data := 0x5566778800000000, todo := [pcA] }]) = true := by unfold agnHyps atCell State.cellAt; decide +kernel
theorem witness_SourceCellsRun_begin : let a : AgnSt := { walking := true, tile := 1, thread := 5, wfirst := true, wlast := true }
    let s := sAgn 0 a [] [0]
    agnHyps s 0 a ∧ s.agnEmit c0 (xOf s) (iOf s) = none ∧ (iOf s).agn.full false = false ∧ (xOf s).allCommute 0 = false ∧
    got (exec (.agnAccess c0) s) (fun t => (iOf t).agn.bufs == [] && sent t 0 == [(tok 0x99 o5w, 1001)] && !(iOf t).agn.walking && (iOf t).agn.j == 1) = true := by unfold agnHyps atCell State.cellAt; decide +kernel
def pcW : Piece := { addr := ga 0x1000, bytes := 2, bitOff := 0, out := [0xAA, 0xBB] }
theorem witness_SourceCellsRun_store : let a : AgnSt := { walking := true, puts := [pcW, pcA], eot := true }
    let s := sAgn 1 a [(0, [])] []
    agnHyps s 1 a ∧ isDone (s.tryEl (s.agnWho c0 (xOf s) (iOf s) 15 a.spd (.put 0 0) true) pcW) (fun _ => true) = true ∧
    got (exec (.agnAccess c0) s) (fun t => (iOf t).agn.puts == [pcA] && Memory.readN t.mem 0x1000 4 == [0xAA, 0xBB, 0x66, 0x55]) = true := by unfold agnHyps atCell State.cellAt; decide +kernel
theorem witness_SourceCellsRun_store_take : let a : AgnSt := { walking := true, tile := 1, thread := 6, taken := 5 }
    let s := sAgn 1 a [(0, [tok 0x1234 t5w])] []
    agnHyps s 1 a ∧ headAt s 0 (tok 0x1234 t5w) ∧ a.j < (s.agnMap (xOf s) (iOf s)).tileTokens ∧ segs s [0] = true ∧
    got (exec (.agnAccess c0) s) (fun t => atIn t 0 == [] && (iOf t).agn.puts.map (fun p => (p.addr, p.bytes, p.out.take 3)) == [(ga 0x1080, 128, [0x34, 0x12, 0])] && (iOf t).agn.eot && (iOf t).agn.j == 1) = true := by
  unfold agnHyps atCell State.cellAt; decide +kernel
theorem witness_SourceCellsRun_store_excess : let a : AgnSt := { walking := true, j := 1, taken := 5 }
    let s := sAgn 1 a [(0, [tok 0 t5])] []
    agnHyps s 1 a ∧ headAt s 0 (tok 0 t5) ∧ (s.agnMap (xOf s) (iOf s)).tileTokens ≤ a.j ∧
    got (exec (.agnAccess c0) s) (fun t => atIn t 0 == [] && cst t == .agn { a with excess := true } && (gr t).counts.segErr == 1) = true := by unfold agnHyps atCell State.cellAt; decide +kernel
theorem witness_SourceCellsRun_store_end : let a : AgnSt := { walking := true, j := 1, tile := 1, thread := 5, taken := 5, nextId := 4 }
    let s := sAgn 1 a [(0, [tok 0 { t5 with eot := true }])] [0]
    agnHyps s 1 a ∧ headAt s 0 (tok 0 { t5 with eot := true }) ∧ (s.agnMap (xOf s) (iOf s)).tileTokens ≤ a.j ∧ s.putSpilled c0 4 = false ∧
    got (exec (.agnAccess c0) s) (fun t => !(iOf t).agn.walking && (iOf t).agn.acks == [⟨4, 1, { whole with thread := 5 }, true⟩]) = true := by unfold agnHyps atCell State.cellAt; decide +kernel
def ack : Ack := { id := 3, tile := 1, tag := { whole with thread := 5 }, counted := true }
theorem witness_SourceCellsRun_ack : (∀ outs ∈ [[0], []], let s := sAgn 1 { acks := [ack] } [(0, [])] outs
      s.inst? c0 = some (xOf s, iOf s) ∧ (iOf s).agn.acks = [ack] ∧ s.putSpilled c0 3 = false ∧ s.live (xOf s) = true ∧ roomAt s 0 ∧ (xOf s).outLinked 0 0 = !outs.isEmpty) ∧
    got (exec (.agnAcknowledge c0) (sAgn 1 { acks := [ack] } [(0, [])] [0])) (fun t => sent t 0 == [(tok 1 o5w, 1001)] && (iOf t).agn.acks == []) = true ∧
    got (exec (.agnAcknowledge c0) (sAgn 1 { acks := [ack] } [(0, [])] [])) (fun t => (iOf t).agn.acks == []) = true := by decide +kernel
/-- Over mapW, FP32: indices 63 in lane 0, 64 (outside) in lane 1, 0 in the others. -/
theorem witness_SourceCellsRun_iload : let k := tok (63 + 64 * 2 ^ 32) t5w
    let s := sAgn 4 {} [(0, [k])] [0]
    agnHyps s 4 {} ∧ headAt s 0 k ∧ segs s [0] = true ∧ got (exec (.iloadFire c0) s) (fun t => atIn t 0 == [] &&
      (iOf t).agn.bufs.map (fun b => (b.fill, b.tag, b.opened, (b.todo.map (·.bytes)).sum, b.todo.head?.map (·.addr))) == [(32, o5w, false, 124, some (ga 0x10FC))]) = true := by
  unfold agnHyps atCell State.cellAt; decide +kernel

/-! RTE: thread 1 hashes to the upper half, thread 5 to the lower -/

def t1 : Tag := { thread := 1, seq := 7 }
def sRte (mode low : Nat) (q : RteSt) (ins : List (Nat × List Token)) (outs : List Nat) : State := cell (sh 9 mode 0 low) [] (.rte q) ins outs
abbrev rteHyps (s : State) (mode : Nat) (role : Role) (q : RteSt) : Prop := atCell s kRTE ∧ modeOf (iOf s).hdr = mode ∧ (iOf s).role = role ∧ (iOf s).st = .rte q
theorem witness_RoutingCellsRun_seq : let s := sRte 0 0 {} [(0, [tok 3 t1])] [0, 1]
    rteHyps s 0 .node {} ∧ headAt s 0 (tok 3 t1) ∧ roomAt s 1 ∧ segs s [0] = true ∧ got (exec (.rteSplit c0) s) (fun t => sent t 1 == [(tok 3 t1, 1001)] && sent t 0 == [] && atIn t 0 == []) = true := by
  unfold rteHyps atCell State.cellAt; decide +kernel
theorem witness_RoutingCellsRun_key : let s := sRte 1 (63 * 2 ^ 34) {} [(0, [tok 5 t1])] [0, 1]
    rteHyps s 1 .node {} ∧ headAt s 0 (tok 5 t1) ∧ roomAt s 1 ∧ got (exec (.rteSplit c0) s) (fun t => sent t 1 == [(tok 5 t1, 1001)]) = true := by unfold rteHyps atCell State.cellAt; decide +kernel
theorem witness_RoutingCellsRun_key_lane : let s := sRte 1 0 {} [(0, [tok 5 t1])] [0, 1]
    rteHyps s 1 .node {} ∧ headAt s 0 (tok 5 t1) ∧ roomAt s 0 ∧ got (exec (.rteSplit c0) s) (fun t => sent t 0 == [(tok 5 t1, 1001)]) = true := by unfold rteHyps atCell State.cellAt; decide +kernel
theorem witness_RoutingCellsRun_rr : let q : RteSt := { cur := [(1, 0)], pos := 1 }
    let k := tok 5 { t5 with sot := true }
    let s := sRte 2 0 q [(0, [k])] [0, 1]
    rteHyps s 2 .node q ∧ headAt s 0 k ∧ find q.cur 5 = none ∧ roomAt s 1 ∧
    got (exec (.rteSplit c0) s) (fun t => sent t 1 == [(k, 1001)] && cst t == .rte { cur := [(1, 0), (5, 1)], pos := 0 }) = true := by unfold rteHyps atCell State.cellAt; decide +kernel
theorem witness_RoutingCellsRun_copy : let s := sRte 5 0 {} [(0, [tok 3 t1])] [0, 1, 2]
    rteHyps s 5 .node {} ∧ headAt s 0 (tok 3 t1) ∧ (xOf s).outs 0 = [0, 1, 2] ∧ (∀ p ∈ [0, 1, 2], roomAt s p) ∧
    got (exec (.rteSplit c0) s) (fun t => [0, 1, 2].all fun p => sent t p == [(tok 3 t1, 1001)]) = true := by unfold rteHyps atCell State.cellAt; decide +kernel
/-- An inserted RTE of a role in front of or behind two instances of node 0, with another split and a merge. -/
def sIns (role : Role) (mode : Nat) (h : BitVec 64) (q : RteSt) (ins : List (Nat × List Token)) (outs : List Nat) : State :=
  (tweak (sRte mode 0 q ins outs) fun i => { i with role := role, entry := 1 }).modGroup 1 fun x => { x with insts := x.insts ++ [{ node := 0, cell := 1, hdr := h }, { node := 0, cell := 2, copy := 1, hdr := h },
    { node := 0, cell := 3, role := .split, iport := 1, hdr := sh 9 0 0 0, st := .rte {} }, { node := 0, cell := 4, role := .merge, hdr := sh 9 3 0 0, st := .rte { route := [0] } }] }
theorem witness_RoutingCellsRun_split_keyed : let s := sIns .split 0 (sh 1 0 1 0) {} [(0, [tok 3 t1])] [0, 1]
    rteHyps s 0 .split {} ∧ headAt s 0 (tok 3 t1) ∧ classOf ((xOf s).served 0) = 1 ∧ (xOf s).copies 0 = [2, 3] ∧ roomAt s 1 ∧ segs s [0] = true ∧
    got (exec (.rteSplit c0) s) (fun t => sent t 1 == [(tok 3 t1, 1001)]) = true := by unfold rteHyps atCell State.cellAt; decide +kernel
/-- The same with a token at the other split. -/
def sFol (h : BitVec 64) (q : RteSt) (k u : Token) : State := (sIns .split 0 h q [(0, [k])] [0, 1]).modGroup 1 fun x => { x with links := x.links ++ [lk 1 9 4 0 [u]] }
theorem witness_RoutingCellsRun_split : let s := sFol (sh 2 0 0 0) {} (tok 3 t1) (tok 8 t1)
    rteHyps s 0 .split {} ∧ headAt s 0 (tok 3 t1) ∧ classOf ((xOf s).served 0) = 0 ∧ perTok ((xOf s).served 0) = true ∧ (xOf s).firstSplit (iOf s) = true ∧
    (xOf s).followers 0 0 = [4] ∧ (xOf s).head s.cycle 4 0 = some (tok 8 t1) ∧ (xOf s).fedMerges 0 (tok 3 t1) none = [5] ∧ roomAt s 1 ∧
    got (exec (.rteSplit c0) s) (fun t => sent t 1 == [(tok 3 t1, 1001)] && (gr t).insts.map (·.rte.route) == [[], [], [], [], [1], [0, 1]]) = true := by unfold rteHyps atCell State.cellAt; decide +kernel
theorem witness_RoutingCellsRun_split_segment : let k := tok 3 { t1 with sot := true }
    let s := sFol (sh 6 0 0 0) {} k (tok 8 t1)
    let q : RteSt := { cur := [(1, 0)] }
    let u := sFol (sh 6 0 0 0) q (tok 3 t1) (tok 8 t1)
    rteHyps s 0 .split {} ∧ headAt s 0 k ∧ segWise ((xOf s).served 0) = true ∧ (xOf s).firstSplit (iOf s) = true ∧ roomAt s 1 ∧ rteHyps u 0 .split q ∧ find (iOf u).rte.cur 1 = some 0 ∧
    got (exec (.rteSplit c0) s) (fun t => sent t 1 == [(k, 1001)] && (gr t).insts.map (·.rte.route) == [[], [], [], [], [1], [0, 1]]) = true ∧
    got (exec (.rteSplit c0) u) (fun t => sent t 0 == [(tok 3 t1, 1001)] && (gr t).insts.map (·.rte.route) == [[], [], [], [], [], [0]]) = true := by
  unfold rteHyps atCell State.cellAt; decide +kernel
theorem witness_RoutingCellsRun_split_follows : let q : RteSt := { route := [1, 0] }
    let s := (tweak (sIns .split 0 (sh 2 0 0 0) q [(0, [tok 3 t1])] [0, 1]) fun i => { i with iport := 2 })
    rteHyps s 0 .split q ∧ headAt s 0 (tok 3 t1) ∧ (xOf s).firstSplit (iOf s) = false ∧ classOf ((xOf s).served 0) ≠ 1 ∧ segWise ((xOf s).served 0) = false ∧ roomAt s 1 ∧
    got (exec (.rteSplit c0) s) (fun t => sent t 1 == [(tok 3 t1, 1001)] && cst t == .rte { route := [0] }) = true := by unfold rteHyps atCell State.cellAt; decide +kernel
theorem witness_RoutingCellsRun_merge : let q : RteSt := { route := [1, 0] }
    let s := sIns .merge 3 (sh 2 0 0 0) q [(0, [tok 3 t1]), (1, [tok 4 t1])] [0]
    rteHyps s 3 .merge q ∧ ((xOf s).routed 0).contains 0 = true ∧ hd s 1 = some (tok 4 t1) ∧ roomAt s 0 ∧ kindOf ((xOf s).served 0) ∉ [kACC, kRED, kCVT, kBFY, kGAT, kAGN] ∧ segs s [1] = true ∧
    got (exec (.rteMerge c0) s) (fun t => sent t 0 == [(tok 4 t1, 1001)] && atIn t 1 == [] && atIn t 0 == [tok 3 t1] && cst t == .rte { route := [0] }) = true := by unfold rteHyps atCell State.cellAt; decide +kernel
theorem witness_RoutingCellsRun_merge_any : let s := sRte 3 0 {} [(0, []), (1, [tok 4 t1])] [0]
    let s := tweak s fun i => { i with hdr := i.hdr ||| 0x2000000000000 }
    rteHyps s 3 .node {} ∧ commuteOf (iOf s).hdr = true ∧ (xOf s).firstArrived s.cycle 0 = some (1, tok 4 t1) ∧ roomAt s 0 ∧ segs s [1] = true ∧
    got (exec (.rteMerge c0) s) (fun t => sent t 0 == [(tok 4 t1, 1001)] && atIn t 1 == []) = true := by unfold rteHyps atCell State.cellAt; decide +kernel
theorem witness_RoutingCellsRun_merge_held : let q : RteSt := { expect := [(1, 7)], held := [(0, tok 3 t1)] }
    let s := sRte 3 0 q [(0, [tok 4 t5])] [0]
    rteHyps s 3 .node q ∧ commuteOf (iOf s).hdr = false ∧ (q.held.find? fun h => h.2.tag.seq == findD q.expect h.2.tag.thread.toNat 0) = some (0, tok 3 t1) ∧ roomAt s 0 ∧
    got (exec (.rteMerge c0) s) (fun t => sent t 0 == [(tok 3 t1, 1001)] && atIn t 0 == [tok 4 t5] && cst t == .rte { expect := [(1, 8)] }) = true := by unfold rteHyps atCell State.cellAt; decide +kernel
theorem witness_RoutingCellsRun_merge_seq : let q : RteSt := { expect := [(1, 7)] }
    let s := sRte 3 0 q [(0, [tok 4 t5]), (1, [tok 3 t1])] [0]
    rteHyps s 3 .node q ∧ (xOf s).firstHead s.cycle 0 (fun _ k => k.tag.seq == findD q.expect k.tag.thread.toNat 0) = some (1, tok 3 t1) ∧ roomAt s 0 ∧
    got (exec (.rteMerge c0) s) (fun t => sent t 0 == [(tok 3 t1, 1001)] && atIn t 1 == [] && cst t == .rte { expect := [(1, 8)] }) = true := by unfold rteHyps atCell State.cellAt; decide +kernel
theorem witness_RoutingCellsRun_merge_holds : let s := sRte 3 0 {} [(0, [tok 4 t5])] [0]
    rteHyps s 3 .node {} ∧ (xOf s).firstHead s.cycle 0 (fun _ k => k.tag.seq == 0) = none ∧ (xOf s).firstHead s.cycle 0 (fun _ _ => true) = some (0, tok 4 t5) ∧
    got (exec (.rteMerge c0) s) (fun t => sent t 0 == [] && atIn t 0 == [] && cst t == .rte { held := [(0, tok 4 t5)] }) = true := by unfold rteHyps atCell State.cellAt; decide +kernel
theorem witness_RoutingCellsRun_steer : (∀ out ∈ [1, 4], let q : RteSt := { cur := [(1, out)] }
      let s := sRte 4 0 q [(0, [tok 3 t1])] [0, 1]
      rteHyps s 4 .node q ∧ headAt s 0 (tok 3 t1) ∧ find q.cur 1 = some out ∧ (xOf s).outs 0 = [0, 1] ∧ roomAt s 1) ∧
    got (exec (.rteSteer c0) (sRte 4 0 { cur := [(1, 1)] } [(0, [tok 3 t1])] [0, 1])) (fun t => sent t 1 == [(tok 3 t1, 1001)] && cst t == .rte { cur := [(1, 1)] }) = true ∧
    got (exec (.rteSteer c0) (sRte 4 0 { cur := [(1, 4)] } [(0, [tok 3 t1])] [0, 1])) (fun t => sent t 0 ++ sent t 1 == [] && atIn t 0 == [] && cst t == .rte { cur := [(1, 4)] }) = true := by
  unfold rteHyps atCell State.cellAt; decide +kernel
theorem witness_RoutingCellsRun_steer_data : let k := tok (9 * 2 ^ 32) t1
    let s := sRte 4 (2 ^ 32 + 2 ^ 27) {} [(0, [k])] [0, 1]
    rteHyps s 4 .node {} ∧ headAt s 0 k ∧ (iOf s).hdr.getLsbD 32 = true ∧ roomAt s 1 ∧ got (exec (.rteSteer c0) s) (fun t => sent t 1 == [(k, 1001)]) = true := by unfold rteHyps atCell State.cellAt; decide +kernel
theorem witness_RoutingCellsRun_steer_control : (∀ v ∈ [1, 9], let s := sRte 4 0 {} [(0, [tok 3 t1]), (1, [tok v t5])] [0, 1]
      rteHyps s 4 .node {} ∧ headAt s 0 (tok 3 t1) ∧ (iOf s).hdr.getLsbD 32 = false ∧ hd s 1 = some (tok v t5) ∧ roomAt s 1) ∧
    got (exec (.rteSteer c0) (sRte 4 0 {} [(0, [tok 3 t1]), (1, [tok 1 t5])] [0, 1])) (fun t => sent t 1 == [(tok 3 t1, 1001)] && atIn t 1 == []) = true ∧
    got (exec (.rteSteer c0) (sRte 4 0 {} [(0, [tok 3 t1]), (1, [tok 9 t5])] [0, 1])) (fun t => sent t 1 == [] && atIn t 1 ++ atIn t 0 == [] && (gr t).counts.segErr == 1) = true := by
  unfold rteHyps atCell State.cellAt; decide +kernel

/-! TAP -/

def sTap (mode : Nat) (t : Tag) : State := let h := sh 11 mode 0 (2 ^ 38)
  { (cell h [ga 0x1000] .tap [(0, [tok 6 t])] [0]) with
    contexts := [(2, { ctx2 with graphs := [(0x10000, { obj := { obj0 with nodes := [{ hdr := h, words := [] }] }, lver := 1, area := some 0 })] })] }.modGroup 1 fun x => { x with tapset := [(tapKey 0 1 .core, 3)] }
abbrev tapHyps (s : State) (mode : Nat) (k : Token) : Prop := atCell s kTAP ∧ modeOf (iOf s).hdr = mode ∧ (xOf s).headAny s.cycle 0 0 = some k ∧ calmAt s [0] ∧ roomAt s 0
theorem witness_TapsBarriersSettingsAndCounts_tap_plain : (∀ m ∈ [0, 1, 2], tapHyps (sTap m t5) m (tok 6 t5) ∧ (iOf (sTap m t5)).hdr.getLsbD 37 = false ∧
    got (exec (.tapFire c0) (sTap m t5)) (fun t => sent t 0 == [(tok 6 t5, 1001)] && atIn t 0 == [] && t.flights == [] && t.pulses == []) = true) := by unfold tapHyps atCell State.cellAt; decide +kernel
theorem witness_TapsBarriersSettingsAndCounts_tap_barrier : tapHyps (sTap 0 t5w) 0 (tok 6 t5w) ∧
    got (exec (.tapFire c0) (sTap 0 t5w)) (fun t => sent t 0 == [(tok 6 t5w, 1001)] && t.flights.map (·.op) == [.tap 0 1 .core] && t.pulses == []) = true := by unfold tapHyps atCell State.cellAt; decide +kernel
theorem witness_TapsBarriersSettingsAndCounts_tap_pulse : tapHyps (sTap 1 t5w) 1 (tok 6 t5w) ∧ ((sTap 1 t5w).objOf (xOf (sTap 1 t5w))).taps.findIdx? (· == 0) = some 0 ∧
    got (exec (.tapFire c0) (sTap 1 t5w)) (fun t => sent t 0 == [(tok 6 t5w, 1001)] && t.flights == [] && t.pulses == [⟨0, 16⟩]) = true := by unfold tapHyps atCell State.cellAt; decide +kernel
theorem witness_TapsBarriersSettingsAndCounts_tap_retire : tapHyps (sTap 3 t5w) 3 (tok 6 t5w) ∧ laneMask (tok 6 t5w) = 1 ∧ (sTap 3 t5w).retires = [] ∧
    got (exec (.tapFire c0) (sTap 3 t5w)) (fun t => sent t 0 == [] && t.retires == [{ group := 1, inst := 0, header := ga 0x1000 }]) = true := by
  unfold tapHyps atCell State.cellAt; decide +kernel
/-! Barrier tokens, settings, counts -/

def tb : Token := tok 0 { t5 with barrier := true }
abbrev barHyps (s : State) : Prop := s.cellAt c0 (xOf s) (iOf s) ∧ s.barIdle (xOf s) (iOf s) = true ∧ kindOf (iOf s).hdr ≠ kTAP ∧ (xOf s).barIns 0 (iOf s) = [0, 1] ∧ (∀ p ∈ [0, 1], (xOf s).headAny s.cycle 0 p = some tb) ∧ (xOf s).outs 0 = [0] ∧ roomAt s 0
theorem witness_TapsBarriersSettingsAndCounts_barrier : let s := cell (sh 2 0 0 0) [] .vec [(0, [tb]), (1, [tb])] [0]
    barHyps s ∧ got (exec (.barrierTokenPass c0) s) (fun t => sent t 0 == [(tb, 1001)] && atIn t 0 ++ atIn t 1 == []) = true := by unfold barHyps State.cellAt; decide +kernel
theorem witness_TapsBarriersSettingsAndCounts_barrier_own : let s := cell (sh 3 0x20 0 0) [] (.red {}) [(0, [tb]), (1, [tb])] [0]
    barHyps s ∧ got (exec (.barrierTokenPass c0) s) (fun t => sent t 0 == [(tok 0 { o5 with barrier := true }, 1001)] && atIn t 0 ++ atIn t 1 == []) = true := by unfold barHyps State.cellAt; decide +kernel
theorem witness_TapsBarriersSettingsAndCounts_setting : let s := tweak (cell (sh 2 0 0 0) [] .vec [] []) fun i => { i with loaded := false }
    s.inst? c0 = some (xOf s, iOf s) ∧ (iOf s).loaded = false ∧ (iOf s).gone = false ∧ (iOf s).held = false ∧ s.live (xOf s) = true ∧ kindOf (iOf s).hdr ≠ kFNC ∧
    got (exec (.settingLoad c0) s) (fun t => (iOf t).loaded) = true := by decide +kernel
def sFin (n : BitVec 24) : State := (cell (sh 2 0 0 0) [] .vec [] []).modGroup 1 fun x => { x with secs := [{}, { count := n, fin := 1 }] }
theorem witness_TapsBarriersSettingsAndCounts_finish : (sFin 1).group? 1 = some (xOf (sFin 1)) ∧ (xOf (sFin 1)).secs[1]? = some { count := 1, fin := 1 } ∧
    got (exec (.countPointFinish 1 1) (sFin 1)) (fun t => (gr t).secs == [{}, {}] && t.pulses == [⟨0, 1⟩]) = true := by decide +kernel
theorem witness_TapsBarriersSettingsAndCounts_finish_more : (sFin 2).group? 1 = some (xOf (sFin 2)) ∧ (xOf (sFin 2)).secs[1]? = some { count := 2, fin := 1 } ∧
    got (exec (.countPointFinish 1 1) (sFin 2)) (fun t => (gr t).secs == [{}, { count := 1 }] && t.pulses == []) = true := by decide +kernel
theorem test_barrier_passes_merge : let s := sRte 3 0 { expect := [(t5.thread.toNat, t5.seq)] } [(0, [tb]), (1, [tb])] [0]
    barHyps s ∧ got (exec (.barrierTokenPass c0) s) (fun t => sent t 0 == [(tb, 1001)] && cst t == .rte { expect := [(t5.thread.toNat, t5.seq + 1)] }) = true := by
  unfold barHyps State.cellAt; decide +kernel
def t5b : Tag := { t5 with barrier := true }
theorem witness_TapsBarriersSettingsAndCounts_tap_btok : tapHyps (sTap 2 t5b) 2 (tok 6 t5b) ∧ (iOf (sTap 2 t5b)).hdr.getLsbD 36 = false ∧
    got (exec (.tapFire c0) (sTap 2 t5b)) (fun t => sent t 0 == [(tok 6 t5b, 1001)] && t.flights.map (·.op) == [.tap 0 1 .core] && t.pulses == [⟨0, 16⟩]) = true := by
  unfold tapHyps atCell State.cellAt; decide +kernel
theorem witness_TapsBarriersSettingsAndCounts_setting_table : let s : State := { (tweak (cell (sh 4 0 0 0) [ga 0x1000] (.fnc []) [] []) fun i => { i with loaded := false }) with mem := mem1 }
    s.inst? c0 = some (xOf s, iOf s) ∧ (iOf s).loaded = false ∧ kindOf (iOf s).hdr = kFNC ∧ (iOf s).role = .node ∧
    done (s.loadN 2 (ga 0x1000) (some 15) 18 2048) (fun bs _ => bs.length == 2048) = true ∧
    got (exec (.settingLoad c0) s) (fun t => (iOf t).loaded && (match cst t with | .fnc f => f.length == 512 && f.headD 0 == 0x55667788 | _ => false)) = true := by decide +kernel
/-! GAT: block 3, section 0, keyed by thread; step 4 -/

def gatH : BitVec 64 := sh 10 0 1 (2 ^ 30 + 3 * 2 ^ 18 + 15 * 2 ^ 2)
def rc3 : RcEntry := { id := 7, ctx := 2, blk := 3, tile := 0, step := 3, input := [6], output := [tok 8 t5w] }
def sGatC (g : GatSt) (ins : List (Nat × List Token)) (l : List RcEntry) : State := {
  (cell gatH [] (.gat g) ins [0, 1]).modGroup 1 fun x => { x with secs := [{ count := 3 }] } with recalls := [(0, [{ ctx := 2, graph := 0x10000, slots := 2, entries := l }])] }
abbrev gatHyps (s : State) (g : GatSt) : Prop := atCell s kGAT ∧ (iOf s).st = .gat g
def gst (t : State) : GatSt := match cst t with
  | .gat g => g
  | _ => {}
theorem witness_StepCacheCellsRun_forward : let g : GatSt := { fwd := [tok 6 t5, tok 7 t5] }
    gatHyps (sGatC g [] []) g ∧ roomAt (sGatC g [] []) 0 ∧
    got (exec (.gatSegment c0) (sGatC g [] [])) (fun t => sent t 0 == [(tok 6 o5, 1001)] && gst t == { fwd := [tok 7 t5] }) = true := by unfold gatHyps atCell State.cellAt; decide +kernel
theorem witness_StepCacheCellsRun_replay : let g : GatSt := { outs := [.miss 6, .replay 5 7 [tok 8 t5w]] }
    let s := sGatC g [] [{ rc3 with busy := 1 }]
    gatHyps s g ∧ gatFronts gatH g.outs [] = [.miss 6, .replay 5 7 [tok 8 t5w]] ∧ roomAt s 1 ∧
    got (exec (.gatSegment c0) s) (fun t => sent t 1 == [(tok 8 { o5w with replayed := true }, 1001)] && gst t == { outs := [.miss 6] } && (t.rcLookup 0 2 3 0).map (·.busy) == some 0) = true := by
  unfold gatHyps atCell State.cellAt; decide +kernel
theorem witness_StepCacheCellsRun_take : let s := sGatC {} [(0, [tok 6 t5w])] []
    gatHyps s {} ∧ headAt s 0 (tok 6 t5w) ∧ segs s [0] = true ∧
    got (exec (.gatSegment c0) s) (fun t => atIn t 0 == [] && gst t == { held := [tok 6 t5w], whole := some 5, sampled := [(5, 0)] }) = true := by unfold gatHyps atCell State.cellAt; decide +kernel
def gW (rep : Bool) : GatSt := { held := [tok 6 { t5w with replayed := rep }], whole := some 5, sampled := [(5, 4)] }
theorem witness_StepCacheCellsRun_miss : let s := sGatC (gW false) [] []
    gatHyps s (gW false) ∧ ((gW false).nextTile (gatKey gatH 5) 4).1 = 0 ∧ s.gatWaits c0 (gW false) 0 = false ∧ s.rcLookup 0 2 (gatBlk gatH) 0 = none ∧
    got (exec (.gatSegment c0) s) (fun t => (gst t).held == [] && (gst t).outs == [.miss 5] && (gst t).fwd == [tok 6 { t5w with first := true }] &&
      (gst t).caps == [{ thread := 5, tile := 0, step := 4, input := [6], bad := false }]) = true := by unfold gatHyps atCell State.cellAt; decide +kernel
theorem witness_StepCacheCellsRun_hit : let s := sGatC (gW true) [] [rc3]
    gatHyps s (gW true) ∧ s.gatWaits c0 (gW true) 0 = false ∧ s.rcLookup 0 2 (gatBlk gatH) 0 = some rc3 ∧ rc3.step = 4 - 1 ∧ rc3.input.length = (gW true).held.length ∧ hf gatH 38 31 = 0 ∧ gatH.getLsbD 30 = true ∧
    (xOf s).secs[hf gatH 17 6]? = some { count := 3 } ∧
    got (exec (.gatSegment c0) s) (fun t => gst t == { outs := [.replay 5 7 [tok 8 t5w]], tiles := [(5, 1)], steps := [(5, 4)] } &&
      (t.rcLookup 0 2 3 0).map (fun e => (e.step, e.replays, e.busy)) == some (4, 1, 1) && (gr t).secs.map (·.fin) == [1]) = true := by unfold gatHyps atCell State.cellAt; decide +kernel
def cap5 : Capture := { thread := 5, tile := 0, step := 4, input := [6], bad := false }
def gR : GatSt := { outs := [.miss 5], caps := [cap5] }
theorem witness_StepCacheCellsRun_return : let s := sGatC gR [(1, [tok 8 { t5 with sot := true }])] []
    gatHyps s gR ∧ headAt s 1 (tok 8 { t5 with sot := true }) ∧ (gatFronts gatH gR.outs []).contains (.miss 5) = true ∧ roomAt s 1 ∧ segs s [1] = true ∧ gR.caps.find? (·.thread == 5) = some cap5 ∧
    got (exec (.gatReturn c0) s) (fun t => sent t 1 == [(tok 8 { o5 with sot := true }, 1001)] && atIn t 1 == [] && gst t == { gR with caps := [{ cap5 with output := [tok 8 { t5 with sot := true }] }] }) = true := by
  unfold gatHyps atCell State.cellAt; decide +kernel
theorem witness_StepCacheCellsRun_return_end : let s := sGatC gR [(1, [tok 8 t5w])] []
    gatHyps s gR ∧ headAt s 1 (tok 8 t5w) ∧ roomAt s 1 ∧ segs s [1] = true ∧
    got (exec (.gatReturn c0) s) (fun t => sent t 1 == [(tok 8 o5w, 1001)] && gst t == {} && t.rcWrites.map (fun w => (w.entry.blk, w.entry.step, w.entry.output)) == [(3, 4, [tok 8 t5w])]) = true := by
  unfold gatHyps atCell State.cellAt; decide +kernel
def wr3 : RcWrite := { die := 0, graph := 0x10000, group := 1, inst := 0, entry := { rc3 with id := 9, step := 4 } }
theorem witness_StepCacheCellsRun_write : (∀ l ∈ [[rc3, { rc3 with id := 6, tile := 1 }], []], let s : State := { sGatC {} [] l with rcWrites := [wr3] }
      s.rcWrites[0]? = some wr3 ∧ (findD s.recalls 0 []).find? (fun b => b.ctx == 2 && b.graph == 0x10000) = some { ctx := 2, graph := 0x10000, slots := 2, entries := l }) ∧
    got (exec (.recallEntryWrite 0) { sGatC {} [] [rc3, { rc3 with id := 6, tile := 1 }] with rcWrites := [wr3] }) (fun t => t.rcWrites == [] && (t.rcLookup 0 2 3 0).map (·.id) == some 9 &&
      (t.rcLookup 0 2 3 1).map (·.id) == some 6) = true ∧
    got (exec (.recallEntryWrite 0) { sGatC {} [] [] with rcWrites := [wr3] }) (fun t => t.rcWrites == [] && t.rcLookup 0 2 3 0 == some wr3.entry) = true := by decide +kernel


/-! ### Events -/

/-- Core 0 with a term in slot 3. -/
def sTrm (s : State) (u : Term) : State := s.setCore { core0 with terms := core0.terms.set 3 u }
/-- A term of source A 3 and B 4: an operator, an action, an amount 5. -/
def tw (op act : Nat) : BitVec 40 := BitVec.ofNat 40 (2 * 2 ^ 26 + 2 * 2 ^ 23 + 5 * 2 ^ 15 + act * 2 ^ 12 + op * 2 ^ 10 + 4 * 2 ^ 5 + 3)
def trm (t : State) : Term := t.core.terms.toList.getD 3 {}
theorem witness_EventFabricSteps_pulse : let s := { sTrm base { word := tw 0 1, pend := 255 } with pulses := [⟨9, 3⟩, ⟨0, 3⟩] }
    let u := { sTrm base { word := tw 2 1 } with pulses := [⟨0, 4⟩] }
    s.pulses[1]? = some ⟨0, 3⟩ ∧ u.pulses[0]? = some ⟨0, 4⟩ ∧ got (exec (.eventPulse 1) s) (fun t => t.pulses == [⟨9, 3⟩] && (trm t).pend == 255) = true ∧
    got (exec (.eventPulse 0) u) (fun t => t.pulses == [] && (trm t).b && !(trm t).a) = true := by decide +kernel
abbrev termHyps (s : State) (g : Group) (u : Term) : Prop := (s.coreAt 0).terms.toList[3]? = some u ∧ (s.coreAt 0).group = some 1 ∧ s.group? 1 = some g ∧ s.cmdLive g = true ∧ g.preempt = none ∧
  ∀ v ∈ (s.coreAt 0).terms.toList.drop 3, v.last ≠ s.cycle + 1
theorem witness_EventFabricSteps_count : let u : Term := { word := tw 0 1, pend := 2 }
    let s := (sTrm base u).setCore { (sTrm base u).core with ec := core0.ec.set 2 0xFFFFFFFE }
    termHyps s grp u ∧ got (exec (.eventTermAct 0 3) s) (fun t => t.core.evc 2 == 0xFFFFFFFF && trm t == { u with pend := 1, last := 1001 }) = true := by decide +kernel
theorem witness_EventFabricSteps_section : let u : Term := { word := tw 2 2, a := true, b := true }
    let s := sTrm { base with groups := [(1, { grp with secs := [{}, {}, { count := 7 }] })] } u
    termHyps s { grp with secs := [{}, {}, { count := 7 }] } u ∧ got (exec (.eventTermAct 0 3) s) (fun t => (gr t).secs == [{}, {}, { count := 12 }] && trm t == { u with a := false, b := false, last := 1001 }) = true := by decide +kernel
theorem witness_EventFabricSteps_issue : let u : Term := { word := tw 1 3, b := true }
    let s := sTrm (withCmds base [0, 0, 0, 0, 0, armWord]) u
    let f := s.setCore (s.core.setPort 2 { queue := List.replicate 8 { word := armWord } })
    termHyps s grp u ∧ termHyps f grp u ∧ (s.entryAt 0 5 0 0).2 = 2 ∧ (s.core.port 2).queue.length < 8 ∧ 8 ≤ (f.core.port 2).queue.length ∧
    got (exec (.eventTermAct 0 3) s) (fun t => (t.portAt 0 2).queue.map (·.word) == [armWord] && trm t == { u with b := false, last := 1001 }) = true ∧ got (exec (.eventTermAct 0 3) f) (fun t => t == f) = true := by decide +kernel
theorem witness_EventFabricSteps_swap : let x : Win := { winA with mode := .exchange, shadow := some (bank 2) }
    let s := wins base 4 x
    let s := { s.setCore { s.core with swaps := [(4, [4])] } with flights := [{ fl (.xstore 0 []) 0 with applied := true }] }
    (s.coreAt 0).swaps.find? (fun q => q.1 == 4) = some (4, [4]) ∧ (∀ f ∈ s.flights, f.id ∈ [4] → f.applied = true ∨ f.failed = true) ∧
    got (exec (.exchangeSwap 0 4) s) (fun t => t.core.swaps == [] && t.core.win 4 == { x with bank := some (bank 2), shadow := some (bank 1) }) = true := by decide +kernel
def spl (a : Word) (write : Bool) (dest : SpillTo) : Spill := {
  port := 0, ctx := 2, group := 1, stream := (0, 1, 2), dest := dest, piece := { addr := a, bytes := 2, bitOff := 8, out := [0xAA, 0xBB] }, fmt := 15, spd := 0, write := write, fault := a
  cause := 0x20, level := 1, stage2 := false, retry := true, kind := .cell, loc := 0, src := 0, a := 2 }
theorem witness_EventFabricSteps_retry_put : let x := spl (ga 0x1000) true (.put 3 7)
    let s := { base with mem := mem1, spill := [x] }
    s.spill[0]? = some x ∧ x.retry = true ∧ (match s.globalEl x.ctx x.piece x.fmt x.spd x.write with | .ok _ _ _ _ [] => true | _ => false) = true ∧
    got (exec (.spillRetry 0) s) (fun t => t.spill == [] && Memory.readN t.mem 0x1000 3 == [0xAA, 0xBB, 0x66]) = true := by decide +kernel
theorem witness_EventFabricSteps_retry_buf : let x := spl (ga 0x1000) false (.buf 2 3)
    let b : TokBuf := { id := 3, tag := {}, spilled := 1 }
    let s := { baseC with mem := mem1, spill := [{ x with port := 1, stream := (0, 1, 9) }, x], groups := [(1, { grpC with insts := [inst 0 (.tap), inst 1 (.mat {}), inst 2 (.agn { bufs := [b] })] })] }
    s.spill[1]? = some x ∧ (∀ e ∈ s.spill.take 1, ¬ (e.retry = true ∧ e.port = x.port) ∧ ¬ (e.stream = x.stream ∧ e.ctx = x.ctx)) ∧ (gr s).status = .running ∧
    got (exec (.spillRetry 1) s) (fun t => t.spill.length == 1 && (gr t).insts.flatMap (fun i => i.agn.bufs.map fun b => (b.spilled, b.late, b.data)) == [(0, true, 0x778800)]) = true := by decide +kernel
/-- An element of FP32 on a page of raw bytes: cause 0x21, field C the page's format code (R452). -/
theorem witness_EventFabricSteps_retry_again : let x := { spl (ga 0x1000) false (.buf 2 3) with fmt := 0 }
    let s := { baseC with spill := [x] }
    let y := { x with cause := 0x21, level := 0, retry := false, tried := true }
    (match s.globalEl x.ctx x.piece x.fmt x.spd x.write with | .err e _ => (e.cause, e.fieldC, e.host, e.addr) | _ => (0, 0, true, 0)) = (0x21, 15, false, ga 0x1000) ∧
    got (exec (.spillRetry 0) s) (fun t => t.spill == [y] && t.recs.length == 1) = true ∧
    got (exec (.spillRetry 0) { s with spill := [{ y with retry := true }] }) (fun t => t.spill == [y] && t.recs == []) = true := by decide +kernel
theorem test_tlb_drop : got (exec (.tlbEntryDrop 1) base) (fun t => t.tlb.map (·.port) == 0 :: (List.range 16).drop 2) = true := by decide +kernel
def rcd : FRec := { tenant := 3, cause := 0x20, kind := .cell, ctx := 2, loc := 0, a := 0x11, b := 0x22, c := 3, src := 0 }
/-- A fault queue of 16 slots in memory: at 0x2000 with records at 0x3000, tail n. -/
def sFq (n : Nat) : State := { base with mem := Memory.writeN [] 0x2000 (leBytes 8 n ++ wordBytes (ga 0x3000) ++ leBytes 1 4), recs := [rcd] }
theorem witness_EventFabricSteps_record : (sFq 17).recs[0]? = some rcd ∧ (sFq 17).inOrder (2 ^ 40 + 3) 0 = true ∧ ((sFq 17).tenant? 3).map (·.cfg) = some tenCfg ∧
    done ((sFq 17).load 2 (ga 0x2000) 64 (some 15)) (fun h _ => queueFull h && hdr64 h 0x28 == 0) = true ∧ done ((sFq 1).load 2 (ga 0x2000) 64 (some 15)) (fun h _ => !queueFull h) = true ∧
    got (exec (.faultRecordAppend 0) (sFq 1)) (fun t => t.recs == [] && Memory.readN t.mem 0x2000 8 == leBytes 8 2 && Memory.readN t.mem 0x3020 32 ==
      [0x20, 0x20, 2, 0, 0, 0, 0, 0, 0x11, 0, 0, 0, 0, 0, 0, 0, 0x22, 0, 0, 0, 0, 0, 0, 0, 3, 0, 0, 0, 1, 0, 0, 0]) = true ∧
    got (exec (.faultRecordAppend 0) (sFq 17)) (fun t => t.recs == [] && Memory.readN t.mem 0x2000 8 == leBytes 8 17 && Memory.readN t.mem 0x2020 8 == leBytes 8 1) = true := by decide +kernel
theorem witness_EventFabricSteps_record_away : let s := { sFq 1 with tlb := [] }
    (match s.load 2 (ga 0x2000) 64 (some 15) with | .err _ _ => true | _ => false) = true ∧ got (exec (.faultRecordAppend 0) s) (fun t => t.recs == [] && t.hrecs == [rcd]) = true ∧
    got (exec (.faultRecordAppend 0) { s with tenants := [] }) (fun t => t.recs == [] && t.hrecs == []) = true := by decide +kernel
def sHq (tail : Nat) : State := { base with hrecs := [rcd], host := { base.host with hfq := 0x400, mem := Memory.writeN [] 0x400 (leBytes 8 tail ++ leBytes 8 0x800 ++ leBytes 1 4) } }
theorem witness_EventFabricSteps_host : (sHq 1).hrecs[0]? = some rcd ∧ ((sHq 1).mem.wf ∧ (sHq 1).banks.wf ∧ (sHq 1).host.mem.wf) ∧ (sHq 1).host.hfq ≠ 0 ∧
    queueFull (Memory.readN (sHq 1).host.mem 0x400 64) = false ∧ queueFull (Memory.readN (sHq 16).host.mem 0x400 64) = true ∧ (slotAddr (Memory.readN (sHq 1).host.mem 0x400 64) 1).toNat = 0x820 ∧
    got (exec (.hostFaultRecordAppend 0) (sHq 1)) (fun t => t.hrecs == [] && t.host.msix == [0] && Memory.readN t.host.mem 0x400 8 == leBytes 8 2 && (Memory.readN t.host.mem 0x820 32).take 2 == [0x20, 0x20]) = true ∧
    got (exec (.hostFaultRecordAppend 0) (sHq 16)) (fun t => t.hrecs == [] && t.host.msix == [] && Memory.readN t.host.mem 0x420 8 == leBytes 8 1) = true ∧
    got (exec (.hostFaultRecordAppend 0) { base with hrecs := [rcd] }) (fun t => t.hrecs == [] && t.host == base.host) = true := by decide +kernel
theorem witness_EventFabricSteps_record_purging : let s := { sFq 1 with contexts := [(2, { ctx2 with purging := true })] }
    s.recs[0]? = some rcd ∧ ((s.context? 2).map (·.purging)) = some true ∧ got (exec (.faultRecordAppend 0) s) (fun t => t.recs == [] && t.mem == s.mem) = true := by decide +kernel
/-- The same queue with a future, which the record fills. -/
def sFqF : State := { sFq 1 with mem := Memory.writeN (sFq 1).mem 0x2028 (wordBytes (ga 0x1F00)) }
theorem witness_EventFabricSteps_record_future : (sFqF.faultPorts 3).1 = [0x2000, 0x3020, 0x1F00].map (fun a => homePort (ga a)) ∧
    got (exec (.faultRecordAppend 0) sFqF) (fun t => t.recs == [] && Memory.readN t.mem 0x2000 8 == leBytes 8 2 && (Memory.readN t.mem 0x1F00 8).getD 7 0 == 0x80) = true := by decide +kernel

/-! ### Submissions, copies, queues, packets -/

/-- A launch block of context 2 for the graph at 0x10000, any die and quad, one core, counter at 0x1000, arguments 11 to 14. -/
def blkC : List Byte := wordBytes 0x10000 ++ leBytes 4 0 ++ leBytes 2 0 ++ leBytes 2 0xF0FF ++ wordBytes (ga 0x1000) ++ wordBytes 11 ++ wordBytes 12 ++ wordBytes 13 ++ wordBytes 14 ++ leBytes 2 0xFFFF ++ leBytes 6 0
def subC : Submission := { addr := ga 0x5000, block := blkC, ctx := 2, tenant := 3, die := 0, src := 0 }
def sSub (n armed : Nat) : State := { base with mem := counterAt n armed 0, subs := [subC] }
theorem witness_QueuesAndCountersServed_submission : (sSub 2 0).subs[0]? = some subC ∧ (sSub 2 0).inOrder (homePort (blkCounter blkC)) 0 = true ∧
    done ((sSub 2 0).load 2 (blkCounter blkC) 16 (some 15)) (fun c _ => fieldN c 0 4 == 2 && fieldN c 4 1 == 0) = true ∧ done ((sSub 2 1).load 2 (blkCounter blkC) 16 (some 15)) (fun c _ => (fieldN c 4 1).testBit 0) = true ∧
    overBanks ((sSub 0 0).winsOf (blkContext blkC 2) blkC) (blkK blkC) = none ∧
    got (exec (.counterSubmission 0) (sSub 2 0)) (fun t => t.subs == [] && t.mem == counterAt 2 1 (ga 0x5000).toNat) = true ∧
    got (exec (.counterSubmission 0) (sSub 2 1)) (fun t => t.subs == [] && t.recs.map (fun r => (r.cause, r.a)) == [(0x41#8, ga 0x5000)] && t.mem == counterAt 2 1 0) = true ∧
    got (exec (.counterSubmission 0) (sSub 0 0)) (fun t => t.subs == [] && (findD t.units 0 {}).ready == [(3, [{ addr := ga 0x5000, block := blkC, ctx := 2, since := 1000 }])]) = true := by decide +kernel

/-- A copy command of one descriptor at 0x1800: 8 bytes from 0x1000 to 0x1100, one successor counter. -/
def dsc (len : Nat) : List Byte := wordBytes (ga 0x1000) ++ wordBytes (ga 0x1100) ++ leBytes 4 len ++ leBytes 4 0 ++ wordBytes (ga 0x1200) ++ leBytes 24 0 ++ leBytes 8 0
def jobC : CopyJob := { core := 0, port := 2, id := 4, ctx := 2, tenant := 3, group := 1, list := ga 0x1800, count := 1, pulse := true }
def sCpy (j : CopyJob) (len : Nat) : State := { base with mem := Memory.writeN mem1 0x1800 (dsc len), engines := [(0, [j])] }
theorem witness_QueuesAndCountersServed_descriptor : findD (sCpy jobC 8).engines 0 [] = [jobC] ∧ (sCpy jobC 8).copyLive 0 jobC = true ∧ (sCpy jobC 8).coresDone grp = false ∧ jobC.desc = [] ∧
    (dsc 8 ≠ [] ∧ copyRefused (dsc 8) = false ∧ copyRefused (dsc 0) = true) ∧ done ((sCpy jobC 8).load 2 (ga 0x1800) 64 (some 15)) (fun d _ => d == dsc 8) = true ∧
    got (exec (.copyDescriptor 0) (sCpy jobC 8)) (fun t => findD t.engines 0 [] == [{ jobC with desc := dsc 8 }]) = true ∧
    got (exec (.copyDescriptor 0) (sCpy jobC 0)) (fun t => findD t.engines 0 [] == [{ jobC with desc := dsc 0, ready := true, status := 1 }] && t.recs.map (fun r => (r.cause, r.a)) == [(0x40#8, ga 0x1800)]) = true := by decide +kernel
theorem witness_QueuesAndCountersServed_copy : let j := { jobC with desc := dsc 8 }
    let s := sCpy j 8
    j.desc ≠ [] ∧ j.pos < j.len ∧ j.part = 8 ∧ s.isExchange j.src = false ∧ s.isExchange j.dst = false ∧ done (s.translate 2 j.src false (some 15)) (fun p t => p.1 == 0x1000 && t == s && !s.bad 0x1000) = true ∧
    s.scrub 0x1000 = s ∧ done (s.translate 2 j.dst true (some 15)) (fun p t => p.1 == 0x1100 && !t.bad 0x1100) = true ∧ (s.mem.wf ∧ s.banks.wf ∧ s.host.mem.wf) ∧
    got (exec (.copyDescriptor 0) s) (fun t => Memory.readN t.mem 0x1100 8 == wordBytes 0x1122334455667788 && findD t.engines 0 [] == [{ j with pos := 8, ready := true }]) = true := by decide +kernel
theorem witness_QueuesAndCountersServed_copied : (∀ n ∈ [1, 2], let j := { jobC with desc := dsc 8, pos := 8, ready := true, count := n }
      j.ready = true ∧ (sCpy j 8).copyLive 0 j = true ∧ j.resp = false ∧ findD (sCpy j 8).engines 0 [] = [j]) ∧
    got (exec (.copyDescriptorDone 0) (sCpy { jobC with desc := dsc 8, pos := 8, ready := true } 8)) (fun t => t.flights.map (fun f => (f.op, f.kind, f.core, f.ctx)) == [(.dec (ga 0x1200), .engine, 2048, 2)] &&
      t.pulses == [⟨0, 23⟩] && findD t.engines 0 [] == []) = true ∧
    got (exec (.copyDescriptorDone 0) (sCpy { jobC with desc := dsc 8, pos := 8, ready := true, count := 2, status := 2 } 8)) (fun t => t.flights == [] && t.pulses == [] &&
      findD t.engines 0 [] == [{ jobC with next := 1, count := 2 }]) = true := by decide +kernel

/-- A retire queue of 16 slots at 0x1000 with records at 0x3000. -/
def retC : Retire := { group := 1, inst := 0, header := ga 0x1000 }
def sRet (tail : Nat) : State := { sTap 3 t5w with mem := Memory.writeN [] 0x1000 (leBytes 8 tail ++ wordBytes (ga 0x3000) ++ leBytes 1 4), retires := [retC] }
theorem witness_QueuesAndCountersServed_retire : (sRet 1).retires[0]? = some retC ∧ (sRet 1).inst? ⟨1, 0⟩ = some (xOf (sRet 1), iOf (sRet 1)) ∧ (sRet 1).inOrder (retirePlace (homePort retC.header)) (iOf (sRet 1)).node = true ∧ retC.due = false ∧ (xOf (sRet 1)).headAny 1000 0 0 = some (tok 6 t5w) ∧
    laneMask (tok 6 t5w) ≠ 0 ∧ (sRet 1).mayFire (xOf (sRet 1)) 0 (iOf (sRet 1)) = true ∧ roomAt (sRet 1) 0 ∧ ((xOf (sRet 1)).copies 0).length ≤ 1 ∧
    done ((sRet 1).loadZ 2 (ga 0x1000) 2 64) (fun (h, bad) _ => bad == [] && retireHdrOk h && !queueFull h && hdr64 h 0x28 == 0) = true ∧ done ((sRet 16).loadZ 2 (ga 0x1000) 2 64) (fun (h, bad) _ => bad == [] && retireHdrOk h && queueFull h) = true ∧
    got (exec (.retireRecordAppend 0) (sRet 16)) (fun t => t == sRet 16) = true ∧
    got (exec (.retireRecordAppend 0) (sRet 1)) (fun t => t.retires == [] && sent t 0 == [(tok 6 t5w, 1001)] && atIn t 0 == [] && (iOf t).fired == some 1000) = true := by decide +kernel

/-! An intake queue of 16 slots of 64 bytes: header at 0x1000, records at 0x3000. Record 0 starts with 7, the rest of its payload is 0, with CRC-32C 0xC0874065. -/

def qHdr (tail checked head : Nat) : List Byte := leBytes 8 tail ++ wordBytes (ga 0x3000) ++ leBytes 1 4 ++ leBytes 1 1 ++ leBytes 2 2 ++ leBytes 4 0 ++ leBytes 8 checked ++ leBytes 8 head ++ leBytes 8 0 ++ leBytes 16 0
def rec0 : List Byte := leBytes 56 7 ++ leBytes 4 0xC0874065 ++ leBytes 4 0
def monC : Monitor := { header := ga 0x1000, ctx := 2, active := true }
def sQ (m : Monitor) (h r : List Byte) : State := { base with mem := Memory.writeN (Memory.writeN [] 0x1000 h) 0x3000 r, tenants := [(3, { cfg := tenCfg, key := 1, queues := [(0, m)] })] }
theorem test_crc : crc32c [0x31, 0x32, 0x33, 0x34, 0x35, 0x36, 0x37, 0x38, 0x39] = 0xE3069283 := by decide +kernel
abbrev monHyps (s : State) (m : Monitor) (h : List Byte) : Prop := s.monitor? 3 0 = some m ∧ m.active = true ∧ m.held = false ∧ m.retry = none ∧ m.due = false ∧
  done (s.translate 2 m.header false (some 15)) (fun p t => p.1 == 0x1000 && t == s) = true ∧ done ((s.modMonitor 3 0 fun m => { m with place := 0x1000 }).load 2 m.header 64 (some 15)) (fun b _ => b == h) = true ∧ qOn h = true ∧ qErr h = false
theorem witness_QueuesAndCountersServed_check : let h := qHdr 1 0 0
    let s := sQ monC h rec0
    monHyps s monC h ∧ qChecked h < qTail h ∧ (qTail h + 2 ^ 64 - qHead h) % 2 ^ 64 ≤ 2 ^ qSlots h ∧ qFuture h = 0 ∧ done (s.loadN 2 (qSlot h 0) (some 15) 3 64) (fun r _ => r == rec0 && stampOk r 0) = true ∧
    got (exec (.queueMonitorCheck 3 0) s) (fun t => t.monitor? 3 0 == some { monC with place := 0x1000 } && Memory.readN t.mem 0x1018 8 == leBytes 8 1) = true := by unfold monHyps; decide +kernel
theorem witness_QueuesAndCountersServed_checked : let h := qHdr 1 1 0
    let s := sQ monC h []
    monHyps s monC h ∧ qChecked h ≤ qTail h ∧ qChecked h = qTail h ∧ (qTail h + 2 ^ 64 - qHead h) % 2 ^ 64 ≤ 2 ^ qSlots h ∧
    got (exec (.queueMonitorCheck 3 0) s) (fun t => t.monitor? 3 0 == some { monC with place := 0x1000, active := false } && t.mem == s.mem) = true := by unfold monHyps; decide +kernel
theorem witness_QueuesAndCountersServed_bounds : let h := qHdr 17 1 0
    let m := { monC with fresh := true }
    let s := sQ m h []
    monHyps s m h ∧ m.fresh = true ∧ qOn h = true ∧ ¬ (qTail h + 2 ^ 64 - qHead h) % 2 ^ 64 ≤ 2 ^ qSlots h ∧
    got (exec (.queueMonitorCheck 3 0) s) (fun t => t.monitor? 3 0 == some { monC with place := 0x1000, active := false } && Memory.readN t.mem 0x1012 2 == [3, 0]) = true := by unfold monHyps; decide +kernel
/-- A record whose CRC differs is read again after 128 cycles. -/
theorem witness_QueuesAndCountersServed_stale : let s := sQ monC (qHdr 1 0 0) (leBytes 56 8 ++ leBytes 4 0xC0874065 ++ leBytes 4 0)
    got (exec (.queueMonitorCheck 3 0) s) (fun t => t.monitor? 3 0 == some { monC with place := 0x1000, retry := some 1000 } && Memory.readN t.mem 0x1014 4 == leBytes 4 1) = true ∧
    (∀ c ∈ [900, 872], (sQ { monC with retry := some c } (qHdr 1 0 0) rec0).monitor? 3 0 = some { monC with retry := some c }) ∧
    got (exec (.queueMonitorRetry 3 0) (sQ { monC with retry := some 900 } (qHdr 1 0 0) rec0)) (fun t => t == sQ { monC with retry := some 900 } (qHdr 1 0 0) rec0) = true ∧
    got (exec (.queueMonitorRetry 3 0) (sQ { monC with retry := some 872 } (qHdr 1 0 0) rec0)) (fun t => t.monitor? 3 0 == some { monC with place := 0x1000 } && Memory.readN t.mem 0x1018 8 == leBytes 8 1) = true := by decide +kernel
def pkC (n : Nat) : LaunchPkt := { tenant := 3, queue := 0, length := n, reply := 0x99, tag := 0x42, record := List.replicate n 0x5A }
/-- The case of a report (R110). -/
def answered (t : State) (st : Nat) : Bool := t.host.net.map (fun p => (p.1, p.2.take 8, p.2.getD 10 0)) == [(0x99, wordBytes 0x42, BitVec.ofNat 8 st)]
theorem witness_QueuesAndCountersServed_packet : let s := sQ { monC with active := false } (qHdr 1 1 0) []
    s.host.ready = true ∧ (s.tenant? 3).map (fun te => (te.down, find te.queues 0)) = some (false, some { monC with active := false }) ∧
    done (s.load 2 (ga 0x1000) 64 (some 15)) (fun h _ => h == qHdr 1 1 0) = true ∧ qOn (qHdr 1 1 0) = true ∧ qSize (qHdr 1 1 0) = 1 ∧
    got (exec (.launchPacket (pkC 64)) s) (fun t => answered t 0 && Memory.readN t.mem 0x3040 64 == (pkC 64).record && Memory.readN t.mem 0x1000 8 == leBytes 8 2) = true ∧
    got (exec (.launchPacket (pkC 63)) s) (fun t => answered t 3 && t.mem == s.mem) = true ∧
    got (exec (.launchPacket (pkC 64)) (sQ { monC with active := false } (qHdr 16 1 0) [])) (fun t => answered t 1) = true ∧ got (exec (.launchPacket (pkC 64)) { s with tenants := [] }) (fun t => answered t 2) = true := by decide +kernel
def icC : IntakeCfg := { tenant := 3, queue := 1, ctx := 2, header := ga 0x1000, base := ga 0x3000, slots := 4, size := 1, future := ga 0x1F00 }
theorem witness_QueuesAndCountersServed_create : intakeOk icC = true ∧ (base.context? 2).map (·.cfg.tenant) = some 3 ∧ (base.tenant? 3).isSome = true ∧ done (base.translate 2 (ga 0x1000) false (some 15)) (fun p _ => p.1 == 0x1000) = true ∧
    got (exec (.intakeQueueCreate icC) base) (fun t => t.monitor? 3 1 == some { header := ga 0x1000, ctx := 2, place := 0x1000 } && Memory.readN t.mem 0x1010 4 == [4, 1, 2, 0] &&
      Memory.readN t.mem 0x1028 8 == wordBytes (ga 0x1F00) && Memory.readN t.mem 0x1030 16 == leBytes 16 0) = true := by decide +kernel

/-! ### Launches, layout, splices -/

/-- Context 2 with room to save one group. -/
def ctxRoom : Context := { ctx2 with cfg := { ctxCfg with saveLen := 2 ^ 24 } }
/-- The FIPS 180-4 example of SHA-384, of the three bytes of "abc". -/
theorem test_sha384 : leNat (sha384 [0x61, 0x62, 0x63]).reverse = 0xcb00753f45a35e8bb5a03d699ac65007272c32ab0eded1631a8b605a43ff5bed8086072ba1e7cc2358baeca134c825a7 := by decide +kernel
/-- A graph object of one word of code (R54), and its SHA-384. -/
def grB : List Byte := leBytes 4 0x014F4753 ++ leBytes 2 1 ++ leBytes 2 0 ++ leBytes 4 132 ++ leBytes 68 0 ++ leBytes 4 128 ++ leBytes 4 1 ++ leBytes 40 0 ++ leBytes 4 0x6E000007
def grKey : Nat := 0xf040fa43d81c75c019aef6c3fcaab743848b0aaf07c9c77664ef3b8fa80664def7a294d459c085233f83ccf14173273e
/-- The block of that graph at 0x4000 for a quad, of priority 1. -/
def blkL (quad : Nat) : List Byte := wordBytes (ga 0x4000) ++ leBytes 4 0 ++ leBytes 2 1 ++ leBytes 2 (0xF000 + quad) ++ (blkC.drop 0x10)
def rdy (quad : Nat) : Ready := { addr := ga 0x5000, block := blkL quad, ctx := 2, since := 1000 }
/-- The launch unit of die 0 with one ready group of level 1 and tenant 3. -/
def sLau (quad : Nat) : State := {
  base with units := [(0, { ready := [(67, [rdy quad])] })], contexts := [(2, { ctxRoom with graphs := ctx2.graphs ++ [(grKey, { obj := obj0, lver := 1, area := some 0 })] })], mem := Memory.writeN [] 0x4000 grB }
theorem witness_LaunchAndLayoutSteps_launch : let s := sLau 1
    s.launches = true ∧ s.pickReady 0 = some (1, 3, rdy 1) ∧ (rdy 1).group = none ∧ s.spots 0 (rdy 1) = [(0, 4)] ∧
    (match s.loadGraph 2 0 (blkGraph (rdy 1).block) with | .ok t k => k == grKey && t.nextId == 10 && (t.graphSt 2 k).map (fun gs => (gs.area, gs.obj)) == some (some 0, obj0) | _ => false) = true ∧
    got (exec (.groupLaunch 0 4) s) (fun t => (findD (findD t.units 0 {}).ready 67 []) == [] && (t.group? 10).map (fun y => (y.ctx, y.die, y.first, y.k, y.level, y.key)) == some (2, 0, 4, 0, 1, grKey) &&
      (let c := t.coreAt 4; c.group == some 10 && c.pc == 0 && c.rd 1 == 11 && c.rd 4 == 14 && c.rd 5 == 0 && c.rd 6 == 1 && !c.tvEn)) = true := by decide +kernel
/-- With no graph object in memory check 1 fails. -/
theorem witness_LaunchAndLayoutSteps_failed : let s := { sLau 1 with mem := [] }
    s.pickReady 0 = some (1, 3, rdy 1) ∧ s.spots 0 (rdy 1) = [(0, 4)] ∧ (match s.loadGraph 2 0 (ga 0x4000) with | .failed _ => true | _ => false) = true ∧
    got (exec (.groupLaunch 0 4) s) (fun t => findD (findD t.units 0 {}).ready 67 [] == [] && t.groups == s.groups && t.recs != []) = true := by decide +kernel
def objL : GObj := { objC with links := [{ src := 1, sp := 0, dst := 3, dp := 0, slots := 8 }] }
def sPla : State := { base with groups := [(1, { grp with status := .placing })], cores := [(0, { core0 with status := .idle })], contexts := [(2, { ctx2 with graphs := [(0x10000, { obj := objL, lver := 1, area := some 0 })] })] }
/-- A TAP, a MAT, two AGNs and a CNT on the first cells of their kinds (log entry 13). -/
def plC : List Place := [⟨0, 62, 0⟩, ⟨0, 0, 0⟩, ⟨0, 44, 0⟩, ⟨0, 45, 1⟩, ⟨0, 38, 0⟩]
theorem witness_LaunchAndLayoutSteps_place : (sPla.group? 1).map (·.status) = some .placing ∧ (sPla.graphSt 2 0x10000).map (·.obj) = some objL ∧ plC.length = objL.nodes.length ∧
    (let placed := (List.range plC.length).zip plC; placed.all fun q => placeOk objL 0 (objL.shares 0) (placed.filter (·.1 != q.1)) q.1 q.2) = true ∧
    got (exec (.placeGraph 1 plC) sPla) (fun t => (gr t).status == .running && (gr t).insts.map (fun i => (i.node, i.cell, i.entry)) == [(0, 62, 0), (1, 0, 0), (2, 44, 0), (3, 45, 1), (4, 38, 0)] &&
      (gr t).links.map (fun l => (l.src, l.dst, l.slots, l.toks)) == [(1, 3, 8, [])] && (gr t).secs == [{}] && (t.coreAt 0).status == .running && (t.graphSt 2 0x10000).map (·.lver) == some 2) = true := by decide +kernel
theorem witness_LaunchAndLayoutSteps_aged : let r := { rdy 0 with since := 0 }
    let s := { sLau 0 with cycle := 65536, units := [(0, { ready := [(67, [r])] })] }
    (findD (findD s.units 0 {}).ready (readyKey 1 3) []).head? = some r ∧ 65536 ≤ s.cycle - r.since ∧ s.spots 0 r = [] ∧ s.preempting 0 = false ∧ (s.displaced 0 1 r).map (·.1) = [1] ∧ s.canSave grp = true ∧
    got (exec (.tenantAged 0 1 3) s) (fun t => (findD t.units 0 {}).aged == [67] && (gr t).preempt.isSome) = true := by decide +kernel
theorem witness_LaunchAndLayoutSteps_aged_fits : let r := { rdy 1 with since := 0 }
    let s := { sLau 1 with cycle := 65536, units := [(0, { ready := [(67, [r])] })] }
    s.spots 0 r ≠ [] ∧ got (exec (.tenantAged 0 1 3) s) (fun t => (findD t.units 0 {}).aged == [67] && t.groups == s.groups) = true := by decide +kernel
def linkW : Link := { lk 1 0 3 0 [] with written := some 0, passed := 5, stall := 6, starve := 7 }
def xWin1 : Group := { grpC with links := [linkW], winLen := 100, winAt := 900, winNext := 200 }
def sWin : State := { base with groups := [(1, xWin1)], contexts := [(2, { ctx2 with graphs := [(0x10000, { obj := objL, lver := 1, area := some 0 })] })] }
theorem witness_LaunchAndLayoutSteps_window : sWin.group? 1 = some xWin1 ∧ xWin1.status = .running ∧ xWin1.winLen ≤ sWin.cycle - xWin1.winAt ∧ (sWin.objOf xWin1).links.length = 1 ∧
    (sWin.tenant? 3).map (·.cfg.relayout) = some false ∧ got (exec (.windowEnd 1) sWin) (fun t => let y := gr t
      (y.wins, y.winAt, y.winLen, y.winPrev) == (1, 1000, 200, 100) && y.rates == [⟨5, 6, 7⟩] && y.links == [{ linkW with passed := 0, stall := 0, starve := 0 }] && y.splice == none) = true := by decide +kernel

/-! Splices of a VEC and of a keyed ACC -/

def spc (c : Change) (p : SPhase) : Splice := { change := c, phase := p, rank := 0, cell := 7, entry := 1 }
def sSpl (f : Group → Group) : State := (cell (sh 2 0 0 0) [] .vec [(0, [])] [0]).modGroup 1 f
abbrev splHyps (s : State) (p : Splice) : Prop := s.group? 1 = some (xOf s) ∧ (xOf s).splice = some p ∧ s.live (xOf s) = true
theorem witness_SpliceSteps_arm : let p := spc (.clone 0) .prepare
    let s := sSpl fun x => { x with splice := some p }
    splHyps s p ∧ (xOf s).preempt = none ∧ p.change.nodes.any (xOf s).holdsNode = false ∧ kindOf ((xOf s).zero 0).hdr ≠ kFNC ∧
    got (exec (.spliceArm 1) s) (fun t => (gr t).splice == some { p with phase := .armed, armed := 1000, marks := [(0, none)] }) = true := by decide +kernel
theorem witness_SpliceSteps_arm_held : let p := spc (.clone 0) .prepare
    let s := sSpl fun x => { x with splice := some p, pins := [0] }
    splHyps s p ∧ p.change.nodes.any (xOf s).holdsNode = true ∧ got (exec (.spliceArm 1) s) (fun t => (gr t).splice == none && (gr t).counts.cancel == 1) = true := by decide +kernel
/-- An FNC whose table lies at 0x1000. -/
def sSplF (p : Splice) : State := { (cell (sh 4 0 0 0) [ga 0x1000] (.fnc []) [] []).modGroup 1 fun x => { x with splice := some p } with mem := mem1 }
theorem witness_SpliceSteps_arm_table : let p := spc (.unfold 0) .prepare
    let s := sSplF p
    splHyps s p ∧ s.settingLater (xOf s) ((xOf s).zero 0) = false ∧ kindOf ((xOf s).zero 0).hdr = kFNC ∧ ((xOf s).zero 0).held = false ∧ (xOf s).copies ((xOf s).zero 0).node = [0] ∧
    (match s.loadZ 2 (BitVec.ofNat 64 (pw ((xOf s).zero 0).words 0)) 18 2048 with | .ok (bs, bad) u => bs.length == 2048 && bad == [] && (u.group? 1).map (·.splice) == some (some p) | _ => false) = true ∧
    got (exec (.spliceArm 1) s) (fun t => ((gr t).splice.map (·.phase)) == some .armed && (gr t).insts == (gr s).insts && (match (gr t).splice.bind (·.table) with | some f => f.length == 512 && f.headD 0 == 0x55667788 | _ => false)) = true := by decide +kernel
theorem witness_SpliceSteps_fold : let p := spc (.fold 0 1) .armed
    let s := sSpl fun x => { x with splice := some p }
    splHyps s p ∧ (xOf s).atPoint p = true ∧ (xOf s).copies 0 = [0] ∧ got (exec (.spliceCut 1) s) (fun t => let i := iOf t; (i.cell, i.entry, i.folded) == (7, 1, true)) = true := by decide +kernel
theorem witness_SpliceSteps_clone : let p := { spc (.clone 0) .armed with rtes := [(0, 52, 0), (0, 53, 0)] }
    let s := sSpl fun x => { x with splice := some p }
    splHyps s p ∧ (xOf s).atPoint p = true ∧ got (exec (.spliceCut 1) s) (fun t => (gr t).insts.take 2 == (gr s).insts &&
      (gr t).insts[2]?.map (fun i => (i.node, i.copy, i.role, i.cell, i.entry)) == some (0, 1, .node, 7, 1)) = true := by decide +kernel
/-- Two copies of a keyed ACC: key 1 hashes to the second. -/
def sKey (e : AccSet) : State := (cell (sh 1 0 1 0) [] (.acc [e, {}]) [] []).modGroup 1 fun x => { x with insts := x.insts ++ [{ node := 0, copy := 1, hdr := sh 1 0 1 0, st := .acc [{}] }], splice := some { spc (.clone 0) .move with switch := [(0, 1)] } }
theorem witness_SpliceSteps_key : let e : AccSet := { key := some 1, n := 3 }
    splHyps (sKey e) { spc (.clone 0) .move with switch := [(0, 1)] } ∧ (xOf (sKey e)).misplaced 0 = some (1, 0, 2) ∧
    got (exec (.keyStateMove 1) (sKey e)) (fun t => (gr t).insts.map (·.st) == [.acc [{}, {}], .tap, .acc [e]]) = true ∧
    (xOf (sKey {})).misplaced 0 = none ∧ got (exec (.keyStateMove 1) (sKey {})) (fun t => (gr t).splice == some { spc (.clone 0) .switch with switch := [(0, 1)] }) = true := by decide +kernel
theorem witness_SpliceSteps_switch : let p := { spc (.clone 0) .switch with switch := [(0, 1), (2, 3)] }
    let s := sSpl fun x => { x with splice := some p, links := [{ linkW with src := 9 }, { lk 0 0 1 0 [] with slots := 8 }] }
    splHyps s p ∧ p.switch.find? (fun q => q.1 == 0) = some (0, 1) ∧ (xOf s).links[0]? = some { linkW with src := 9 } ∧
    got (exec (.consumerSwitch 1 0) s) (fun t => (gr t).links == [{ linkW with src := 9 }.drop, { lk 0 0 1 0 [] with written := some 0, passed := 5, stall := 6, starve := 7 }] && (gr t).splice == some { p with switch := [(2, 3)] }) = true := by decide +kernel
theorem witness_SpliceSteps_cancel : let p := { spc (.clone 0) .armed with armed := 800 }
    let s := sSpl fun x => { x with splice := some p, winLen := 100 }
    let u := sSpl fun x => { x with splice := some (spc (.clone 0) .prepare), preempt := some ⟨false, 0, false, 0⟩ }
    splHyps s p ∧ 2 * (xOf s).winLen ≤ s.cycle - p.armed ∧ splHyps u (spc (.clone 0) .prepare) ∧ (xOf u).preempt.isSome = true ∧
    ([s, u].all fun s => got (exec (.spliceCancel 1) s) (fun t => (gr t).splice == none && (gr t).counts.cancel == 1)) = true := by decide +kernel

/-! ### Network, buckets, clocks, combining, parked data -/

/-- A store of 8 bytes from router 0 to the port at router 34, three columns and four rows on (R402). -/
def pkt : Flight := { fl (.store (ga 0x1100) (leBytes 8 1)) 0 with toRouter := 34 }
def hop1 : Hop := { die := 0, router := 1, ring := 1, link := 0 }
theorem witness_NetworkAndClockSteps_hop : let f := { pkt with entered := true, ring := 1, aged := true }
    let s := flying base f
    s.flight? 4 = some f ∧ f.waiting = true ∧ s.discards f.ctx = false ∧ f.nextHop = some hop1 ∧ (s.retrain.contains 0 = false ∧ s.isHead f = true ∧ s.agedFirst f hop1 = false ∧ s.inBuffer 0 1 1 + 1 ≤ 2) ∧
    got (exec (.networkPacketHop 4) s) (fun t => t.flights == [{ f with router := 1, since := 1000, aged := false }]) = true ∧
    got (exec (.networkPacketHop 4) { s with retrain := [0] }) (fun t => t.flights == [f]) = true ∧
    got (exec (.networkPacketHop 4) { s with contexts := [(2, { ctx2 with purging := true })] }) (fun t => t.flights == []) = true := by decide +kernel
theorem witness_NetworkAndClockSteps_enter : let s := { flying base pkt with buckets := [(3, { level := 3, since := 998 })] }
    pkt.entered = false ∧ pkt.nextHop = some hop1 ∧ s.isHead pkt = true ∧ s.inBuffer 0 1 1 + 2 ≤ 2 ∧ 0 ≤ s.bucketNow 0 3 ∧
    got (exec (.networkPacketHop 4) s) (fun t => t.flights == [{ pkt with router := 1, ring := 1, entered := true, since := 1000 }] && t.buckets == [(3, { level := -3, since := 1000 })]) = true := by decide +kernel
theorem witness_NetworkAndClockSteps_retry : let f := { pkt with entered := true }
    let d := { fl (.dec (ga 0x1100)) 0 with toRouter := 34, entered := true }
    f.nextHop = some hop1 ∧ d.nextHop = some hop1 ∧ f.dataBytes ≠ 0 ∧ d.dataBytes = 0 ∧
    got (exec (.linkRetryFail 4) (flying base f)) (fun t => t.retrain == [0] && t.flights == [{ f with applied := true }] && t.recs.map (fun r => (r.cause, r.b)) == [(0x50#8, ga 0x1100)]) = true ∧
    got (exec (.linkRetryFail 4) (flying base d)) (fun t => t.retrain == [0] && t.flights == [d] && t.recs == []) = true := by decide +kernel
theorem witness_NetworkAndClockSteps_dies : let f := { pkt with toDie := 5 }
    f.nextHop = some { die := 1, router := 0, ring := 5, link := 2 ^ 16 } ∧ f.die ≠ f.toDie := by decide +kernel
theorem test_aged_and_retrained : got (exec (.packetAged 4) (flying base { pkt with since := 488 })) (fun t => t.flights.map (·.aged) == [true]) = true ∧
    got (exec (.packetAged 4) (flying base { pkt with since := 489 })) (fun t => t.flights.map (·.aged) == [false]) = true ∧
    got (exec (.linkRetrained 3) { base with retrain := [3, 4] }) (fun t => t.retrain == [4]) = true := by decide +kernel
theorem witness_NetworkAndClockSteps_refill : let s := { base with buckets := [(3, { level := -5, since := 990 })] }
    (s.tenant? 3).isSome = true ∧ got (exec (.tokenBucketRefill 0 3) s) (fun t => t.buckets == [(3, { level := 5, since := 1000 })]) = true := by decide +kernel
theorem witness_NetworkAndClockSteps_governor : (∀ occ ∈ [32769, 32768, 8191], let s := { base with cycle := 1024, regions := [(5, { occ := occ, clock := 17 })] }
      1024 * 17 ≤ (s.cycle - (s.region 5).since) * (s.region 5).clock ∧
      got (exec (.clockGovernorStep 5) s) (fun t => t.regions == [(5, { clock := (if occ = 32769 then 18 else if occ = 32768 then 17 else 16), since := 1024 })]) = true) := by decide +kernel
def mrg (wide : Bool) (op : AmoOp) (v : Word) (since : Nat) : Merge := { addr := ga 0x1000, ctx := 2, tenant := 3, wide := wide, op := op, v := v, since := since }
def sMrg (m : Merge) : State := { base with cycle := 2000, mem := mem1, merges := [(32, [m])] }
theorem witness_NetworkAndClockSteps_forward : (∀ m ∈ [mrg true .add 0x10 976, mrg false .add 0xAA998878 900], ((sMrg m).merges.flatMap fun p => p.2.map fun m => (p.1, m))[0]? = some (32, m) ∧ 1024 ≤ (sMrg m).cycle - m.since) ∧
    ((sMrg (mrg true .add 0 0)).mem.wf ∧ (sMrg (mrg true .add 0 0)).banks.wf ∧ (sMrg (mrg true .add 0 0)).host.mem.wf) ∧
    done (({ sMrg (mrg true .add 0 0) with merges := [(32, [])] } : State).translate 2 (ga 0x1000) true (some 15)) (fun p t => p.1 == 0x1000 && !t.bad 0x1000) = true ∧
    got (exec (.reductionEntryForward 0) (sMrg (mrg true .add 0x10 976))) (fun t => t.merges == [(32, [])] && Memory.readN t.mem 0x1000 8 == wordBytes 0x1122334455667798) = true ∧
    got (exec (.reductionEntryForward 0) (sMrg (mrg false .add 0xAA998878 900))) (fun t => Memory.readN t.mem 0x1000 8 == wordBytes 0x1122334400000000) = true ∧
    got (exec (.reductionEntryForward 0) (sMrg (mrg true .add 0x10 977))) (fun t => t.mem == mem1) = true := by decide +kernel
/-- At the sending port 0: with no entry of the word at the ingress port, and with one. -/
theorem witness_NetworkAndClockSteps_ingress : let m := mrg true .add 5 976
    let s : State := { sMrg m with merges := [(0, [m])] }
    let u : State := { sMrg m with merges := [(0, [m]), (ingressOf 0, [mrg true .add 7 980])] }
    (s.merges.flatMap fun p => p.2.map fun m => (p.1, m))[0]? = some (0, m) ∧ (u.merges.flatMap fun p => p.2.map fun m => (p.1, m))[0]? = some (0, m) ∧
    got (exec (.reductionEntryForward 0) s) (fun t => findD t.merges (ingressOf 0) [] == [m] && t.mem == mem1) = true ∧
    got (exec (.reductionEntryForward 0) u) (fun t => findD t.merges (ingressOf 0) [] == [mrg true .add 12 976] && t.mem == mem1) = true := by decide +kernel
def stray : Stray := { elem := { spl (ga 0x1000) false (.buf 2 3) with kind := .cell }, data := [0x11, 0x22], geom := 0, graph := 0x20000, node := 6, tag := { seq := 9 } }
def sStr (g : Tbl Group) : State := { baseC with groups := g, strays := [stray] }
theorem witness_NetworkAndClockSteps_parked : let out := { grpC with status := .preempted }
    let run := { grpC with insts := [inst 0 (.tap), inst 1 (.mat {}), inst 2 (.agn { bufs := [{ id := 3, tag := {}, spilled := 1 }] })] }
    (sStr []).strays[0]? = some stray ∧ (sStr []).discards 2 = false ∧ (sStr []).graphSt 2 0x20000 = none ∧
    got (exec (.parkedToken 0) (sStr [(1, out)])) (fun t => t.strays == [] && (t.context? 2).map (·.parked) == some [{ stray with slot := 0 }] && t.groups == [(1, out)]) = true ∧
    got (exec (.parkedToken 0) (sStr [(1, run)])) (fun t => t.strays == [] && (gr t).insts.flatMap (fun i => i.agn.bufs.map (·.data)) == [0x221100]) = true ∧
    got (exec (.parkedToken 0) (sStr [])) (fun t => t.strays == [] && t.recs.map (fun r => (r.cause, r.a, r.b)) == [(0x31#8, 6#64, 9#64)]) = true ∧
    got (exec (.parkedToken 0) { sStr [] with contexts := [] }) (fun t => t.strays == [] && t.recs == []) = true := by decide +kernel

/-! ### Pre-emption, ends, purges -/

/-- Group 1 with cells and links, in a context with room to save it. -/
def sPre (x : Group) : State := { baseC with groups := [(1, x)], contexts := [(2, { ctxRoom with graphs := [(0x10000, { obj := objC, lver := 7, area := some 0 })] })] }
def pol : Preempt := { freeze := false, since := 900 }
def fz (frozen : Bool) : Preempt := { freeze := true, since := 1000, frozen := frozen }
theorem witness_PreemptionSteps_request : let s := sPre grpC
    s.group? 1 = some grpC ∧ grpC.status = .running ∧ grpC.preempt = none ∧ s.canSave grpC = true ∧ baseC.canSave grpC = false ∧
    got (exec (.preemptRequest 1 false) s) (fun t => (gr t) == { grpC with preempt := some { freeze := false, since := 1000, place := 0xA0000 } }) = true ∧
    got (exec (.preemptRequest 1 true) s) (fun t => (gr t).preempt == some { freeze := true, since := 1000, place := 0xA0000 }) = true ∧ got (exec (.preemptRequest 1 false) baseC) (fun t => t == baseC) = true := by decide +kernel
theorem witness_PreemptionSteps_limit : let x := { grpC with preempt := some pol }
    let s := sPre x
    s.group? 1 = some x ∧ (s.tenant? 3).map (·.cfg.freezeLimit) = some 100 ∧ 100 ≤ s.cycle - pol.since ∧
    got (exec (.freezeLimitExpire 1) s) (fun t => (gr t).preempt == some { pol with freeze := true }) = true ∧ got (exec (.freezeLimitExpire 1) { s with cycle := 999 }) (fun t => (gr t).preempt == some pol) = true := by decide +kernel
theorem witness_PreemptionSteps_freeze : let x := { grpC with preempt := some (fz false), splice := some (spc (.clone 0) .prepare) }
    let s := sPre x
    s.group? 1 = some x ∧ (s.tenant? 3).isSome = true ∧ s.live x = true ∧ got (exec (.freeze 1) s) (fun t => (gr t).preempt == some (fz true) && !t.live (gr t) && (gr t).splice == none && t.cores == s.cores) = true := by decide +kernel
/-- Core 0 at a blocking instruction, with a bank that holds 0x5A at byte 8. -/
def corP : CoreSt := ((withRegs core0 [(3, 0x77)]).setWin 4 winA)
def sCap : State := { sPre { grpC with preempt := some (fz true), block := blkC, level := 1 } with cores := [(0, corP)], banks := [(8 + bankAddr 0 (bank 1) 0, 0x5A)] }
theorem witness_PreemptionSteps_capture : let x := { grpC with preempt := some (fz true), block := blkC, level := 1 }
    sCap.group? 1 = some x ∧ x.status = .running ∧ sCap.canCapture 1 x (fz true) = true ∧ (sCap.tenant? 3).isSome = true ∧ (sCap.coreAt 0).captured = corP ∧
    sCap.bankImages 0 = [(4, [(8, 0x5A)], [])] ∧ sCap.portsLater (sCap.saveAddr x (fz true)) (saveBound x.k) (rankOf 2449 0) = false ∧ sCap.lates = [] := by decide +kernel
theorem witness_PreemptionSteps_polite : let x := { grpC with preempt := some pol, insts := [inst 0 (.tap)], links := [] }
    (sPre x).group? 1 = some x ∧ (sPre x).canCapture 1 x pol = true := by decide +kernel

/-- A save record in page 0, of its header alone: its length, the layout version, how it was asked for, the time, the CRC-32C of the launch block,
and the block (R421). -/
def hdrS : List Byte := leBytes 8 128 ++ leBytes 4 7 ++ leBytes 4 1 ++ leBytes 8 900 ++ leBytes 4 0x3759b306 ++ leBytes 36 0 ++ blkL 0
def savS : Saved := { cores := [corP], banks := [[(4, [(8, 0x5A)], [])]], jobs := [(2, jobC)], addr := ga 0x6000 }
def xSav : Group := { grpC with status := .preempted, block := blkL 0, level := 1, saved := some savS }
def rdyS : Ready := { addr := 0, block := blkL 0, ctx := 2, since := 1000, group := some 1 }
def sRes (bs : List Byte) : State := { sPre xSav with cores := [], units := [(0, { ready := [(67, [rdyS])] })], mem := Memory.writeN [] 0x6000 bs }
theorem witness_PreemptionSteps_resume : let s := sRes hdrS
    s.group? 1 = some xSav ∧ xSav.saved = some savS ∧ s.host.ready = true ∧ s.pickReady 0 = some (1, 3, rdyS) ∧ (0, 0) ∈ s.spots 0 rdyS ∧ fieldN hdrS 0 8 = 128 ∧ 128 ≤ saveBound 0 ∧
    done (s.loadN 2 savS.addr (some 15) 3 128) (fun bs t => bs == hdrS && t.groups == s.groups) = true ∧ recordOk hdrS = true ∧ savS.cores.length = savS.banks.length ∧
    (s.context? 2).map (·.parked) = some [] ∧
    got (exec (.resumeGroup 1 0 0) s) (fun t => (gr t).status == .running && (gr t).first == 0 && (gr t).saved == none && (t.coreAt 0).rd 3 == 0x77 && (t.coreAt 0).pc == 0x20 && (t.coreAt 0).tvEn &&
      (t.coreAt 0).group == some 1 && ((t.coreAt 0).win 4).state == .attached && ((t.coreAt 0).win 4).bank.map (fun b => Memory.read t.banks (bankAddr 0 b 0 + 8)) == some 0x5A &&
      findD t.engines 2 [] == [jobC]) = true := by decide +kernel
/-- One bit of the launch block in the record differs. -/
theorem witness_PreemptionSteps_changed : let bs := hdrS.take 127 ++ [1]
    let s := sRes bs
    s.pickReady 0 = some (1, 3, rdyS) ∧ (0, 0) ∈ s.spots 0 rdyS ∧ recordOk bs = false ∧ s.groups.Pairwise (fun a b => a.1 < b.1) ∧
    got (exec (.resumeGroup 1 0 0) s) (fun t => t.group? 1 == none && t.recs.any fun e => e.cause == 0x41 && e.a == 0x10000 && e.c == 10) = true := by decide +kernel
/-- A group whose only core has ended, with a token on a link, an element waiting at a fault and a posted request of another group. -/
def sEnd : State := { baseC with cores := [(0, { core0 with status := .exited })], groups := [(1, grpC), (2, { grp with first := 4 })], flights := [{ fl (.dec (ga 0x1100)) 0 with group := 2 }], spill := [spl (ga 0x1000) true (.buf 2 3)] }
theorem witness_EndAndPurgeSteps_end : sEnd.group? 1 = some grpC ∧ sEnd.mayEnd 1 grpC = true ∧ sEnd.groups.Pairwise (fun a b => a.1 < b.1) ∧
    got (exec (.groupEnd 1) sEnd) (fun t => t.group? 1 == none && t.flights == sEnd.flights && t.spill == [] && t.group? 2 == sEnd.group? 2 && (t.coreAt 0).status == .idle) = true := by decide +kernel
def sPur : State := { baseC with contexts := [(2, { ctx2 with purging := true, completion := [0x900] }), (4, ctx2)], flights := [fl (.dec (ga 0x1100)) 0], subs := [subC] }
theorem witness_EndAndPurgeSteps_purge : (baseC.mem.wf ∧ baseC.banks.wf ∧ baseC.host.mem.wf) ∧ baseC.context? 7 = none ∧ baseC.contexts.Pairwise (fun a b => a.1 < b.1) ∧ (baseC.context? 2).map (·.purging) = some false ∧
    got (exec (.contextPurge 7 0x908) baseC) (fun t => Memory.readN t.host.mem 0x908 8 == leBytes 8 1) = true ∧
    got (exec (.contextPurge 2 0x908) baseC) (fun t => (t.context? 2).map (fun c => (c.purging, c.completion)) == some (true, [0x908]) && t.groups == baseC.groups) = true ∧
    sPur.contexts.Pairwise (fun a b => a.1 < b.1) ∧ (sPur.context? 2).map (fun c => (c.purging, c.completion)) = some (true, [0x900]) ∧
    got (exec (.contextPurge 2 0x908) sPur) (fun t => t.context? 2 == none && (t.context? 4).isSome && t.groups == [] && t.flights == [] && t.subs == [] && t.tlb == [] && (t.coreAt 0).status == .idle &&
      Memory.readN t.host.mem 0x900 8 == leBytes 8 1 && Memory.readN t.host.mem 0x908 8 == leBytes 8 1) = true := by decide +kernel
theorem witness_EndAndPurgeSteps_tenant : let s := { base with contexts := [(2, ctx2), (4, { ctx2 with cfg := { ctxCfg with tenant := 5 } })] }
    let e := { base with contexts := [(4, { ctx2 with cfg := { ctxCfg with tenant := 5 } })] }
    (s.tenant? 3).isSome = true ∧ s.contexts.Pairwise (fun a b => a.1 < b.1) ∧ s.tenants.Pairwise (fun a b => a.1 < b.1) ∧ (∀ p ∈ e.contexts, p.2.cfg.tenant ≠ 3) ∧
    got (exec (.partitionReset 3) s) (fun t => t.tenants == s.tenants && t.contexts.map (fun c => (c.1, c.2.purging)) == [(2, true), (4, false)]) = true ∧
    got (exec (.tenantTeardown 3) s) (fun t => t.tenants.map (fun x => (x.1, x.2.down)) == [(3, true)] && t.contexts.map (fun c => (c.1, c.2.purging)) == [(2, true), (4, false)]) = true ∧
    got (exec (.tenantTeardown 3) e) (fun t => t.tenant? 3 == none) = true := by decide +kernel

/-! ### Host and power, reset, memory -/

theorem test_measurement : digestOf [0x61, 0x62, 0x63] = 0xcb00753f45a35e8bb5a03d699ac65007272c32ab0eded1631a8b605a43ff5bed8086072ba1e7cc2358baeca134c825a7#384 := by decide +kernel
theorem witness_HostAndPowerSteps_read : let s := { base with mem := mem1 }
    s.hostCtx? 3 = some 2 ∧ done (s.loadN 2 (barAddr 0x1002) (some 15) 3 4) (fun bs _ => bs == [0x66, 0x55, 0x44, 0x33]) = true ∧
    (match ({ s with badMem := [0x23] } : State).loadN 2 (barAddr 0x1180) (some 15) 3 8 with | .err e _ => !e.host | _ => false) = true ∧ got (exec (.hostBarRead 3 0x1002 4) s) (fun t => t.host.answer == [0x66, 0x55, 0x44, 0x33]) = true ∧
    got (exec (.hostBarRead 3 0x1180 8) { s with badMem := [0x23] }) (fun t => t.host.answer == List.replicate 8 0xFF && t.recs.length == 1 && t.mem == mem1) = true := by decide +kernel
theorem witness_HostAndPowerSteps_write : let s := { base with mem := mem1 }
    s.hostCtx? 3 = some 2 ∧ (barAddr 0x1006).toNat % 128 + 4 ≤ 128 ∧ (s.mem.wf ∧ s.banks.wf ∧ s.host.mem.wf) ∧ done (s.translate 2 (barAddr 0x1006) true (some 15)) (fun p t => p.1 == 0x1006 && !t.bad 0x1006) = true ∧
    got (exec (.hostBarWrite 3 0x1006 [1, 2, 3, 4]) s) (fun t => Memory.readN t.mem 0x1004 8 == [0x44, 0x33, 1, 2, 3, 4, 0, 0]) = true := by decide +kernel
def s2C : S2Req := { bytes := leBytes 2 2 ++ leBytes 2 3 ++ leBytes 4 1 ++ leBytes 8 0 ++ leBytes 8 0x900 ++ leBytes 8 0 }
def s2S (n : Nat) (l : List Spill) : State := { base with spill := l, host := { base.host with s2 := List.replicate n s2C } }
theorem witness_HostAndPowerSteps_s2inv : base.host.ready = true ∧ s2C.bytes.length = 32 ∧ (s2S 15 []).host.s2.length < 16 ∧ 16 ≤ (s2S 16 []).host.s2.length ∧
    got (exec (.s2inv s2C.bytes) (s2S 15 [])) (fun t => t.host == (s2S 16 []).host) = true ∧ got (exec (.s2inv s2C.bytes) (s2S 16 [])) (fun t => t.host.s2.length == 16 && t.host.s2drop == 1) = true ∧
    got (exec (.s2inv [1]) { base with host := { base.host with s2drop := 0xFFFF } }) (fun t => t.host.s2 == [] && t.host.s2drop == 0xFFFF) = true := by decide +kernel
theorem witness_HostAndPowerSteps_s2done : let x := { spl (ga 0x1000) true (.put 3 7) with stage2 := true, retry := false }
    let s := s2S 2 [x]
    s.host.s2[1]? = some s2C ∧ (s.mem.wf ∧ s.banks.wf ∧ s.host.mem.wf) ∧ s.heldAdds = [] ∧ s.s2Names s2C x.ctx = true ∧ s.s2Names { bytes := leBytes 2 2 ++ leBytes 30 4 } x.ctx = false ∧
    got (exec (.stage2InvComplete 1) s) (fun t => t.host.s2 == [s2C] && t.tlb == [] && t.spill.length == 1 && Memory.readN t.host.mem 0x900 8 == leBytes 8 1) = true := by decide +kernel
theorem witness_HostAndPowerSteps_report : base.host.ready = true ∧ (base.mem.wf ∧ base.banks.wf ∧ base.host.mem.wf) ∧ base.reportHead.take 8 = leBytes 4 1 ++ leBytes 4 0x31 := by decide +kernel
theorem witness_HostAndPowerSteps_registers : base.host.ready = true ∧ got (exec (.registerWrite 0x200 (leBytes 8 0xABC)) base) (fun t => t.host.hfq == 0xABC) = true ∧
    got (exec (.registerWrite 0x300 (leBytes 32 (2 ^ 255 + 7))) base) (fun t => t.host.nonce == BitVec.ofNat 256 (2 ^ 255 + 7)) = true ∧
    got (exec (.registerWrite 0x100 s2C.bytes) base) (fun t => t.host.s2 == [s2C]) = true ∧ got (exec (.registerWrite 0x328 (leBytes 8 1)) base) (fun t => t == base) = true := by decide +kernel
def stC (passed : Bool) : StartCfg := { pkg := 5, withheld := [3], recallMiB := List.replicate 16 64, stages := [(2, [0x61, 0x62, 0x63])], passed := passed }
def atPhase (n : BitVec 4) : State := { State.reset with host := { State.reset.host with phase := n } }
theorem witness_HostAndPowerSteps_start : State.reset.host.ready = false ∧ State.reset.host.fail = false ∧ recallOk (stC true).recallMiB = true ∧ (stC true).passed = true ∧ (stC false).passed = false ∧
    got (exec (.deviceStart (stC true)) State.reset) (fun t => !t.host.ready && t.host.phase == 1 && t.host.meas.toList.map (· == 0) == [true, true, true, true]) = true ∧
    got (exec (.deviceStart (stC true)) (atPhase 1)) (fun t => !t.host.ready && t.host.phase == 2 && t.host.meas.toList.map (· == 0) == [true, true, false, true]) = true ∧
    got (exec (.deviceStart (stC true)) (atPhase 2)) (fun t => t.host.ready && t.host.phase == 3 && t.host.pkg == 5 && t.host.withheld == [3]) = true ∧
    got (exec (.deviceStart (stC false)) (atPhase 2)) (fun t => !t.host.ready && t.host.fail && t.host.phase == 0xF) = true := by decide +kernel
def tenN : TenantCfg := { tenCfg with tenant := 9, recallAlloc := 4, freezeLimit := 100, bucketRate := 8, bucketDepth := 1024, faultSlots := 6, admission := some (ga 0x1800) }
theorem witness_HostAndPowerSteps_tenant : base.host.ready = true ∧ tenantOk tenN = true ∧ base.tenant? 9 = none ∧
    got (exec (.tenantCreate tenN) base) (fun t => t.keys == 2 && (t.tenant? 3) == (base.tenant? 3) && find t.buckets 969 == some { level := 1024, since := 1000 }) = true := by decide +kernel
def ctxN (ctx : Nat) : ContextCfg := { ctxCfg with ctx := ctx, tenant := 9 }
/-- Tenant 9 with its host context; a graph limit of 0 leaves no region to zero. -/
def sCtx (host : Nat) : State := { base with tenants := [(9, { cfg := { tenN with hostCtx := host, graphLimit := 0 }, key := 1 })] }
theorem witness_HostAndPowerSteps_context : (sCtx 6).host.ready = true ∧ (sCtx 6).contextOk (ctxN 5) = true ∧ ((sCtx 6).tenant? 9).map (·.cfg.hostCtx) = some 6 ∧
    got (exec (.contextCreate (ctxN 5)) (sCtx 6)) (fun t => (t.context? 5).map (·.cfg) == some (ctxN 5) && t.subs == [] && t.context? 2 == (sCtx 6).context? 2) = true := by decide +kernel
theorem witness_HostAndPowerSteps_admission : (sCtx 5).contextOk (ctxN 5) = true ∧ ((sCtx 5).tenant? 9).map (·.cfg.hostCtx) = some 5 ∧
    got (exec (.contextCreate (ctxN 5)) (sCtx 5)) (fun t => t.subs.map (fun u => (u.addr, u.ctx, u.tenant, u.mgmt)) == [(ga 0x1800, 5, 9, true)]) = true := by decide +kernel
theorem witness_HostAndPowerSteps_descriptor : let s := { base with groups := [(1, { grp with status := .preempted })] }
    (s.context? 2).isSome = true ∧ (∀ g ∈ s.groups, g.2.ctx = 2 → g.2.status ≠ .running ∧ g.2.status ≠ .placing) ∧
    got (exec (.translationDescriptorChange 2 0 ⟨1, 2, 3⟩) s) (fun t => (t.context? 2).map (fun c => c.cfg.descs.take 2) == some [⟨1, 2, 3⟩, ⟨0, 0, 0⟩] && t.tlb == []) = true ∧
    got (exec (.translationDescriptorChange 2 1 ⟨1, 2, 3⟩) s) (fun t => t.tlb == s.tlb) = true := by decide +kernel
theorem witness_HostAndPowerSteps_cap : (8 ≤ 10 ∧ 10 ≤ 12 ∧ 12 ≤ 28) ∧ got (exec (.powerCap true 10 12) base) (fun t => t.host.cap && !t.launches) = true := by decide +kernel
theorem witness_HostAndPowerSteps_trip : got (exec (.thermalTrip 15) { base with mem := mem1 }) (fun t => t.off && t.groups == [] && t.contexts == [] && t.tenants == [] && t.cycle == 1000) = true ∧
    ({ base with off := true } : State).off = true := by decide +kernel
theorem witness_MemoryFormIsKept : let s := { base with mem := mem1, agenda := [.core 0] }
    (s.mem.wf ∧ s.banks.wf ∧ s.host.mem.wf) ∧ step s = .next (after (step s)) := ⟨by decide +kernel, rfl⟩

/-! ### Boundary and refused forms -/

/-- A deque whose b word is the last of window 15 (bb + 8 is past the windows for `b0` = 0x1FFFF), of one entry. -/
def deqEnd (b0 : Nat) : State :=
  let s := { deq 4 4 with banks := Memory.writeN [] 0x1FFE8 (leBytes 8 4 ++ leBytes 8 5) }
  s.setCore { (s.core.setWin 2 {}).setWin 15 winA with dqbase := BitVec.ofNat 17 b0, dqlim := BitVec.ofNat 18 (b0 + 3) }
theorem witness_DequeResults_beyond : let s := deqEnd 0x1FFFF
    let e := deqEnd 0x1FFFE
    s.core.deque = some (0xFFFF8, 1) ∧ e.core.deque = some (0xFFFF0, 1) ∧ (s.core.win 15).state = .attached ∧ (s.core.win 15).w = true ∧ s.ownWinPending 0 15 = false ∧
    s.bankLater 0 0 3 15 (s.bankRank 0 15 0) = false ∧ (2 : Nat) ^ 20 ≤ 0xFFFF8 + 8 ∧ (2 : Nat) ^ 20 ≤ 0xFFFF0 + 16 ∧
    got (exec (.dpush G 3 1) s) (fun t => t.core.cause == 0x10 && t.core.trapaddr == 0x100000) = true ∧ got (exec (.dpop G 3 4) s) (fun t => t.core.cause == 0x10 && t.core.trapaddr == 0x100000) = true ∧
    got (exec (.dpush G 3 1) { e with banks := [] }) (fun t => t.core.cause == 0x10 && t.core.trapaddr == 0x100000) = true ∧
    got (exec (.dpop G 3 4) { e with banks := [(0x1FFF8, 1)] }) (fun t => t.core.cause == 0x10 && t.core.trapaddr == 0x100000) = true ∧
    got (exec (.dsteal G 3 2 4) s) (fun t => t.core.rd 4 == 2 && t.core.cause == 0) = true ∧ got (exec (.dsteal G 3 2 4) { e with banks := [(0x1FFF8, 1)] }) (fun t => t.core.rd 4 == 2) = true ∧
    got (exec (.dsteal G 3 2 4) ((deq 4 5).setCore { (deq 4 5).core.setWin 2 {} with pc := 0x20 })) (fun t => t.core.rd 4 == 2) = true := by decide +kernel
theorem witness_PostedInstructionsPostTheirRequest_tagged_full : let s := many (wins base 3 { winA with mode := .tagged, tags := [(0, 5)] })
    (s.core.win 3).mode = .tagged ∧ 32 ≤ (s.posted s.cur).length ∧ got (exec (.bzero G 3) s) (fun t => t == s) = true := by decide +kernel
/-- An exchange write to window 2 of core 0 in each state of the window (R201). -/
theorem witness_BankRequestsApply_exchange_forms : let f := fl (.xstore 0x8FFC001000000008 [9]) 0
    let at' (x : Win) : State := flying (wins base 2 x) f
    let lands (x : Win) (p : Nat) : Bool := got (exec (.bankAccess 4) (at' x)) fun t => t.banks == [(p, 9)] && t.recs == []
    let refused (x : Win) (c : BitVec 8) : Bool := got (exec (.bankAccess 4) (at' x)) fun t => t.banks == [] && t.recs.map (·.cause) == [c]
    let ex : Win := { winA with mode := .exchange, shadow := some (bank 3) }
    (at' ex).arrived f = true ∧ (at' ex).inOrder ((at' ex).placeOf f) ((at' ex).rankAt f) = true ∧ (at' ex).holdsTenant 0 3 = true ∧
    lands { ex with state := .draining } 0x30008 = true ∧ lands winA 0x10008 = true ∧ refused {} 0x10 = true ∧ refused { winA with state := .opened, bank := none } 0x10 = true ∧
    refused { winA with state := .draining } 0x10 = true ∧ refused { winA with mode := .tagged } 0x11 = true ∧ refused { ex with w := false } 0x11 = true := by decide +kernel
/-- Bits [34:16] that name no window (R157), at a core of the tenant and at another tenant's. -/
theorem witness_BankRequestsApply_exchange_nowhere : let f := fl (.xstore 0x8FFC000000010008 [9]) 0
    let s := flying base f
    let o := { base with cores := [(0, { core0 with group := none })] }
    xWin 0x8FFC000000010008 = none ∧ s.holdsTenant 0 3 = true ∧ o.holdsTenant 0 3 = false ∧ got (exec (.bankAccess 4) s) (fun t => t.recs.map (·.cause) == [0x10#8]) = true ∧
    got (exec (.bankAccess 4) (flying o f)) (fun t => t.recs.map (·.cause) == [0x11#8]) = true := by decide +kernel
theorem witness_WindowStatesAndGives_swap_waits : let s := flying (wins (wins (regs [(1, 5)]) 4 winA) 5 { winA with bank := some (bank 2) }) (fl (.wstore 5 0 [1]) 0)
    s.draining s.cur 4 s.nextId = false ∧ s.draining s.cur 5 s.nextId = true ∧ got (exec (.swapb G 3 1 4) s) (fun t => t.core.wait != .none && t.core.win 5 == s.core.win 5) = true := by decide +kernel
theorem witness_WindowStatesAndGives_open_late : let s := { base with served := [(winPlace 0 2, (1000, 5))] }
    s.core.holds G = true ∧ s.inOrder (winPlace s.cur 2) 0 = false ∧ got (exec (.openw G 3 true true 2) s) (fun t => t == s) = true := by decide +kernel
/-- A tenant whose bucket on die 0 is below zero. -/
def low (s : State) : State := { s with buckets := [(3, ⟨-1, 1000⟩)] }
theorem witness_ExitAndLaunch_limited : let s := low (regs [(1, ga 0x1000)])
    let u := { s with groups := [(1, { grp with admits := true })] }
    s.bucketLow 0 3 = true ∧ s.quiet = true ∧ u.limited (ga 0x1000) = true ∧ got (exec (.exitSuccessors G 1 2) s) (fun t => t.core.wait != .none && t.core.status == .running) = true ∧
    got (exec (.launch G 3 1) u) (fun t => t.core.wait != .none) = true := by decide +kernel
/-- A REDWIN open whose override names package 7, which is absent (R163). -/
def sAbs : State := baseC.setCore (baseC.core.setPort 2 { queue := [{ word := (encodeCmd (.redwinOpen cOpen)).getD 0, id := 4, addrOv := 0x1C000000000000 }] })
theorem witness_CommandHeads_absent : sAbs.atHead (.redwinOpen cOpen) cOpen .global true (dd sAbs cOpen (0x1C000000000000) 16) ∧ sAbs.isGlobal (0x1C000000000000) = false ∧
    got (exec (.redwinOpen cOpen) sAbs) (fun t => left t 2 && t.recs.map (fun r => (r.cause, r.b)) == [(0x20#8, 0x1C000000000000)] && t.tenants == sAbs.tenants) = true := by unfold State.atHead; decide +kernel
/-- The counter row of block 7, which RCFLUSH with flag bits 0 and 1 zeroes (R330). -/
def cRcz : StreamCmd := cp 2 0 3 0 0 7
def sRcz : State := {
  st .rcflush cRcz with
  mem := [(0x11C0, 9)], recalls := sRc.recalls
  contexts := [(2, { cfg := { ctxCfg with region := ga 0x1000 - 0x1C0000 }, graphs := [(0x10000, { obj := objC, lver := 1, area := some 0 })] })] }
theorem witness_LayoutAndCacheCommands_rcflush_counters : let s := sRcz
    s.atHead (.rcflush cRcz) cRcz .none false (dd s cRcz 0 0) ∧ cRcz.flags.getLsbD 1 = true ∧ s.rcRow 2 7 = ga 0x11C0 ∧ s.portsLater (s.rcRow 2 7) 8 (rankOf 2433 0) = false ∧
    got (exec (.rcflush cRcz) s) (fun t => left t 2 && t.mem == [] && t.heldAdds == [] && t.recalls.map (fun p => p.2.map fun a => a.entries.map (·.blk)) == [[[6], [8]]]) = true := by unfold State.atHead; decide +kernel
/-- A WAGWIN whose group's window is over and not yet turned waits for the turn (R335). -/
theorem witness_LayoutAndCacheCommands_wagwin_over : let s := { st .wagwin cWin with groups := [(1, { grpC with winLen := 100, winAt := 900 })] }
    s.windowOver ((s.group? 1).getD grp) = true ∧ got (exec (.wagwin cWin) s) (fun t => !left t 2 && (gr t).winNext == grpC.winNext) = true := by decide +kernel
/-- A TAPSET behind an arrival that completed its phase in this cycle (R254). -/
theorem witness_SectionAndQueueCommands_tapset_behind : let s := { st .tapset cTap with served := [(phasePlace 1 (phaseKey 1 .die (grpC.coreOf (inst 0 .tap))), (1000, 0))] }
    got (exec (.tapset cTap) s) (fun t => !left t 2 && (gr t).tapset == []) = true := by decide +kernel

theorem witness_SpliceSteps_arm_unread : let p := spc (.unfold 0) .prepare
    let s := (cell (sh 4 0 0 0) [0x1C000000000000] (.fnc []) [] []).modGroup 1 fun x => { x with splice := some p }
    (match s.loadZ 2 (BitVec.ofNat 64 (pw ((xOf s).zero 0).words 0)) 18 2048 with | .err e u => !e.host && (u.group? 1).map (fun (x : Group) => x.splice) == some (some p) | _ => false) = true ∧
    got (exec (.spliceArm 1) s) (fun t => (gr t).splice == none && (gr t).counts.cancel == 1 && (iOf t).dead) = true := by decide +kernel
/-- Eight packets stand in the buffer ahead; a packet that has not entered waits for its tenant's bucket. -/
theorem witness_NetworkAndClockSteps_blocked : let f := { pkt with entered := true, ring := 1 }
    let s := { base with flights := [f] ++ (List.range 8).map fun i => { pkt with id := 20 + i, router := 1, entered := true, ring := 1 } }
    8 ≤ s.inBuffer 0 1 1 ∧ s.isHead f = true ∧ got (exec (.networkPacketHop 4) s) (fun t => t == s) = true ∧
    got (exec (.networkPacketHop 4) { flying base pkt with buckets := [(3, ⟨-1, 1000⟩)] }) (fun t => t.flights == [{ pkt with since := 1000 }] && t.buckets == [(3, ⟨-1, 1000⟩)]) = true := by decide +kernel
theorem witness_HostAndPowerSteps_absent : let s := { base with contexts := [] }
    s.hostCtx? 3 = some 2 ∧ s.tenantOf 2 ≠ 3 ∧ got (exec (.hostBarRead 3 0x1002 4) s) (fun t => t.host.answer == List.replicate 4 0xFF && t.recs.map (fun r => (r.tenant, r.kind, r.b)) == [(3, .network, barAddr 0x1002)]) = true := by decide +kernel
theorem witness_HostAndPowerSteps_asked : let s : State := { base with host := { base.host with asked := some 0x900 } }
    got (exec (.repaddr 0x900) base) (fun t => t.host.asked == some 0x900 && t.host.mem == []) = true ∧ got (exec (.repaddr 0xA00) s) (fun t => t.host.asked == some 0x900) = true ∧
    got (s.turn .report) (fun t => t.host.asked == none && t.host.msix == [1]) = true := by decide +kernel
/-- Writes that overlap the S2INV register without holding all of it are counted (R443). -/
theorem witness_HostAndPowerSteps_overlap : ((0xF8#16).toNat < 0x120 ∧ 0x100 < (0xF8#16).toNat + 9 ∧ (0xF8#16).toNat + 9 < 0x120) ∧
    got (exec (.registerWrite 0xF8 (List.replicate 9 0)) base) (fun t => t.host.s2drop == 1 && t.host.s2 == []) = true ∧ got (exec (.registerWrite 0xF8 (List.replicate 8 0)) base) (fun t => t == base) = true ∧
    got (exec (.registerWrite 0x11F [0]) base) (fun t => t.host.s2drop == 1) = true := by decide +kernel
/-- A record behind one of a higher source at its queue or at a port that it writes, and a host record behind one (R98, R416). -/
theorem witness_EventFabricSteps_record_order : let p := homePort (ga 0x3020)
    let s := { sFq 1 with served := [(p, (1000, 2 ^ 30))] }
    let h := { sHq 1 with served := [(hostPlace, (1000, 2 ^ 30))] }
    p ∈ ((sFq 1).faultPorts 3).1 ∧ s.inOrder p ((sFq 1).faultPorts 3).2 = false ∧ h.inOrder hostPlace rcd.rank = false ∧
    got (exec (.faultRecordAppend 0) s) (fun t => t == s) = true ∧ got (exec (.hostFaultRecordAppend 0) h) (fun t => t == h) = true := by decide +kernel
/-- A queue header that stage 2 does not map: the creation is held and recorded at the host (R352). -/
theorem witness_QueuesAndCountersServed_create_held : let s := { base with tlb := [] }
    (match s.store 2 (ga 0x1000) (leBytes 64 0) (some 15) with | .err e _ => e.host | _ => false) = true ∧
    got (exec (.intakeQueueCreate icC) s) (fun t => t.host.creates == [icC] && t.hrecs.length == 1 && t.monitor? 3 1 == none) = true := by decide +kernel

/-- FIPS 197, appendix C.3: AES-256. -/
theorem test_aes256 : aesEncrypt (aesKeys (leBytes 32 0x1f1e1d1c1b1a191817161514131211100f0e0d0c0b0a09080706050403020100)) (leBytes 16 0xffeeddccbbaa99887766554433221100) =
    leBytes 16 0x8960494b9049fceabf456751cab7a28e := by decide +kernel
theorem test_aes256_back : aesDecrypt (aesKeys (leBytes 32 0x1f1e1d1c1b1a191817161514131211100f0e0d0c0b0a09080706050403020100)) (leBytes 16 0x8960494b9049fceabf456751cab7a28e) =
    leBytes 16 0xffeeddccbbaa99887766554433221100 := by decide +kernel

end Sys2Proof.Tests
end

section
/-! PROOFS. What the scalar decoder answers, opcode by opcode: the fields of an encoded word, and the one word that a form stands for (R136, R137, R141,
R144). -/

namespace Sys2Proof

/-! ### Fields of an encoded word (R136) -/

section
variable (op : BitVec 7) (d a b : Reg) (fn : BitVec 6) (g : Guard)

@[simp] theorem opcodeOf_fmtR : opcodeOf (fmtR op d a b fn g) = op := by
  unfold opcodeOf fmtR
  iterate 4 rw [BitVec.extractLsb'_append_eq_of_le (by decide)]
  exact BitVec.extractLsb'_append_eq_left

@[simp] theorem gdOf_fmtR : gdOf (fmtR op d a b fn g) = d := by
  unfold gdOf fmtR
  iterate 4 rw [BitVec.extractLsb'_append_eq_of_le (by decide)]
  exact BitVec.extractLsb'_append_eq_right

@[simp] theorem gaOf_fmtR : gaOf (fmtR op d a b fn g) = a := by
  unfold gaOf fmtR
  iterate 3 rw [BitVec.extractLsb'_append_eq_of_le (by decide)]
  exact BitVec.extractLsb'_append_eq_right

@[simp] theorem gbOf_fmtR : gbOf (fmtR op d a b fn g) = b := by
  unfold gbOf fmtR
  iterate 2 rw [BitVec.extractLsb'_append_eq_of_le (by decide)]
  exact BitVec.extractLsb'_append_eq_right

@[simp] theorem fnOf_fmtR : fnOf (fmtR op d a b fn g) = fn := by
  unfold fnOf fmtR
  rw [BitVec.extractLsb'_append_eq_of_le (by decide)]
  exact BitVec.extractLsb'_append_eq_right

@[simp] theorem guardBits_fmtR : guardBits (fmtR op d a b fn g) = guardCode g :=
  BitVec.extractLsb'_append_eq_right

@[simp] theorem opcodeOf_fmtI (imm : BitVec 11) : opcodeOf (fmtI op d a imm g) = op := by
  unfold opcodeOf fmtI
  iterate 3 rw [BitVec.extractLsb'_append_eq_of_le (by decide)]
  exact BitVec.extractLsb'_append_eq_left

@[simp] theorem opcodeOf_fmtL (imm : BitVec 16) : opcodeOf (fmtL op d imm g) = op := by
  unfold opcodeOf fmtL
  iterate 2 rw [BitVec.extractLsb'_append_eq_of_le (by decide)]
  exact BitVec.extractLsb'_append_eq_left

/-- The opcode of a word laid out as CMPI's. -/
theorem opcodeOf_cmpiWord (hi lo : BitVec 2) (p : PReg) (imm : BitVec 9) :
    opcodeOf (op ++ hi ++ p ++ a ++ lo ++ imm ++ guardCode g : BitVec 32) = op := by
  unfold opcodeOf
  iterate 5 rw [BitVec.extractLsb'_append_eq_of_le (by decide)]
  exact BitVec.extractLsb'_append_eq_left

/-- The opcode of a word laid out as ISSUE's and ISSUEX's. -/
theorem opcodeOf_issueWord (cmd : BitVec 8) (z : BitVec 2) (wt : BitVec 1) :
    opcodeOf (op ++ cmd ++ a ++ b ++ z ++ wt ++ guardCode g : BitVec 32) = op := by
  unfold opcodeOf
  iterate 5 rw [BitVec.extractLsb'_append_eq_of_le (by decide)]
  exact BitVec.extractLsb'_append_eq_left
end

/-! ### Guards -/

theorem guardCode_guardOf (w : Word32) : guardCode (guardOf w) = guardBits w := by
  have h : BitVec.ofBool (w.getLsbD 3) = w.extractLsb' 3 1 := by
    ext i hi; simp [← BitVec.getLsbD_eq_getElem, Nat.lt_one_iff.mp hi]
  exact (congrArg (· ++ _) h).trans (BitVec.extractLsb'_append_extractLsb'_eq_extractLsb' rfl)

theorem guardCode_injective : Function.Injective guardCode := by
  rintro ⟨n, p⟩ ⟨m, q⟩
  cases n <;> cases m <;> revert p q <;> decide

theorem guardCode_eq_reserved_iff (g : Guard) : guardCode g = 0xF ↔ ¬ g.ok = true := by
  obtain ⟨n, p⟩ := g
  cases n <;> revert p <;> decide

@[simp] theorem guardOf_fmtR (op : BitVec 7) (d a b : Reg) (fn : BitVec 6) (g : Guard) : guardOf (fmtR op d a b fn g) = g :=
  guardCode_injective ((guardCode_guardOf _).trans (guardBits_fmtR ..))

/-! ### A word and its fields -/

theorem fmtR_fields (w : Word32) : fmtR (opcodeOf w) (gdOf w) (gaOf w) (gbOf w) (fnOf w) (guardOf w) = w := by
  unfold fmtR opcodeOf gdOf gaOf gbOf fnOf
  rw [guardCode_guardOf, guardBits]
  iterate 5 rw [BitVec.extractLsb'_append_extractLsb'_eq_extractLsb' (by rfl)]
  exact BitVec.extractLsb'_eq_self

theorem eq_fmtR_iff (w : Word32) (op : BitVec 7) (d a b : Reg) (fn : BitVec 6) (g : Guard) :
    w = fmtR op d a b fn g ↔ opcodeOf w = op ∧ gdOf w = d ∧ gaOf w = a ∧ gbOf w = b ∧ fnOf w = fn ∧ guardOf w = g := by
  constructor
  · rintro rfl
    simp
  · rintro ⟨rfl, rfl, rfl, rfl, rfl, rfl⟩
    exact (fmtR_fields w).symm

/-! ### What the decoder answers (R141, R144) -/

/-- The opcode field of an instruction's word; none for a command or an event. -/
def Instr.opcode? (i : Instr) : Option Nat := (encodeWord i).map fun v => (opcodeOf v).toNat

/-- Whatever instruction a result of the decoder holds has opcode n; the lemmas follow the shapes of the decoder's arms. -/
def OnlyOpcode (n : Nat) (r : Except Reject Instr) : Prop := ∀ i, r = .ok i → i.opcode? = some n

@[simp] theorem onlyOpcode_error (n : Nat) (e : Reject) : OnlyOpcode n (.error e) := nofun

@[simp] theorem onlyOpcode_ok (n : Nat) (i : Instr) : OnlyOpcode n (.ok i) ↔ i.opcode? = some n := by
  simp [OnlyOpcode]

@[simp] theorem onlyOpcode_ite (n : Nat) (c : Prop) [Decidable c] (x y : Except Reject Instr) :
    OnlyOpcode n (if c then x else y) ↔ (c → OnlyOpcode n x) ∧ (¬ c → OnlyOpcode n y) := by
  split <;> simp [*]

@[simp] theorem onlyOpcode_elim {α : Type} (n : Nat) (o : Option α) (e : Reject) (f : α → Except Reject Instr) :
    OnlyOpcode n (o.elim (.error e) f) ↔ ∀ x, o = some x → OnlyOpcode n (f x) := by
  cases o <;> simp

/-- One case for each opcode. The sums of widths stay as they are (-Nat.reduceAdd), so that the layouts of CMPI and ISSUE are recognised. -/
theorem decodeBody_onlyOpcode (w : Word32) (g : Guard) : OnlyOpcode (opcodeOf w).toNat (decodeBody w g) := by
  unfold decodeBody
  generalize (opcodeOf w).toNat = n
  split <;> simp [-Nat.reduceAdd, Instr.opcode?, encodeWord, opcodeOf_cmpiWord, opcodeOf_issueWord]

/-- Checks 3 to 5 of R141, for an accepted word. -/
theorem decodeWord_eq_ok_iff (w : Word32) (i : Instr) :
    decodeWord w = .ok i ↔ assigned (opcodeOf w).toNat = true ∧ (guardOf w).ok = true ∧ decodeBody w (guardOf w) = .ok i := by
  have hg : guardBits w = 0xF ↔ ¬ (guardOf w).ok = true := guardCode_guardOf w ▸ guardCode_eq_reserved_iff _
  unfold decodeWord
  split
  · next ha => simp_all
  · next ha =>
    split
    · next hb => simp_all
    · next hb => simp_all

/-- An instruction of format R decodes from its own word alone, where the arm of its opcode answers it exactly for its fields. -/
theorem decodeWord_eq_ok_iff_fmtR {i : Instr} {op : BitVec 7} {d a b : Reg} {fn : BitVec 6} {g : Guard}
    (henc : encodeWord i = some (fmtR op d a b fn g)) (hop : assigned op.toNat = true)
    (harm : ∀ w, opcodeOf w = op → (decodeBody w (guardOf w) = .ok i ↔
      gdOf w = d ∧ gaOf w = a ∧ gbOf w = b ∧ fnOf w = fn ∧ guardOf w = g)) (w : Word32) :
    decodeWord w = .ok i ↔ g.ok = true ∧ w = fmtR op d a b fn g := by
  rw [decodeWord_eq_ok_iff, eq_fmtR_iff]
  constructor
  · rintro ⟨-, hg, hbody⟩
    have hw : opcodeOf w = op := by
      have hcode : i.opcode? = some (opcodeOf w).toNat := decodeBody_onlyOpcode w _ i hbody
      simp only [Instr.opcode?, henc, Option.map_some, opcodeOf_fmtR, Option.some.injEq] at hcode
      exact BitVec.eq_of_toNat_eq hcode.symm
    obtain ⟨hd, ha, hb, hfn, rfl⟩ := (harm w hw).mp hbody
    exact ⟨hg, hw, hd, ha, hb, hfn, rfl⟩
  · rintro ⟨hg, hw, hd, ha, hb, hfn, rfl⟩
    exact ⟨hw ▸ hop, hg, (harm w hw).mpr ⟨hd, ha, hb, hfn, rfl⟩⟩

theorem ite_ok_error_eq_ok_iff {ε α : Type} {c : Prop} [Decidable c] {i j : α} {e : ε} :
    (if c then Except.ok i else .error e) = .ok j ↔ c ∧ i = j := by
  split <;> simp [*]

theorem decodeWord_xaddr_iff (w : Word32) (g : Guard) (d a b : Reg) :
    decodeWord w = .ok (.xaddr g d a b) ↔ g.ok = true ∧ w = fmtR 0x2D d a b 0 g := by
  refine decodeWord_eq_ok_iff_fmtR rfl rfl (fun w hw => ?_) w
  simp [decodeBody, hw, ite_ok_error_eq_ok_iff, and_assoc, and_comm, and_left_comm]

theorem decodeWord_gaddr_iff (w : Word32) (g : Guard) (d a b : Reg) :
    decodeWord w = .ok (.gaddr g d a b) ↔ g.ok = true ∧ w = fmtR 0x2E d a b 0 g := by
  refine decodeWord_eq_ok_iff_fmtR rfl rfl (fun w hw => ?_) w
  simp [decodeBody, hw, ite_ok_error_eq_ok_iff, and_assoc, and_comm, and_left_comm]

theorem decodeWord_nop_iff (w : Word32) (g : Guard) :
    decodeWord w = .ok (.nop g) ↔ g.ok = true ∧ w = fmtR 0x37 0 0 0 0 g := by
  refine decodeWord_eq_ok_iff_fmtR rfl rfl (fun w hw => ?_) w
  simp [decodeBody, hw, ite_ok_error_eq_ok_iff, and_assoc]

theorem decodeWord_eret_iff (w : Word32) (g : Guard) :
    decodeWord w = .ok (.eret g) ↔ g.ok = true ∧ w = fmtR 0x7A 0 0 0 0 g := by
  refine decodeWord_eq_ok_iff_fmtR rfl rfl (fun w hw => ?_) w
  simp [decodeBody, hw, ite_ok_error_eq_ok_iff, and_assoc]

end Sys2Proof
end

section
/-! PROOFS. Scalar core: address values, NOP, traps and the return from a trap (R182, R186, R188 to R191). -/

namespace Sys2Proof.Machine

/-! ### Guarded execution (R23) -/

theorem guarded_of_holds {g : Guard} {s : State} (f : CoreSt → State) (h : s.core.holds g = true) :
    guarded g s f = .next (f s.core) := if_pos h

theorem writes_of_holds {g : Guard} {s : State} (d : Reg) (f : CoreSt → Word) (h : s.core.holds g = true) :
    writes g d s f = .next (s.result d (f s.core)) :=
  guarded_of_holds (fun c => s.setCore (c.wr d (f c)).adv) h

theorem exec_xaddr_of_holds {g : Guard} {s : State} (d a b : Reg) (h : s.core.holds g = true) :
    exec (.xaddr g d a b) s = .next (s.result d (xaddrVal (s.core.rd a) (s.core.rd b))) :=
  writes_of_holds d (fun c => xaddrVal (c.rd a) (c.rd b)) h

theorem exec_gaddr_of_holds {g : Guard} {s : State} (d a b : Reg) (h : s.core.holds g = true) :
    exec (.gaddr g d a b) s = .next (s.result d (gaddrVal (s.core.rd a) (s.core.rd b))) :=
  writes_of_holds d (fun c => gaddrVal (c.rd a) (c.rd b)) h

theorem exec_nop (g : Guard) (s : State) : exec (.nop g) s = .next (s.setCore s.core.adv) := by
  change guarded g s (fun c => s.setCore c.adv) = _
  exact ite_self _

/-! ### Address values (R182) -/

theorem bits_toNat (x : Word) (hi lo : Nat) : bits x.toNat hi lo = (x.extractLsb' lo (hi + 1 - lo)).toNat := by
  rw [BitVec.extractLsb'_toNat, bits, Nat.shiftRight_eq_div_pow]

theorem toNat_append_eq_add {n m : Nat} (x : BitVec n) (y : BitVec m) : (x ++ y).toNat = x.toNat * 2 ^ m + y.toNat := by
  rw [BitVec.toNat_append, ← Nat.shiftLeft_add_eq_or_of_lt y.isLt, Nat.shiftLeft_eq]

theorem xaddrVal_eq_append (x y : Word) : xaddrVal x y =
    0x8#4 ++ x.extractLsb' 16 10 ++ x.extractLsb' 7 4 ++ x.extractLsb' 0 7 ++ y.extractLsb' 16 4 ++ 0#19 ++ y.extractLsb' 0 16 := by
  apply BitVec.eq_of_toNat_eq
  simp only [toNat_append_eq_add]
  simp only [xaddrVal, bits_toNat, BitVec.toNat_ofNat, Nat.reduceAdd, Nat.reduceSub]
  omega

theorem gaddrVal_eq_append (x y : Word) : gaddrVal x y =
    0#4 ++ x.extractLsb' 16 10 ++ x.extractLsb' 7 4 ++ y.extractLsb' 0 46 := by
  apply BitVec.eq_of_toNat_eq
  simp only [toNat_append_eq_add]
  simp only [gaddrVal, bits_toNat, BitVec.toNat_ofNat, Nat.reduceAdd, Nat.reduceSub]
  omega

/-! ### Traps (R189 to R191) -/

theorem State.sameBytes_setCore (s : State) (c : CoreSt) : s.sameBytes (s.setCore c) :=
  ⟨fun _ _ => State.memByte_congr (fun _ _ => rfl) rfl, fun _ => rfl, fun _ => rfl⟩

theorem shiftLeft_two_setWidth {n : Nat} (a : BitVec n) : (a.setWidth 64) <<< 2 = BitVec.ofNat 64 (4 * a.toNat) := by
  apply BitVec.eq_of_toNat_eq
  simp [Nat.shiftLeft_eq, Nat.mul_comm]

theorem State.trap_of_outside_handler {s : State} (cause : BitVec 8) (code : BitVec 16) (addr : Word) (cc : BitVec 32)
    (hin : s.core.intrap = false) (hen : s.core.tvEn = true) :
    s.trap cause code addr cc = s.setCore { s.core with
      epc := s.core.pc, code := code, cause := cause, trapaddr := addr, intrap := true,
      pc := BitVec.ofNat 64 (4 * s.core.tvAddr.toNat), wait := .none } := by
  simp [State.trap, hin, hen, shiftLeft_two_setWidth]

theorem exec_trap_of_holds {g : Guard} {s : State} (code : BitVec 16) (h : s.core.holds g = true) :
    exec (.trap g code) s = .next (s.trap 0x03 code 0 (code.setWidth 32)) :=
  guarded_of_holds (fun _ => s.trap 0x03 code 0 (code.setWidth 32)) h

theorem exec_eret_of_holds {g : Guard} {s : State} (h : s.core.holds g = true) :
    exec (.eret g) s = .next (if s.core.intrap then s.setCore s.core.eret else s.illegal (wordOf (.eret g))) :=
  guarded_of_holds (fun c => if c.intrap then s.setCore c.eret else s.illegal (wordOf (.eret g))) h

end Sys2Proof.Machine

open Sys2Proof Sys2Proof.Machine

/-- Settles O10: each value is its fields appended, compared as numbers; the words by the decoder's answer for the opcode. -/
theorem addressResults : Obligations.AddressResults := by
  unfold Obligations.AddressResults
  refine ⟨fun g d a b s h => ?_, fun w g d a b => ⟨decodeWord_xaddr_iff w g d a b, decodeWord_gaddr_iff w g d a b⟩⟩
  exact ⟨xaddrVal_eq_append _ _ ▸ exec_xaddr_of_holds d a b h, gaddrVal_eq_append _ _ ▸ exec_gaddr_of_holds d a b h⟩

/-- Settles O12: both branches of the guard only advance the pc; the words by the decoder's answer for the opcode. -/
theorem nopHasNoEffect : Obligations.NopHasNoEffect := by
  unfold Obligations.NopHasNoEffect
  refine ⟨exec_nop, decodeWord_nop_iff, fun w => ?_⟩
  have hword : fmtR 0x37 0 0 0 0 .always = 0x6E000007#32 := by decide
  rw [decodeWord_nop_iff, hword]
  exact and_iff_right rfl

/-- Settles O14: with the handler free, a trap is one write of the trapping core, which touches no byte. -/
theorem trapEntry : Obligations.TrapEntry := by
  unfold Obligations.TrapEntry
  refine ⟨fun s cause code addr c hin hen => ?_, fun g code s h => exec_trap_of_holds code h, fun s a => ⟨rfl, rfl⟩⟩
  rw [State.trap_of_outside_handler cause code addr c hin hen]
  exact ⟨rfl, s.sameBytes_setCore _⟩

/-- Settles O16: ERET's two cases by INTRAP; the words by the decoder's answer for the opcode. -/
theorem returnFromTrap : Obligations.ReturnFromTrap := by
  unfold Obligations.ReturnFromTrap
  refine ⟨fun g s h => ⟨fun hin => ?_, fun hin => ?_⟩, decodeWord_eret_iff⟩
  · rw [exec_eret_of_holds h, hin]
    rfl
  · rw [exec_eret_of_holds h, hin]
    rfl
end
